-- ==== Sys2Proof/Word.lean ====
section
/-! DEFINITION. The words of the LX32: bytes of the register window and 16-bit values. -/

namespace Sys2Proof

/-- One byte of a port window (11 R175). -/
abbrev Byte := BitVec 8

/-- A 16-bit value: milliseconds, pulse units, the millisecond count (0.9). -/
abbrev Word16 := BitVec 16

end Sys2Proof
end

