-- ==== Sys2Proof/Config.lean ====
section
/-! DEFINITION. The free values of the model: constants nothing can evaluate. -/

namespace Sys2Proof.Config

/-- What the bits of a register byte read as to which the manual assigns nothing (R179, R180, R183),
at the n-th such byte served.  A free value (log 10). -/
opaque openBits : Nat → Byte

end Sys2Proof.Config
end

