-- ==== Sys2Proof/Syntax.lean ====
section
/-! DEFINITION. The commands of the LX32: one constructor for each row of spec/opcode_table.json. -/

namespace Sys2Proof

/-- The four clients, each the host on the port of the same letter (0.4). -/
inductive Client where
  | a | b | c | d
deriving DecidableEq, Repr

/-- Lines L0 to L31 (0.6). -/
abbrev Line := Fin 32

/-- Groups G0 to G7 (0.6). -/
abbrev Group := Fin 8

/-- The page a request is written through (11 R178): the client page of a port, or the supervisor
page, which Port A alone presents. -/
inductive Page where
  | client (port : Client)
  | supervisor
deriving DecidableEq, Repr

/-- The seven bytes of a line record in request parameters (R182). -/
structure RecordBytes where
  function : Byte
  shape    : Byte
  filter   : Byte
  widthHi  : Byte
  widthLo  : Byte
  source   : Byte
  sense    : Byte
deriving DecidableEq, Repr

/-- A read frame (R175, R176), whole or one piece of it. -/
inductive ReadOp where
  /-- CS falls, 0x40, the start address, `count` data bytes read to their last bit, CS rises. -/
  | frame (start : Byte) (count : Nat)
  /-- CS falls (`spaced`: at least 1 µs after it last rose), 0x40, the start address. -/
  | begin (spaced : Bool) (start : Byte)
  /-- The next data byte is shifted out whole. -/
  | next
  /-- CS rises, after the last byte or inside a further one. -/
  | finish
deriving DecidableEq, Repr

/-- A write frame (R175, R177), whole or one piece of it. -/
inductive WriteOp where
  /-- CS falls, 0x80, the start address, these data bytes, CS rises after the last of them. -/
  | frame (start : Byte) (data : List Byte)
  /-- CS falls and rises again before the address byte is complete: after no whole byte, or after the
  access byte. -/
  | runt (bytes : Fin 2)
  /-- CS falls (`spaced`: at least 1 µs after it last rose), the access byte, the start address. -/
  | begin (spaced : Bool) (access start : Byte)
  /-- The next data byte is shifted in whole. -/
  | next (data : Byte)
  /-- CS rises: after a whole byte, or inside a further one. -/
  | finish (whole : Bool)
deriving DecidableEq, Repr

/-- The commands.  A request carries its port (or page) and its parameters as R181 lays them out. -/
inductive Instr where
  /-- CLAIM (R24): P0 group; P1 bit 0 WAIT, bit 1 PREEMPT, bit 2 RESTORE. -/
  | claim (port : Client) (group flags : Byte)
  /-- RELEASE (R29). -/
  | release (port : Client) (group : Byte)
  /-- RENEW (R31). -/
  | renew (port : Client) (group : Byte)
  /-- WITHDRAW (R50). -/
  | withdraw (port : Client) (group : Byte)
  /-- STAGE (R72). -/
  | stage (port : Client) (line : Byte) (record : RecordBytes)
  /-- STAGE_COPY (R73). -/
  | stageCopy (port : Client) (group : Byte)
  /-- COMMIT (R75): bit g of the set names Gg. -/
  | commit (port : Client) (set : Byte)
  /-- EXCHANGE (R81). -/
  | exchange (port : Client) (group : Byte)
  /-- WATCH (R129). -/
  | watch (port : Client) (group edges : Byte)
  /-- UNWATCH (R130). -/
  | unwatch (port : Client) (group : Byte)
  /-- DEFER (R136): P1 trigger kind, P2 line, P3 target, P4-P5 timeout, P6-P7 delay. -/
  | defer (port : Client) (set kind line target : Byte) (timeout delay : Word16)
  /-- CANCEL_PENDING (R139). -/
  | cancelPending (port : Client)
  /-- DETACH_SELF (R171). -/
  | detachSelf (port : Client)
  /-- FORCE_RELEASE (R40). -/
  | forceRelease (page : Page) (group : Byte)
  /-- WITHHOLD (R41). -/
  | withhold (page : Page) (group : Byte)
  /-- OPEN (R42). -/
  | openGroup (page : Page) (group : Byte)
  /-- SET_PRIORITY (R165). -/
  | setPriority (page : Page) (group client priority : Byte)
  /-- SET_POLICY (R166). -/
  | setPolicy (page : Page) (group preemptible : Byte) (lease grace : Word16)
  /-- SET_SAFE (R167). -/
  | setSafe (page : Page) (line : Byte) (record : RecordBytes)
  /-- SET_PAIR (R100). -/
  | setPair (page : Page) (index lineA lineB : Byte)
  /-- CLEAR_PAIR (R102). -/
  | clearPair (page : Page) (index : Byte)
  /-- SET_AUDIT (R168). -/
  | setAudit (page : Page) (selection : Byte)
  /-- DETACH (R171). -/
  | detach (page : Page) (client : Byte)
  /-- UNKNOWN (R156, R178): a request whose kind no rule knows on its page. -/
  | unknown (page : Page) (kind : Byte)
  /-- EVENT_POP (R155): a read frame; it pops where it completes the read of EVT5. -/
  | eventPop (port : Client) (op : ReadOp)
  /-- IRQ_SEL_WRITE (R158): the write frame of one byte at IRQ_SEL. -/
  | irqSelWrite (port : Client) (value : Byte)
  /-- REGISTER_WRITE (R177): a write frame. -/
  | registerWrite (port : Client) (op : WriteOp)
  /-- CLIENT_RESET (R172): CRSTx falls and stands low for 1 µs (`full`), or rises sooner. -/
  | clientReset (client : Client) (full : Bool)
  /-- CRST_RISE (R170). -/
  | crstRise (client : Client)
  /-- DEVICE_RESET (R173): RESETn falls and stands low for 1 µs (`full`), or rises sooner. -/
  | deviceReset (full : Bool)
  /-- DEVICE_RESET_RELEASE (R18, R122): RESETn rises; bit n of `pads` is 1 where Ln is found HIGH. -/
  | deviceResetRelease (pads : BitVec 32)
  /-- TIMEBASE_TICK (R174). -/
  | timebaseTick
  /-- LEASE_EXPIRY (R33). -/
  | leaseExpiry (group : Group)
  /-- GRACE_EXPIRY (R58). -/
  | graceExpiry (group : Group)
  /-- PULSE_END (R110). -/
  | pulseEnd (line : Line)
  /-- DELAY_EXPIRY (R141). -/
  | delayExpiry (client : Client)
  /-- TIMEOUT_EXPIRY (R144). -/
  | timeoutExpiry (client : Client)
  /-- SAMPLE (R123): the levels found, and the order in which the acceptances of this instant are
  taken (R125 leaves it open): the lines listed first, then the others in ascending order. -/
  | sample (pads : BitVec 32) (order : List Line)
deriving DecidableEq, Repr

end Sys2Proof
end

