-- ==== Sys2Proof/Machine/Tables.lean ====
section
/-! DEFINITION. Tables of a fixed number of like things, and one thing for each client; the numbering of
lines and groups (0.6). -/

namespace Sys2Proof.Machine

/-- `n` cells of `α`, as plain data. -/
structure Table (n : Nat) (α : Type) where
  cells : List α
  size  : cells.length = n
deriving DecidableEq, Repr

/-- The cell at `i`. -/
def Table.get {n : Nat} {α : Type} (t : Table n α) (i : Fin n) : α :=
  t.cells[i.val]'(by rw [t.size]; exact i.isLt)

/-- The table with the cell at `i` replaced. -/
def Table.put {n : Nat} {α : Type} (t : Table n α) (i : Fin n) (x : α) : Table n α :=
  ⟨t.cells.set i x, by simp [t.size]⟩

/-- The table with the cell at `i` changed by `f`. -/
def Table.modify {n : Nat} {α : Type} (t : Table n α) (i : Fin n) (f : α → α) : Table n α :=
  t.put i (f (t.get i))

/-- The table whose cell at `i` is `f i`. -/
def Table.tabulate {n : Nat} {α : Type} (f : Fin n → α) : Table n α :=
  ⟨List.ofFn f, by simp⟩

/-- The table with every cell `x`. -/
def Table.fill {n : Nat} {α : Type} (x : α) : Table n α :=
  ⟨List.replicate n x, by simp⟩

/-- One thing for each of the four clients. -/
structure PerClient (α : Type) where
  a : α
  b : α
  c : α
  d : α
deriving DecidableEq, Repr

/-- Client `x`'s. -/
def PerClient.get {α : Type} (t : PerClient α) : Client → α
  | .a => t.a
  | .b => t.b
  | .c => t.c
  | .d => t.d

/-- The four with client `x`'s replaced. -/
def PerClient.put {α : Type} (t : PerClient α) (x : Client) (v : α) : PerClient α :=
  match x with
  | .a => { t with a := v }
  | .b => { t with b := v }
  | .c => { t with c := v }
  | .d => { t with d := v }

/-- The four with client `x`'s changed by `f`. -/
def PerClient.modify {α : Type} (t : PerClient α) (x : Client) (f : α → α) : PerClient α :=
  t.put x (f (t.get x))

/-- The same for each client. -/
def PerClient.fill {α : Type} (v : α) : PerClient α := ⟨v, v, v, v⟩

/-- Each client's, given by `f`. -/
def PerClient.tabulate {α : Type} (f : Client → α) : PerClient α := ⟨f .a, f .b, f .c, f .d⟩

/-- The clients in ascending client number (0.4). -/
def clients : List Client := [.a, .b, .c, .d]

/-- The groups in ascending order (0.6). -/
def groups : List Group := [0, 1, 2, 3, 4, 5, 6, 7]

/-- The lines in ascending line number (0.6). -/
def lines : List Line :=
  [0, 1, 2, 3, 4, 5, 6, 7, 8, 9, 10, 11, 12, 13, 14, 15] ++
  [16, 17, 18, 19, 20, 21, 22, 23, 24, 25, 26, 27, 28, 29, 30, 31]

/-- The group of a line (R1). -/
def groupOf (l : Line) : Group := ⟨l.val / 4, by omega⟩

/-- The position of a line in its group (R1). -/
def positionOf (l : Line) : Fin 4 := ⟨l.val % 4, by omega⟩

/-- The line of a group at a position (0.6). -/
def lineOf (g : Group) (p : Fin 4) : Line := ⟨4 * g.val + p.val, by omega⟩

/-- The four lines of a group, in position order (0.6). -/
def linesOf (g : Group) : List Line := [lineOf g 0, lineOf g 1, lineOf g 2, lineOf g 3]

/-- The client number read from the window (0.4). -/
def clientNumber : Client → Nat
  | .a => 0
  | .b => 1
  | .c => 2
  | .d => 3

end Sys2Proof.Machine
end

