-- ==== Sys2Proof/Machine/State.lean ====
section
/-! DEFINITION. The state of the LX32 as plain data, its reset values, and the reasons a step can stop. -/

namespace Sys2Proof.Machine

/-! ### The line record (0.7, R3) -/

/-- HIGH or LOW: a pad level, a filtered level (0.7, R122). -/
inductive Level where
  | low | high
deriving DecidableEq, Repr

/-- Polarity of a record (0.8). -/
inductive Polarity where
  | normal | inverted
deriving DecidableEq, Repr

/-- Drive of a record (0.8). -/
inductive Drive where
  | pushPull | openDrain
deriving DecidableEq, Repr

/-- Report edges of a record and watch edges of a watch entry (R4, R128). -/
inductive Edges where
  | none | rising | falling | both
deriving DecidableEq, Repr

/-- Mirror sense (0.7, R13). -/
inductive Sense where
  | same | opposite
deriving DecidableEq, Repr

/-- The function of a record with the optional parts that belong to it (0.7): exactly those (R3). -/
inductive LineFunction where
  | input
  | static (asserted : Bool)
  | pulse (width : Word16)
  | mirror (source : Line) (sense : Sense)
deriving DecidableEq, Repr

/-- A line record (0.7).  Equality is the manual's (R5). -/
structure Record where
  function : LineFunction
  polarity : Polarity
  drive    : Drive
  filter   : Fin 16
  edges    : Edges
deriving DecidableEq, Repr

/-- INPUT, NORMAL, PUSH_PULL, filter 3, edges NONE: the device-reset value of every record (R18, R19). -/
def Record.reset : Record :=
  { function := .input, polarity := .normal, drive := .pushPull, filter := 3, edges := .none }

/-- The four records of a group, in position order (0.5). -/
abbrev GroupConfig := Table 4 Record

/-! ### The lease table (R20, R46) and the policy table (R164) -/

/-- The lease state of a group (R21). -/
inductive GroupState where
  | safe | held | revoking | withheld
deriving DecidableEq, Repr

/-- A priority, 0 to 7 (0.5). -/
abbrev Priority := Fin 8

/-- Lease remaining (R20): stopped, no expiry, or milliseconds. -/
inductive LeaseTimer where
  | stopped
  | noExpiry
  | running (left : Word16)
deriving DecidableEq, Repr

/-- A waiting claim (R46). -/
structure Claim where
  client   : Client
  priority : Priority
  preempt  : Bool
  restore  : Bool
  arrival  : Nat
deriving DecidableEq, Repr

/-- A lease entry (R20).  `arrivals` is the model's own: the arrival order of the next claim (log 13). -/
structure LeaseEntry where
  state    : GroupState
  holder   : Option Client
  priority : Option Priority
  timer    : LeaseTimer
  grace    : Option Word16
  waiting  : List Claim
  arrivals : Nat
deriving DecidableEq, Repr

/-- A policy record (R164). -/
structure Policy where
  priority    : PerClient Priority
  preemptible : Bool
  leasePeriod : Word16
  gracePeriod : Word16
  safe        : GroupConfig
deriving DecidableEq, Repr

/-- The audit selection (R161). -/
structure Audit where
  losses    : Bool
  conflicts : Bool
  detaches  : Bool
deriving DecidableEq, Repr

/-! ### The interlock table (R90), the line drivers (R107), the sampler (R122) -/

/-- An interlock pair, lower line first (R90). -/
structure Pair where
  lower  : Line
  higher : Line
deriving DecidableEq, Repr

/-- Mirror state (R107). -/
inductive MirrorPhase where
  | following | held
deriving DecidableEq, Repr

/-- Mirror state and demand (R13, R107). -/
structure Mirror where
  phase  : MirrorPhase
  demand : Bool
deriving DecidableEq, Repr

/-- The driver state of a line (R107): `pulse` is none while the phase is IDLE and the remaining time
in units of 10 µs while it is ACTIVE; `mirror` is present while the active function is MIRROR. -/
structure Driver where
  pulse  : Option Word16
  mirror : Option Mirror
deriving DecidableEq, Repr

/-- A candidate level and its count (R122). -/
structure Candidate where
  level : Level
  count : Nat
deriving DecidableEq, Repr

/-- The sampler's state of a line (R122). -/
structure LineSampler where
  level     : Level
  candidate : Option Candidate
deriving DecidableEq, Repr

/-! ### Pending commits (R134) -/

/-- The trigger of a pending commit with its timer (R134): for LINE the timeout parameter and, where it
is not 0, the milliseconds left; for TIME the delay and the milliseconds left. -/
inductive Trigger where
  | line (line : Line) (target : Level) (timeout : Word16) (left : Option Word16)
  | time (delay left : Word16)
deriving DecidableEq, Repr

/-- A pending commit record (R134): the groups in ascending order, each with its snapshot. -/
structure Deferred where
  parts   : List (Group × GroupConfig)
  trigger : Trigger
deriving DecidableEq, Repr

/-! ### Results and events (0.11, R150) -/

/-- Result codes (0.11). -/
inductive ResultCode where
  | granted | queued | done
  | notHolder | notWaiting | alreadyHeld | alreadyWaiting | ineligible | withheld | revoking
  | busy | notPending
  | range | unknown
  | interlock | loop | duplicate
  | notSupervisor
deriving DecidableEq, Repr

/-- Fault classes (0.11). -/
inductive FaultClass where
  | ownership | sequence | range | conflict | authority
deriving DecidableEq, Repr

/-- Reasons of a forced loss (2.6). -/
inductive LossReason where
  | expired | revoked | forced | withheld
deriving DecidableEq, Repr

/-- Reasons of CLAIM_REFUSED (R150). -/
inductive ClaimReason where
  | ineligible | withheld
deriving DecidableEq, Repr

/-- Reasons of RESTORE_REFUSED and PENDING_FAILED (R150). -/
inductive CheckReason where
  | loop | interlock
deriving DecidableEq, Repr

/-- Reasons of PULSE_CUT (R121). -/
inductive CutReason where
  | overtaken | released | lost
deriving DecidableEq, Repr

/-- Occurrences copied by the audit (R161). -/
inductive Occurrence where
  | loss | conflict | detach
deriving DecidableEq, Repr

/-- The events with the fields their kinds carry (R150).  A line's group is the line's (R1). -/
inductive Event where
  | granted (group : Group)
  | lost (group : Group) (reason : LossReason)
  | revokeNotice (group : Group) (grace : Word16)
  | revokeCancelled (group : Group)
  | claimRefused (group : Group) (reason : ClaimReason)
  | restoreRefused (group : Group) (reason : CheckReason)
  | inputEdge (line : Line) (level : Level)
  | pulseDone (line : Line)
  | pulseCut (line : Line) (reason : CutReason)
  | mirrorHeld (line : Line)
  | mirrorResumed (line : Line) (asserted : Bool)
  | watchEdge (line : Line) (level : Level)
  | groupState (group : Group) (state : GroupState) (holder : Option Client)
  | pendingDone (line : Option Line)
  | pendingFailed (line : Option Line) (reason : CheckReason)
  | pendingTimeout (line : Line)
  | pendingDropped (group : Group)
  | fault (cls : FaultClass) (code : ResultCode) (kind : Byte)
  | overflow
  | audit (client : Client) (occurrence : Occurrence) (group : Option Group)
deriving DecidableEq, Repr

/-- A queue entry (R150). -/
structure Entry where
  event : Event
  stamp : Word16
deriving DecidableEq, Repr

/-! ### The port interface (R154, R175 to R179) -/

/-- The latched entry of a frame (R154): not yet taken; NONE; an entry that is the head of the queue;
or an entry a client reset has since removed from the queue (R155). -/
inductive Latch where
  | untaken
  | none
  | head (entry : Entry)
  | gone (entry : Entry)
deriving DecidableEq, Repr

/-- The frame in progress on a port while its CS is low. -/
structure Frame where
  ignored  : Bool
  isRead   : Bool
  address  : Byte
  buffer   : List (Byte × Byte)
  latched  : List (Byte × Byte)
  entry    : Latch
  evt5Read : Bool
deriving DecidableEq, Repr

/-- What the port interface keeps for one port (R156 to R158, R178, R179), with the level of its pin
CRSTx (R170) and the bytes returned on MISO in the frame in progress or the last one (log 19). -/
structure Port where
  reqKind    : Byte
  reqParam   : Table 16 Byte
  result     : Byte
  resultKind : Byte
  resultInfo : Byte
  irqSel     : BitVec 6
  faultSel   : BitVec 5
  leaseSel   : Group
  lineSel    : Line
  frame      : Option Frame
  miso       : List Byte
  crstLow    : Bool
deriving DecidableEq, Repr

/-! ### The state -/

/-- Everything the manual gives the part, with the queue of waiting commands. -/
structure State where
  lease     : Table 8 LeaseEntry
  policy    : Table 8 Policy
  audit     : Audit
  active    : Table 32 Record
  staged    : PerClient (Table 32 Record)
  park      : PerClient (Table 8 (Option GroupConfig))
  pairs     : Table 8 (Option Pair)
  drivers   : Table 32 Driver
  sampler   : Table 32 LineSampler
  watch     : Table 8 (PerClient (Option Edges))
  deferred  : PerClient (Option Deferred)
  queues    : PerClient (List Entry)
  ports     : PerClient Port
  groupSel  : Group
  sreqKind  : Byte
  sreqParam : Table 16 Byte
  ms        : Word16
  resetLow  : Bool
  /-- The model's own: which of the free values is drawn next (log 10). -/
  draws     : Nat
  /-- The commands that are waiting, first in, first out (log 21). -/
  pending   : List Instr
deriving DecidableEq, Repr

/-- The machine stops with a fault: the manual gives no such case, so there is no constructor (log 23). -/
inductive Fault where
deriving DecidableEq, Repr

/-- A command without a meaning. -/
inductive Refusal where
  /-- Raised by the dispatch for a row whose meaning is not written yet; safe: it stops. -/
  | notModelled (mnemonic : String)
deriving DecidableEq, Repr

/-- The outcome of a step. -/
abbrev Outcome := Host.Outcome State Fault Refusal

/-! ### Reset values -/

/-- R22. -/
def LeaseEntry.reset : LeaseEntry :=
  { state := .safe, holder := none, priority := none, timer := .stopped, grace := none,
    waiting := [], arrivals := 0 }

/-- R164. -/
def Policy.reset : Policy :=
  { priority := .fill 1, preemptible := false, leasePeriod := 0, gracePeriod := 100,
    safe := .fill Record.reset }

/-- R107: phase IDLE, no mirror. -/
def Driver.reset : Driver := { pulse := none, mirror := none }

/-- R122: the first sample sets the level; the level found is the board's (log 1). -/
def LineSampler.first (level : Level) : LineSampler := { level := level, candidate := none }

/-- R156, R157, R158, R179.  CS and CRSTx are high (log 15). -/
def Port.reset : Port :=
  { reqKind := 0, reqParam := .fill 0, result := 0, resultKind := 0, resultInfo := 0,
    irqSel := 0x3F, faultSel := 0x1F, leaseSel := 0, lineSel := 0, frame := none, miso := [],
    crstLow := false }

/-- The part right after RESETn has risen (R173), every pad found LOW by the first sample (log 1). -/
def State.reset : State :=
  { lease := .fill .reset
    policy := .fill .reset
    audit := { losses := false, conflicts := false, detaches := false }
    active := .fill .reset
    staged := .fill (.fill .reset)
    park := .fill (.fill none)
    pairs := .fill none
    drivers := .fill .reset
    sampler := .fill (.first .low)
    watch := .fill (.fill none)
    deferred := .fill none
    queues := .fill []
    ports := .fill .reset
    groupSel := 0
    sreqKind := 0
    sreqParam := .fill 0
    ms := 0
    resetLow := false
    draws := 0
    pending := [] }

end Sys2Proof.Machine
end

