-- ==== Sys2Proof/Machine/Flags.lean ====
section
/-! DEFINITION. Result codes and their fault classes, event classes, the code numbers of R183, and what
counts for the interrupt. -/

namespace Sys2Proof.Machine

/-- The fault class of a result code; none for a success (0.11). -/
def ResultCode.faultClass : ResultCode → Option FaultClass
  | .granted | .queued | .done => none
  | .notHolder | .notWaiting | .alreadyHeld | .alreadyWaiting | .ineligible | .withheld
  | .revoking => some .ownership
  | .busy | .notPending => some .sequence
  | .range | .unknown => some .range
  | .interlock | .loop | .duplicate => some .conflict
  | .notSupervisor => some .authority

/-- Result codes as RESULT and FAULT entries show them (R183). -/
def ResultCode.byte : ResultCode → Byte
  | .granted => 0x01
  | .queued => 0x02
  | .done => 0x03
  | .notHolder => 0x10
  | .notWaiting => 0x11
  | .alreadyHeld => 0x12
  | .alreadyWaiting => 0x13
  | .ineligible => 0x14
  | .withheld => 0x15
  | .revoking => 0x16
  | .busy => 0x20
  | .notPending => 0x21
  | .range => 0x30
  | .unknown => 0x31
  | .interlock => 0x40
  | .loop => 0x41
  | .duplicate => 0x42
  | .notSupervisor => 0x50

/-- Fault class codes (R183). -/
def FaultClass.byte : FaultClass → Byte
  | .ownership => 1
  | .sequence => 2
  | .range => 3
  | .conflict => 4
  | .authority => 5

/-- The bit of a fault class in FAULT_SEL (R179). -/
def FaultClass.selBit : FaultClass → Nat
  | .ownership => 0
  | .sequence => 1
  | .range => 2
  | .conflict => 3
  | .authority => 4

/-- Whether the class is RECORD in a fault report selection (R157). -/
def records (sel : BitVec 5) (cls : FaultClass) : Bool := sel.getLsbD cls.selBit

/-- Event classes (0.13, 9.5). -/
inductive EventClass where
  | lease | line | watch | pending | fault | system
deriving DecidableEq, Repr

/-- The class of an event (9.5). -/
def Event.cls : Event → EventClass
  | .granted _ | .lost _ _ | .revokeNotice _ _ | .revokeCancelled _ | .claimRefused _ _
  | .restoreRefused _ _ => .lease
  | .inputEdge _ _ | .pulseDone _ | .pulseCut _ _ | .mirrorHeld _ | .mirrorResumed _ _ => .line
  | .watchEdge _ _ | .groupState _ _ _ => .watch
  | .pendingDone _ | .pendingFailed _ _ | .pendingTimeout _ | .pendingDropped _ => .pending
  | .fault _ _ _ => .fault
  | .overflow | .audit _ _ _ => .system

/-- The bit of an event class in IRQ_SEL (R179). -/
def EventClass.selBit : EventClass → Nat
  | .lease => 0
  | .line => 1
  | .watch => 2
  | .pending => 3
  | .fault => 4
  | .system => 5

/-- Whether an event counts for the interrupt: its class is enabled, or it is OVERFLOW (R159). -/
def Event.counts (sel : BitVec 6) (e : Event) : Bool :=
  e == .overflow || sel.getLsbD e.cls.selBit

/-- IRQx (R159): asserted while the queue holds an entry that counts; deasserted while RESETn or CRSTx
is low. -/
def irqAsserted (s : State) (x : Client) : Bool :=
  !s.resetLow && !(s.ports.get x).crstLow &&
    (s.queues.get x).any fun e => e.event.counts (s.ports.get x).irqSel

/-- The event kind codes (R183). -/
def Event.kindByte : Event → Byte
  | .granted _ => 0x01
  | .lost _ _ => 0x02
  | .revokeNotice _ _ => 0x03
  | .revokeCancelled _ => 0x04
  | .claimRefused _ _ => 0x05
  | .restoreRefused _ _ => 0x06
  | .inputEdge _ _ => 0x11
  | .pulseDone _ => 0x12
  | .pulseCut _ _ => 0x13
  | .mirrorHeld _ => 0x14
  | .mirrorResumed _ _ => 0x15
  | .watchEdge _ _ => 0x21
  | .groupState _ _ _ => 0x22
  | .pendingDone _ => 0x31
  | .pendingFailed _ _ => 0x32
  | .pendingTimeout _ => 0x33
  | .pendingDropped _ => 0x34
  | .fault _ _ _ => 0x41
  | .overflow => 0x51
  | .audit _ _ _ => 0x52

/-- The codes of group states (R179, GROUP_STATE). -/
def GroupState.code : GroupState → Byte
  | .safe => 0
  | .held => 1
  | .revoking => 2
  | .withheld => 3

/-- The reason codes (R183). -/
def LossReason.byte : LossReason → Byte
  | .expired => 1
  | .revoked => 2
  | .forced => 3
  | .withheld => 4

/-- The reason codes (R183). -/
def ClaimReason.byte : ClaimReason → Byte
  | .ineligible => 5
  | .withheld => 4

/-- The reason codes (R183). -/
def CheckReason.byte : CheckReason → Byte
  | .loop => 6
  | .interlock => 7

/-- The reason codes (R183). -/
def CutReason.byte : CutReason → Byte
  | .overtaken => 8
  | .released => 9
  | .lost => 10

/-- The reason codes (R183). -/
def Occurrence.byte : Occurrence → Byte
  | .loss => 12
  | .conflict => 13
  | .detach => 14

/-- The reason a kind carries, as its code (R150, R183); none where it carries none.  In GROUP_STATE
it is the new state, in FAULT the result code. -/
def Event.reasonByte : Event → Option Byte
  | .lost _ r => some r.byte
  | .claimRefused _ r => some r.byte
  | .restoreRefused _ r => some r.byte
  | .pulseCut _ r => some r.byte
  | .groupState _ st _ => some st.code
  | .pendingFailed _ r => some r.byte
  | .pendingDropped _ => some 11
  | .fault _ code _ => some code.byte
  | .audit _ o _ => some o.byte
  | _ => none

/-- The line an entry carries (R150). -/
def Event.line? : Event → Option Line
  | .inputEdge l _ | .pulseDone l | .pulseCut l _ | .mirrorHeld l | .mirrorResumed l _
  | .watchEdge l _ | .pendingTimeout l => some l
  | .pendingDone l | .pendingFailed l _ => l
  | _ => none

/-- The group an entry carries (R150): for a line event the line's. -/
def Event.group? : Event → Option Group
  | .granted g | .lost g _ | .revokeNotice g _ | .revokeCancelled g | .claimRefused g _
  | .restoreRefused g _ | .groupState g _ _ | .pendingDropped g => some g
  | .inputEdge l _ | .pulseDone l | .pulseCut l _ | .mirrorHeld l | .mirrorResumed l _
  | .watchEdge l _ => some (groupOf l)
  | .audit _ _ g => g
  | _ => none

/-- The client an entry carries (R150). -/
def Event.client? : Event → Option Client
  | .groupState _ _ h => h
  | .audit x _ _ => some x
  | _ => none

/-- Bit 7 of EVT1: HIGH or ASSERTED; 0 in every kind without a level (R183). -/
def Event.levelBit : Event → Bool
  | .inputEdge _ lv | .watchEdge _ lv => lv == .high
  | .mirrorResumed _ asserted => asserted
  | _ => false

end Sys2Proof.Machine
end

