-- ==== Sys2Proof/Machine/Operands.lean ====
section
/-! DEFINITION. Request kinds and parameters (R181), and line records as bytes (R182). -/

namespace Sys2Proof.Machine

/-! ### Bytes and 16-bit values, high byte first (R181) -/

/-- The high byte. -/
def highByte (w : Word16) : Byte := w.extractLsb' 8 8

/-- The low byte. -/
def lowByte (w : Word16) : Byte := w.extractLsb' 0 8

/-- The 16-bit value of a high and a low byte. -/
def word16 (hi lo : Byte) : Word16 := hi ++ lo

/-- The byte whose bit 0 is `b`. -/
def bit (b : Bool) : Byte := if b then 1 else 0

/-- A small number as a byte. -/
def byteOf (n : Nat) : Byte := BitVec.ofNat 8 n

/-! ### Parameters (R2, R181) -/

/-- A parameter of the range 0 to n − 1; none outside it. -/
def inRange (n : Nat) (b : Byte) : Option (Fin n) :=
  if h : b.toNat < n then some ⟨b.toNat, h⟩ else none

/-- A group parameter (R2). -/
def group? (b : Byte) : Option Group := inRange 8 b

/-- A line parameter (R2). -/
def line? (b : Byte) : Option Line := inRange 32 b

/-- A client parameter (R181). -/
def client? (b : Byte) : Option Client :=
  match inRange 4 b with
  | some 0 => some .a
  | some 1 => some .b
  | some 2 => some .c
  | some 3 => some .d
  | none => none

/-- Whether a group set names a group: bit g names Gg (R181). -/
def names (set : Byte) (g : Group) : Bool := set.getLsbD g.val

/-- The groups of a set in ascending order (R2). -/
def groupsOf (set : Byte) : List Group := groups.filter (names set)

/-- Edges as a parameter (R181): 0 NONE, 1 RISING, 2 FALLING, 3 BOTH. -/
def edges? (b : Byte) : Option Edges :=
  match inRange 4 b with
  | some 0 => some .none
  | some 1 => some .rising
  | some 2 => some .falling
  | some 3 => some .both
  | none => none

/-- The code of edges (R181, R182). -/
def Edges.code : Edges → Byte
  | .none => 0
  | .rising => 1
  | .falling => 2
  | .both => 3

/-- A yes-or-no parameter: 0 or 1 (R181). -/
def flag? (b : Byte) : Option Bool :=
  if b = 0 then some false else if b = 1 then some true else none

/-- A DEFER trigger (R136, R181): kind 1 LINE reads line, target and timeout; kind 2 TIME reads timeout,
which must be 0, and delay, which must not. -/
def trigger? (kind line target : Byte) (timeout delay : Word16) : Option Trigger :=
  if kind = 1 then
    match line? line, flag? target with
    | some l, some high =>
      some (.line l (if high then .high else .low) timeout
        (if timeout = 0 then none else some timeout))
    | _, _ => none
  else if kind = 2 then
    if timeout = 0 ∧ delay ≠ 0 then some (.time delay delay) else none
  else none

/-- An audit selection parameter (R168, R181). -/
def audit? (b : Byte) : Option Audit :=
  if b.toNat < 8 then
    some { losses := b.getLsbD 0, conflicts := b.getLsbD 1, detaches := b.getLsbD 2 }
  else none

/-! ### Line records as bytes (R182) -/

/-- The record that seven bytes spell for a line, if it is well-formed for it (R3, R72, R182).
Bit 4 and bytes 3 to 6 are read only where their part is carried. -/
def record? (l : Line) (r : RecordBytes) : Option Record :=
  let carriedLevel := r.shape.getLsbD 5
  let carriedWidth := r.shape.getLsbD 6
  let carriedMirror := r.shape.getLsbD 7
  let polarity : Polarity := if r.shape.getLsbD 0 then .inverted else .normal
  let drive : Drive := if r.shape.getLsbD 1 then .openDrain else .pushPull
  let edges : Edges :=
    match r.shape.getLsbD 3, r.shape.getLsbD 2 with
    | false, false => .none
    | false, true => .rising
    | true, false => .falling
    | true, true => .both
  let fn : Option LineFunction :=
    match inRange 4 r.function, carriedLevel, carriedWidth, carriedMirror with
    | some 0, false, false, false => some .input
    | some 1, true, false, false => some (.static (r.shape.getLsbD 4))
    | some 2, false, true, false =>
      let w := word16 r.widthHi r.widthLo
      if w = 0 then none else some (.pulse w)
    | some 3, false, false, true =>
      match line? r.source, flag? r.sense with
      | some src, some opp =>
        if src = l then none else some (.mirror src (if opp then .opposite else .same))
      | _, _ => none
    | _, _, _, _ => none
  match fn, inRange 16 r.filter with
  | some f, some flt => some { function := f, polarity, drive, filter := flt, edges }
  | _, _ => none

/-- The seven bytes that show a record in a view (R182): the carried bits of its function, and 0 for
the bytes of absent parts. -/
def Record.bytes (r : Record) : RecordBytes :=
  let shape : Byte :=
    bit (r.polarity == .inverted) ||| (bit (r.drive == .openDrain) <<< 1) |||
      (r.edges.code <<< 2)
  let base : RecordBytes :=
    { function := 0, shape, filter := byteOf r.filter.val, widthHi := 0, widthLo := 0,
      source := 0, sense := 0 }
  match r.function with
  | .input => base
  | .static asserted =>
    { base with function := 1, shape := shape ||| (bit asserted <<< 4) ||| 0x20 }
  | .pulse w =>
    { base with function := 2, shape := shape ||| 0x40, widthHi := highByte w, widthLo := lowByte w }
  | .mirror src sense =>
    { base with
      function := 3, shape := shape ||| 0x80, source := byteOf src.val,
      sense := bit (sense == .opposite) }

/-- Byte `i` of the seven. -/
def recordByte (r : RecordBytes) : Nat → Byte
  | 0 => r.function
  | 1 => r.shape
  | 2 => r.filter
  | 3 => r.widthHi
  | 4 => r.widthLo
  | 5 => r.source
  | _ => r.sense

/-- The seven in order. -/
def recordList (r : RecordBytes) : List Byte :=
  [r.function, r.shape, r.filter, r.widthHi, r.widthLo, r.source, r.sense]

/-! ### Request kinds (R181) -/

/-- The request kinds. -/
inductive Kind where
  | claim | release | renew | withdraw | stage | stageCopy | commit | exchange | watch | unwatch
  | defer | cancelPending | detachSelf
  | forceRelease | withhold | openGroup | setPriority | setPolicy | setSafe | setPair | clearPair
  | setAudit | detach
deriving DecidableEq, Repr

/-- The kind codes (R181). -/
def Kind.byte : Kind → Byte
  | .claim => 0x01
  | .release => 0x02
  | .renew => 0x03
  | .withdraw => 0x04
  | .stage => 0x05
  | .stageCopy => 0x06
  | .commit => 0x07
  | .exchange => 0x08
  | .watch => 0x09
  | .unwatch => 0x0A
  | .defer => 0x0B
  | .cancelPending => 0x0C
  | .detachSelf => 0x0D
  | .forceRelease => 0x20
  | .withhold => 0x21
  | .openGroup => 0x22
  | .setPriority => 0x23
  | .setPolicy => 0x24
  | .setSafe => 0x25
  | .setPair => 0x26
  | .clearPair => 0x27
  | .setAudit => 0x28
  | .detach => 0x29

/-- Every kind. -/
def Kind.all : List Kind :=
  [.claim, .release, .renew, .withdraw, .stage, .stageCopy, .commit, .exchange, .watch, .unwatch,
   .defer, .cancelPending, .detachSelf] ++
  [.forceRelease, .withhold, .openGroup, .setPriority, .setPolicy, .setSafe, .setPair, .clearPair,
   .setAudit, .detach]

/-- The kind a code stands for (R178, R181). -/
def kind? (b : Byte) : Option Kind := Kind.all.find? fun k => k.byte == b

/-- Whether a kind is a supervisor request (R178): codes 0x20 to 0x29. -/
def Kind.isSupervisor : Kind → Bool
  | .forceRelease | .withhold | .openGroup | .setPriority | .setPolicy | .setSafe | .setPair
  | .clearPair | .setAudit | .detach => true
  | _ => false

end Sys2Proof.Machine
end

