-- ==== Sys2Proof/WellFormed.lean ====
section
/-! DEFINITION. Which commands are of their row: the checks on a command's operands.  Parameter bytes are free,
since a request with any of them is taken or refused by its own rule (R2). -/

namespace Sys2Proof

/-- UNKNOWN's kind is known to no rule on its page: a client code through SREQ_KIND is unknown too, a
supervisor code through REQ_KIND is not (R178). -/
def unknownKind (page : Page) (kind : Byte) : Bool :=
  match Machine.kind? kind, page with
  | none, _ => true
  | some k, .supervisor => !k.isSupervisor
  | some _, .client _ => false

/-- A write frame's access byte is not that of a read frame (R175). -/
def WriteOp.wf : WriteOp → Bool
  | .begin _ access _ => access != 0x40
  | _ => true

/-- The check on each command. -/
def Instr.wf : Instr → Bool
  | .unknown page kind => unknownKind page kind
  | .registerWrite _ op => op.wf
  | .sample _ order => decide order.Nodup
  | _ => true

end Sys2Proof
end

