-- ==== Sys2Proof/Decode.lean ====
section
/-! DEFINITION. The command a table word spells: the table gives no row any bits, so no word spells one. -/

namespace Sys2Proof

/-- No row of the opcode table has bits: a word of any width names no command. -/
def decodeTableWord (_nbits _w : Nat) : Option Instr := none

end Sys2Proof
end

