-- ==== Sys2Proof/Machine/Ops.lean ====
section
/-! DEFINITION. The shared operations of the blocks: the event unit's append, assertion and pads, the
interlock table's judgement, replacements, grants, ends of holding, revocation and results. -/

namespace Sys2Proof.Machine

/-! ### Reading the state -/

/-- The lease entry of a group. -/
def State.entry (s : State) (g : Group) : LeaseEntry := s.lease.get g

/-- The holder of a group (R20). -/
def State.holder (s : State) (g : Group) : Option Client := (s.entry g).holder

/-- The active record of a line. -/
def State.record (s : State) (l : Line) : Record := s.active.get l

/-- The driver state of a line. -/
def State.driver (s : State) (l : Line) : Driver := s.drivers.get l

/-- The filtered level of a line. -/
def State.level (s : State) (l : Line) : Level := (s.sampler.get l).level

/-- The port of a client. -/
def State.port (s : State) (x : Client) : Port := s.ports.get x

/-- The four active records of a group (R1). -/
def State.groupConfig (s : State) (g : Group) : GroupConfig :=
  .tabulate fun p => s.record (lineOf g p)

/-- Whether a client holds every group of a list (R75, R136): in HELD or REVOKING. -/
def State.holdsAll (s : State) (x : Client) (gs : List Group) : Bool :=
  gs.all fun g => s.holder g == some x

/-! ### Changing one part -/

/-- The lease entry of `g` changed. -/
def State.withEntry (s : State) (g : Group) (f : LeaseEntry → LeaseEntry) : State :=
  { s with lease := s.lease.modify g f }

/-- The driver state of `l` changed. -/
def State.withDriver (s : State) (l : Line) (f : Driver → Driver) : State :=
  { s with drivers := s.drivers.modify l f }

/-- The port of `x` changed. -/
def State.withPort (s : State) (x : Client) (f : Port → Port) : State :=
  { s with ports := s.ports.modify x f }

/-! ### The event unit (R151 to R153) -/

/-- A queue with an event appended (R152): 0 to 30 entries, the event; 31, OVERFLOW in its place; 32,
nothing. -/
def enqueue (q : List Entry) (e : Event) (now : Word16) : List Entry :=
  if q.length ≤ 30 then q ++ [⟨e, now⟩]
  else if q.length = 31 then q ++ [⟨.overflow, now⟩]
  else q

/-- An event reaches the queue of `x`; it is discarded while `x` is held by CRSTx low (R153). -/
def append (x : Client) (e : Event) (s : State) : State :=
  if (s.port x).crstLow then s
  else { s with queues := s.queues.modify x fun q => enqueue q e s.ms }

/-- An event for the holder of a group, if it has one. -/
def appendHolder (g : Group) (e : Event) (s : State) : State :=
  match s.holder g with
  | some x => append x e s
  | none => s

/-- GROUP_STATE to each watcher of a group, in ascending client number (R132). -/
def notifyWatchers (g : Group) (s : State) : State :=
  clients.foldl (fun t x =>
    if ((t.watch.get g).get x).isSome then
      append x (.groupState g (t.entry g).state (t.entry g).holder) t
    else t) s

/-! ### Assertion and pads (R8 to R13) -/

/-- Whether a line is asserted (R8). -/
def asserted (s : State) (l : Line) : Bool :=
  match (s.record l).function with
  | .input => false
  | .static a => a
  | .pulse _ => (s.driver l).pulse.isSome
  | .mirror _ _ => (s.driver l).mirror == some ⟨.following, true⟩

/-- The conditions of a pad (R9). -/
inductive PadCondition where
  | released | drivenHigh | drivenLow
deriving DecidableEq, Repr

/-- The pad condition that polarity and drive give a driving line (R9). -/
def Record.pad (r : Record) (isAsserted : Bool) : PadCondition :=
  match r.polarity, r.drive, isAsserted with
  | .normal, .pushPull, true => .drivenHigh
  | .normal, .pushPull, false => .drivenLow
  | .normal, .openDrain, true => .released
  | .normal, .openDrain, false => .drivenLow
  | .inverted, .pushPull, true => .drivenLow
  | .inverted, .pushPull, false => .drivenHigh
  | .inverted, .openDrain, true => .drivenLow
  | .inverted, .openDrain, false => .released

/-- The condition the part gives the pad of a line (R9, R10): released while RESETn is low (R18). -/
def padCondition (s : State) (l : Line) : PadCondition :=
  if s.resetLow then .released
  else if (s.record l).function = .input then .released
  else (s.record l).pad (asserted s l)

/-- What a mirror's source calls for (R13). -/
def demandOf (s : State) (src : Line) (sense : Sense) : Bool :=
  match sense with
  | .same => s.level src == .high
  | .opposite => s.level src == .low

/-! ### The interlock table (R90 to R97) -/

/-- The pair of two lines, lower line first (R90). -/
def Pair.of (a b : Line) : Pair := if a ≤ b then ⟨a, b⟩ else ⟨b, a⟩

/-- The other line of a pair, for a line in it. -/
def Pair.partner (p : Pair) (l : Line) : Option Line :=
  if p.lower = l then some p.higher else if p.higher = l then some p.lower else none

/-- The pairs that stand in the table, with their indices, in ascending index. -/
def State.pairList (s : State) : List (Fin 8 × Pair) :=
  groups.filterMap fun i => (s.pairs.get i).map fun p => (i, p)

/-- The partners of a line (R90). -/
def partners (s : State) (l : Line) : List Line :=
  s.pairList.filterMap fun ip => ip.2.partner l

/-- Whether some partner of a line is asserted now. -/
def partnerAsserted (s : State) (l : Line) : Bool := (partners s l).any (asserted s)

/-- The lowest index of a pair containing a line (R103). -/
def pairIndexOf (s : State) (l : Line) : Option (Fin 8) :=
  (s.pairList.find? fun ip => (ip.2.partner l).isSome).map (·.1)

/-- A proposal (5.2): the named groups, the record every line would have, and whether PULSE records
start pulses. -/
structure Proposal where
  named  : Group → Bool
  result : Line → Record
  starts : Bool

/-- The proposal that gives the four lines of each listed group its configuration. -/
def Proposal.of (s : State) (parts : List (Group × GroupConfig)) (starts : Bool) : Proposal :=
  { named := fun g => parts.any fun p => p.1 == g
    result := fun l =>
      match parts.find? fun p => p.1 == groupOf l with
      | some p => p.2.get (positionOf l)
      | none => s.record l
    starts }

/-- The loop test on the resulting configuration (R76): true where some MIRROR line's source is MIRROR. -/
def Proposal.hasLoop (p : Proposal) : Bool :=
  lines.any fun l =>
    match (p.result l).function with
    | .mirror src _ =>
      match (p.result src).function with
      | .mirror _ _ => true
      | _ => false
    | _ => false

/-- The immediate set (R92). -/
def Proposal.immediate (p : Proposal) (s : State) (l : Line) : Bool :=
  if p.named (groupOf l) then
    match (p.result l).function with
    | .static a => a
    | .pulse _ => p.starts
    | _ => false
  else asserted s l

/-- The lowest index whose pair has both lines in the immediate set (R93). -/
def Proposal.conflict (p : Proposal) (s : State) : Option (Fin 8) :=
  (s.pairList.find? fun ip =>
    p.immediate s ip.2.lower && p.immediate s ip.2.higher).map (·.1)

/-- Why a proposal is refused. -/
inductive Verdict where
  | accepted
  | loop
  | interlock (index : Fin 8)
deriving DecidableEq, Repr

/-- The loop test, then the pair test (R98, steps 1 and 2). -/
def judge (p : Proposal) (s : State) : Verdict :=
  if p.hasLoop then .loop
  else match p.conflict s with
    | some i => .interlock i
    | none => .accepted

/-- Re-evaluation of one line: a held mirror none of whose partners is asserted resumes (R96). -/
def reevaluateMirror (m : Line) (s : State) : State :=
  match (s.driver m).mirror with
  | some ⟨.held, _⟩ =>
    if partnerAsserted s m then s
    else
      appendHolder (groupOf m) (.mirrorResumed m true)
        (s.withDriver m fun d => { d with mirror := some ⟨.following, true⟩ })
  | _ => s

/-- The deassertion of a line is reported: the held mirrors among its partners are re-evaluated in
ascending line number (R14, R96). -/
def reportDeassertion (l : Line) (s : State) : State :=
  lines.foldl (fun t m => if m ∈ partners s l then reevaluateMirror m t else t) s

/-- Every line that was asserted and is not asserted in `s` is reported, in ascending line number
(R14, R98 step 5). -/
def reportDeassertions (was : Line → Bool) (s : State) : State :=
  lines.foldl (fun t l => if was l && !asserted s l then reportDeassertion l t else t) s

/-! ### Replacements (R7, R78, R94, R98) -/

/-- The driver state a new record starts with, before a mirror is judged (R5, R108, R115). -/
def Record.startDriver (r : Record) (starts : Bool) : Driver :=
  match r.function with
  | .pulse w => { pulse := if starts then some w else none, mirror := none }
  | .mirror _ _ => { pulse := none, mirror := some ⟨.following, false⟩ }
  | _ => { pulse := none, mirror := none }

/-- The records and driver states of the named lines change in one step (R7). -/
def Proposal.place (p : Proposal) (s : State) : State :=
  { s with
    active := .tabulate fun l => if p.named (groupOf l) then p.result l else s.record l
    drivers := .tabulate fun l =>
      if p.named (groupOf l) then (p.result l).startDriver p.starts else s.driver l }

/-- PULSE_CUT(OVERTAKEN) for each pulse in flight whose line takes a record that is not PULSE, in
ascending line number, to the group's holder (R112). -/
def Proposal.reportCuts (p : Proposal) (s : State) : State :=
  lines.foldl (fun t l =>
    if p.named (groupOf l) && (s.driver l).pulse.isSome then
      match (p.result l).function with
      | .pulse _ => t
      | _ => appendHolder (groupOf l) (.pulseCut l .overtaken) t
    else t) s

/-- The starting state of one new mirror (R94): no demand, FOLLOWING; demand and a partner asserted,
HELD with MIRROR_HELD to the holder; demand and none asserted, FOLLOWING and asserted. -/
def startMirror (l : Line) (s : State) : State :=
  match (s.record l).function with
  | .mirror src sense =>
    if demandOf s src sense then
      if partnerAsserted s l then
        appendHolder (groupOf l) (.mirrorHeld l)
          (s.withDriver l fun d => { d with mirror := some ⟨.held, true⟩ })
      else s.withDriver l fun d => { d with mirror := some ⟨.following, true⟩ }
    else s
  | _ => s

/-- The new mirrors of the named groups take their starting states in ascending line number (R94).
The lines asserted when a mirror is judged are the immediate set and the mirrors started before it. -/
def Proposal.startMirrors (p : Proposal) (s : State) : State :=
  lines.foldl (fun t l => if p.named (groupOf l) then startMirror l t else t) s

/-- A replacement takes effect (R98, steps 3 to 6).  `was` is the assertion of each line before the
transaction touched any line. -/
def Proposal.apply (p : Proposal) (was : Line → Bool) (s : State) : State :=
  reportDeassertions was (p.startMirrors (p.place (p.reportCuts s)))

/-- A group falls to a configuration without a check: the grant at safe and the fall to safe
(R85, R88). -/
def replaceGroup (g : Group) (cfg : GroupConfig) (was : Line → Bool) (s : State) : State :=
  (Proposal.of s [(g, cfg)] false).apply was s

/-! ### Lease timers (R32) -/

/-- The lease timer started from a policy record as it stands (R32). -/
def Policy.startLease (p : Policy) : LeaseTimer :=
  if p.leasePeriod = 0 then .noExpiry else .running p.leasePeriod

/-- The waiting list with a claim inserted behind the last claim of equal or higher captured priority
(R47). -/
def insertClaim (c : Claim) : List Claim → List Claim
  | [] => [c]
  | d :: rest => if d.priority < c.priority then c :: d :: rest else d :: insertClaim c rest

/-! ### The grant (R85 to R87) -/

/-- The configuration store's grant of `g` to `n`, which the lease entry already names (R85): the park
record where a restore is asked for, possible and accepted, otherwise the safe configuration. -/
def grant (g : Group) (n : Client) (restore : Bool) (was : Line → Bool) (s : State) : State :=
  let safe := (s.policy.get g).safe
  match restore, (s.park.get n).get g with
  | true, some parked =>
    match judge (Proposal.of s [(g, parked)] false) s with
    | .accepted =>
      replaceGroup g parked was { s with park := s.park.modify n fun t => t.put g none }
    | .loop => replaceGroup g safe was (append n (.restoreRefused g .loop) s)
    | .interlock _ => replaceGroup g safe was (append n (.restoreRefused g .interlock) s)
  | _, _ => replaceGroup g safe was s

/-! ### Ends of holding (R30, R34 to R39) -/

/-- A pulse in flight on a line is cut (R113); the event, where there is one, goes to the client `h`. -/
def cutPulse (h : Client) (reason : Option CutReason) (l : Line) (s : State) : State :=
  if (s.driver l).pulse.isSome then
    let t := s.withDriver l fun d => { d with pulse := none }
    match reason with
    | some r => append h (.pulseCut l r) t
    | none => t
  else s

/-- Each pulse in flight on the lines of a group is cut (R113). -/
def cutPulses (g : Group) (h : Client) (reason : Option CutReason) (s : State) : State :=
  (linesOf g).foldl (fun t l => cutPulse h reason l t) s

/-- A pending commit of `h` naming the group is dropped (R145). -/
def dropDeferred (g : Group) (h : Client) (s : State) : State :=
  match s.deferred.get h with
  | some d =>
    if d.parts.any fun p => p.1 == g then
      append h (.pendingDropped g) { s with deferred := s.deferred.put h none }
    else s
  | none => s

/-- The group falls to safe into SAFE or WITHHELD (R39). -/
def fallToSafe (g : Group) (st : GroupState) (was : Line → Bool) (s : State) : State :=
  let t := s.withEntry g fun e =>
    { e with state := st, holder := none, priority := none, timer := .stopped, grace := none,
             waiting := [] }
  notifyWatchers g (replaceGroup g (t.policy.get g).safe was t)

/-- The group passes to the claim `c`, the head of its list, `rest` remaining (R36 to R38). -/
def handover (g : Group) (c : Claim) (rest : List Claim) (was : Line → Bool) (s : State) : State :=
  let t := s.withEntry g fun e =>
    { e with state := .held, holder := some c.client, priority := some c.priority,
             timer := (s.policy.get g).startLease, grace := none, waiting := rest }
  notifyWatchers g (grant g c.client c.restore was (append c.client (.granted g) t))

/-- The end of a release, or of a forced loss that is not WITHHELD: handover to the head, or fall to
safe where the list is empty (R30, R35). -/
def passOn (g : Group) (was : Line → Bool) (s : State) : State :=
  match (s.entry g).waiting with
  | [] => fallToSafe g .safe was s
  | c :: rest => handover g c rest was s

/-- The release of a group by its holder `h` (R30), with PULSE_CUT(RELEASED), or silent at a client
reset (R44). -/
def releaseGroup (g : Group) (h : Client) (silent : Bool) (s : State) : State :=
  let reason := if silent then none else some CutReason.released
  passOn g (asserted s) (dropDeferred g h (cutPulses g h reason s))

/-- An audit copy in client A's queue (R161). -/
def auditCopy (x : Client) (o : Occurrence) (g : Option Group) (s : State) : State :=
  append .a (.audit x o g) s

/-- The steps 1 to 4 of a forced loss (R34): park record, LOST and its audit copy (R162), cuts, drop. -/
def beginLoss (g : Group) (h : Client) (reason : LossReason) (s : State) : State :=
  let s1 := { s with park := s.park.modify h fun t => t.put g (some (s.groupConfig g)) }
  let s2 := append h (.lost g reason) s1
  let s3 := if s2.audit.losses then auditCopy h .loss (some g) s2 else s2
  dropDeferred g h (cutPulses g h (some .lost) s3)

/-- CLAIM_REFUSED(group, WITHHELD) to each claimant, from the head of the list onward (R41). -/
def refuseClaims (g : Group) (s : State) : State :=
  (s.entry g).waiting.foldl (fun t c => append c.client (.claimRefused g .withheld) t) s

/-- A forced loss of a group from its holder (R34, R35). -/
def forcedLoss (g : Group) (reason : LossReason) (s : State) : State :=
  match s.holder g with
  | none => s
  | some h =>
    let t := beginLoss g h reason s
    match reason with
    | .withheld => fallToSafe g .withheld (asserted s) (refuseClaims g t)
    | _ => passOn g (asserted s) t

/-! ### Revocation (R59 to R61) -/

/-- Whether some waiting claim justifies the revocation (R60). -/
def justified (p : Policy) (e : LeaseEntry) : Bool :=
  p.preemptible && e.waiting.any fun c =>
    c.preempt && (match e.priority with
      | some q => decide (q < c.priority)
      | none => false)

/-- The revocation is cancelled (R61). -/
def cancelRevocation (g : Group) (s : State) : State :=
  let t := s.withEntry g fun e =>
    { e with state := .held, timer := (s.policy.get g).startLease, grace := none }
  notifyWatchers g (appendHolder g (.revokeCancelled g) t)

/-- The re-evaluation after a claim has left a group (R59, R60). -/
def reevaluate (g : Group) (s : State) : State :=
  if (s.entry g).state = .revoking ∧ justified (s.policy.get g) (s.entry g) = false then
    cancelRevocation g s
  else s

/-- Whether a client has a waiting claim on a group. -/
def State.waits (s : State) (x : Client) (g : Group) : Bool :=
  (s.entry g).waiting.any fun c => c.client == x

/-- The claim of a client leaves the list, which closes up (R47). -/
def dropClaim (g : Group) (x : Client) (s : State) : State :=
  s.withEntry g fun e => { e with waiting := e.waiting.filter fun c => c.client != x }

/-! ### Pending commits (R142, R143) -/

/-- The trigger line of a record, where its trigger is LINE. -/
def Trigger.line? : Trigger → Option Line
  | .line l _ _ _ => some l
  | .time _ _ => none

/-- A pending commit whose trigger is met is applied and removed (R142, R143). -/
def applyDeferred (x : Client) (s : State) : State :=
  match s.deferred.get x with
  | none => s
  | some d =>
    let t := { s with deferred := s.deferred.put x none }
    let p := Proposal.of t d.parts true
    match judge p t with
    | .accepted => p.apply (asserted t) (append x (.pendingDone d.trigger.line?) t)
    | .loop => append x (.pendingFailed d.trigger.line? .loop) t
    | .interlock _ => append x (.pendingFailed d.trigger.line? .interlock) t

/-! ### Client reset (R172) -/

/-- The latch of a frame after the queue has been emptied (R155): the entry is no longer in it. -/
def Latch.afterEmptying : Latch → Latch
  | .head e => .gone e
  | other => other

/-- The port registers at their reset values (R172 step 8, R179); the frame in progress runs on (R171),
as do the pin and the record of MISO. -/
def Port.clientReset (p : Port) : Port :=
  { Port.reset with
    frame := p.frame.map fun f => { f with entry := f.entry.afterEmptying }
    miso := p.miso
    crstLow := p.crstLow }

/-- Steps 3 and 4 for one group each (R44, R45). -/
def releaseIfHeld (x : Client) (s : State) (g : Group) : State :=
  if s.holder g = some x then releaseGroup g x true s else s

/-- Step 4 for one group (R45). -/
def removeClaim (x : Client) (s : State) (g : Group) : State :=
  if s.waits x g then reevaluate g (dropClaim g x s) else s

/-- Steps 5 to 8 of a client reset (R172): watch entries, staging and park records, queue, port.
Events appended for `x` in the same transaction leave with the queue (R153, log 14). -/
def resetClientState (x : Client) (s : State) : State :=
  { s with
    watch := .tabulate fun g => (s.watch.get g).put x none
    staged := s.staged.put x (.fill .reset)
    park := s.park.put x (.fill none)
    queues := s.queues.put x []
    ports := s.ports.modify x Port.clientReset }

/-- The transaction of a client reset (R172). -/
def clientResetTransaction (x : Client) (s : State) : State :=
  let s1 := if s.audit.detaches && x != .a then auditCopy x .detach none s else s
  let s2 := { s1 with deferred := s1.deferred.put x none }
  let s3 := groups.foldl (releaseIfHeld x) s2
  let s4 := groups.foldl (removeClaim x) s3
  resetClientState x s4

/-! ### Requests and results (R156, R157, R163, R178) -/

/-- What the owning block answers: the result code, RESULT_INFO, and the group of the audit copy of a
CONFLICT refusal (R163). -/
structure Reply where
  code  : ResultCode
  info  : Byte := 0
  group : Option Group := none
deriving DecidableEq, Repr

/-- The owning block's taking of a request. -/
abbrev Taken := State × Reply

/-- A refusal: no state changes. -/
def refuse (code : ResultCode) (s : State) : Taken := (s, { code })

/-- A success. -/
def done (s : State) : Taken := (s, { code := .done })

/-- The port that issues through a page (0.4): A for the supervisor page, the port's own for a client page. -/
def pagePort : Page → Client
  | .client x => x
  | .supervisor => .a

/-- The client to whom a refusal is reported, and under whose selection (R157): a supervisor request, codes 0x20
to 0x29, is client A's wherever it is issued (R149, R164, R168); any other is its port's.  DEDUCED (log 27):
A is so the issuing client of R43 too, for one refused NOT_SUPERVISOR through the client page of Port B, C
or D. -/
def reportedTo (x : Client) (kind : Byte) : Client :=
  if 0x20 ≤ kind.toNat ∧ kind.toNat ≤ 0x29 then .a else x

/-- FAULT to the client whose request was refused, where the class of the code is RECORD (R157), then the
audit copy of a CONFLICT refusal (R163). -/
def reportRefusal (x : Client) (kind : Byte) (r : Reply) (s : State) : State :=
  match r.code.faultClass with
  | none => s
  | some cls =>
    let y := reportedTo x kind
    let t := if records (s.port y).faultSel cls then append y (.fault cls r.code kind) s else s
    if cls = .conflict ∧ t.audit.conflicts = true then auditCopy x .conflict r.group t else t

/-- The result registers of the issuing port (R156). -/
def writeResult (x : Client) (kind : Byte) (r : Reply) (s : State) : State :=
  s.withPort x fun p => { p with result := r.code.byte, resultKind := kind, resultInfo := r.info }

/-- A request is answered: reports in its transaction, then the result. -/
def answer (x : Client) (kind : Byte) (t : Taken) : State :=
  writeResult x kind t.2 (reportRefusal x kind t.2 t.1)

/-- Whether a port takes a frame that begins now (R175): RESETn, CRSTx and CS are high. -/
def portTakes (s : State) (x : Client) : Bool :=
  !s.resetLow && !(s.port x).crstLow && (s.port x).frame.isNone

/-- A table with its first cells written from a list. -/
def Table.overwrite {n : Nat} {α : Type} (t : Table n α) (xs : List α) : Table n α :=
  .tabulate fun i => xs.getD i.val (t.get i)

/-- The kind and the parameters of a request are stored in the registers of its page (R177, R178), the
parameters from P0 on. -/
def storeRequest (page : Page) (kind : Byte) (params : List Byte) (s : State) : State :=
  match page with
  | .client x =>
    s.withPort x fun p => { p with reqKind := kind, reqParam := p.reqParam.overwrite params }
  | .supervisor => { s with sreqKind := kind, sreqParam := s.sreqParam.overwrite params }

/-- The conditions of MISO (R175, 11.7). -/
inductive MisoCondition where
  /-- CS is high. -/
  | released
  /-- CS is low: the whole bytes shifted out since it fell, the oldest first. -/
  | driven (bytes : List Byte)
deriving DecidableEq, Repr

/-- The condition the part gives the MISO pin of a port (R175): released while CS is high, so also once
the frame has ended whose bytes the record of MISO still holds (log 19). -/
def misoCondition (s : State) (x : Client) : MisoCondition :=
  if (s.port x).frame.isSome then .driven (s.port x).miso else .released

/-- MISO returns zeros during every byte of a write frame and of an ignored frame (R175). -/
def misoZeros (x : Client) (count : Nat) (s : State) : State :=
  s.withPort x fun p => { p with miso := List.replicate count 0 }

/-- A request's write frame: it begins at REQ_KIND or SREQ_KIND and writes the kind and the parameters
(log 4).  Where the port takes frames, the registers are stored, the owning block takes the request and
the result is written; a frame the port ignores returns zeros; with CS already low none begins (log 5). -/
def requestFrame (page : Page) (kind : Byte) (params : List Byte) (body : State → Taken)
    (s : State) : State :=
  let x := pagePort page
  if (s.port x).frame.isSome then s
  else
    let t := misoZeros x (params.length + 3) s
    if portTakes s x then answer x kind (body (storeRequest page kind params t)) else t

/-- A supervisor request is taken through the supervisor page and refused NOT_SUPERVISOR through a
client page (R43, R178). -/
def supervised (page : Page) (body : State → Taken) (s : State) : Taken :=
  match page with
  | .supervisor => body s
  | .client _ => refuse .notSupervisor s

/-- A request whose group parameter is out of range is refused RANGE (R2). -/
def withGroup (b : Byte) (s : State) (body : Group → Taken) : Taken :=
  match group? b with
  | some g => body g
  | none => refuse .range s

end Sys2Proof.Machine
end

