-- ==== Sys2Proof/Machine/Lease.lean ====
section
/-! DEFINITION. The lease table's commands: CLAIM, RELEASE, RENEW, WITHDRAW, FORCE_RELEASE, WITHHOLD, OPEN,
LEASE_EXPIRY and GRACE_EXPIRY (Chapters 2 and 3). -/

namespace Sys2Proof.Machine

/-! ### CLAIM -/

/-- A claim is inserted in the waiting list of a group (R46, R47). -/
def queueClaim (g : Group) (x : Client) (prio : Priority) (preempt restore : Bool) (s : State) :
    State :=
  s.withEntry g fun e =>
    { e with
      waiting := insertClaim
        { client := x, priority := prio, preempt, restore, arrival := e.arrivals } e.waiting
      arrivals := e.arrivals + 1 }

/-- A claim on a SAFE group is granted at once (R25). -/
def grantFromSafe (g : Group) (x : Client) (prio : Priority) (restore : Bool) (s : State) : State :=
  let t := s.withEntry g fun e =>
    { e with state := .held, holder := some x, priority := some prio,
             timer := (s.policy.get g).startLease }
  notifyWatchers g (grant g x restore (asserted s) t)

/-- A queued claim starts a revocation (R54); with a grace period of 0 the forced loss follows at once
(R55). -/
def startRevocation (g : Group) (s : State) : State :=
  let period := (s.policy.get g).gracePeriod
  if period = 0 then forcedLoss g .revoked s
  else
    let t := s.withEntry g fun e =>
      { e with state := .revoking, timer := .stopped, grace := some period }
    notifyWatchers g (appendHolder g (.revokeNotice g period) t)

/-- The preemption test on a HELD group (R53). -/
def preempts (g : Group) (prio : Priority) (preempt : Bool) (s : State) : Bool :=
  preempt && (s.policy.get g).preemptible &&
    match (s.entry g).priority with
    | some q => decide (q < prio)
    | none => false

/-- A claim that has passed the tests of R24 is taken by the group's state (R25 to R27). -/
def takeClaim (g : Group) (x : Client) (prio : Priority) (wait preempt restore : Bool) (s : State) :
    Taken :=
  let queued := queueClaim g x prio preempt restore s
  match (s.entry g).state with
  | .safe => (grantFromSafe g x prio restore s, { code := .granted })
  | .held =>
    if preempts g prio preempt s then (startRevocation g queued, { code := .queued })
    else if wait then (queued, { code := .queued })
    else refuse .busy s
  | .revoking => if wait then (queued, { code := .queued }) else refuse .busy s
  | .withheld => refuse .withheld s

/-- CLAIM is tested in the order of R24, then taken. -/
def claimRequest (x : Client) (group flags : Byte) (s : State) : Taken :=
  withGroup group s fun g =>
    let prio := (s.policy.get g).priority.get x
    if (s.entry g).state = .withheld then refuse .withheld s
    else if prio = 0 then refuse .ineligible s
    else if s.holder g = some x then refuse .alreadyHeld s
    else if s.waits x g then refuse .alreadyWaiting s
    else takeClaim g x prio (flags.getLsbD 0) (flags.getLsbD 1) (flags.getLsbD 2) s

/-- CLAIM (R24 to R28, R53 to R55). -/
def execClaim (port : Client) (group flags : Byte) (s : State) : Outcome :=
  .next (requestFrame (.client port) Kind.claim.byte [group, flags] (claimRequest port group flags) s)

/-! ### RELEASE, RENEW, WITHDRAW -/

/-- RELEASE (R29, R30). -/
def releaseRequest (x : Client) (group : Byte) (s : State) : Taken :=
  withGroup group s fun g =>
    if s.holder g = some x then done (releaseGroup g x false s) else refuse .notHolder s

/-- RELEASE (R29, R30). -/
def execRelease (port : Client) (group : Byte) (s : State) : Outcome :=
  .next (requestFrame (.client port) Kind.release.byte [group] (releaseRequest port group) s)

/-- RENEW (R31). -/
def renewRequest (x : Client) (group : Byte) (s : State) : Taken :=
  withGroup group s fun g =>
    if s.holder g ≠ some x then refuse .notHolder s
    else if (s.entry g).state = .revoking then refuse .revoking s
    else done (s.withEntry g fun e => { e with timer := (s.policy.get g).startLease })

/-- RENEW (R31). -/
def execRenew (port : Client) (group : Byte) (s : State) : Outcome :=
  .next (requestFrame (.client port) Kind.renew.byte [group] (renewRequest port group) s)

/-- WITHDRAW (R50), with re-evaluation in REVOKING (R59). -/
def withdrawRequest (x : Client) (group : Byte) (s : State) : Taken :=
  withGroup group s fun g =>
    if s.waits x g then done (reevaluate g (dropClaim g x s)) else refuse .notWaiting s

/-- WITHDRAW (R50). -/
def execWithdraw (port : Client) (group : Byte) (s : State) : Outcome :=
  .next (requestFrame (.client port) Kind.withdraw.byte [group] (withdrawRequest port group) s)

/-! ### The supervisor's requests on the lease table -/

/-- FORCE_RELEASE (R40): SAFE and WITHHELD have no holder and nothing changes. -/
def forceReleaseRequest (group : Byte) (s : State) : Taken :=
  withGroup group s fun g => done (forcedLoss g .forced s)

/-- FORCE_RELEASE (R40, R43). -/
def execForceRelease (page : Page) (group : Byte) (s : State) : Outcome :=
  .next (requestFrame page Kind.forceRelease.byte [group]
    (supervised page (forceReleaseRequest group)) s)

/-- A group is closed (R41). -/
def closeGroup (g : Group) (s : State) : State :=
  match (s.entry g).state with
  | .withheld => s
  | .safe => fallToSafe g .withheld (asserted s) s
  | .held | .revoking => forcedLoss g .withheld s

/-- WITHHOLD (R41). -/
def withholdRequest (group : Byte) (s : State) : Taken :=
  withGroup group s fun g => done (closeGroup g s)

/-- WITHHOLD (R41, R43). -/
def execWithhold (page : Page) (group : Byte) (s : State) : Outcome :=
  .next (requestFrame page Kind.withhold.byte [group] (supervised page (withholdRequest group)) s)

/-- OPEN (R42): a WITHHELD group goes to SAFE; in any other state nothing changes. -/
def openRequest (group : Byte) (s : State) : Taken :=
  withGroup group s fun g =>
    if (s.entry g).state = .withheld then
      done (notifyWatchers g (s.withEntry g fun e => { e with state := .safe }))
    else done s

/-- OPEN (R42, R43). -/
def execOpenGroup (page : Page) (group : Byte) (s : State) : Outcome :=
  .next (requestFrame page Kind.openGroup.byte [group] (supervised page (openRequest group)) s)

/-! ### The timers -/

/-- LEASE_EXPIRY (R33): the timer of a HELD group has counted down to 0 (R32); otherwise no expiry
occurs (log 3). -/
def execLeaseExpiry (g : Group) (s : State) : Outcome :=
  .next (if (s.entry g).state = .held ∧ (s.entry g).timer = .running 0 then
    forcedLoss g .expired s else s)

/-- GRACE_EXPIRY (R58): the timer of a REVOKING group has counted down to 0 (R57); otherwise no expiry
occurs (log 3). -/
def execGraceExpiry (g : Group) (s : State) : Outcome :=
  .next (if (s.entry g).state = .revoking ∧ (s.entry g).grace = some 0 then
    forcedLoss g .revoked s else s)

end Sys2Proof.Machine
end

