-- ==== Sys2Proof/Machine/Interlock.lean ====
section
/-! DEFINITION. The interlock table's requests: SET_PAIR and CLEAR_PAIR (Chapter 5). -/

namespace Sys2Proof.Machine

/-- Whether a line's safe record is STATIC ASSERTED (R99). -/
def safeAsserts (s : State) (l : Line) : Bool :=
  (((s.policy.get (groupOf l)).safe.get (positionOf l)).function) == .static true

/-- The index other than `i` at which a pair stands (R100, test 3). -/
def duplicateIndex (s : State) (i : Fin 8) (p : Pair) : Option (Fin 8) :=
  (s.pairList.find? fun ip => ip.1 != i && ip.2 == p).map (·.1)

/-- The two lines of a removed pair are re-evaluated in ascending line number (R101, R102). -/
def reevaluatePair (p : Pair) (s : State) : State :=
  reevaluateMirror p.higher (reevaluateMirror p.lower s)

/-- An accepted pair is written (R100): on an empty index, on its own index again, or in the place of
another pair (R101). -/
def writePair (i : Fin 8) (p : Pair) (s : State) : State :=
  match s.pairs.get i with
  | none => { s with pairs := s.pairs.put i (some p) }
  | some old =>
    if old = p then s else reevaluatePair old { s with pairs := s.pairs.put i (some p) }

/-- SET_PAIR (R100), after the supervisor test. -/
def setPairRequest (index lineA lineB : Byte) (s : State) : Taken :=
  match inRange 8 index, line? lineA, line? lineB with
  | some i, some a, some b =>
    let p := Pair.of a b
    if a = b then refuse .range s
    else
      match duplicateIndex s i p with
      | some j => (s, { code := .duplicate, info := byteOf j.val })
      | none =>
        if asserted s a && asserted s b then refuse .interlock s
        else if safeAsserts s a || safeAsserts s b then refuse .interlock s
        else done (writePair i p s)
  | _, _, _ => refuse .range s

/-- SET_PAIR (R100, R101). -/
def execSetPair (page : Page) (index lineA lineB : Byte) (s : State) : Outcome :=
  .next (requestFrame page Kind.setPair.byte [index, lineA, lineB]
    (supervised page (setPairRequest index lineA lineB)) s)

/-- CLEAR_PAIR (R102), after the supervisor test. -/
def clearPairRequest (index : Byte) (s : State) : Taken :=
  match inRange 8 index with
  | none => refuse .range s
  | some i =>
    match s.pairs.get i with
    | none => done s
    | some old => done (reevaluatePair old { s with pairs := s.pairs.put i none })

/-- CLEAR_PAIR (R102). -/
def execClearPair (page : Page) (index : Byte) (s : State) : Outcome :=
  .next (requestFrame page Kind.clearPair.byte [index] (supervised page (clearPairRequest index)) s)

end Sys2Proof.Machine
end

