-- ==== Sys2Proof/Machine/Supervisor.lean ====
section
/-! DEFINITION. The supervisor's requests on the policy table: SET_PRIORITY, SET_POLICY, SET_SAFE and
SET_AUDIT (Chapter 10). -/

namespace Sys2Proof.Machine

/-- A policy record changed. -/
def State.withPolicy (s : State) (g : Group) (f : Policy → Policy) : State :=
  { s with policy := s.policy.modify g f }

/-- A priority of 0 removes the client's waiting claim, with CLAIM_REFUSED(INELIGIBLE), then the
re-evaluation (R51). -/
def removeIneligible (g : Group) (x : Client) (s : State) : State :=
  if s.waits x g then
    reevaluate g (append x (.claimRefused g .ineligible) (dropClaim g x s))
  else s

/-- SET_PRIORITY (R165), after the supervisor test. -/
def setPriorityRequest (group client priority : Byte) (s : State) : Taken :=
  match group? group, client? client, inRange 8 priority with
  | some g, some x, some p =>
    let t := s.withPolicy g fun q => { q with priority := q.priority.put x p }
    done (if p = 0 then removeIneligible g x t else t)
  | _, _, _ => refuse .range s

/-- SET_PRIORITY (R165). -/
def execSetPriority (page : Page) (group client priority : Byte) (s : State) : Outcome :=
  .next (requestFrame page Kind.setPriority.byte [group, client, priority]
    (supervised page (setPriorityRequest group client priority)) s)

/-- SET_POLICY (R166), after the supervisor test. -/
def setPolicyRequest (group preemptible : Byte) (lease grace : Word16) (s : State) : Taken :=
  match group? group, flag? preemptible with
  | some g, some p =>
    done (s.withPolicy g fun q =>
      { q with preemptible := p, leasePeriod := lease, gracePeriod := grace })
  | _, _ => refuse .range s

/-- SET_POLICY (R166). -/
def execSetPolicy (page : Page) (group preemptible : Byte) (lease grace : Word16) (s : State) :
    Outcome :=
  .next (requestFrame page Kind.setPolicy.byte
    [group, preemptible, highByte lease, lowByte lease, highByte grace, lowByte grace]
    (supervised page (setPolicyRequest group preemptible lease grace)) s)

/-- A safe record is stored whole (R167). -/
def storeSafe (l : Line) (r : Record) (s : State) : State :=
  s.withPolicy (groupOf l) fun q => { q with safe := q.safe.put (positionOf l) r }

/-- The safe update (R89): the line takes the record at once; a deassertion is reported. -/
def safeUpdate (l : Line) (r : Record) (s : State) : State :=
  reportDeassertions (asserted s)
    { s with
      active := s.active.put l r
      drivers := s.drivers.put l (r.startDriver false) }

/-- Whether the active configuration of a group is its safe configuration: SAFE or WITHHELD (R21). -/
def atSafe (s : State) (g : Group) : Bool :=
  (s.entry g).state == .safe || (s.entry g).state == .withheld

/-- SET_SAFE (R167, R103), after the supervisor test. -/
def setSafeRequest (line : Byte) (record : RecordBytes) (s : State) : Taken :=
  match line? line with
  | none => refuse .range s
  | some l =>
    match record? l record with
    | none => refuse .range s
    | some r =>
      match r.function with
      | .pulse _ | .mirror _ _ => refuse .range s
      | _ =>
        match (if r.function = .static true then pairIndexOf s l else none) with
        | some i => (s, { code := .interlock, info := byteOf i.val })
        | none =>
          let t := storeSafe l r s
          done (if atSafe s (groupOf l) then safeUpdate l r t else t)

/-- SET_SAFE (R167). -/
def execSetSafe (page : Page) (line : Byte) (record : RecordBytes) (s : State) : Outcome :=
  .next (requestFrame page Kind.setSafe.byte (line :: recordList record)
    (supervised page (setSafeRequest line record)) s)

/-- SET_AUDIT (R168), after the supervisor test. -/
def setAuditRequest (selection : Byte) (s : State) : Taken :=
  match audit? selection with
  | none => refuse .range s
  | some a => done { s with audit := a }

/-- SET_AUDIT (R168). -/
def execSetAudit (page : Page) (selection : Byte) (s : State) : Outcome :=
  .next (requestFrame page Kind.setAudit.byte [selection]
    (supervised page (setAuditRequest selection)) s)

end Sys2Proof.Machine
end

