-- ==== Sys2Proof/Machine/Drivers.lean ====
section
/-! DEFINITION. The line drivers' own events: PULSE_END, and the passing of a pulse unit (Chapter 6). -/

namespace Sys2Proof.Machine

/-- One less, but not below 0. -/
def countDown (w : Word16) : Word16 := if w = 0 then 0 else w - 1

/-- PULSE_END (R110): the remaining time of a pulse in flight has counted down to 0; otherwise no pulse
ends (log 3). -/
def execPulseEnd (l : Line) (s : State) : Outcome :=
  .next (if (s.driver l).pulse = some 0 then
    reportDeassertion l
      (appendHolder (groupOf l) (.pulseDone l) (s.withDriver l fun d => { d with pulse := none }))
    else s)

/-- 10 µs pass with no command waiting: every pulse in flight has one unit less left (R107, log 2). -/
def passPulseUnit (s : State) : State :=
  { s with
    drivers := .tabulate fun l => { s.driver l with pulse := (s.driver l).pulse.map countDown } }

end Sys2Proof.Machine
end

