-- ==== Sys2Proof/Machine/Store.lean ====
section
/-! DEFINITION. The configuration store's requests: STAGE, STAGE_COPY, COMMIT, EXCHANGE (Chapter 4). -/

namespace Sys2Proof.Machine

/-- A client's staged records of a group. -/
def stagedConfig (s : State) (x : Client) (g : Group) : GroupConfig :=
  .tabulate fun p => (s.staged.get x).get (lineOf g p)

/-- The client's staged records of a group are replaced by its four active ones (R73, R81). -/
def stageActive (x : Client) (g : Group) (active : Table 32 Record) (s : State) : State :=
  { s with
    staged := s.staged.modify x fun t =>
      .tabulate fun l => if groupOf l = g then active.get l else t.get l }

/-- STAGE (R72). -/
def stageRequest (x : Client) (line : Byte) (record : RecordBytes) (s : State) : Taken :=
  match line? line with
  | none => refuse .range s
  | some l =>
    match record? l record with
    | none => refuse .range s
    | some r => done { s with staged := s.staged.modify x fun t => t.put l r }

/-- STAGE (R72). -/
def execStage (port : Client) (line : Byte) (record : RecordBytes) (s : State) : Outcome :=
  .next (requestFrame (.client port) Kind.stage.byte (line :: recordList record)
    (stageRequest port line record) s)

/-- STAGE_COPY (R73). -/
def stageCopyRequest (x : Client) (group : Byte) (s : State) : Taken :=
  withGroup group s fun g => done (stageActive x g s.active s)

/-- STAGE_COPY (R73). -/
def execStageCopy (port : Client) (group : Byte) (s : State) : Outcome :=
  .next (requestFrame (.client port) Kind.stageCopy.byte [group] (stageCopyRequest port group) s)

/-- A proposal of the caller's staged records of some groups, which start pulses (R77). -/
def stagedProposal (x : Client) (gs : List Group) (s : State) : Proposal :=
  Proposal.of s (gs.map fun g => (g, stagedConfig s x g)) true

/-- COMMIT (R75 to R79): the tests in order; an accepted commit takes effect in one step. -/
def commitRequest (x : Client) (set : Byte) (s : State) : Taken :=
  let gs := groupsOf set
  if gs = [] then refuse .range s
  else if s.holdsAll x gs = false then refuse .notHolder s
  else
    let p := stagedProposal x gs s
    match judge p s with
    | .loop => (s, { code := .loop, group := gs.head? })
    | .interlock i => (s, { code := .interlock, info := byteOf i.val, group := gs.head? })
    | .accepted => done (p.apply (asserted s) s)

/-- COMMIT (R75 to R79). -/
def execCommit (port : Client) (set : Byte) (s : State) : Outcome :=
  .next (requestFrame (.client port) Kind.commit.byte [set] (commitRequest port set) s)

/-- EXCHANGE (R81): an accepted exchange also moves the old active records into staging. -/
def exchangeRequest (x : Client) (group : Byte) (s : State) : Taken :=
  withGroup group s fun g =>
    if s.holder g ≠ some x then refuse .notHolder s
    else
      let p := stagedProposal x [g] s
      match judge p s with
      | .loop => (s, { code := .loop, group := some g })
      | .interlock i => (s, { code := .interlock, info := byteOf i.val, group := some g })
      | .accepted => done (stageActive x g s.active (p.apply (asserted s) s))

/-- EXCHANGE (R81, R82). -/
def execExchange (port : Client) (group : Byte) (s : State) : Outcome :=
  .next (requestFrame (.client port) Kind.exchange.byte [group] (exchangeRequest port group) s)

end Sys2Proof.Machine
end

