-- ==== Sys2Proof/Machine/Deferred.lean ====
section
/-! DEFINITION. The pending commit unit: DEFER, CANCEL_PENDING, DELAY_EXPIRY, TIMEOUT_EXPIRY (Chapter 8). -/

namespace Sys2Proof.Machine

/-- Whether the record's LINE trigger names the line and the line now has the target level (R138,
R140). -/
def Deferred.lineMet (d : Deferred) (s : State) : Bool :=
  match d.trigger with
  | .line l target _ _ => s.level l == target
  | .time _ _ => false

/-- DEFER (R136 to R138). -/
def deferRequest (x : Client) (set kind line target : Byte) (timeout delay : Word16) (s : State) :
    Taken :=
  let gs := groupsOf set
  if (s.deferred.get x).isSome then refuse .busy s
  else if gs = [] then refuse .range s
  else
    match trigger? kind line target timeout delay with
    | none => refuse .range s
    | some trigger =>
      if s.holdsAll x gs = false then refuse .notHolder s
      else
        let d : Deferred := { parts := gs.map fun g => (g, stagedConfig s x g), trigger }
        let t := { s with deferred := s.deferred.put x (some d) }
        done (if d.lineMet t then applyDeferred x t else t)

/-- DEFER (R136 to R138). -/
def execDefer (port : Client) (set kind line target : Byte) (timeout delay : Word16) (s : State) :
    Outcome :=
  .next (requestFrame (.client port) Kind.defer.byte
    [set, kind, line, target, highByte timeout, lowByte timeout, highByte delay, lowByte delay]
    (deferRequest port set kind line target timeout delay) s)

/-- CANCEL_PENDING (R139). -/
def cancelRequest (x : Client) (s : State) : Taken :=
  match s.deferred.get x with
  | some _ => done { s with deferred := s.deferred.put x none }
  | none => refuse .notPending s

/-- CANCEL_PENDING (R139). -/
def execCancelPending (port : Client) (s : State) : Outcome :=
  .next (requestFrame (.client port) Kind.cancelPending.byte [] (cancelRequest port) s)

/-- DELAY_EXPIRY (R141): the delay timer has counted down to 0; otherwise no expiry occurs (log 3). -/
def execDelayExpiry (x : Client) (s : State) : Outcome :=
  .next (match s.deferred.get x with
    | some { trigger := .time _ 0, .. } => applyDeferred x s
    | _ => s)

/-- TIMEOUT_EXPIRY (R144): the timeout timer has counted down to 0; otherwise no expiry occurs
(log 3). -/
def execTimeoutExpiry (x : Client) (s : State) : Outcome :=
  .next (match s.deferred.get x with
    | some { trigger := .line l _ _ (some 0), .. } =>
      append x (.pendingTimeout l) { s with deferred := s.deferred.put x none }
    | _ => s)

end Sys2Proof.Machine
end

