-- ==== Sys2Proof/Machine/Sampler.lean ====
section
/-! DEFINITION. The line sampler: SAMPLE, WATCH and UNWATCH (Chapter 7). -/

namespace Sys2Proof.Machine

/-! ### A filtered change (R125) -/

/-- Whether an edge selection selects the change to a level (R4). -/
def Edges.selects (e : Edges) (lv : Level) : Bool :=
  match e, lv with
  | .both, _ => true
  | .rising, .high => true
  | .falling, .low => true
  | _, _ => false

/-- Step 2: INPUT_EDGE to the holder, if the active record selects the direction (R126). -/
def reportEdge (l : Line) (lv : Level) (s : State) : State :=
  if (s.record l).edges.selects lv then appendHolder (groupOf l) (.inputEdge l lv) s else s

/-- Step 3: WATCH_EDGE to the watchers whose watch edges select it, in ascending client number
(R131). -/
def reportWatchers (l : Line) (lv : Level) (s : State) : State :=
  clients.foldl (fun t x =>
    match (t.watch.get (groupOf l)).get x with
    | some e => if e.selects lv then append x (.watchEdge l lv) t else t
    | none => t) s

/-- A mirror takes the demand its source now calls for (R95, R97, R116).  A FOLLOWING mirror that gains
demand asserts, or is held; a held one that loses it resumes deasserted. -/
def followMirror (m : Line) (demand : Bool) (s : State) : State :=
  match (s.driver m).mirror, demand with
  | some ⟨.following, false⟩, true =>
    if partnerAsserted s m then
      appendHolder (groupOf m) (.mirrorHeld m)
        (s.withDriver m fun d => { d with mirror := some ⟨.held, true⟩ })
    else s.withDriver m fun d => { d with mirror := some ⟨.following, true⟩ }
  | some ⟨.following, true⟩, false =>
    s.withDriver m fun d => { d with mirror := some ⟨.following, false⟩ }
  | some ⟨.held, _⟩, false =>
    appendHolder (groupOf m) (.mirrorResumed m false)
      (s.withDriver m fun d => { d with mirror := some ⟨.following, false⟩ })
  | _, _ => s

/-- Step 4: the mirrors of the line take their new demand in ascending line number; the deassertions
among them are reported when all have been taken (R96, R116, log 7). -/
def followSource (l : Line) (s : State) : State :=
  reportDeassertions (asserted s) (lines.foldl (fun t m =>
    match (t.record m).function with
    | .mirror src sense => if src = l then followMirror m (demandOf t src sense) t else t
    | _ => t) s)

/-- Step 5: the pending commits whose LINE trigger names the line and is met are applied, in ascending
client number (R140). -/
def fireTriggers (l : Line) (lv : Level) (s : State) : State :=
  clients.foldl (fun t x =>
    match t.deferred.get x with
    | some { trigger := .line l' target _ _, .. } =>
      if l' = l ∧ target = lv then applyDeferred x t else t
    | _ => t) s

/-- A filtered change of a line (R125). -/
def filteredChange (l : Line) (lv : Level) (s : State) : State :=
  fireTriggers l lv (followSource l (reportWatchers l lv (reportEdge l lv
    { s with sampler := s.sampler.put l { level := lv, candidate := none } })))

/-! ### A sample instant (R123, R124) -/

/-- The level found on a pad. -/
def padLevel (pads : BitVec 32) (l : Line) : Level := if pads.getLsbD l.val then .high else .low

/-- One line judged under the filter in force: its sampler state, and whether the sample is accepted
(R123, R124).  The filtered level itself changes with the acceptance's own event. -/
def judgeSample (filter : Fin 16) (found : Level) (t : LineSampler) : LineSampler × Bool :=
  if found = t.level then ({ t with candidate := none }, false)
  else
    let count := (match t.candidate with
      | some c => c.count
      | none => 0) + 1
    if filter.val + 1 ≤ count then ({ t with candidate := none }, true)
    else ({ t with candidate := some { level := found, count } }, false)

/-- The lines in the order given, each once, then the others in ascending order (R125, log 8). -/
def takingOrder (order : List Line) : List Line :=
  (order ++ lines).foldl (fun acc l => if l ∈ acc then acc else acc ++ [l]) []

/-- Every line judged at one instant under the filters as they stand at it (R123, log 16). -/
def judgeSamples (pads : BitVec 32) (s : State) : Table 32 (LineSampler × Bool) :=
  .tabulate fun l => judgeSample (s.record l).filter (padLevel pads l) (s.sampler.get l)

/-- A sample instant: every line is judged, then each acceptance is taken as its own event. -/
def takeSample (pads : BitVec 32) (order : List Line) (s : State) : State :=
  let judged := judgeSamples pads s
  (takingOrder order).foldl (fun t l =>
    if (judged.get l).2 then filteredChange l (padLevel pads l) t else t)
    { s with sampler := .tabulate fun l => (judged.get l).1 }

/-- SAMPLE (R123): no sample is taken while RESETn is low (R173). -/
def execSample (pads : BitVec 32) (order : List Line) (s : State) : Outcome :=
  .next (if s.resetLow then s else takeSample pads order s)

/-! ### Watch sets -/

/-- WATCH (R129). -/
def watchRequest (x : Client) (group edges : Byte) (s : State) : Taken :=
  withGroup group s fun g =>
    match edges? edges with
    | none => refuse .range s
    | some e => done { s with watch := s.watch.modify g fun w => w.put x (some e) }

/-- WATCH (R129). -/
def execWatch (port : Client) (group edges : Byte) (s : State) : Outcome :=
  .next (requestFrame (.client port) Kind.watch.byte [group, edges]
    (watchRequest port group edges) s)

/-- UNWATCH (R130). -/
def unwatchRequest (x : Client) (group : Byte) (s : State) : Taken :=
  withGroup group s fun g =>
    if ((s.watch.get g).get x).isSome then
      done { s with watch := s.watch.modify g fun w => w.put x none }
    else refuse .notWaiting s

/-- UNWATCH (R130). -/
def execUnwatch (port : Client) (group : Byte) (s : State) : Outcome :=
  .next (requestFrame (.client port) Kind.unwatch.byte [group] (unwatchRequest port group) s)

end Sys2Proof.Machine
end

