-- ==== Sys2Proof/Machine/Resets.lean ====
section
/-! DEFINITION. Client reset, device reset and the timebase: DETACH_SELF, DETACH, CLIENT_RESET, CRST_RISE,
DEVICE_RESET, DEVICE_RESET_RELEASE, TIMEBASE_TICK (Chapter 10). -/

namespace Sys2Proof.Machine

/-! ### Client reset -/

/-- DETACH_SELF (R171): the client reset of the caller. -/
def detachSelfRequest (x : Client) (s : State) : Taken := done (clientResetTransaction x s)

/-- DETACH_SELF (R171). -/
def execDetachSelf (port : Client) (s : State) : Outcome :=
  .next (requestFrame (.client port) Kind.detachSelf.byte [] (detachSelfRequest port) s)

/-- DETACH (R171), after the supervisor test; a client held by CRSTx low is left as it is. -/
def detachRequest (client : Byte) (s : State) : Taken :=
  match client? client with
  | none => refuse .range s
  | some x => done (if (s.port x).crstLow then s else clientResetTransaction x s)

/-- DETACH (R171). -/
def execDetach (page : Page) (client : Byte) (s : State) : Outcome :=
  .next (requestFrame page Kind.detach.byte [client] (supervised page (detachRequest client)) s)

/-- The frame in progress is ignored whole (R170, R175). -/
def Port.cutFrame (p : Port) : Port :=
  { p with frame := p.frame.map fun f => { f with ignored := true } }

/-- CRSTx falls on a port (R170): the frame in progress is ignored, and after 1 µs low the client is
held; a shorter low only cuts the frame (log 6). -/
def Port.crstFall (full : Bool) (p : Port) : Port :=
  { p.cutFrame with crstLow := full }

/-- CLIENT_RESET (R170, R172).  A pin already low does not fall; while RESETn is low the fall is held
on the pin and no transaction is taken (R170, R173). -/
def execClientReset (x : Client) (full : Bool) (s : State) : Outcome :=
  .next (
    if (s.port x).crstLow then s
    else
      let t := s.withPort x (Port.crstFall full)
      if full && !s.resetLow then clientResetTransaction x t else t)

/-- CRST_RISE (R170): the hold ends; nothing else happens. -/
def execCrstRise (x : Client) (s : State) : Outcome :=
  .next (s.withPort x fun p => { p with crstLow := false })

/-! ### Device reset -/

/-- What of a port survives a device reset: its pins and the record of MISO.  A frame in progress is
ignored (R173). -/
def Port.deviceReset (p : Port) : Port :=
  { Port.reset with frame := p.cutFrame.frame, miso := p.miso, crstLow := p.crstLow }

/-- Every block at its device-reset values, while RESETn is low (R173).  The pins, the queue of
commands and the counter of free values are not the part's to reset (log 9). -/
def deviceResetState (s : State) : State :=
  { State.reset with
    ports := .tabulate fun x => (s.port x).deviceReset
    sampler := .tabulate fun l => .first (s.level l)
    resetLow := true
    draws := s.draws
    pending := s.pending }

/-- DEVICE_RESET (R173).  RESETn already low does not fall; a low shorter than 1 µs only cuts the
frames in progress (R175, log 6). -/
def execDeviceReset (full : Bool) (s : State) : Outcome :=
  .next (
    if s.resetLow then s
    else if full then deviceResetState s
    else { s with ports := .tabulate fun x => (s.port x).cutFrame })

/-- DEVICE_RESET_RELEASE (R18, R122, R173): RESETn rises and the first sample of every pad sets its
filtered level.  RESETn already high does not rise (log 24). -/
def execDeviceResetRelease (pads : BitVec 32) (s : State) : Outcome :=
  .next (
    if s.resetLow then
      { s with
        resetLow := false
        sampler := .tabulate fun l => .first (padLevel pads l) }
    else s)

/-! ### The timebase -/

/-- Lease remaining after one boundary (R32, R174). -/
def LeaseTimer.tick : LeaseTimer → LeaseTimer
  | .running w => .running (countDown w)
  | other => other

/-- A lease entry after one boundary. -/
def LeaseEntry.tick (e : LeaseEntry) : LeaseEntry :=
  { e with timer := e.timer.tick, grace := e.grace.map countDown }

/-- A trigger's timer after one boundary (R137, R174). -/
def Trigger.tick : Trigger → Trigger
  | .line l target timeout left => .line l target timeout (left.map countDown)
  | .time delay left => .time delay (countDown left)

/-- A pending commit record after one boundary. -/
def Deferred.tick (d : Deferred) : Deferred := { d with trigger := d.trigger.tick }

/-- A millisecond boundary (R174): the count advances and wraps, and every running timer counts it. -/
def passMillisecond (s : State) : State :=
  { s with
    ms := s.ms + 1
    lease := .tabulate fun g => (s.entry g).tick
    deferred := .tabulate fun x => (s.deferred.get x).map Deferred.tick }

/-- TIMEBASE_TICK (R174): the count stands at 0 and no timer runs while RESETn is low (R173). -/
def execTimebaseTick (s : State) : Outcome :=
  .next (if s.resetLow then s else passMillisecond s)

end Sys2Proof.Machine
end

