-- ==== Sys2Proof/Machine/Views.lean ====
section
/-! DEFINITION. What every address of the register window reads as (R23, R49, R135, R154, R169, R179, R180,
R182, R183). -/

namespace Sys2Proof.Machine

/-- A byte as a register shows it: its value, and the bits to which the manual gives no value (log 10). -/
structure Shown where
  value : Byte
  hole  : Byte
deriving DecidableEq, Repr

/-- A byte the manual gives whole. -/
def plain (b : Byte) : Shown := ⟨b, 0⟩

/-- A byte to which the manual gives no value. -/
def unstated : Shown := ⟨0, 0xFF⟩

/-- The byte served, at the n-th draw of the free value. -/
def Shown.resolve (v : Shown) (n : Nat) : Byte :=
  if v.hole = 0 then v.value
  else (v.value &&& ~~~v.hole) ||| (Config.openBits n &&& v.hole)

/-- The byte whose bit j is `f j`. -/
def bits8 (f : Fin 8 → Bool) : Byte :=
  bit (f 0) ||| (bit (f 1) <<< 1) ||| (bit (f 2) <<< 2) ||| (bit (f 3) <<< 3) |||
    (bit (f 4) <<< 4) ||| (bit (f 5) <<< 5) ||| (bit (f 6) <<< 6) ||| (bit (f 7) <<< 7)

/-- Byte `k` of a view of the 32 lines (R179): bit n mod 8 of byte n div 8 is Ln. -/
def lineByte (f : Line → Bool) (k : Fin 4) : Byte :=
  bits8 fun j => f ⟨8 * k.val + j.val, by omega⟩

/-- A client number as bits. -/
def clientBits (x : Client) : Byte := byteOf (clientNumber x)

/-- GROUP_STATE[g] (R179): state, holder present, holder. -/
def groupStateByte (e : LeaseEntry) : Shown :=
  match e.holder with
  | some x => ⟨e.state.code ||| 4 ||| (clientBits x <<< 3), 0xE0⟩
  | none => ⟨e.state.code, 0xF8⟩

/-- The place of a client in a waiting list, counted from 1; 0 where it has no claim (R49). -/
def waitPosition (x : Client) : List Claim → Nat
  | [] => 0
  | c :: rest =>
    if c.client = x then 1
    else match waitPosition x rest with
      | 0 => 0
      | n + 1 => n + 2

/-- WAIT_POS[g] (R49, R179): the reader's position and the length of the list. -/
def waitPosByte (e : LeaseEntry) (x : Client) : Shown :=
  ⟨byteOf (waitPosition x e.waiting) ||| (byteOf e.waiting.length <<< 4), 0xCC⟩

/-- LEASE_FLAGS (R179). -/
def leaseFlagsByte (e : LeaseEntry) : Shown :=
  let running := match e.timer with
    | .running _ => true
    | _ => false
  ⟨bit running ||| (bit (e.timer == .noExpiry) <<< 1) ||| (bit e.grace.isSome <<< 2), 0xF8⟩

/-- LEASE_LEFT (R23, R179): 0 unless the lease timer is running. -/
def leaseLeft (e : LeaseEntry) : Word16 :=
  match e.timer with
  | .running w => w
  | _ => 0

/-- GRACE_LEFT (R23, R179): 0 unless the grace timer is running. -/
def graceLeft (e : LeaseEntry) : Word16 := e.grace.getD 0

/-- The driver state byte (R107, R179). -/
def driverByte (d : Driver) : Shown :=
  let held := match d.mirror with
    | some ⟨.held, _⟩ => true
    | _ => false
  let demand := match d.mirror with
    | some ⟨_, b⟩ => b
    | none => false
  ⟨bit d.pulse.isSome ||| (bit d.mirror.isSome <<< 1) ||| (bit held <<< 2) |||
    (bit demand <<< 3), 0xF0⟩

/-- Byte `i` of the seven of PENDING_STATE and what follows it (R135, R179). -/
def pendingByte (d : Option Deferred) (i : Nat) : Shown :=
  match d with
  | none => plain 0
  | some d =>
    match i with
    | 0 =>
      match d.trigger with
      | .line _ target _ left =>
        ⟨1 ||| (1 <<< 1) ||| (bit (target == .high) <<< 3) ||| (bit left.isSome <<< 4), 0xE0⟩
      | .time _ _ => ⟨1 ||| (2 <<< 1), 0xE0⟩
    | 1 => plain (bits8 fun g => d.parts.any fun p => p.1 == g)
    | 2 =>
      match d.trigger with
      | .line l _ _ _ => plain (byteOf l.val)
      | .time _ _ => unstated
    | 3 =>
      match d.trigger with
      | .line _ _ _ _ => unstated
      | .time _ left => plain (highByte left)
    | 4 =>
      match d.trigger with
      | .line _ _ _ _ => unstated
      | .time _ left => plain (lowByte left)
    | 5 =>
      match d.trigger with
      | .line _ _ _ (some left) => plain (highByte left)
      | _ => unstated
    | _ =>
      match d.trigger with
      | .line _ _ _ (some left) => plain (lowByte left)
      | _ => unstated

/-- EVT1 of an entry (R183). -/
def eventByte1 (e : Event) : Shown :=
  match e with
  | .fault cls _ _ => plain cls.byte
  | _ =>
    let group : Shown := match e.group? with
      | some g => ⟨byteOf g.val ||| 8, 0⟩
      | none => ⟨0, 0x07⟩
    let client : Shown := match e.client? with
      | some x => ⟨(clientBits x <<< 4) ||| 0x40, 0⟩
      | none => ⟨0, 0x30⟩
    ⟨group.value ||| client.value ||| (bit e.levelBit <<< 7), group.hole ||| client.hole⟩

/-- EVT2 of an entry (R183). -/
def eventByte2 (e : Event) : Shown :=
  match e with
  | .revokeNotice _ grace => plain (highByte grace)
  | .fault _ _ kind => plain kind
  | _ =>
    match e.line? with
    | some l => plain (byteOf l.val)
    | none => plain 0xFF

/-- EVT3 of an entry (R183). -/
def eventByte3 (e : Event) : Shown :=
  match e with
  | .revokeNotice _ grace => plain (lowByte grace)
  | _ =>
    match e.reasonByte with
    | some r => plain r
    | none => unstated

/-- Byte `i` of EVT0 to EVT5 for the head of a queue; kind NONE reads zero (R154, R183). -/
def eventByte (head : Option Entry) (i : Nat) : Shown :=
  match head with
  | none => plain 0
  | some e =>
    match i with
    | 0 => plain e.event.kindByte
    | 1 => eventByte1 e.event
    | 2 => eventByte2 e.event
    | 3 => eventByte3 e.event
    | 4 => plain (highByte e.stamp)
    | _ => plain (lowByte e.stamp)

/-- High byte at index 0, low byte after it. -/
def wordByte (w : Word16) (i : Nat) : Shown := plain (if i = 0 then highByte w else lowByte w)

/-- The cell of a table at a number; the first one beyond its end. -/
def Table.at {n : Nat} {α : Type} (t : Table (n + 1) α) (i : Nat) : α :=
  if h : i < n + 1 then t.get ⟨i, h⟩ else t.get 0

/-- The client page of client `x` at address `a` (R179). -/
def clientByte (s : State) (x : Client) (a : Nat) : Shown :=
  let p := s.port x
  let e := s.entry p.leaseSel
  if a = 0x00 then plain 0x6E
  else if a = 0x01 then plain (clientBits x)
  else if a ≤ 0x03 then wordByte s.ms (a - 0x02)
  else if a = 0x04 then plain p.reqKind
  else if a ≤ 0x14 then plain (p.reqParam.at (a - 0x05))
  else if a = 0x15 then plain p.result
  else if a = 0x16 then plain p.resultKind
  else if a = 0x17 then plain p.resultInfo
  else if a = 0x18 then plain (byteOf (s.queues.get x).length)
  else if a ≤ 0x1E then eventByte (s.queues.get x).head? (a - 0x19)
  else if a = 0x1F then plain (p.irqSel.setWidth 8)
  else if a = 0x20 then plain (p.faultSel.setWidth 8)
  else if a ≤ 0x24 then plain (lineByte (fun l => s.level l == .high) (Fin.ofNat 4 (a - 0x21)))
  else if a ≤ 0x28 then plain (lineByte (asserted s) (Fin.ofNat 4 (a - 0x25)))
  else if a ≤ 0x2C then
    plain (lineByte (fun l => (s.driver l).pulse.isSome) (Fin.ofNat 4 (a - 0x29)))
  else if a ≤ 0x34 then groupStateByte (s.lease.at (a - 0x2D))
  else if a ≤ 0x3C then waitPosByte (s.lease.at (a - 0x35)) x
  else if a = 0x3D then plain (byteOf p.leaseSel.val)
  else if a = 0x3E then leaseFlagsByte e
  else if a ≤ 0x40 then wordByte (leaseLeft e) (a - 0x3F)
  else if a ≤ 0x42 then wordByte (graceLeft e) (a - 0x41)
  else if a = 0x43 then plain (byteOf p.lineSel.val)
  else if a ≤ 0x4A then plain (recordByte (s.record p.lineSel).bytes (a - 0x44))
  else if a = 0x4B then driverByte (s.driver p.lineSel)
  else if a ≤ 0x52 then plain (recordByte ((s.staged.get x).get p.lineSel).bytes (a - 0x4C))
  else if a ≤ 0x59 then pendingByte (s.deferred.get x) (a - 0x53)
  else plain 0

/-- Byte 0 or 1 of an index of the interlock view (R169, R180). -/
def pairByte (p : Option Pair) (i : Nat) : Shown :=
  match p with
  | none => plain 0
  | some p => if i = 0 then ⟨0x80 ||| byteOf p.lower.val, 0x60⟩ else plain (byteOf p.higher.val)

/-- A claim of the waiting-list view (R180); places beyond the length read 0. -/
def claimByte (waiting : List Claim) (i : Nat) : Shown :=
  match waiting[i]? with
  | none => plain 0
  | some c =>
    ⟨clientBits c.client ||| (byteOf c.priority.val <<< 2) ||| (bit c.preempt <<< 5) |||
      (bit c.restore <<< 6), 0x80⟩

/-- The client of a number, as the views of the supervisor page order them. -/
def clientAt : Nat → Client
  | 0 => .a
  | 1 => .b
  | 2 => .c
  | _ => .d

/-- The supervisor page at address `a`, 0x80 to 0xFF (R169, R180). -/
def supervisorByte (s : State) (a : Nat) : Shown :=
  let q := s.policy.get s.groupSel
  let e := s.entry s.groupSel
  if a = 0x80 then plain (byteOf s.groupSel.val)
  else if a = 0x81 then plain s.sreqKind
  else if a ≤ 0x91 then plain (s.sreqParam.at (a - 0x82))
  else if a = 0x92 then
    ⟨bit s.audit.losses ||| (bit s.audit.conflicts <<< 1) ||| (bit s.audit.detaches <<< 2), 0xF8⟩
  else if a = 0x93 then
    ⟨bit (s.port .a).crstLow ||| (bit (s.port .b).crstLow <<< 1) |||
      (bit (s.port .c).crstLow <<< 2) ||| (bit (s.port .d).crstLow <<< 3), 0xF0⟩
  else if a ≤ 0x97 then
    plain (bits8 fun g => ((s.park.get (clientAt (a - 0x94))).get g).isSome)
  else if a ≤ 0xA7 then pairByte (s.pairs.at ((a - 0x98) / 2)) ((a - 0x98) % 2)
  else if a ≤ 0xAB then plain (byteOf (q.priority.get (clientAt (a - 0xA8))).val)
  else if a = 0xAC then plain (bit q.preemptible)
  else if a ≤ 0xAE then wordByte q.leasePeriod (a - 0xAD)
  else if a ≤ 0xB0 then wordByte q.gracePeriod (a - 0xAF)
  else if a ≤ 0xCC then plain (recordByte (q.safe.at ((a - 0xB1) / 7)).bytes ((a - 0xB1) % 7))
  else if a = 0xCD then plain e.state.code
  else if a = 0xCE then
    match e.holder with
    | some x => ⟨4 ||| clientBits x, 0xF8⟩
    | none => ⟨0, 0xFB⟩
  else if a = 0xCF then
    plain (match e.priority with
      | some p => byteOf p.val
      | none => 0)
  else if a = 0xD0 then plain (byteOf e.waiting.length)
  else if a ≤ 0xD3 then claimByte e.waiting (a - 0xD1)
  else plain 0

/-- What Port `x` shows at an address: on Ports B to D the supervisor page reads as zero (11.3). -/
def windowByte (s : State) (x : Client) (a : Byte) : Shown :=
  if a.toNat < 0x80 then clientByte s x a.toNat
  else if x = .a then supervisorByte s a.toNat
  else plain 0

end Sys2Proof.Machine
end

