-- ==== Sys2Proof/Machine/Ports.lean ====
section
/-! DEFINITION. The client ports: frames, the register window, the issue of requests; EVENT_POP, IRQ_SEL_WRITE,
REGISTER_WRITE and UNKNOWN (Chapter 11). -/

namespace Sys2Proof.Machine

/-! ### The issue of a request (R178, R181) -/

/-- A client request of a kind is taken with the parameters in the port's registers. -/
def takeClientKind (k : Kind) (x : Client) (p : Nat → Byte) (s : State) : Taken :=
  let record : RecordBytes :=
    { function := p 1, shape := p 2, filter := p 3, widthHi := p 4, widthLo := p 5, source := p 6,
      sense := p 7 }
  match k with
  | .claim => claimRequest x (p 0) (p 1) s
  | .release => releaseRequest x (p 0) s
  | .renew => renewRequest x (p 0) s
  | .withdraw => withdrawRequest x (p 0) s
  | .stage => stageRequest x (p 0) record s
  | .stageCopy => stageCopyRequest x (p 0) s
  | .commit => commitRequest x (p 0) s
  | .exchange => exchangeRequest x (p 0) s
  | .watch => watchRequest x (p 0) (p 1) s
  | .unwatch => unwatchRequest x (p 0) s
  | .defer => deferRequest x (p 0) (p 1) (p 2) (p 3) (word16 (p 4) (p 5)) (word16 (p 6) (p 7)) s
  | .cancelPending => cancelRequest x s
  | .detachSelf => detachSelfRequest x s
  | _ => refuse .notSupervisor s

/-- A supervisor request of a kind is taken with the parameters in the supervisor page. -/
def takeSupervisorKind (k : Kind) (p : Nat → Byte) (s : State) : Taken :=
  let record : RecordBytes :=
    { function := p 1, shape := p 2, filter := p 3, widthHi := p 4, widthLo := p 5, source := p 6,
      sense := p 7 }
  match k with
  | .forceRelease => forceReleaseRequest (p 0) s
  | .withhold => withholdRequest (p 0) s
  | .openGroup => openRequest (p 0) s
  | .setPriority => setPriorityRequest (p 0) (p 1) (p 2) s
  | .setPolicy => setPolicyRequest (p 0) (p 1) (word16 (p 2) (p 3)) (word16 (p 4) (p 5)) s
  | .setSafe => setSafeRequest (p 0) record s
  | .setPair => setPairRequest (p 0) (p 1) (p 2) s
  | .clearPair => clearPairRequest (p 0) s
  | .setAudit => setAuditRequest (p 0) s
  | .detach => detachRequest (p 0) s
  | _ => refuse .unknown s

/-- The parameter registers of a page. -/
def State.params (s : State) (page : Page) (i : Nat) : Byte :=
  match page with
  | .client x => (s.port x).reqParam.at i
  | .supervisor => s.sreqParam.at i

/-- A request is taken by its kind and page (R178). -/
def takeRequest (page : Page) (kind : Byte) (s : State) : Taken :=
  match kind? kind, page with
  | none, _ => refuse .unknown s
  | some k, .client x => takeClientKind k x (s.params page) s
  | some k, .supervisor => takeSupervisorKind k (s.params page) s

/-- UNKNOWN (R156, R178): the write frame that writes this kind and no parameter. -/
def execUnknown (page : Page) (kind : Byte) (s : State) : Outcome :=
  .next (requestFrame page kind [] (takeRequest page kind) s)

/-- The request of a page is issued with the kind its register holds (R178). -/
def issue (page : Page) (s : State) : State :=
  let kind := match page with
    | .client x => (s.port x).reqKind
    | .supervisor => s.sreqKind
  answer (pagePort page) kind (takeRequest page kind s)

/-! ### Frames (R175 to R177) -/

/-- The next address, inside its own half of the window (R175). -/
def nextAddress (a : Byte) : Byte := (a &&& 0x80) ||| ((a + 1) &&& 0x7F)

/-- The bytes latched as one value (R176): first address and count. -/
def latchGroups : List (Nat × Nat) :=
  [(0x02, 2), (0x19, 6), (0x21, 4), (0x25, 4), (0x29, 4), (0x3E, 5), (0x56, 4)]

/-- The latch group of an address. -/
def latchGroup (a : Byte) : Option (Nat × Nat) :=
  latchGroups.find? fun g => decide (g.1 ≤ a.toNat) && decide (a.toNat < g.1 + g.2)

/-- CS falls and the access and address bytes are sent (R175).  CS already low does not fall (log 5). -/
def beginFrame (x : Client) (spaced : Bool) (access start : Byte) (s : State) : State :=
  if (s.port x).frame.isSome then s
  else
    s.withPort x fun p =>
      { p with
        frame := some
          { ignored := !spaced || s.resetLow || p.crstLow || !(access == 0x40 || access == 0x80)
            isRead := access == 0x40
            address := start, buffer := [], latched := [], entry := .untaken, evt5Read := false }
        miso := [0, 0] }

/-- The values of a latch group, all taken now (R176). -/
def latchNow (s : State) (x : Client) (g : Nat × Nat) : List (Byte × Byte) :=
  (List.range g.2).map fun k =>
    let a := byteOf (g.1 + k)
    (a, (windowByte s x a).resolve (s.draws + k))

/-- The latch of the event bytes when their group is latched (R154). -/
def Latch.take (q : List Entry) : Latch :=
  match q with
  | [] => .none
  | e :: _ => .head e

/-- One data byte of a read frame (R154, R176): the latched value, or the register as it stands. -/
def serveByte (x : Client) (f : Frame) (s : State) : State :=
  let a := f.address
  let put (v : Byte) (f' : Frame) (t : State) : State :=
    t.withPort x fun p =>
      { p with
        frame := some { f' with address := nextAddress a, evt5Read := f.evt5Read || a == 0x1E }
        miso := p.miso ++ [v] }
  match f.latched.find? fun l => l.1 == a with
  | some l => put l.2 f s
  | none =>
    match latchGroup a with
    | some g =>
      let now := latchNow s x g
      let v := (now.find? fun l => l.1 == a).elim 0 (·.2)
      let entry := if g.1 = 0x19 then Latch.take (s.queues.get x) else f.entry
      put v { f with latched := f.latched ++ now, entry } { s with draws := s.draws + g.2 }
    | none => put ((windowByte s x a).resolve s.draws) f { s with draws := s.draws + 1 }

/-- One data byte is shifted (R175 to R177): an ignored frame returns zero; a read frame serves; a write
frame assembles and returns zero. -/
def shiftByte (x : Client) (s : State) (mosi : Byte) : State :=
  match (s.port x).frame with
  | none => s
  | some f =>
    if f.ignored then s.withPort x fun p => { p with miso := p.miso ++ [0] }
    else if f.isRead then serveByte x f s
    else
      s.withPort x fun p =>
        { p with
          frame := some
            { f with address := nextAddress f.address, buffer := f.buffer ++ [(f.address, mosi)] }
          miso := p.miso ++ [0] }

/-- A byte stored at frame end (R177, R179, R180): addresses without a writable register discard it. -/
def writeRegister (x : Client) (s : State) (w : Byte × Byte) : State :=
  let a := w.1.toNat
  let v := w.2
  if a = 0x04 then s.withPort x fun p => { p with reqKind := v }
  else if h : 0x05 ≤ a ∧ a ≤ 0x14 then
    s.withPort x fun p => { p with reqParam := p.reqParam.put ⟨a - 0x05, by omega⟩ v }
  else if a = 0x1F then s.withPort x fun p => { p with irqSel := v.setWidth 6 }
  else if a = 0x20 then s.withPort x fun p => { p with faultSel := v.setWidth 5 }
  else if a = 0x3D then s.withPort x fun p => { p with leaseSel := Fin.ofNat 8 v.toNat }
  else if a = 0x43 then s.withPort x fun p => { p with lineSel := Fin.ofNat 32 v.toNat }
  else if x = .a ∧ a = 0x80 then { s with groupSel := Fin.ofNat 8 v.toNat }
  else if x = .a ∧ a = 0x81 then { s with sreqKind := v }
  else if h : x = .a ∧ 0x82 ≤ a ∧ a ≤ 0x91 then
    { s with sreqParam := s.sreqParam.put ⟨a - 0x82, by omega⟩ v }
  else s

/-- A write frame takes effect: its bytes are stored, then the request it wrote is issued (R177,
R178). -/
def takeWrites (x : Client) (buffer : List (Byte × Byte)) (s : State) : State :=
  let t := buffer.foldl (writeRegister x) s
  if buffer.any fun w => w.1 == 0x04 then issue (.client x) t
  else if x = .a ∧ (buffer.any fun w => w.1 == 0x81) = true then issue .supervisor t
  else t

/-- The pop at frame end (R155): the latched entry leaves the head of the queue, unless a client reset
has emptied the queue since. -/
def popEntry (x : Client) (entry : Latch) (s : State) : State :=
  match entry with
  | .head _ => { s with queues := s.queues.modify x List.tail }
  | _ => s

/-- CS rises (R155, R177): `whole` where it rises after a whole byte. -/
def finishFrame (x : Client) (whole : Bool) (s : State) : State :=
  match (s.port x).frame with
  | none => s
  | some f =>
    let t := s.withPort x fun p => { p with frame := none }
    if f.ignored then t
    else if f.isRead then (if f.evt5Read then popEntry x f.entry t else t)
    else if whole then takeWrites x f.buffer t
    else t

/-- A whole frame; with CS already low none begins (log 5). -/
def wholeFrame (x : Client) (access start : Byte) (data : List Byte) (s : State) : State :=
  if (s.port x).frame.isSome then s
  else finishFrame x true (data.foldl (shiftByte x) (beginFrame x true access start s))

/-- Whether a write frame that is not ignored is in progress. -/
def writing (s : State) (x : Client) : Bool :=
  match (s.port x).frame with
  | some f => !f.isRead && !f.ignored
  | none => false

/-- EVENT_POP (R154, R155, R175, R176): a read frame, whole or one piece.  The pieces do nothing to a
write frame in progress (log 5). -/
def execEventPop (port : Client) (op : ReadOp) (s : State) : Outcome :=
  .next (match op with
    | .frame start count => wholeFrame port 0x40 start (List.replicate count 0) s
    | .begin spaced start => beginFrame port spaced 0x40 start s
    | .next => if writing s port then s else shiftByte port s 0
    | .finish => if writing s port then s else finishFrame port true s)

/-- IRQ_SEL_WRITE (R158): the write frame of one byte at 0x1F. -/
def execIrqSelWrite (port : Client) (value : Byte) (s : State) : Outcome :=
  .next (
    if (s.port port).frame.isSome then s
    else
      let t := misoZeros port 3 s
      if portTakes s port then t.withPort port fun p => { p with irqSel := value.setWidth 6 } else t)

/-- REGISTER_WRITE (R175, R177, R178): a write frame, whole or one piece. -/
def execRegisterWrite (port : Client) (op : WriteOp) (s : State) : Outcome :=
  .next (match op with
    | .frame start data => wholeFrame port 0x80 start data s
    | .runt bytes => if (s.port port).frame.isSome then s else misoZeros port bytes.val s
    | .begin spaced access start => beginFrame port spaced access start s
    | .next data => shiftByte port s data
    | .finish whole => finishFrame port whole s)

end Sys2Proof.Machine
end

