-- ==== Sys2Proof/Machine/Dispatch.lean ====
section
/-! DEFINITION. One arm for each command. -/

namespace Sys2Proof.Machine

def exec (i : Instr) (s : State) : Host.Outcome State Fault Refusal :=
  match i with
  | .claim p g f => Sys2Proof.Machine.execClaim p g f s
  | .release p g => Sys2Proof.Machine.execRelease p g s
  | .renew p g => Sys2Proof.Machine.execRenew p g s
  | .withdraw p g => Sys2Proof.Machine.execWithdraw p g s
  | .stage p l r => Sys2Proof.Machine.execStage p l r s
  | .stageCopy p g => Sys2Proof.Machine.execStageCopy p g s
  | .commit p set => Sys2Proof.Machine.execCommit p set s
  | .exchange p g => Sys2Proof.Machine.execExchange p g s
  | .watch p g e => Sys2Proof.Machine.execWatch p g e s
  | .unwatch p g => Sys2Proof.Machine.execUnwatch p g s
  | .defer p set k l t timeout delay => Sys2Proof.Machine.execDefer p set k l t timeout delay s
  | .cancelPending p => Sys2Proof.Machine.execCancelPending p s
  | .detachSelf p => Sys2Proof.Machine.execDetachSelf p s
  | .forceRelease p g => Sys2Proof.Machine.execForceRelease p g s
  | .withhold p g => Sys2Proof.Machine.execWithhold p g s
  | .openGroup p g => Sys2Proof.Machine.execOpenGroup p g s
  | .setPriority p g x prio => Sys2Proof.Machine.execSetPriority p g x prio s
  | .setPolicy p g f lease grace => Sys2Proof.Machine.execSetPolicy p g f lease grace s
  | .setSafe p l r => Sys2Proof.Machine.execSetSafe p l r s
  | .setPair p n l m => Sys2Proof.Machine.execSetPair p n l m s
  | .clearPair p n => Sys2Proof.Machine.execClearPair p n s
  | .setAudit p sel => Sys2Proof.Machine.execSetAudit p sel s
  | .detach p x => Sys2Proof.Machine.execDetach p x s
  | .unknown p k => Sys2Proof.Machine.execUnknown p k s
  | .eventPop p op => Sys2Proof.Machine.execEventPop p op s
  | .irqSelWrite p v => Sys2Proof.Machine.execIrqSelWrite p v s
  | .registerWrite p op => Sys2Proof.Machine.execRegisterWrite p op s
  | .clientReset x full => Sys2Proof.Machine.execClientReset x full s
  | .crstRise x => Sys2Proof.Machine.execCrstRise x s
  | .deviceReset full => Sys2Proof.Machine.execDeviceReset full s
  | .deviceResetRelease pads => Sys2Proof.Machine.execDeviceResetRelease pads s
  | .timebaseTick => Sys2Proof.Machine.execTimebaseTick s
  | .leaseExpiry g => Sys2Proof.Machine.execLeaseExpiry g s
  | .graceExpiry g => Sys2Proof.Machine.execGraceExpiry g s
  | .pulseEnd l => Sys2Proof.Machine.execPulseEnd l s
  | .delayExpiry x => Sys2Proof.Machine.execDelayExpiry x s
  | .timeoutExpiry x => Sys2Proof.Machine.execTimeoutExpiry x s
  | .sample pads order => Sys2Proof.Machine.execSample pads order s

end Sys2Proof.Machine
end

