-- ==== Sys2Proof/Machine/Step.lean ====
section
/-! DEFINITION. One step: the command at the front of the queue, or a pulse unit on an empty queue. -/

namespace Sys2Proof.Machine

/-- The front command is executed with the queue's rest; on an empty queue 10 µs pass (log 2, log 21). -/
def step (s : State) : Host.Outcome State Fault Refusal :=
  match s.pending with
  | [] => .next (passPulseUnit s)
  | c :: rest => exec c { s with pending := rest }

/-- The command a word spells is put at the front of the queue. -/
def State.withFetchWord (s : State) (nbits w : Nat) : State :=
  match decodeTableWord nbits w with
  | some c => { s with pending := c :: s.pending }
  | none => s

end Sys2Proof.Machine
end

