-- ==== Sys2Proof/Safety.lean ====
section
/-! DEFINITION. The laws of the part that every transaction keeps, and the words in which claims say what a
command leaves unchanged and what it answers. -/

namespace Sys2Proof.Machine

/-! ### What is left unchanged -/

/-- The parts of the state, as frames name them. -/
inductive Part where
  | lease | policy | audit | active | staged | park | pairs | drivers | sampler | watch | deferred
  | queues | ports | groupSel | sreq | ms | resetLow | draws | pending
deriving DecidableEq, Repr

/-- The part is the same in both states. -/
def Part.same (s t : State) : Part → Prop
  | .lease => t.lease = s.lease
  | .policy => t.policy = s.policy
  | .audit => t.audit = s.audit
  | .active => t.active = s.active
  | .staged => t.staged = s.staged
  | .park => t.park = s.park
  | .pairs => t.pairs = s.pairs
  | .drivers => t.drivers = s.drivers
  | .sampler => t.sampler = s.sampler
  | .watch => t.watch = s.watch
  | .deferred => t.deferred = s.deferred
  | .queues => t.queues = s.queues
  | .ports => t.ports = s.ports
  | .groupSel => t.groupSel = s.groupSel
  | .sreq => t.sreqKind = s.sreqKind ∧ t.sreqParam = s.sreqParam
  | .ms => t.ms = s.ms
  | .resetLow => t.resetLow = s.resetLow
  | .draws => t.draws = s.draws
  | .pending => t.pending = s.pending

/-- Every part but the listed ones is the same. -/
def SameExcept (parts : List Part) (s t : State) : Prop := ∀ p : Part, p ∉ parts → p.same s t

/-- The lease entries of the other groups are the same. -/
def OtherEntries (g : Group) (s t : State) : Prop := ∀ h, h ≠ g → t.entry h = s.entry h

/-- The policy records of the other groups are the same. -/
def OtherPolicies (g : Group) (s t : State) : Prop := ∀ h, h ≠ g → t.policy.get h = s.policy.get h

/-- The ports of the other clients are the same. -/
def OtherPorts (x : Client) (s t : State) : Prop := ∀ y, y ≠ x → t.port y = s.port y

/-- The queues of the other clients are the same. -/
def OtherQueues (x : Client) (s t : State) : Prop :=
  ∀ y, y ≠ x → t.queues.get y = s.queues.get y

/-- The lines outside the named groups keep their records and pulses; their driver states change only
where a held mirror resumes (R96). -/
def LinesOutside (named : Group → Bool) (s t : State) : Prop :=
  ∀ l, named (groupOf l) = false →
    t.record l = s.record l ∧
      (t.driver l = s.driver l ∨
        ((s.driver l).mirror.map (·.phase) = some .held ∧
          t.driver l = { s.driver l with mirror := some ⟨.following, true⟩ }))

/-- One group, as the named groups of a replacement. -/
def only (g : Group) : Group → Bool := fun h => h == g

/-! ### What a replacement gives the lines it names (R8, R94, R98, R108) -/

/-- The judgement of a new mirror finds a partner of its line asserted (R94): a line of the named groups that
is a mirror counts only where it is the lower of the two, since mirrors are judged in ascending line number;
a line outside counts where it was asserted before the replacement. -/
def BlockedBy (named : Group → Bool) (s t : State) (l k : Line) : Prop :=
  k ∈ partners t l ∧ asserted t k = true ∧
    (named (groupOf k) = true → ∀ src sense, (t.record k).function = .mirror src sense → k < l) ∧
    (named (groupOf k) = false → asserted s k = true)

/-- The driver state of a line that has taken a record, from `s` to `t`: a started pulse has its whole width; a
mirror has the demand its source's filtered level calls for, and is held exactly where it has demand and some
partner of the line is asserted, one that its judgement finds asserted; no other record keeps driver state. -/
def Starts (named : Group → Bool) (s t : State) (l : Line) (r : Record) (starts : Bool) : Prop :=
  match r.function with
  | .input | .static _ => t.driver l = ⟨none, none⟩
  | .pulse w => t.driver l = ⟨if starts then some w else none, none⟩
  | .mirror src sense =>
    (t.driver l).pulse = none ∧
      ∃ m, (t.driver l).mirror = some m ∧ m.demand = demandOf t src sense ∧
        (m.phase = .held ↔ m.demand = true ∧ partnerAsserted t l = true) ∧
        (m.phase = .held → ∃ k, BlockedBy named s t l k)

/-- Every line of the named groups has taken the record given for it. -/
def Replaced (named : Group → Bool) (result : Line → Record) (starts : Bool) (s t : State) : Prop :=
  ∀ l, named (groupOf l) = true → t.record l = result l ∧ Starts named s t l (result l) starts

/-- A group has taken a configuration; its PULSE records rest (R12). -/
def GroupTakes (g : Group) (cfg : GroupConfig) (s t : State) : Prop :=
  Replaced (only g) (fun l => cfg.get (positionOf l)) false s t

/-! ### Events (R150 to R153) -/

/-- The queue of a client after some events have reached it in this order (R152, R153). -/
def delivered (s : State) (y : Client) (es : List Event) : List Entry :=
  if (s.port y).crstLow then s.queues.get y
  else es.foldl (fun q e => enqueue q e s.ms) (s.queues.get y)

/-- From `s` to `t` exactly these events reach each client's queue, in this order. -/
def Sends (s t : State) (es : Client → List Event) : Prop :=
  ∀ y, t.queues.get y = delivered s y (es y)

/-- These events to one client, none to the others. -/
def toClient (x : Client) (es : List Event) (y : Client) : List Event := if y = x then es else []

/-- These events to a holder, where there is one. -/
def toHolder (h : Option Client) (es : List Event) (y : Client) : List Event :=
  if h = some y then es else []

/-- GROUP_STATE to each watcher of a group (R132). -/
def toWatchers (s : State) (g : Group) (st : GroupState) (h : Option Client) (y : Client) : List Event :=
  if ((s.watch.get g).get y).isSome then [.groupState g st h] else []

/-- The mirrors outside the named groups that resume from `s` to `t`: MIRROR_RESUMED once for each, to the
holder of its group (R96). -/
def Resumptions (named : Group → Bool) (s t : State) (es : Client → List Event) : Prop :=
  ∀ y, (es y).Nodup ∧ ∀ e, e ∈ es y ↔
    ∃ l, e = .mirrorResumed l true ∧ named (groupOf l) = false ∧ s.holder (groupOf l) = some y ∧
      (s.driver l).mirror.map (·.phase) = some .held ∧
      (t.driver l).mirror = some ⟨.following, true⟩

/-- No MIRROR line outside the named groups resumes while another line is asserted that is its partner
(R96). -/
def Unopposed (named : Group → Bool) (s t : State) : Prop :=
  ∀ m src sense, named (groupOf m) = false → (s.driver m).mirror.map (·.phase) = some .held →
    (t.driver m).mirror = some ⟨.following, true⟩ → (t.record m).function = .mirror src sense →
    ∀ k ∈ partners t m, k ≠ m → asserted t k = false

/-- The number of the lowest partner of a line that was asserted and is so no more; 0 where there is none.
Its report is the one at which a held mirror resumes (R96). -/
def reportOf (was : Line → Bool) (t : State) (m : Line) : Nat :=
  match lines.find? fun l => was l && !asserted t l && decide (l ∈ partners t m) with
  | some l => l.val
  | none => 0

/-- The order in which held mirrors are re-evaluated in step 5 of R98: the reports in ascending line number,
and the mirrors of one report in ascending line number. -/
def JudgedBefore (was : Line → Bool) (t : State) (m k : Line) : Prop :=
  reportOf was t m < reportOf was t k ∨ (reportOf was t m = reportOf was t k ∧ m < k)

/-- Resumptions stand in the order of step 5 of R98. -/
def InReportOrder (was : Line → Bool) (t : State) (es : Client → List Event) : Prop :=
  ∀ y, (es y).Pairwise fun e f =>
    ∀ m k, e = .mirrorResumed m true → f = .mirrorResumed k true → JudgedBefore was t m k

/-- Every held mirror that had a partner among the lines of `was`, which is no longer asserted, has been
re-evaluated, each against the state the ones before it have left: where it is still held, some partner of it
is asserted, and one of the lines that may have resumed only if it was judged before (R14, R96). -/
def Reevaluated (was : Line → Bool) (resumed : Line → Prop) (t : State) : Prop :=
  ∀ l m, l ∈ partners t m → was l = true → asserted t l = false →
    (t.driver m).mirror.map (·.phase) = some .held →
    ∃ k ∈ partners t m, asserted t k = true ∧ (resumed k → JudgedBefore was t k m)

/-- The lines outside the named groups that are not asserted: they can assert by resuming alone. -/
def RestsOutside (named : Group → Bool) (s : State) (k : Line) : Prop :=
  named (groupOf k) = false ∧ asserted s k = false

/-- R96 after a transaction: the mirrors that resume send MIRROR_RESUMED in the order of their reports, none
resumes against an asserted partner, and none is left held but by a partner that is asserted when it is
judged. -/
def Resumes (named : Group → Bool) (s t : State) (es : Client → List Event) : Prop :=
  Resumptions named s t es ∧ Unopposed named s t ∧ InReportOrder (asserted s) t es ∧
    Reevaluated (asserted s) (RestsOutside named s) t

/-- PULSE_CUT for each pulse in flight on a group's lines, in ascending line number (R113). -/
def cutEvents (s : State) (g : Group) (reason : CutReason) : List Event :=
  ((linesOf g).filter fun l => (s.driver l).pulse.isSome).map fun l => .pulseCut l reason

/-- PENDING_DROPPED where the client's pending commit names the group (R145). -/
def dropEvents (s : State) (g : Group) (h : Client) : List Event :=
  match s.deferred.get h with
  | some d => if d.parts.any fun p => p.1 == g then [.pendingDropped g] else []
  | none => []

/-- The pending commits after a client has lost a group: its own is gone if it named the group (R145). -/
def DropsDeferred (s t : State) (g : Group) (h : Client) : Prop :=
  t.deferred.get h = (if dropEvents s g h = [] then s.deferred.get h else none) ∧
    ∀ y, y ≠ h → t.deferred.get y = s.deferred.get y

/-- What a forced loss sends before the group passes on (R34, R162): LOST, A's audit copy, the cuts, the
dropped pending commit. -/
def lossEvents (s : State) (g : Group) (h : Client) (reason : LossReason) (y : Client) : List Event :=
  toClient h [.lost g reason] y ++
    (if s.audit.losses then toClient .a [.audit h .loss (some g)] y else []) ++
    toClient h (cutEvents s g .lost ++ dropEvents s g h) y

/-- MIRROR_HELD for each mirror of the named groups that is held, in ascending line number, to the
holder of its group (R94). -/
def heldEvents (named : Group → Bool) (t : State) (y : Client) : List Event :=
  (lines.filter fun l => named (groupOf l) && (t.driver l).mirror.map (·.phase) == some .held &&
    t.holder (groupOf l) == some y).map .mirrorHeld

/-- PULSE_CUT(OVERTAKEN) for each pulse in flight whose line takes another function, in ascending line
number, to the holder of its group (R112). -/
def overtakenEvents (named : Group → Bool) (result : Line → Record) (s : State) (y : Client) :
    List Event :=
  (lines.filter fun l => named (groupOf l) && (s.driver l).pulse.isSome &&
    (match (result l).function with
      | .pulse _ => false
      | _ => true) && s.holder (groupOf l) == some y).map fun l => .pulseCut l .overtaken

/-! ### Interrupt selection (R158, R159, R179) -/

/-- The bit of IRQ_SEL that enables the class of an event: kind by kind the class of 9.5, and bits 0 to 5 are
LEASE, LINE, WATCH, PENDING, FAULT and SYSTEM (R179). -/
def irqBit : Event → Nat
  -- LEASE
  | .granted _ => 0
  | .lost _ _ => 0
  | .revokeNotice _ _ => 0
  | .revokeCancelled _ => 0
  | .claimRefused _ _ => 0
  | .restoreRefused _ _ => 0
  -- LINE
  | .inputEdge _ _ => 1
  | .pulseDone _ => 1
  | .pulseCut _ _ => 1
  | .mirrorHeld _ => 1
  | .mirrorResumed _ _ => 1
  -- WATCH
  | .watchEdge _ _ => 2
  | .groupState _ _ _ => 2
  -- PENDING
  | .pendingDone _ => 3
  | .pendingFailed _ _ => 3
  | .pendingTimeout _ => 3
  | .pendingDropped _ => 3
  -- FAULT
  | .fault _ _ _ => 4
  -- SYSTEM
  | .overflow => 5
  | .audit _ _ _ => 5

/-! ### Requests (R156, R157, R163, R177, R178) -/

/-- Of a port, everything but its request registers, its result registers and the record of MISO. -/
def PortSettings (s t : State) (x : Client) : Prop :=
  (t.port x).irqSel = (s.port x).irqSel ∧ (t.port x).faultSel = (s.port x).faultSel ∧
    (t.port x).leaseSel = (s.port x).leaseSel ∧ (t.port x).lineSel = (s.port x).lineSel ∧
    (t.port x).frame = (s.port x).frame ∧ (t.port x).crstLow = (s.port x).crstLow

/-- The result registers of a port (R156). -/
def Answers (t : State) (x : Client) (code : ResultCode) (kind info : Byte) : Prop :=
  (t.port x).result = code.byte ∧ (t.port x).resultKind = kind ∧ (t.port x).resultInfo = info

/-- The request registers of a page hold a request's kind and parameters, those beyond them as before;
the other page's request registers are as before. -/
def HoldsRequest (s t : State) (page : Page) (kind : Byte) (params : List Byte) : Prop :=
  match page with
  | .client x =>
    (t.port x).reqKind = kind ∧
      (∀ i, (t.port x).reqParam.get i = params.getD i.val ((s.port x).reqParam.get i)) ∧
      t.sreqKind = s.sreqKind ∧ t.sreqParam = s.sreqParam
  | .supervisor =>
    t.sreqKind = kind ∧ (∀ i, t.sreqParam.get i = params.getD i.val (s.sreqParam.get i)) ∧
      (t.port .a).reqKind = (s.port .a).reqKind ∧ (t.port .a).reqParam = (s.port .a).reqParam

/-- A request has been taken and answered at the port of its page: registers, result, zeros on MISO,
nothing else of the ports. -/
def Served (s t : State) (page : Page) (kind : Byte) (params : List Byte) (code : ResultCode)
    (info : Byte) : Prop :=
  Answers t (pagePort page) code kind info ∧ HoldsRequest s t page kind params ∧
    (t.port (pagePort page)).miso = List.replicate (params.length + 3) 0 ∧
    PortSettings s t (pagePort page) ∧ OtherPorts (pagePort page) s t

/-- The client to whom the refusal of a request of a page is reported: client A for a supervisor request,
codes 0x20 to 0x29, wherever it is issued (R149, R157, R164, R168; log 27); the port's own for any other. -/
def faultClient (page : Page) (kind : Byte) : Client :=
  if 0x20 ≤ kind.toNat ∧ kind.toNat ≤ 0x29 then .a else pagePort page

/-- The bit of FAULT_SEL that is 1 while a fault class is RECORD: bits 0 to 4 are OWNERSHIP, SEQUENCE, RANGE,
CONFLICT and AUTHORITY (R157, R179). -/
def faultBit : FaultClass → Nat
  | .ownership => 0
  | .sequence => 1
  | .range => 2
  | .conflict => 3
  | .authority => 4

/-- The FAULT entry of a refusal, where the bit of its class in the client's FAULT_SEL is 1 (R157, R179). -/
def faultEvents (s : State) (x : Client) (cls : FaultClass) (code : ResultCode) (kind : Byte)
    (y : Client) : List Event :=
  if (s.port x).faultSel.getLsbD (faultBit cls) then toClient x [.fault cls code kind] y else []

/-- A request has been refused and has changed nothing but its port: the FAULT by selection, for a
CONFLICT refusal A's audit copy after it (R157, R163). -/
def Refused (s t : State) (page : Page) (kind : Byte) (params : List Byte) (cls : FaultClass)
    (code : ResultCode) (info : Byte) (group : Option Group) : Prop :=
  Served s t page kind params code info ∧ SameExcept [.ports, .sreq, .queues] s t ∧
    Sends s t fun y =>
      faultEvents s (faultClient page kind) cls code kind y ++
        if cls = .conflict ∧ s.audit.conflicts = true then
          toClient .a [.audit (pagePort page) .conflict group] y
        else []

/-- The outcome of a request is a next state in which it has been refused, with RESULT_INFO 0 and no group
for the audit. -/
def AnswersRefused (o : Outcome) (s : State) (page : Page) (kind : Byte) (params : List Byte)
    (cls : FaultClass) (code : ResultCode) : Prop :=
  ∃ t, o = .next t ∧ Refused s t page kind params cls code 0 none

/-! ### Lease entries -/

/-- Lease remaining right after a start from a period (R32). -/
def startedTimer (period : Word16) : LeaseTimer := if period = 0 then .noExpiry else .running period

/-- A claim stands in the list directly behind the claims of its priority or above, ahead of those
below (R47). -/
def Inserted (c : Claim) (before after : List Claim) : Prop :=
  ∃ front back, before = front ++ back ∧ after = front ++ c :: back ∧
    (∀ d ∈ front, c.priority ≤ d.priority) ∧ (∀ d ∈ back, d.priority < c.priority)

/-- The entry of a group without a holder (R39). -/
def Vacant (t : State) (g : Group) (st : GroupState) : Prop :=
  (t.entry g).state = st ∧ (t.entry g).holder = none ∧ (t.entry g).priority = none ∧
    (t.entry g).timer = .stopped ∧ (t.entry g).grace = none ∧ (t.entry g).waiting = []

/-- The entry of a group that has just been granted (R25, R36, R37). -/
def Held (s t : State) (g : Group) (n : Client) (prio : Priority) (rest : List Claim) : Prop :=
  (t.entry g).state = .held ∧ (t.entry g).holder = some n ∧ (t.entry g).priority = some prio ∧
    (t.entry g).timer = startedTimer (s.policy.get g).leasePeriod ∧ (t.entry g).grace = none ∧
    (t.entry g).waiting = rest

/-- A group passes on to a waiting list's head, or falls to safe where the list is empty (R35, R36, R39),
for a head whose claim tries no restore. -/
def PassesOn (s t : State) (g : Group) : List Claim → Prop
  | [] => Vacant t g .safe
  | c :: rest => Held s t g c.client c.priority rest

/-- What passing on sends besides the resumptions: GRANTED to the new holder (R38). -/
def grantedEvents (g : Group) (waiting : List Claim) (y : Client) : List Event :=
  toHolder (waiting.head?.map (·.client)) [.granted g] y

/-- GROUP_STATE of passing on (R35). -/
def passedState (s : State) (g : Group) (waiting : List Claim) (y : Client) : List Event :=
  match waiting with
  | [] => toWatchers s g .safe none y
  | c :: _ => toWatchers s g .held (some c.client) y

/-- The head of a waiting list, if any, tries no restore: its claim does not ask, or its client has no
valid park record of the group (R85). -/
def NoRestore (s : State) (g : Group) (waiting : List Claim) : Prop :=
  ∀ c, waiting.head? = some c → c.restore = false ∨ (s.park.get c.client).get g = none

/-- All a forced loss of a group from its holder does, for a waiting list that it then passes to (R34, R35,
R83), where the head tries no restore. -/
def LosesGroup (s t : State) (g : Group) (h : Client) (reason : LossReason) (waiting : List Claim) :
    Prop :=
  PassesOn s t g waiting ∧ OtherEntries g s t ∧
    (t.park.get h).get g = some (s.groupConfig g) ∧
    (∀ y k, ¬ (y = h ∧ k = g) → (t.park.get y).get k = (s.park.get y).get k) ∧
    GroupTakes g (s.policy.get g).safe s t ∧ LinesOutside (only g) s t ∧ DropsDeferred s t g h ∧
    ∃ rs, Resumes (only g) s t rs ∧
      Sends s t fun y =>
        lossEvents s g h reason y ++ grantedEvents g waiting y ++ rs y ++ passedState s g waiting y

/-- All a handover does to a group whose new holder's claim asks for a restore of a valid park record
(R36 to R38, R85 to R87): the park configuration is judged with the old holder's gone; accepted, it is in
place and the park record invalid; refused, the safe configuration is in place and the park record stays.
`sends` says that these events follow those of the old holder's end. -/
def HandsOverRestoring (s t : State) (g : Group) (c : Claim) (rest : List Claim) (cfg : GroupConfig)
    (sends : (Client → List Event) → Prop) : Prop :=
  Held s t g c.client c.priority rest ∧ OtherEntries g s t ∧ LinesOutside (only g) s t ∧
    ∃ rs, Resumes (only g) s t rs ∧
      match judge (Proposal.of s [(g, cfg)] false) s with
      | .accepted =>
        (t.park.get c.client).get g = none ∧ GroupTakes g cfg s t ∧
        sends fun y =>
          toClient c.client [.granted g] y ++ heldEvents (only g) t y ++ rs y ++
            toWatchers s g .held (some c.client) y
      | .loop =>
        (t.park.get c.client).get g = some cfg ∧ GroupTakes g (s.policy.get g).safe s t ∧
        sends fun y =>
          toClient c.client [.granted g, .restoreRefused g .loop] y ++ rs y ++
            toWatchers s g .held (some c.client) y
      | .interlock _ =>
        (t.park.get c.client).get g = some cfg ∧ GroupTakes g (s.policy.get g).safe s t ∧
        sends fun y =>
          toClient c.client [.granted g, .restoreRefused g .interlock] y ++ rs y ++
            toWatchers s g .held (some c.client) y

/-- All a forced loss does whose handover goes to such a claim (R34, R35, R83): the old holder's park
record is written, the new holder's used as the handover says, every other stays. -/
def LosesToRestore (s t : State) (g : Group) (h : Client) (reason : LossReason) (c : Claim)
    (rest : List Claim) (cfg : GroupConfig) : Prop :=
  (HandsOverRestoring s t g c rest cfg fun es =>
    Sends s t fun y => lossEvents s g h reason y ++ es y) ∧
    DropsDeferred s t g h ∧ (t.park.get h).get g = some (s.groupConfig g) ∧
    ∀ y k, ¬ (y = h ∧ k = g) → ¬ (y = c.client ∧ k = g) →
      (t.park.get y).get k = (s.park.get y).get k

/-! ### Pending commits (R142, R143) -/

/-- All the application of a met pending commit does. -/
def AppliesDeferred (s t : State) (x : Client) (d : Deferred) : Prop :=
  t.deferred.get x = none ∧ (∀ y, y ≠ x → t.deferred.get y = s.deferred.get y) ∧
    match judge (Proposal.of s d.parts true) s with
    | .accepted =>
      (∀ part ∈ d.parts, ∀ p, t.record (lineOf part.1 p) = part.2.get p) ∧
      Replaced (Proposal.of s d.parts true).named (Proposal.of s d.parts true).result true s t ∧
      LinesOutside (Proposal.of s d.parts true).named s t ∧
      ∃ rs, Resumes (Proposal.of s d.parts true).named s t rs ∧
        Sends s t fun y =>
          toClient x [.pendingDone d.trigger.line?] y ++
            overtakenEvents (Proposal.of s d.parts true).named (Proposal.of s d.parts true).result s y ++
            heldEvents (Proposal.of s d.parts true).named t y ++ rs y
    | .loop =>
      t.active = s.active ∧ t.drivers = s.drivers ∧
        Sends s t (toClient x [.pendingFailed d.trigger.line? .loop])
    | .interlock _ =>
      t.active = s.active ∧ t.drivers = s.drivers ∧
        Sends s t (toClient x [.pendingFailed d.trigger.line? .interlock])

/-- What a filtered change of a line to a level sends (R126, R131): INPUT_EDGE to the holder whose record
selects the direction, then WATCH_EDGE to the watchers whose edges do. -/
def edgeEvents (s : State) (l : Line) (lv : Level) (y : Client) : List Event :=
  (if (s.record l).edges = .both ∨ (s.record l).edges = .rising ∧ lv = .high ∨
      (s.record l).edges = .falling ∧ lv = .low then
    toHolder (s.holder (groupOf l)) [.inputEdge l lv] y else []) ++
  match (s.watch.get (groupOf l)).get y with
  | some e =>
    if e = .both ∨ e = .rising ∧ lv = .high ∨ e = .falling ∧ lv = .low then [.watchEdge l lv] else []
  | none => []

/-! ### A filtered change and the mirrors of its line (R95, R97, R116, R125) -/

/-- Which mirrors of a line that has changed gain demand and are held at once (R95): those with a partner
asserted at their turn, the mirrors of the line being taken in ascending line number (log 7).  A mirror
already taken is asserted if it follows with demand and was not caught itself; every other line is as
before. -/
def Catches (s t : State) (l : Line) (caught : Line → Bool) : Prop :=
  ∀ m, caught m = true ↔
    ∃ sense, (s.record m).function = .mirror l sense ∧ demandOf t l sense = true ∧
      (s.driver m).mirror = some ⟨.following, false⟩ ∧
      ∃ k ∈ partners s m,
        (k < m ∧ ∃ sense', (s.record k).function = .mirror l sense' ∧ demandOf t l sense' = true ∧
          (s.driver k).mirror.map (·.phase) = some .following ∧ caught k = false) ∨
        ((m ≤ k ∨ ∀ sense', (s.record k).function ≠ .mirror l sense') ∧ asserted s k = true)

/-- What one line sends as a mirror of a line that has changed: MIRROR_HELD where it is caught (R95),
MIRROR_RESUMED(deasserted) where it was held and lost its demand (R97). -/
def turnEvents (s t : State) (l : Line) (caught : Line → Bool) (m : Line) : List Event :=
  match (s.record m).function with
  | .mirror src sense =>
    if src ≠ l then []
    else if caught m then [.mirrorHeld m]
    else if (s.driver m).mirror.map (·.phase) = some .held ∧ demandOf t l sense = false then
      [.mirrorResumed m false]
    else []
  | _ => []

/-- MIRROR_RESUMED(asserted) after the turns of the mirrors (R96): once for each mirror that was held or
caught and now follows with demand, to the holder of its group, in the order of the reports; none of them
has an asserted partner, and none is left held but by a partner that is asserted when it is judged. -/
def ResumesCaught (s t : State) (caught : Line → Bool) (rs : Client → List Event) : Prop :=
  (∀ y, (rs y).Nodup ∧ ∀ e, e ∈ rs y ↔
    ∃ m, e = .mirrorResumed m true ∧ s.holder (groupOf m) = some y ∧
      (caught m = true ∨ (s.driver m).mirror.map (·.phase) = some .held) ∧
      (t.driver m).mirror = some ⟨.following, true⟩) ∧
  (∀ y m, .mirrorResumed m true ∈ rs y → partnerAsserted t m = false) ∧
  InReportOrder (asserted s) t rs ∧
  Reevaluated (asserted s)
    (fun k => caught k = true ∨ (s.driver k).mirror.map (·.phase) = some .held) t

/-- All a filtered change of a line to a level does before any pending commit is met (R125, steps 1 to 4):
the edges are reported; each mirror of the line takes the demand its source now calls for, one that gains
it being held exactly where a partner is asserted; the mirrors that deasserting lines held are
re-evaluated. -/
def FollowsSource (s t : State) (l : Line) (lv : Level) : Prop :=
  SameExcept [.sampler, .drivers, .queues] s t ∧ t.level l = lv ∧
  (∀ m, m ≠ l → t.level m = s.level m) ∧
  (∀ m sense, (s.record m).function = .mirror l sense →
    ∃ mir, t.driver m = { s.driver m with mirror := some mir } ∧ mir.demand = demandOf t l sense ∧
      (mir.demand = false → mir.phase = .following) ∧
      (mir.demand = true → (s.driver m).mirror = some ⟨.following, false⟩ →
        (mir.phase = .held ↔ partnerAsserted t m = true))) ∧
  (∀ m, (∀ sense, (s.record m).function ≠ .mirror l sense) →
    t.driver m = s.driver m ∨
      ((s.driver m).mirror.map (·.phase) = some .held ∧
        t.driver m = { s.driver m with mirror := some ⟨.following, true⟩ })) ∧
  ∃ caught rs, Catches s t l caught ∧ ResumesCaught s t caught rs ∧
    Sends s t fun y =>
      edgeEvents s l lv y ++
        (lines.filter fun m => s.holder (groupOf m) == some y).flatMap (turnEvents s t l caught) ++ rs y

/-- The turn of one client at a filtered change of a line to a level (R140): its pending commit, where the
change meets it, is applied to the state the turns before have left; nothing happens otherwise. -/
def MeetsDeferred (l : Line) (lv : Level) (x : Client) (s t : State) : Prop :=
  (∀ d timeout left, s.deferred.get x = some d → d.trigger = .line l lv timeout left →
    AppliesDeferred s t x d ∧ SameExcept [.deferred, .active, .drivers, .queues] s t) ∧
  ((∀ d timeout left, s.deferred.get x = some d → d.trigger ≠ .line l lv timeout left) → t = s)

/-- Turns taken one after the other, each on the state the turn before has left. -/
def InTurn {α : Type} (turn : α → State → State → Prop) : List α → State → State → Prop
  | [], s, t => t = s
  | a :: later, s, t => ∃ u, turn a s u ∧ InTurn turn later u t

/-- All a filtered change of a line to a level does (R125): the edges and the mirrors, then the pending commits
it meets, client by client in ascending number. -/
def AcceptsChange (s t : State) (l : Line) (lv : Level) : Prop :=
  ∃ m, FollowsSource s m l lv ∧ InTurn (MeetsDeferred l lv) clients m t

/-- The records that a replacement of a client's staged records of some groups would leave (R76). -/
def stagedOver (s : State) (x : Client) (named : Group → Bool) (l : Line) : Record :=
  if named (groupOf l) then (s.staged.get x).get l else s.record l

/-- The lines other than one keep their records; their driver states change only where a held mirror
resumes (R110, R96). -/
def LinesBut (l : Line) (s t : State) : Prop :=
  ∀ m, m ≠ l → t.record m = s.record m ∧
    (t.driver m = s.driver m ∨
      ((s.driver m).mirror.map (·.phase) = some .held ∧
        t.driver m = { s.driver m with mirror := some ⟨.following, true⟩ }))

/-! ### The register window (R175, R176, R179, R180) -/

/-- A read frame of one byte at an address shows this value in the bits of the mask, after the two zero
bytes, and changes nothing but the record of MISO and the counter of free values. -/
def ReadsAs (s : State) (x : Client) (a mask value : Byte) : Prop :=
  ∃ t b, exec (.eventPop x (.frame a 1)) s = .next t ∧ SameExcept [.ports, .draws] s t ∧
    OtherPorts x s t ∧ t.port x = { s.port x with miso := [0, 0, b] } ∧ b &&& mask = value

/-- The address of the data byte of a number of a frame (R175): addresses count on inside their own half of
the window. -/
def frameAddress (start : Byte) (i : Nat) : Byte :=
  (start &&& 0x80) ||| ((start + BitVec.ofNat 8 i) &&& 0x7F)

/-- A read frame of any length shows every register it reads, in the bits to which the manual gives a value,
and changes nothing else; one that reads EVT5 pops the head of the queue (R155, R175, R176). -/
def ReadsFrame (s : State) (x : Client) (start : Byte) (count : Nat) : Prop :=
  ∃ t bs, exec (.eventPop x (.frame start count)) s = .next t ∧
    SameExcept [.ports, .queues, .draws] s t ∧ OtherPorts x s t ∧ OtherQueues x s t ∧
    t.port x = { s.port x with miso := 0 :: 0 :: bs } ∧ bs.length = count ∧
    (∀ i, i < count →
      bs.getD i 0 &&& ~~~(windowByte s x (frameAddress start i)).hole =
        (windowByte s x (frameAddress start i)).value &&&
          ~~~(windowByte s x (frameAddress start i)).hole) ∧
    ((∃ i, i < count ∧ frameAddress start i = 0x1E) → t.queues.get x = (s.queues.get x).tail) ∧
    ((∀ i, i < count → frameAddress start i ≠ 0x1E) → t.queues.get x = s.queues.get x)

/-- Commands executed one after the other. -/
def Executes (cs : List Instr) (s t : State) : Prop := InTurn (fun c u v => exec c u = .next v) cs s t

/-- The value that a frame has latched for an address, where it has latched one (R176). -/
def latchedAt (f : Frame) (a : Byte) : Option Byte :=
  (f.latched.find? fun w => w.1 == a).map (·.2)

/-- Two addresses are latched as one value (R176): TIMESTAMP; EVT0 to EVT5; LEVELS; ASSERTED; PULSING;
LEASE_FLAGS, LEASE_LEFT and GRACE_LEFT; the delay and timeout counts of PENDING_STATE. -/
abbrev LatchedWith (a b : Byte) : Prop :=
  ∃ g ∈ ([(0x02, 0x03), (0x19, 0x1E), (0x21, 0x24), (0x25, 0x28), (0x29, 0x2C), (0x3E, 0x42),
      (0x56, 0x59)] : List (Nat × Nat)),
    (g.1 ≤ a.toNat ∧ a.toNat ≤ g.2) ∧ g.1 ≤ b.toNat ∧ b.toNat ≤ g.2

/-- A byte agrees with what an address shows at a moment, in the bits to which the manual gives a value. -/
def ShowsNow (s : State) (x : Client) (a v : Byte) : Prop :=
  v &&& ~~~(windowByte s x a).hole = (windowByte s x a).value &&& ~~~(windowByte s x a).hole

/-- One data byte of a read frame in progress, whatever has happened since the byte before (R154, R175, R176): a
value that the frame has latched is shown as it was latched; any other register is shown as it stands, and
where it belongs to bytes latched as one value, all of these are latched as they stand.  The first of EVT0 to
EVT5 latches the head of the queue, or that there is none. -/
def ReadsNextByte (s : State) (x : Client) (f : Frame) : Prop :=
  ∃ t f' v, exec (.eventPop x .next) s = .next t ∧ SameExcept [.ports, .draws] s t ∧
    OtherPorts x s t ∧
    t.port x = { s.port x with frame := some f', miso := (s.port x).miso ++ [v] } ∧
    f' = { f with
      address := frameAddress f.address 1, latched := f'.latched, entry := f'.entry
      evt5Read := f.evt5Read || f.address == 0x1E } ∧
    (∀ w, latchedAt f f.address = some w → v = w ∧ f'.latched = f.latched ∧ f'.entry = f.entry) ∧
    (latchedAt f f.address = none →
      ShowsNow s x f.address v ∧
      (LatchedWith f.address f.address → latchedAt f' f.address = some v) ∧
      (∀ b w, latchedAt f b = some w → latchedAt f' b = some w) ∧
      (∀ b, LatchedWith f.address b → latchedAt f b = none →
        ∃ w, latchedAt f' b = some w ∧ ShowsNow s x b w) ∧
      (∀ b, ¬ LatchedWith f.address b → latchedAt f' b = latchedAt f b) ∧
      f'.entry =
        if LatchedWith 0x19 f.address then
          match s.queues.get x with
          | [] => .none
          | e :: _ => .head e
        else f.entry)

/-- CS rises at the end of a read frame in progress (R155): the head of the queue is popped where the frame has
read EVT5 and the entry it latched is still the head, and nowhere else. -/
def EndsRead (s : State) (x : Client) (f : Frame) : Prop :=
  ∃ t, exec (.eventPop x .finish) s = .next t ∧ SameExcept [.ports, .queues] s t ∧
    OtherPorts x s t ∧ OtherQueues x s t ∧ t.port x = { s.port x with frame := none } ∧
    (∀ e, f.evt5Read = true → f.entry = .head e → t.queues.get x = (s.queues.get x).tail) ∧
    ((f.evt5Read = false ∨ ∀ e, f.entry ≠ .head e) → t.queues.get x = s.queues.get x)

/-- Read frames given in pieces (R154, R155, R175, R176): CS falls with nothing latched, each byte is served when
it is shifted, and the pop is at the rise of CS; taken with nothing between, the pieces do what the whole
frame does.  After a DETACH in between the frame goes on with what it has latched, and its entry is the
queue's head no more (log 25). -/
def ReadsInPieces (s : State) (x : Client) : Prop :=
  (portTakes s x = true → ∀ start,
    ∃ t, exec (.eventPop x (.begin true start)) s = .next t ∧ SameExcept [.ports] s t ∧
      OtherPorts x s t ∧
      t.port x = { s.port x with
        frame := some ⟨false, true, start, [], [], .untaken, false⟩, miso := [0, 0] } ∧
      ∀ count, ∃ u, Executes (List.replicate count (.eventPop x .next)) t u ∧
        exec (.eventPop x .finish) u = exec (.eventPop x (.frame start count)) s) ∧
  ∀ f, (s.port x).frame = some f → f.ignored = false → f.isRead = true →
    ReadsNextByte s x f ∧ EndsRead s x f ∧
    ∀ b : Byte, portTakes s .a = true → b.toNat = clientNumber x → (s.port x).crstLow = false →
      ∃ t e, exec (.detach .supervisor b) s = .next t ∧
        (t.port x).frame = some { f with entry := e } ∧ ∀ k, e ≠ .head k

/-- The byte that a write frame finally writes to an address, if it writes there (R178): the last of those that
its data bytes put there. -/
def lastWritten (start : Byte) (data : List Byte) (a : Byte) : Option Byte :=
  ((List.range data.length).reverse.find? fun i => frameAddress start i == a).map fun i =>
    data.getD i 0

/-- Every register of a port's window that is written, and no other, holds the byte written to its address, in the
bits the register has; addresses without a writable register of the port discard theirs (R177, R179, R180). -/
def StoresBytes (s t : State) (x : Client) (w : Byte → Option Byte) : Prop :=
  SameExcept [.ports, .groupSel, .sreq] s t ∧ OtherPorts x s t ∧
  t.port x = { s.port x with
    reqKind := (w 0x04).getD (s.port x).reqKind
    reqParam := (t.port x).reqParam
    irqSel := (w 0x1F).elim (s.port x).irqSel (·.setWidth 6)
    faultSel := (w 0x20).elim (s.port x).faultSel (·.setWidth 5)
    leaseSel := (w 0x3D).elim (s.port x).leaseSel fun v => Fin.ofNat 8 v.toNat
    lineSel := (w 0x43).elim (s.port x).lineSel fun v => Fin.ofNat 32 v.toNat } ∧
  (∀ i : Fin 16, (t.port x).reqParam.get i =
    (w (BitVec.ofNat 8 (0x05 + i.val))).getD ((s.port x).reqParam.get i)) ∧
  (x ≠ .a → t.groupSel = s.groupSel ∧ t.sreqKind = s.sreqKind ∧ t.sreqParam = s.sreqParam) ∧
  (x = .a →
    t.groupSel = (w 0x80).elim s.groupSel (fun v => Fin.ofNat 8 v.toNat) ∧
    t.sreqKind = (w 0x81).getD s.sreqKind ∧
    ∀ i : Fin 16, t.sreqParam.get i =
      (w (BitVec.ofNat 8 (0x82 + i.val))).getD (s.sreqParam.get i))

/-- A write frame stores each of its bytes at its own address, the last one where there are several (R177, R178). -/
def StoresFrame (s t : State) (x : Client) (start : Byte) (data : List Byte) : Prop :=
  StoresBytes s t x (lastWritten start data)

/-- Of two states only the record of MISO of a port differs: in the second it is zeros. -/
def SameButMiso (s t : State) (x : Client) (count : Nat) : Prop :=
  SameExcept [.ports] s t ∧ OtherPorts x s t ∧
    t.port x = { s.port x with miso := List.replicate count 0 }

/-- The port of a command that is a whole frame, and the number of the frame's bytes: two and one for each data
byte (R175); none for any other command. -/
def frameOf : Instr → Option (Client × Nat)
  | .claim x _ _ => some (x, 5)
  | .release x _ | .renew x _ | .withdraw x _ | .stageCopy x _ | .commit x _ | .exchange x _
  | .unwatch x _ => some (x, 4)
  | .stage x _ _ => some (x, 11)
  | .watch x _ _ => some (x, 5)
  | .defer x _ _ _ _ _ _ => some (x, 11)
  | .cancelPending x | .detachSelf x => some (x, 3)
  | .forceRelease page _ | .withhold page _ | .openGroup page _ | .clearPair page _
  | .setAudit page _ | .detach page _ => some (pagePort page, 4)
  | .setPriority page _ _ _ | .setPair page _ _ _ => some (pagePort page, 6)
  | .setPolicy page _ _ _ _ => some (pagePort page, 9)
  | .setSafe page _ _ => some (pagePort page, 11)
  | .unknown page _ => some (pagePort page, 3)
  | .irqSelWrite x _ => some (x, 3)
  | .eventPop x (.frame _ count) => some (x, count + 2)
  | .eventPop _ (.begin _ _) | .eventPop _ .next | .eventPop _ .finish => none
  | .registerWrite x (.frame _ data) => some (x, data.length + 2)
  | .registerWrite _ (.runt _) | .registerWrite _ (.begin _ _ _) | .registerWrite _ (.next _)
  | .registerWrite _ (.finish _) => none
  | .clientReset _ _ | .crstRise _ | .deviceReset _ | .deviceResetRelease _ | .timebaseTick
  | .leaseExpiry _ | .graceExpiry _ | .pulseEnd _ | .delayExpiry _ | .timeoutExpiry _
  | .sample _ _ => none

/-- The frames that a port ignores (R170, R173, R175).  A whole frame while RESETn or the port's CRSTx is low
changes nothing but the record of MISO, which is zeros; so it is in pieces, where it is also ignored when CS
falls less than 1 µs after its last rise and under an access byte other than 0x40 and 0x80.  An ignored frame
returns zeros, and its end does nothing.  With CS already low no frame begins (log 5). -/
def IgnoresFrames (s : State) (x : Client) : Prop :=
  ((s.port x).frame = none →
    (s.resetLow = true ∨ (s.port x).crstLow = true →
      ∀ c count, frameOf c = some (x, count) →
        ∃ t, exec c s = .next t ∧ SameButMiso s t x count) ∧
    ∀ spaced access start,
      (spaced = false ∨ s.resetLow = true ∨ (s.port x).crstLow = true ∨
        (access ≠ 0x40 ∧ access ≠ 0x80)) →
      ∃ t f, exec (.registerWrite x (.begin spaced access start)) s = .next t ∧
        (access = 0x40 → exec (.eventPop x (.begin spaced start)) s = .next t) ∧
        SameExcept [.ports] s t ∧ OtherPorts x s t ∧ f.ignored = true ∧
        t.port x = { s.port x with frame := some f, miso := [0, 0] }) ∧
  ∀ f, (s.port x).frame = some f →
    (∀ c count, frameOf c = some (x, count) → exec c s = .next s) ∧
    (f.ignored = true →
      (∀ mosi, ∃ t, exec (.registerWrite x (.next mosi)) s = .next t ∧
        exec (.eventPop x .next) s = .next t ∧ SameExcept [.ports] s t ∧ OtherPorts x s t ∧
        t.port x = { s.port x with miso := (s.port x).miso ++ [0] }) ∧
      ∀ whole, ∃ t, exec (.registerWrite x (.finish whole)) s = .next t ∧
        exec (.eventPop x .finish) s = .next t ∧ SameExcept [.ports] s t ∧ OtherPorts x s t ∧
        t.port x = { s.port x with frame := none })

/-- The bit of a number in a byte that has one bit for each. -/
def oneBit (i : Nat) (b : Bool) : Byte := if b then 1 <<< (i % 8) else 0

/-- The code of a group state (R179). -/
def stateCode : GroupState → Byte
  | .safe => 0
  | .held => 1
  | .revoking => 2
  | .withheld => 3

/-- A 16-bit value reads at two addresses, its high byte first. -/
def ReadsWord (s : State) (x : Client) (a : Nat) (w : Word16) : Prop :=
  ReadsAs s x (BitVec.ofNat 8 a) 0xFF (w.extractLsb' 8 8) ∧
    ReadsAs s x (BitVec.ofNat 8 (a + 1)) 0xFF (w.extractLsb' 0 8)

/-- A record reads as its seven bytes from an address on (R182): function, polarity and the other bits of byte 1,
filter, width with its high byte first, mirror source, mirror sense. -/
def ReadsRecord (s : State) (x : Client) (a : Nat) (r : Record) : Prop :=
  let b := r.bytes
  ∀ i : Fin 7, ReadsAs s x (BitVec.ofNat 8 (a + i.val)) 0xFF
    ([b.function, b.shape, b.filter, b.widthHi, b.widthLo, b.source, b.sense].getD i.val 0)

/-- The registers of the port itself and those of the whole part on the client page (R179). -/
def ReadsPortRegisters (s : State) (x : Client) : Prop :=
  let p := s.port x
  ReadsAs s x 0x00 0xFF 0x6E ∧ ReadsAs s x 0x01 0xFF (BitVec.ofNat 8 (clientNumber x)) ∧
  ReadsWord s x 0x02 s.ms ∧ ReadsAs s x 0x04 0xFF p.reqKind ∧
  (∀ i : Fin 16, ReadsAs s x (BitVec.ofNat 8 (0x05 + i.val)) 0xFF (p.reqParam.get i)) ∧
  ReadsAs s x 0x15 0xFF p.result ∧ ReadsAs s x 0x16 0xFF p.resultKind ∧
  ReadsAs s x 0x17 0xFF p.resultInfo ∧
  ReadsAs s x 0x18 0xFF (BitVec.ofNat 8 (s.queues.get x).length) ∧
  ReadsAs s x 0x1F 0xFF (p.irqSel.setWidth 8) ∧ ReadsAs s x 0x20 0xFF (p.faultSel.setWidth 8) ∧
  ReadsAs s x 0x3D 0xFF (BitVec.ofNat 8 p.leaseSel.val) ∧
  ReadsAs s x 0x43 0xFF (BitVec.ofNat 8 p.lineSel.val) ∧
  (∀ a : Byte, 0x5A ≤ a.toNat → a.toNat < 0x80 → ReadsAs s x a 0xFF 0) ∧
  (x ≠ .a → ∀ a : Byte, 0x80 ≤ a.toNat → ReadsAs s x a 0xFF 0)

/-- LEVELS, ASSERTED and PULSING, and the selected line's records and driver state (R179): bit 0 pulse
ACTIVE, bit 1 mirror state, bit 2 HELD, bit 3 demand. -/
def ReadsLines (s : State) (x : Client) : Prop :=
  (∀ l : Line,
    ReadsAs s x (BitVec.ofNat 8 (0x21 + l.val / 8)) (oneBit l.val true)
      (oneBit l.val (s.level l == .high)) ∧
    ReadsAs s x (BitVec.ofNat 8 (0x25 + l.val / 8)) (oneBit l.val true)
      (oneBit l.val (asserted s l)) ∧
    ReadsAs s x (BitVec.ofNat 8 (0x29 + l.val / 8)) (oneBit l.val true)
      (oneBit l.val (s.driver l).pulse.isSome)) ∧
  let l := (s.port x).lineSel
  ReadsRecord s x 0x44 (s.record l) ∧ ReadsRecord s x 0x4C ((s.staged.get x).get l) ∧
  ReadsAs s x 0x4B 0x0F
    (oneBit 0 (s.driver l).pulse.isSome |||
      match (s.driver l).mirror with
      | none => 0
      | some mir => oneBit 1 true ||| oneBit 2 (mir.phase == .held) ||| oneBit 3 mir.demand)

/-- GROUP_STATE, WAIT_POS and the selected group's timers (R20, R23, R49, R179). -/
def ReadsGroups (s : State) (x : Client) : Prop :=
  (∀ g : Group,
    ReadsAs s x (BitVec.ofNat 8 (0x2D + g.val)) 0x07
      (stateCode (s.entry g).state ||| oneBit 2 (s.holder g).isSome) ∧
    (∀ y, s.holder g = some y →
      ReadsAs s x (BitVec.ofNat 8 (0x2D + g.val)) 0x18 (BitVec.ofNat 8 (8 * clientNumber y))) ∧
    ReadsAs s x (BitVec.ofNat 8 (0x35 + g.val)) 0x30
      (BitVec.ofNat 8 (16 * (s.entry g).waiting.length)) ∧
    (s.waits x g = false → ReadsAs s x (BitVec.ofNat 8 (0x35 + g.val)) 0x03 0) ∧
    ∀ i c, (s.entry g).waiting[i]? = some c → c.client = x →
      ReadsAs s x (BitVec.ofNat 8 (0x35 + g.val)) 0x03 (BitVec.ofNat 8 (i + 1))) ∧
  let e := s.entry (s.port x).leaseSel
  (match e.timer with
    | .running w => ReadsAs s x 0x3E 0x03 1 ∧ ReadsWord s x 0x3F w
    | .noExpiry => ReadsAs s x 0x3E 0x03 2 ∧ ReadsWord s x 0x3F 0
    | .stopped => ReadsAs s x 0x3E 0x03 0 ∧ ReadsWord s x 0x3F 0) ∧
  match e.grace with
  | some w => ReadsAs s x 0x3E 0x04 4 ∧ ReadsWord s x 0x41 w
  | none => ReadsAs s x 0x3E 0x04 0 ∧ ReadsWord s x 0x41 0

/-- PENDING_STATE and what follows it (R135, R179): bit 0 WAITING, bits 2:1 the trigger kind, bit 3 target
HIGH, bit 4 timeout timer running. -/
def ReadsPending (s : State) (x : Client) : Prop :=
  match s.deferred.get x with
  | none => ∀ i : Fin 7, ReadsAs s x (BitVec.ofNat 8 (0x53 + i.val)) 0xFF 0
  | some d =>
    (∀ g : Group, ReadsAs s x 0x54 (oneBit g.val true)
      (oneBit g.val (d.parts.any fun part => part.1 == g))) ∧
    match d.trigger with
    | .line l target _ left =>
      ReadsAs s x 0x53 0x1F (0b011 ||| oneBit 3 (target == .high) ||| oneBit 4 left.isSome) ∧
      ReadsAs s x 0x55 0xFF (BitVec.ofNat 8 l.val) ∧ ∀ w, left = some w → ReadsWord s x 0x58 w
    | .time _ left => ReadsAs s x 0x53 0x1F 0b101 ∧ ReadsWord s x 0x56 left

/-- The supervisor page of Port A (R169, R180). -/
def ReadsSupervisorPage (s : State) : Prop :=
  let q := s.policy.get s.groupSel
  let e := s.entry s.groupSel
  ReadsAs s .a 0x80 0xFF (BitVec.ofNat 8 s.groupSel.val) ∧ ReadsAs s .a 0x81 0xFF s.sreqKind ∧
  (∀ i : Fin 16, ReadsAs s .a (BitVec.ofNat 8 (0x82 + i.val)) 0xFF (s.sreqParam.get i)) ∧
  ReadsAs s .a 0x92 0x07
    (oneBit 0 s.audit.losses ||| oneBit 1 s.audit.conflicts ||| oneBit 2 s.audit.detaches) ∧
  (∀ y : Client,
    ReadsAs s .a 0x93 (oneBit (clientNumber y) true) (oneBit (clientNumber y) (s.port y).crstLow) ∧
    (∀ g : Group, ReadsAs s .a (BitVec.ofNat 8 (0x94 + clientNumber y)) (oneBit g.val true)
      (oneBit g.val ((s.park.get y).get g).isSome)) ∧
    ReadsAs s .a (BitVec.ofNat 8 (0xA8 + clientNumber y)) 0xFF
      (BitVec.ofNat 8 (q.priority.get y).val)) ∧
  (∀ i : Fin 8,
    match s.pairs.get i with
    | none =>
      ReadsAs s .a (BitVec.ofNat 8 (0x98 + 2 * i.val)) 0xFF 0 ∧
        ReadsAs s .a (BitVec.ofNat 8 (0x99 + 2 * i.val)) 0xFF 0
    | some p =>
      ReadsAs s .a (BitVec.ofNat 8 (0x98 + 2 * i.val)) 0x9F (BitVec.ofNat 8 (0x80 + p.lower.val)) ∧
        ReadsAs s .a (BitVec.ofNat 8 (0x99 + 2 * i.val)) 0xFF (BitVec.ofNat 8 p.higher.val)) ∧
  ReadsAs s .a 0xAC 0xFF (oneBit 0 q.preemptible) ∧ ReadsWord s .a 0xAD q.leasePeriod ∧
  ReadsWord s .a 0xAF q.gracePeriod ∧
  (∀ p : Fin 4, ReadsRecord s .a (0xB1 + 7 * p.val) (q.safe.get p)) ∧
  ReadsAs s .a 0xCD 0xFF (stateCode e.state) ∧
  (match e.holder with
    | some y => ReadsAs s .a 0xCE 0x07 (BitVec.ofNat 8 (4 + clientNumber y))
    | none => ReadsAs s .a 0xCE 0x04 0) ∧
  ReadsAs s .a 0xCF 0xFF
    (match e.priority with
      | some p => BitVec.ofNat 8 p.val
      | none => 0) ∧
  ReadsAs s .a 0xD0 0xFF (BitVec.ofNat 8 e.waiting.length) ∧
  (∀ i : Fin 3,
    match e.waiting[i.val]? with
    | none => ReadsAs s .a (BitVec.ofNat 8 (0xD1 + i.val)) 0xFF 0
    | some c => ReadsAs s .a (BitVec.ofNat 8 (0xD1 + i.val)) 0x7F
        (BitVec.ofNat 8 (clientNumber c.client + 4 * c.priority.val) ||| oneBit 5 c.preempt |||
          oneBit 6 c.restore)) ∧
  ∀ a : Byte, 0xD4 ≤ a.toNat → ReadsAs s .a a 0xFF 0

/-! ### The bytes of an entry (R150, R183) -/

/-- EVT1 of an entry that has a group, with the level where it has one, and no client: the bits to which the
manual gives a value, and the value. -/
def groupBits (g : Group) (level : Bool) : Byte × Byte :=
  (0xCF, BitVec.ofNat 8 ((if level then 0x88 else 0x08) + g.val))

/-- EVT1 of an entry that has neither group nor client. -/
def noBits : Byte × Byte := (0xC8, 0)

/-- EVT2 of an entry whose line may be absent (log 12). -/
def lineCode : Option Line → Byte
  | some l => BitVec.ofNat 8 l.val
  | none => 0xFF

/-- The code of a reason why a check failed. -/
def checkCode : CheckReason → Byte
  | .loop => 6
  | .interlock => 7

/-- EVT0 to EVT3 of an entry: the kind's code; EVT1 as a mask and a value under it; EVT2; and EVT3 where the
kind has a reason. -/
def entryCodes : Event → Byte × (Byte × Byte) × Byte × Option Byte
  | .granted g => (0x01, groupBits g false, 0xFF, none)
  | .lost g reason => (0x02, groupBits g false, 0xFF, some (match reason with
      | .expired => 1
      | .revoked => 2
      | .forced => 3
      | .withheld => 4))
  | .revokeNotice g grace =>
    (0x03, groupBits g false, grace.extractLsb' 8 8, some (grace.extractLsb' 0 8))
  | .revokeCancelled g => (0x04, groupBits g false, 0xFF, none)
  | .claimRefused g reason => (0x05, groupBits g false, 0xFF, some (match reason with
      | .ineligible => 5
      | .withheld => 4))
  | .restoreRefused g reason => (0x06, groupBits g false, 0xFF, some (checkCode reason))
  | .inputEdge l lv => (0x11, groupBits (groupOf l) (lv == .high), lineCode l, none)
  | .pulseDone l => (0x12, groupBits (groupOf l) false, lineCode l, none)
  | .pulseCut l reason => (0x13, groupBits (groupOf l) false, lineCode l, some (match reason with
      | .overtaken => 8
      | .released => 9
      | .lost => 10))
  | .mirrorHeld l => (0x14, groupBits (groupOf l) false, lineCode l, none)
  | .mirrorResumed l asserted => (0x15, groupBits (groupOf l) asserted, lineCode l, none)
  | .watchEdge l lv => (0x21, groupBits (groupOf l) (lv == .high), lineCode l, none)
  | .groupState g st none => (0x22, groupBits g false, 0xFF, some (stateCode st))
  | .groupState g st (some y) =>
    (0x22, (0xFF, BitVec.ofNat 8 (0x48 + 16 * clientNumber y + g.val)), 0xFF, some (stateCode st))
  | .pendingDone l => (0x31, noBits, lineCode l, none)
  | .pendingFailed l reason => (0x32, noBits, lineCode l, some (checkCode reason))
  | .pendingTimeout l => (0x33, noBits, lineCode l, none)
  | .pendingDropped g => (0x34, groupBits g false, 0xFF, some 11)
  | .fault cls code kind => (0x41, (0xFF, match cls with
      | .ownership => 1
      | .sequence => 2
      | .range => 3
      | .conflict => 4
      | .authority => 5), kind, some code.byte)
  | .overflow => (0x51, noBits, 0xFF, none)
  | .audit y occurrence group => (0x52, (match group with
      | some g => (0xFF, BitVec.ofNat 8 (0x48 + 16 * clientNumber y + g.val))
      | none => (0xF8, BitVec.ofNat 8 (0x40 + 16 * clientNumber y))), 0xFF, some (match occurrence with
      | .loss => 12
      | .conflict => 13
      | .detach => 14))

/-- Six bytes show an entry: its codes, then its timestamp, high byte first. -/
def ShowsEntry (e : Entry) (bs : List Byte) : Prop :=
  ∃ b1 b3, bs = [(entryCodes e.event).1, b1, (entryCodes e.event).2.2.1, b3, e.stamp.extractLsb' 8 8,
      e.stamp.extractLsb' 0 8] ∧
    b1 &&& (entryCodes e.event).2.1.1 = (entryCodes e.event).2.1.2 ∧
    ∀ reason, (entryCodes e.event).2.2.2 = some reason → b3 = reason

/-- The codes of the results (R183). -/
def ResultCodes : Prop :=
  ResultCode.granted.byte = 0x01 ∧ ResultCode.queued.byte = 0x02 ∧ ResultCode.done.byte = 0x03 ∧
  ResultCode.notHolder.byte = 0x10 ∧ ResultCode.notWaiting.byte = 0x11 ∧
  ResultCode.alreadyHeld.byte = 0x12 ∧ ResultCode.alreadyWaiting.byte = 0x13 ∧
  ResultCode.ineligible.byte = 0x14 ∧ ResultCode.withheld.byte = 0x15 ∧
  ResultCode.revoking.byte = 0x16 ∧ ResultCode.busy.byte = 0x20 ∧ ResultCode.notPending.byte = 0x21 ∧
  ResultCode.range.byte = 0x30 ∧ ResultCode.unknown.byte = 0x31 ∧ ResultCode.interlock.byte = 0x40 ∧
  ResultCode.loop.byte = 0x41 ∧ ResultCode.duplicate.byte = 0x42 ∧ ResultCode.notSupervisor.byte = 0x50

/-! ### Client reset (R172) -/

/-- The result registers of a port are at their reset values. -/
def NoResult (t : State) (x : Client) : Prop :=
  (t.port x).result = 0 ∧ (t.port x).resultKind = 0 ∧ (t.port x).resultInfo = 0

/-- Nothing of a client is left after its client reset: no lease, claim, watch entry, park record, pending
commit or queue entry, and every staged record and port register but the results at its reset value.  What
belongs to the other clients stays: their staged records, pending commits and watch entries; of every group
that the client does not hold, the holder, the other claims, the park records of the others, the records of
its lines and their driver states, but for held mirrors that resume (R96); and the whole entry of a group
that the client neither holds nor waits on. -/
def ClearedClient (s t : State) (x : Client) : Prop :=
  (∀ g, t.holder g ≠ some x ∧ t.waits x g = false ∧ (t.watch.get g).get x = none ∧
    (t.park.get x).get g = none) ∧
  t.deferred.get x = none ∧ t.queues.get x = [] ∧
  (∀ l, (t.staged.get x).get l = ⟨.input, .normal, .pushPull, 3, .none⟩) ∧
  ((t.port x).irqSel = 0x3F ∧ (t.port x).faultSel = 0x1F ∧ (t.port x).leaseSel = 0 ∧
    (t.port x).lineSel = 0 ∧ (t.port x).reqKind = 0 ∧ ∀ i, (t.port x).reqParam.get i = 0) ∧
  (∀ y, y ≠ x → t.staged.get y = s.staged.get y ∧ t.deferred.get y = s.deferred.get y ∧
    ∀ g, (t.watch.get g).get y = (s.watch.get g).get y) ∧
  (∀ g, s.holder g ≠ some x → t.holder g = s.holder g ∧
    (t.entry g).waiting = ((s.entry g).waiting.filter fun c => c.client != x) ∧
    (s.waits x g = false → t.entry g = s.entry g) ∧
    ∀ y, y ≠ x → (t.park.get y).get g = (s.park.get y).get g) ∧
  LinesOutside (fun g => s.holder g == some x) s t ∧
  SameExcept
    [.lease, .active, .drivers, .watch, .deferred, .park, .staged, .queues, .ports, .sreq] s t

/-- The commands that take a client reset of a client (R170, R171): CLIENT_RESET, its own DETACH_SELF, a
DETACH of it. -/
def ResetsClient (s : State) (x : Client) (c : Instr) : Prop :=
  s.resetLow = false ∧ (s.port x).crstLow = false ∧
    (c = .clientReset x true ∨ (c = .detachSelf x ∧ portTakes s x = true) ∨
      ∃ b : Byte, c = .detach .supervisor b ∧ b.toNat = clientNumber x ∧ portTakes s .a = true)

/-- A's audit copy of a client reset (R163): not where the client is A. -/
def detachAudit (s : State) (x y : Client) : List Event :=
  if s.audit.detaches = true ∧ x ≠ .a then toClient .a [.audit x .detach none] y else []

/-- From `s` to `t` exactly these events reach each client but one. -/
def SendsOthers (x : Client) (s t : State) (es : Client → List Event) : Prop :=
  ∀ y, y ≠ x → t.queues.get y = delivered s y (es y)

/-- One group's turn in step 3 of a client reset (R44): where the client holds it, it passes on without an event
of its release to the other clients, its pulses cut silently; nothing happens otherwise. -/
def ReleasesSilently (x : Client) (g : Group) (s t : State) : Prop :=
  (s.holder g ≠ some x → t = s) ∧
  (s.holder g = some x →
    SameExcept [.lease, .active, .drivers, .park, .queues] s t ∧ OtherEntries g s t ∧
    LinesOutside (only g) s t ∧
    (NoRestore s g (s.entry g).waiting →
      PassesOn s t g (s.entry g).waiting ∧ GroupTakes g (s.policy.get g).safe s t ∧
      t.park = s.park ∧
      ∃ rs, Resumes (only g) s t rs ∧
        SendsOthers x s t fun y =>
          grantedEvents g (s.entry g).waiting y ++ rs y ++ passedState s g (s.entry g).waiting y) ∧
    ∀ c rest cfg, (s.entry g).waiting = c :: rest → c.restore = true →
      (s.park.get c.client).get g = some cfg →
      HandsOverRestoring s t g c rest cfg (SendsOthers x s t) ∧
      ∀ y k, ¬ (y = c.client ∧ k = g) → (t.park.get y).get k = (s.park.get y).get k)

/-- One group's turn in step 4 of a client reset (R45): where the client waits for it, its claim leaves the
list, and a revocation that no claim justifies any more is cancelled; nothing happens otherwise. -/
def RemovesClaim (x : Client) (g : Group) (s t : State) : Prop :=
  (s.waits x g = false → t = s) ∧
  (s.waits x g = true →
    SameExcept [.lease, .queues] s t ∧ OtherEntries g s t ∧
    ∃ w, w = (s.entry g).waiting.filter (fun c => c.client != x) ∧
      if (s.entry g).state = .revoking ∧
        ¬ ((s.policy.get g).preemptible = true ∧ ∃ c ∈ w, c.preempt = true ∧
          ∃ q, (s.entry g).priority = some q ∧ q < c.priority) then
        t.entry g = { s.entry g with
          state := .held, timer := startedTimer (s.policy.get g).leasePeriod, grace := none,
          waiting := w } ∧
        Sends s t fun y =>
          toHolder (s.holder g) [.revokeCancelled g] y ++ toWatchers s g .held (s.holder g) y
      else
        t.entry g = { s.entry g with waiting := w } ∧ t.queues = s.queues)

/-! ### The laws -/

/-- Every queue holds at most 32 entries (R149), and a full one ends with OVERFLOW (R160). -/
def QueueLaw (s : State) : Prop :=
  ∀ x, (s.queues.get x).length ≤ 32 ∧
    ((s.queues.get x).length = 32 →
      (s.queues.get x).getLast?.map (·.event) = some .overflow)

/-- The pairings of a lease entry's fields (R20, R21). -/
def EntryLaw (e : LeaseEntry) : Prop :=
  (e.holder.isSome = true ↔ e.state = .held ∨ e.state = .revoking) ∧
  (e.priority.isSome = e.holder.isSome ∧ e.priority ≠ some 0) ∧
  (e.state = .safe ∨ e.state = .withheld → e.waiting = []) ∧
  (e.state = .revoking → e.waiting ≠ []) ∧
  (e.timer = .stopped ↔ e.state ≠ .held) ∧
  (e.grace.isSome = true ↔ e.state = .revoking)

/-- A client is at most once among holder and claimants (R48); captured priorities are 1 to 7 (R46); the
list is sorted by captured priority, equal ones in arrival order (R47). -/
def WaitingLaw (e : LeaseEntry) : Prop :=
  (e.waiting.map (·.client)).Nodup ∧
  (∀ c ∈ e.waiting, e.holder ≠ some c.client ∧ c.priority ≠ 0 ∧ c.arrival < e.arrivals) ∧
  e.waiting.Pairwise fun c d =>
    d.priority < c.priority ∨ (d.priority = c.priority ∧ c.arrival < d.arrival)

/-- The laws of the lease table. -/
def LeaseLaw (s : State) : Prop := ∀ g, EntryLaw (s.entry g) ∧ WaitingLaw (s.entry g)

/-- A candidate is the opposite of the filtered level, its count 1 to 15 (R122). -/
def SamplerLaw (s : State) : Prop :=
  ∀ l c, (s.sampler.get l).candidate = some c →
    c.level ≠ (s.sampler.get l).level ∧ 1 ≤ c.count ∧ c.count ≤ 15

/-- The conditions of R3 that the type of records leaves open: a width of at least 1, a mirror source
other than the line. -/
def Record.wfFor (r : Record) (l : Line) : Prop :=
  match r.function with
  | .pulse w => w ≠ 0
  | .mirror src _ => src ≠ l
  | _ => True

/-- A record of a safe configuration: INPUT or STATIC (R16). -/
def Record.isSafe (r : Record) : Prop :=
  match r.function with
  | .input | .static _ => True
  | _ => False

/-- Whether a record is MIRROR. -/
def Record.isMirror (r : Record) : Bool :=
  match r.function with
  | .mirror _ _ => true
  | _ => false

/-- Whether a record is PULSE. -/
def Record.isPulse (r : Record) : Bool :=
  match r.function with
  | .pulse _ => true
  | _ => false

/-- The four records of a configuration are well-formed for the lines of a group. -/
def ConfigWf (g : Group) (cfg : GroupConfig) : Prop := ∀ p, (cfg.get p).wfFor (lineOf g p)

/-- The store holds well-formed records and no others (R3): active, staged, parked, snapshots. -/
def RecordLaw (s : State) : Prop :=
  (∀ l, (s.record l).wfFor l) ∧
  (∀ x l, ((s.staged.get x).get l).wfFor l) ∧
  (∀ x g cfg, (s.park.get x).get g = some cfg → ConfigWf g cfg) ∧
  (∀ x d, s.deferred.get x = some d → ∀ part ∈ d.parts, ConfigWf part.1 part.2)

/-- Safe configurations hold INPUT and STATIC records only (R16). -/
def SafeConfigLaw (s : State) : Prop := ∀ g p, ((s.policy.get g).safe.get p).isSafe

/-- No active MIRROR line has as its source a line whose active function is MIRROR (R118). -/
def LoopLaw (s : State) : Prop :=
  ∀ l src sense, (s.record l).function = .mirror src sense → (s.record src).isMirror = false

/-- The laws of the records: R3, R16, R118. -/
def ConfigLaw (s : State) : Prop := RecordLaw s ∧ SafeConfigLaw s ∧ LoopLaw s

/-- The interlock table (R90, R99, R91): two distinct lines at each index, no pair twice, no line of a
pair with a STATIC ASSERTED safe record, and never both lines of a pair asserted. -/
def PairLaw (s : State) : Prop :=
  ∀ i p, s.pairs.get i = some p →
    p.lower < p.higher ∧
    (∀ j, s.pairs.get j = some p → j = i) ∧
    (safeAsserts s p.lower = false ∧ safeAsserts s p.higher = false) ∧
    ¬ (asserted s p.lower = true ∧ asserted s p.higher = true)

/-- Driver state (R107, R109, R97): a mirror state exactly on MIRROR lines; pulses in flight and mirrors
only on lines of a held group; a held mirror has demand. -/
def DriverLaw (s : State) : Prop :=
  ∀ l,
    ((s.driver l).mirror.isSome = (s.record l).isMirror) ∧
    ((s.driver l).pulse.isSome = true →
      (s.record l).isPulse = true ∧ (s.holder (groupOf l)).isSome = true) ∧
    ((s.driver l).mirror.isSome = true → (s.holder (groupOf l)).isSome = true) ∧
    (∀ m, (s.driver l).mirror = some m → m.phase = .held → m.demand = true)

/-- A group that is SAFE or WITHHELD has its safe configuration active (R17, R21). -/
def SafeActiveLaw (s : State) : Prop :=
  ∀ l, atSafe s (groupOf l) = true →
    s.record l = (s.policy.get (groupOf l)).safe.get (positionOf l)

/-- A pending commit names at least one group, in ascending order, each held by its client (R134). -/
def DeferredLaw (s : State) : Prop :=
  ∀ x d, s.deferred.get x = some d →
    d.parts ≠ [] ∧ (d.parts.map (·.1)).Pairwise (· < ·) ∧
      ∀ part ∈ d.parts, s.holder part.1 = some x

/-- All the laws together. -/
structure Inv (s : State) : Prop where
  queues    : QueueLaw s
  lease     : LeaseLaw s
  sampler   : SamplerLaw s
  config    : ConfigLaw s
  pairs     : PairLaw s
  drivers   : DriverLaw s
  atSafe    : SafeActiveLaw s
  deferred  : DeferredLaw s

/-! ### The laws of levels and of device reset -/

/-- Every part at its device-reset value while RESETn is low (R173), but for the pins, the record of MISO, the
waiting commands, the counter of free values and the filtered levels (log 9); a frame in progress is one that
the port ignores. -/
def AtDeviceReset (s : State) : Prop :=
  s.resetLow = true ∧ SameExcept [.sampler, .ports, .draws, .pending, .resetLow] State.reset s ∧
  (∀ l, (s.sampler.get l).candidate = none) ∧
  ∀ x, s.port x = { State.reset.port x with
      frame := (s.port x).frame, miso := (s.port x).miso, crstLow := (s.port x).crstLow } ∧
    ∀ f, (s.port x).frame = some f → f.ignored = true

/-- A mirror's demand is what its source's filtered level and its sense call for (R13, R116). -/
def DemandLaw (s : State) : Prop :=
  ∀ l src sense m, (s.record l).function = .mirror src sense → (s.driver l).mirror = some m →
    (m.demand = true ↔ (s.level src = .high ∧ sense = .same ∨ s.level src = .low ∧ sense = .opposite))

/-- The trigger line of a pending commit is never at its target (R140). -/
def TriggerLaw (s : State) : Prop :=
  ∀ x d l target timeout left, s.deferred.get x = some d →
    d.trigger = .line l target timeout left → s.level l ≠ target

/-- Every law of the part: those of `Inv`, the two that bind driver state and pending commits to the filtered
levels, and that RESETn low keeps everything at device reset (R173). -/
structure EveryLaw (s : State) : Prop where
  inv     : Inv s
  demand  : DemandLaw s
  trigger : TriggerLaw s
  low     : s.resetLow = true → AtDeviceReset s

/-! ### Write frames in pieces (R171, R175, R177, R178) -/

/-- The byte that the frame assembly buffer finally writes to an address, if it writes there (R177, R178). -/
def lastBuffered (buffer : List (Byte × Byte)) (a : Byte) : Option Byte :=
  (buffer.reverse.find? fun w => w.1 == a).map (·.2)

/-- One data byte of a write frame in progress, whatever has happened since the byte before (R175, R177): it is held
in the frame assembly buffer with its address, MISO returns zero, and nothing else changes, no register of the
window among it. -/
def BuffersNextByte (s : State) (x : Client) (f : Frame) : Prop :=
  ∀ v, ∃ t, exec (.registerWrite x (.next v)) s = .next t ∧ SameExcept [.ports] s t ∧
    OtherPorts x s t ∧
    t.port x = { s.port x with
      frame := some { f with
        address := frameAddress f.address 1, buffer := f.buffer ++ [(f.address, v)] }
      miso := (s.port x).miso ++ [0] }

/-- CS rises after a whole byte of a write frame in progress (R177, R178): what the buffer holds is stored in the
state then standing; where it wrote no kind register that is all; where it wrote one, and no reset holds the
port, the request is issued of the kind finally written, as a frame of that kind alone would then issue it. -/
def EndsWrite (s : State) (x : Client) (f : Frame) : Prop :=
  ∃ c u t, SameExcept [.ports] s c ∧ OtherPorts x s c ∧
    c.port x = { s.port x with frame := none } ∧
    StoresBytes c u x (lastBuffered f.buffer) ∧
    exec (.registerWrite x (.finish true)) s = .next t ∧ (t.port x).miso = (s.port x).miso ∧
    (lastBuffered f.buffer 0x04 = none → (x = .a → lastBuffered f.buffer 0x81 = none) → t = u) ∧
    (s.resetLow = false → (s.port x).crstLow = false →
      (∀ kind, lastBuffered f.buffer 0x04 = some kind →
        ∃ v, exec (.registerWrite x (.frame 0x04 [kind])) u = .next v ∧ SameButMiso t v x 3) ∧
      ∀ kind, x = .a → lastBuffered f.buffer 0x04 = none → lastBuffered f.buffer 0x81 = some kind →
        ∃ v, exec (.registerWrite x (.frame 0x81 [kind])) u = .next v ∧ SameButMiso t v x 3)

/-- CS rises inside a byte of a write frame in progress (R177): the buffer is dropped, and nothing else changes. -/
def CutsWrite (s : State) (x : Client) : Prop :=
  ∃ t, exec (.registerWrite x (.finish false)) s = .next t ∧ SameExcept [.ports] s t ∧
    OtherPorts x s t ∧ t.port x = { s.port x with frame := none }

/-- A DETACH of the client during its write frame (R171): the port is at its reset values but for the frame, which
goes on with its buffer and takes effect at its end against the reset state: an IRQ_SEL written in it stands, and a
COMMIT of a group set that is not empty issued in it is refused NOT_HOLDER. -/
def DetachSparesWrite (s : State) (x : Client) (f : Frame) : Prop :=
  ∀ b : Byte, portTakes s .a = true → b.toNat = clientNumber x → (s.port x).crstLow = false →
    ∃ t e r, exec (.detach .supervisor b) s = .next t ∧
      t.port x = { State.reset.port x with
        frame := some { f with entry := e }, miso := (s.port x).miso } ∧
      exec (.registerWrite x (.finish true)) t = .next r ∧
      (lastBuffered f.buffer 0x04 = none → ∀ sel, lastBuffered f.buffer 0x1F = some sel →
        (r.port x).irqSel = sel.setWidth 6) ∧
      (LeaseLaw s → lastBuffered f.buffer 0x04 = some 0x07 →
        (lastBuffered f.buffer 0x05).getD 0 ≠ 0 →
        Answers r x .notHolder 0x07 0 ∧ SameExcept [.ports, .queues] t r ∧
          ∀ sel, lastBuffered f.buffer 0x1F = some sel → (r.port x).irqSel = sel.setWidth 6)

/-- Write frames given in pieces (R171, R175, R177, R178): CS falls with an empty buffer; taken with nothing
between, the pieces do what the whole frame does; and from any state with the frame in progress, whatever has
happened in between, each byte is only held, a rise of CS inside a byte drops them all, one after a whole byte
lets them take effect together, and a DETACH in between does not cut the frame. -/
def WritesInPieces (s : State) (x : Client) : Prop :=
  (portTakes s x = true → ∀ start,
    ∃ t, exec (.registerWrite x (.begin true 0x80 start)) s = .next t ∧ SameExcept [.ports] s t ∧
      OtherPorts x s t ∧
      t.port x = { s.port x with
        frame := some ⟨false, false, start, [], [], .untaken, false⟩, miso := [0, 0] } ∧
      ∀ data : List Byte, ∃ u, Executes (data.map fun v => .registerWrite x (.next v)) t u ∧
        exec (.registerWrite x (.finish true)) u = exec (.registerWrite x (.frame start data)) s) ∧
  ∀ f, (s.port x).frame = some f → f.isRead = false →
    CutsWrite s x ∧
    (f.ignored = false → BuffersNextByte s x f ∧ EndsWrite s x f ∧ DetachSparesWrite s x f)

end Sys2Proof.Machine
end

