-- ==== Sys2Proof/Certificates/Slice0/Obligations.lean ====
section
/-! DEFINITION. The statements about the LX32, each a proposition.  `∃ t, exec c s = .next t ∧ …` says that the
command answers a next state, and what that state holds. -/

open Sys2Proof Sys2Proof.Machine

/-! ### The step -/

/-- The command at the front of the queue is executed with the queue's rest (log 21). -/
def Obligations.StepRunsFront : Prop :=
  ∀ (c : Instr) (rest : List Instr) (s : State), s.pending = c :: rest →
    step s = exec c { s with pending := rest }

/-- On an empty queue 10 µs pass: every pulse in flight has one unit less left, and nothing else changes.  That
an empty queue means 10 µs is the model's choice (log 2), and so is that a pulse with 0 units left stays at 0,
which arises only because a due pulse end may be taken late (log 3). -/
def Obligations.EmptyQueuePassesUnit : Prop :=
  ∀ s : State, s.pending = [] →
    ∃ t, step s = .next t ∧ SameExcept [.drivers] s t ∧
      ∀ l, (t.driver l).mirror = (s.driver l).mirror ∧
        ((s.driver l).pulse = none → (t.driver l).pulse = none) ∧
        ∀ w, (s.driver l).pulse = some w →
          (t.driver l).pulse = some (BitVec.ofNat 16 (w.toNat - 1))

/-- Every command answers a next state and leaves the queue of commands to the step.  That no command stops the
part is the model's choice, deduced from a manual that names no stop (log 23). -/
def Obligations.EveryCommandAnswers : Prop :=
  ∀ (c : Instr) (s : State), ∃ t, exec c s = .next t ∧ t.pending = s.pending

/-- The device-reset values of every block (R22, R70, R90, R107, R128, R134, R149, R157, R158, R164, R169,
R174). -/
def Obligations.ResetValues : Prop :=
  (∀ g, Vacant State.reset g .safe) ∧
  (∀ g, (∀ x, (State.reset.policy.get g).priority.get x = 1) ∧
    (State.reset.policy.get g).preemptible = false ∧
    (State.reset.policy.get g).leasePeriod = 0 ∧ (State.reset.policy.get g).gracePeriod = 100 ∧
    ∀ p, (State.reset.policy.get g).safe.get p = ⟨.input, .normal, .pushPull, 3, .none⟩) ∧
  State.reset.audit = ⟨false, false, false⟩ ∧
  (∀ l, State.reset.record l = ⟨.input, .normal, .pushPull, 3, .none⟩ ∧
    State.reset.driver l = ⟨none, none⟩ ∧ (State.reset.sampler.get l).candidate = none) ∧
  (∀ x l, (State.reset.staged.get x).get l = ⟨.input, .normal, .pushPull, 3, .none⟩) ∧
  (∀ x g, (State.reset.park.get x).get g = none ∧ (State.reset.watch.get g).get x = none) ∧
  (∀ i, State.reset.pairs.get i = none) ∧
  (∀ x, State.reset.deferred.get x = none ∧ State.reset.queues.get x = [] ∧
    (State.reset.port x).irqSel = 0x3F ∧ (State.reset.port x).faultSel = 0x1F ∧
    (State.reset.port x).leaseSel = 0 ∧ (State.reset.port x).lineSel = 0 ∧
    (State.reset.port x).reqKind = 0 ∧ (∀ i, (State.reset.port x).reqParam.get i = 0) ∧
    (State.reset.port x).result = 0 ∧ (State.reset.port x).resultKind = 0 ∧
    (State.reset.port x).resultInfo = 0) ∧
  State.reset.groupSel = 0 ∧ State.reset.sreqKind = 0 ∧ (∀ i, State.reset.sreqParam.get i = 0) ∧
  State.reset.ms = 0

/-! ### Invariants -/

/-- Every law of the part holds after reset (R173). -/
def Obligations.ResetMeetsLaws : Prop := EveryLaw State.reset

/-- Every step keeps every law of the part: those that the statements below suppose, by themselves; and with
them that a mirror's demand agrees with its source's filtered level and its sense (R13, R116), that the
trigger line of a pending commit is not at its target (R140), and that RESETn low keeps every part at device
reset (R173). -/
def Obligations.StepKeepsLaws : Prop :=
  ∀ s t : State, step s = .next t → (Inv s → Inv t) ∧ (EveryLaw s → EveryLaw t)

/-- The pairings of the lease entry, the order of the waiting lists and their want of repeats (R21, R46 to
R48). -/
def Obligations.StepKeepsLeases : Prop := ∀ s t : State, LeaseLaw s → step s = .next t → LeaseLaw t

/-- Records stay well-formed, safe configurations INPUT and STATIC, and no mirror follows a mirror (R3, R16,
R118). -/
def Obligations.StepKeepsConfigurations : Prop :=
  ∀ s t : State, ConfigLaw s → step s = .next t → ConfigLaw t

/-- No two lines of a pair are ever both asserted, and no line of a pair has a STATIC ASSERTED safe record
(R91, R99). -/
def Obligations.StepKeepsInterlocks : Prop :=
  ∀ s t : State, SafeConfigLaw s → PairLaw s → step s = .next t → SafeConfigLaw t ∧ PairLaw t

/-- A candidate is the opposite of the filtered level and its count is 1 to 15 (R122). -/
def Obligations.StepKeepsCandidates : Prop :=
  ∀ s t : State, SamplerLaw s → step s = .next t → SamplerLaw t

/-! ### Encodings -/

/-- A well-formed record written as its seven bytes is read as itself, for the line it is for; and seven bytes
are read only as a well-formed record, whose polarity, drive, edges and filter stand at their places and which
carries exactly the parts of its function (R3, R72, R182).  They are refused in the six cases of R182 and in no
other: a function above 3, a filter above 15, carried bits other than those of the function, a carried width of
0, a carried source above 31 or equal to the line, a carried sense above 1; what stands in bit 4 and in bytes 3
to 6 where their part is not carried does not matter there, and is 0 in the bytes that show a record. -/
def Obligations.RecordsReadBack : Prop :=
  (∀ (l : Line) (r : Record), r.wfFor l → record? l r.bytes = some r) ∧
  (∀ (l : Line) (b : RecordBytes) (r : Record), record? l b = some r →
    r.wfFor l ∧ r.filter.val = b.filter.toNat ∧
      (r.polarity = .inverted ↔ b.shape.getLsbD 0 = true) ∧
      (r.drive = .openDrain ↔ b.shape.getLsbD 1 = true) ∧
      r.edges.code = (b.shape.extractLsb' 2 2).setWidth 8 ∧
      match r.function with
      | .input => b.function = 0 ∧ b.shape.extractLsb' 5 3 = 0b000
      | .static a => b.function = 1 ∧ b.shape.extractLsb' 5 3 = 0b001 ∧ b.shape.getLsbD 4 = a
      | .pulse w => b.function = 2 ∧ b.shape.extractLsb' 5 3 = 0b010 ∧ w = b.widthHi ++ b.widthLo
      | .mirror src sense => b.function = 3 ∧ b.shape.extractLsb' 5 3 = 0b100 ∧
          b.source.toNat = src.val ∧ (b.sense = 0 ∧ sense = .same ∨ b.sense = 1 ∧ sense = .opposite)) ∧
  (∀ r : Record,
    ((∀ a, r.function ≠ .static a) → r.bytes.shape.getLsbD 4 = false) ∧
    ((∀ w, r.function ≠ .pulse w) → r.bytes.widthHi = 0 ∧ r.bytes.widthLo = 0) ∧
    ((∀ src sense, r.function ≠ .mirror src sense) → r.bytes.source = 0 ∧ r.bytes.sense = 0)) ∧
  ∀ (l : Line) (b : RecordBytes),
    let level := b.shape.getLsbD 5
    let width := b.shape.getLsbD 6
    let mirror := b.shape.getLsbD 7
    record? l b = none ↔
      3 < b.function.toNat ∨ 15 < b.filter.toNat ∨
      (level, width, mirror) ≠
        (decide (b.function = 1), decide (b.function = 2), decide (b.function = 3)) ∨
      (width = true ∧ b.widthHi = 0 ∧ b.widthLo = 0) ∨
      (mirror = true ∧ (31 < b.source.toNat ∨ b.source.toNat = l.val)) ∨
      (mirror = true ∧ 1 < b.sense.toNat)

/-- Every request of the table is the write frame that writes its kind and its parameters from REQ_KIND or
SREQ_KIND on (R177, R178, R181).  That the row stands for this frame is the model's choice (log 4). -/
def Obligations.RequestsAreWriteFrames : Prop :=
  ∀ s : State,
    (∀ x g f, exec (.claim x g f) s = exec (.registerWrite x (.frame 0x04 [0x01, g, f])) s) ∧
    (∀ x g, exec (.release x g) s = exec (.registerWrite x (.frame 0x04 [0x02, g])) s) ∧
    (∀ x g, exec (.renew x g) s = exec (.registerWrite x (.frame 0x04 [0x03, g])) s) ∧
    (∀ x g, exec (.withdraw x g) s = exec (.registerWrite x (.frame 0x04 [0x04, g])) s) ∧
    (∀ x l (r : RecordBytes), exec (.stage x l r) s =
      exec (.registerWrite x (.frame 0x04
        [0x05, l, r.function, r.shape, r.filter, r.widthHi, r.widthLo, r.source, r.sense])) s) ∧
    (∀ x g, exec (.stageCopy x g) s = exec (.registerWrite x (.frame 0x04 [0x06, g])) s) ∧
    (∀ x g, exec (.commit x g) s = exec (.registerWrite x (.frame 0x04 [0x07, g])) s) ∧
    (∀ x g, exec (.exchange x g) s = exec (.registerWrite x (.frame 0x04 [0x08, g])) s) ∧
    (∀ x g e, exec (.watch x g e) s = exec (.registerWrite x (.frame 0x04 [0x09, g, e])) s) ∧
    (∀ x g, exec (.unwatch x g) s = exec (.registerWrite x (.frame 0x04 [0x0A, g])) s) ∧
    (∀ x g k l v (t d : Word16), exec (.defer x g k l v t d) s =
      exec (.registerWrite x (.frame 0x04
        [0x0B, g, k, l, v, t.extractLsb' 8 8, t.extractLsb' 0 8, d.extractLsb' 8 8,
          d.extractLsb' 0 8])) s) ∧
    (∀ x, exec (.cancelPending x) s = exec (.registerWrite x (.frame 0x04 [0x0C])) s) ∧
    (∀ x, exec (.detachSelf x) s = exec (.registerWrite x (.frame 0x04 [0x0D])) s) ∧
    (∀ x k, exec (.unknown (.client x) k) s = exec (.registerWrite x (.frame 0x04 [k])) s) ∧
    (∀ k, exec (.unknown .supervisor k) s = exec (.registerWrite .a (.frame 0x81 [k])) s) ∧
    ∀ page x start, (page = .client x ∧ start = 0x04 ∨ page = .supervisor ∧ x = .a ∧ start = 0x81) →
      (∀ g, exec (.forceRelease page g) s = exec (.registerWrite x (.frame start [0x20, g])) s) ∧
      (∀ g, exec (.withhold page g) s = exec (.registerWrite x (.frame start [0x21, g])) s) ∧
      (∀ g, exec (.openGroup page g) s = exec (.registerWrite x (.frame start [0x22, g])) s) ∧
      (∀ g c p, exec (.setPriority page g c p) s =
        exec (.registerWrite x (.frame start [0x23, g, c, p])) s) ∧
      (∀ g f (l d : Word16), exec (.setPolicy page g f l d) s =
        exec (.registerWrite x (.frame start
          [0x24, g, f, l.extractLsb' 8 8, l.extractLsb' 0 8, d.extractLsb' 8 8,
            d.extractLsb' 0 8])) s) ∧
      (∀ l (r : RecordBytes), exec (.setSafe page l r) s =
        exec (.registerWrite x (.frame start
          [0x25, l, r.function, r.shape, r.filter, r.widthHi, r.widthLo, r.source, r.sense])) s) ∧
      (∀ i a b, exec (.setPair page i a b) s =
        exec (.registerWrite x (.frame start [0x26, i, a, b])) s) ∧
      (∀ i, exec (.clearPair page i) s = exec (.registerWrite x (.frame start [0x27, i])) s) ∧
      (∀ v, exec (.setAudit page v) s = exec (.registerWrite x (.frame start [0x28, v])) s) ∧
      (∀ c, exec (.detach page c) s = exec (.registerWrite x (.frame start [0x29, c])) s)

/-! ### Ports, queues, pins -/

/-- A frame of six bytes from EVT0 shows the head of the queue and pops it (R154, R155): its kind, group,
client, level, line, reason and time in the codes of R150 and R183, which are written out in `entryCodes`, and
the result codes with them.  On an empty queue it shows zeros and pops nothing; a frame of fewer bytes from
EVT0 pops nothing; one that begins at EVT5 shows the head's time and pops it.  What the bits show that an
entry gives no value is the model's: free values, drawn one by one (log 10), bit 7 of EVT1 where the kind
carries no level (log 11), EVT2 where there is no line (log 12). -/
def Obligations.EventFramesPop : Prop :=
  ResultCodes ∧
  ∀ (s : State) (x : Client), portTakes s x = true →
    (∀ e q, s.queues.get x = e :: q →
      (∃ t bs, exec (.eventPop x (.frame 0x19 6)) s = .next t ∧
        SameExcept [.ports, .queues, .draws] s t ∧ t.queues.get x = q ∧ OtherQueues x s t ∧
        OtherPorts x s t ∧ t.port x = { s.port x with miso := 0 :: 0 :: bs } ∧ ShowsEntry e bs ∧
        bs = (List.range 6).map fun i => (eventByte (some e) i).resolve (s.draws + i)) ∧
      ∃ t, exec (.eventPop x (.frame 0x1E 1)) s = .next t ∧
        SameExcept [.ports, .queues, .draws] s t ∧ t.queues.get x = q ∧ OtherQueues x s t ∧
        OtherPorts x s t ∧
        t.port x = { s.port x with miso := [0, 0, e.stamp.extractLsb' 0 8] }) ∧
    (s.queues.get x = [] →
      (∃ t, exec (.eventPop x (.frame 0x19 6)) s = .next t ∧
        SameExcept [.ports, .draws] s t ∧ OtherPorts x s t ∧
        t.port x = { s.port x with miso := List.replicate 8 0 }) ∧
      ∃ t, exec (.eventPop x (.frame 0x1E 1)) s = .next t ∧
        SameExcept [.ports, .draws] s t ∧ OtherPorts x s t ∧
        t.port x = { s.port x with miso := [0, 0, 0] }) ∧
    (∀ n, n < 6 →
      ∃ t, exec (.eventPop x (.frame 0x19 n)) s = .next t ∧
        SameExcept [.ports, .draws] s t ∧ OtherPorts x s t ∧
        t.port x = { s.port x with miso := (t.port x).miso })

/-- The interrupt selection is all enabled after device reset and after a client reset, is written through
IRQ_SEL at frame end and not before it, and decides no append (9.7, R158). -/
def Obligations.InterruptSelection : Prop :=
  (∀ x, (State.reset.port x).irqSel = 0x3F) ∧
  (∀ (s : State) (pads : BitVec 32), s.resetLow = false →
    ∃ t u, exec (.deviceReset true) s = .next t ∧ exec (.deviceResetRelease pads) t = .next u ∧
      ∀ x, (t.port x).irqSel = 0x3F ∧ (u.port x).irqSel = 0x3F) ∧
  (∀ (s : State) (x : Client), s.resetLow = false → (s.port x).crstLow = false →
    ∃ t, exec (.clientReset x true) s = .next t ∧ (t.port x).irqSel = 0x3F) ∧
  (∀ (s : State) (x : Client), portTakes s x = true →
    ∃ t, exec (.detachSelf x) s = .next t ∧ (t.port x).irqSel = 0x3F) ∧
  (∀ (s : State) (x : Client) (b : Byte), portTakes s .a = true → b.toNat = clientNumber x →
    (s.port x).crstLow = false →
    ∃ t, exec (.detach .supervisor b) s = .next t ∧ (t.port x).irqSel = 0x3F) ∧
  (∀ (s : State) (x : Client) (v : Byte), portTakes s x = true →
    ∃ t, exec (.irqSelWrite x v) s = .next t ∧ SameExcept [.ports] s t ∧ OtherPorts x s t ∧
      t.port x = { s.port x with irqSel := v.setWidth 6, miso := [0, 0, 0] }) ∧
  (∀ (s : State) (x : Client) (v : Byte), portTakes s x = true →
    ∃ t u r, exec (.registerWrite x (.begin true 0x80 0x1F)) s = .next t ∧
      exec (.registerWrite x (.next v)) t = .next u ∧
      exec (.registerWrite x (.finish true)) u = .next r ∧
      (t.port x).irqSel = (s.port x).irqSel ∧ (u.port x).irqSel = (s.port x).irqSel ∧
      (r.port x).irqSel = v.setWidth 6) ∧
  ∀ (s : State) (x y : Client) (sel : BitVec 6) (e : Event),
    (append y e (s.withPort x fun p => { p with irqSel := sel })).queues = (append y e s).queues

/-- A frame that reads one register shows it (R176, R179, R180) and changes nothing else: every address but EVT5,
whose read pops, in the bits to which the manual gives a value; and what these are, view by view of both
pages.  A frame of any length, from any address, shows each register it reads, its addresses counting on
inside their half of the window (R175), and pops the head of the queue exactly where it reads EVT5 (R155).
Given in pieces, with anything in between, a frame shows each register as it stands when its byte is shifted,
the bytes of R176 as they were latched at the first of them, an empty queue as NONE to its end (R154), and
pops at the rise of CS (R155); after a DETACH of its client it pops nothing.  That such a frame runs on is
deduced (log 25); which bits have no value, and that they read as free values, is the model's choice (logs
10, 11, 12). -/
def Obligations.ReadFramesShowRegisters : Prop :=
  (∀ (s : State) (x : Client), ReadsInPieces s x) ∧
  ∀ (s : State) (x : Client), portTakes s x = true →
    (∀ a : Byte, a ≠ 0x1E →
      ReadsAs s x a (~~~(windowByte s x a).hole)
        ((windowByte s x a).value &&& ~~~(windowByte s x a).hole)) ∧
    (∀ start count, ReadsFrame s x start count) ∧
    ReadsPortRegisters s x ∧ ReadsLines s x ∧ ReadsPending s x ∧ (LeaseLaw s → ReadsGroups s x) ∧
    (x = .a → ReadsSupervisorPage s)

/-- Write frames at frame end (R175, R177, R178, R179, R180). One byte: a selector stores it in the bits it
has, GROUP_SEL through Port A alone; a parameter register stores it, those of the supervisor page through
Port A alone; an address that holds no writable register of the port discards it. Several bytes, none of
them for a kind register: each is stored at its own address, which counts on inside its half of the window.
Any bytes: the last one written to each register stands in it, and then, where the frame wrote a kind
register, the request of the kind finally written is issued with all registers as they stand, the selections
among them and the parameters from whichever frame (R157, R178): the frame does what a frame of that kind
alone would do then. Given in pieces with nothing between, it does the same. Given in pieces with anything in
between, each data byte is only held with its address in the frame assembly buffer and stores nothing; CS
rising inside a byte drops the buffer, and nothing of the frame is stored; CS rising after a whole byte
stores the buffer in the state then standing and issues the request of the kind finally written there, the
port not being held in reset, when it ignores the frame. A DETACH of the client in between leaves the frame
and its buffer, whose writes and request take effect against the reset state (R171). A frame that ends before its two
bytes are whole changes only the record of what MISO returned, zeros. MISO is driven from the fall of CS on
and released while CS is high. -/
def Obligations.RegisterWrites : Prop :=
  (∀ (s : State) (x : Client) (v : Byte), portTakes s x = true →
    (∃ t, exec (.registerWrite x (.frame 0x20 [v])) s = .next t ∧ SameExcept [.ports] s t ∧
      OtherPorts x s t ∧ t.port x = { s.port x with faultSel := v.setWidth 5, miso := [0, 0, 0] }) ∧
    (∃ t, exec (.registerWrite x (.frame 0x3D [v])) s = .next t ∧ SameExcept [.ports] s t ∧
      OtherPorts x s t ∧
      t.port x = { s.port x with leaseSel := Fin.ofNat 8 v.toNat, miso := [0, 0, 0] }) ∧
    (∃ t, exec (.registerWrite x (.frame 0x43 [v])) s = .next t ∧ SameExcept [.ports] s t ∧
      OtherPorts x s t ∧
      t.port x = { s.port x with lineSel := Fin.ofNat 32 v.toNat, miso := [0, 0, 0] }) ∧
    (∃ t, exec (.registerWrite x (.frame 0x80 [v])) s = .next t ∧
      SameExcept [.ports, .groupSel] s t ∧ OtherPorts x s t ∧
      t.port x = { s.port x with miso := [0, 0, 0] } ∧
      t.groupSel = if x = .a then Fin.ofNat 8 v.toNat else s.groupSel) ∧
    ∀ i : Fin 16,
      (∃ t, exec (.registerWrite x (.frame (BitVec.ofNat 8 (0x05 + i.val)) [v])) s = .next t ∧
        SameExcept [.ports] s t ∧ OtherPorts x s t ∧
        t.port x = { s.port x with reqParam := (t.port x).reqParam, miso := [0, 0, 0] } ∧
        ∀ j, (t.port x).reqParam.get j = if j = i then v else (s.port x).reqParam.get j) ∧
      (x = .a →
        ∃ t, exec (.registerWrite x (.frame (BitVec.ofNat 8 (0x82 + i.val)) [v])) s = .next t ∧
          SameExcept [.ports, .sreq] s t ∧ OtherPorts x s t ∧
          t.port x = { s.port x with miso := [0, 0, 0] } ∧ t.sreqKind = s.sreqKind ∧
          ∀ j, t.sreqParam.get j = if j = i then v else s.sreqParam.get j)) ∧
  (∀ (s : State) (x : Client) (a v : Byte), portTakes s x = true →
    (a.toNat < 0x04 ∨ 0x15 ≤ a.toNat ∧ a.toNat < 0x1F ∨ 0x21 ≤ a.toNat ∧ a.toNat < 0x3D ∨
      0x3E ≤ a.toNat ∧ a.toNat < 0x43 ∨ 0x44 ≤ a.toNat ∧ a.toNat < 0x80 ∨
      0x80 ≤ a.toNat ∧ (x ≠ .a ∨ 0x92 ≤ a.toNat)) →
    ∃ t, exec (.registerWrite x (.frame a [v])) s = .next t ∧ SameExcept [.ports] s t ∧
      OtherPorts x s t ∧ t.port x = { s.port x with miso := [0, 0, 0] }) ∧
  (∀ (s : State) (x : Client) (a v : Byte) (vs : List Byte), portTakes s x = true →
    (∀ i, i ≤ vs.length → frameAddress a i ≠ 0x04 ∧ (x = .a → frameAddress a i ≠ 0x81)) →
    ∃ first rest t, exec (.registerWrite x (.frame a [v])) s = .next first ∧
      exec (.registerWrite x (.frame (frameAddress a 1) vs)) first = .next rest ∧
      exec (.registerWrite x (.frame a (v :: vs))) s = .next t ∧ SameExcept [.ports] rest t ∧
      OtherPorts x rest t ∧
      t.port x = { rest.port x with miso := List.replicate (vs.length + 3) 0 }) ∧
  (∀ (s : State) (x : Client) (start : Byte) (data : List Byte), portTakes s x = true →
    ∃ u t, StoresFrame s u x start data ∧
      exec (.registerWrite x (.frame start data)) s = .next t ∧
      (lastWritten start data 0x04 = none → (x = .a → lastWritten start data 0x81 = none) →
        SameButMiso u t x (data.length + 2)) ∧
      (∀ kind, lastWritten start data 0x04 = some kind →
        ∃ v, exec (.registerWrite x (.frame 0x04 [kind])) u = .next v ∧
          SameButMiso v t x (data.length + 2)) ∧
      ∀ kind, x = .a → lastWritten start data 0x81 = some kind →
        ∃ v, exec (.registerWrite x (.frame 0x81 [kind])) u = .next v ∧
          SameButMiso v t x (data.length + 2)) ∧
  (∀ (s : State) (x : Client), WritesInPieces s x) ∧
  ∀ (s : State) (x : Client),
    ((s.port x).frame = none →
      misoCondition s x = .released ∧
      (∀ n : Fin 2, ∃ t, exec (.registerWrite x (.runt n)) s = .next t ∧ SameExcept [.ports] s t ∧
        OtherPorts x s t ∧ t.port x = { s.port x with miso := List.replicate n.val 0 }) ∧
      ∀ spaced access start, ∃ t,
        exec (.registerWrite x (.begin spaced access start)) s = .next t ∧
        SameExcept [.ports] s t ∧ OtherPorts x s t ∧ misoCondition t x = .driven [0, 0]) ∧
    ∀ whole, ∃ t, exec (.registerWrite x (.finish whole)) s = .next t ∧ misoCondition t x = .released

/-- The append rule (R152, R153): up to 30 entries the event joins at the tail with the millisecond count; at
31 OVERFLOW takes its place; at 32, and while the client is held in reset, it is discarded. -/
def Obligations.AppendRule : Prop :=
  ∀ (s : State) (x : Client) (e : Event),
    SameExcept [.queues] s (append x e s) ∧ OtherQueues x s (append x e s) ∧
    (append x e s).queues.get x =
      if (s.port x).crstLow = true then s.queues.get x
      else if (s.queues.get x).length ≤ 30 then s.queues.get x ++ [⟨e, s.ms⟩]
      else if (s.queues.get x).length = 31 then s.queues.get x ++ [⟨.overflow, s.ms⟩]
      else s.queues.get x

/-- The interrupt output with a full queue, and when it is asserted (R160): a full queue ends with OVERFLOW;
the output of a client that no reset holds is asserted exactly while the queue holds an OVERFLOW or an entry of
an enabled class (R158, R159), the class of each kind (9.5) and its bit of IRQ_SEL (R179) written out in
`irqBit`; every step keeps this. -/
def Obligations.OverflowInterrupt : Prop :=
  (∀ s t : State, QueueLaw s → step s = .next t → QueueLaw t) ∧
  ∀ (s : State) (x : Client), QueueLaw s → s.resetLow = false → (s.port x).crstLow = false →
    ((s.queues.get x).length = 32 → irqAsserted s x = true) ∧
    (irqAsserted s x = true ↔
      ∃ e ∈ s.queues.get x, e.event = .overflow ∨
        (s.port x).irqSel.getLsbD (irqBit e.event) = true) ∧
    ((s.port x).irqSel = 0 →
      (irqAsserted s x = true ↔ ∃ e ∈ s.queues.get x, e.event = .overflow))

/-- Assertion and pads (R8, R9, R10, R18): which lines are asserted; a pad is released while RESETn is low and
under INPUT, and otherwise as polarity and drive map the line's assertion. -/
def Obligations.PadConditions : Prop :=
  ∀ (s : State) (l : Line),
    (asserted s l = true ↔
      (s.record l).function = .static true ∨
      (∃ w, (s.record l).function = .pulse w ∧ (s.driver l).pulse ≠ none) ∨
      ∃ src sense, (s.record l).function = .mirror src sense ∧
        (s.driver l).mirror = some ⟨.following, true⟩) ∧
    padCondition s l =
      if s.resetLow = true ∨ (s.record l).function = .input then .released
      else if (s.record l).polarity = .normal then
        if asserted s l = true then
          if (s.record l).drive = .pushPull then .drivenHigh else .released
        else .drivenLow
      else
        if asserted s l = true then .drivenLow
        else if (s.record l).drive = .pushPull then .drivenHigh else .released

/-! ### Refusals that many requests share -/

/-- Kinds and pages (R43, R156, R164, R178): a kind that no rule of its page knows is refused UNKNOWN, with
RESULT_KIND the kind as written; every supervisor request written through a client page is refused
NOT_SUPERVISOR, whatever its parameters, with its RESULT at the port that issued it and its FAULT, as of
every supervisor request, client A's under A's selection (R149, R157, R164, R168); either changes nothing
else.  The FAULT is appended exactly where the bit of the refusal's class in FAULT_SEL is 1, the bits of the
five classes written out in `faultBit` (R157, R179), as in every statement of a refusal.  That R43's issuing client is client A here too is deduced (log 27). -/
def Obligations.PagesRefuseKinds : Prop :=
  (∀ (s : State) (page : Page) (kind : Byte), portTakes s (pagePort page) = true →
    ((page = .supervisor ∧ (kind.toNat < 0x20 ∨ 0x29 < kind.toNat)) ∨
      (page ≠ .supervisor ∧
        (kind = 0 ∨ 0x0D < kind.toNat ∧ kind.toNat < 0x20 ∨ 0x29 < kind.toNat))) →
    AnswersRefused (exec (.unknown page kind) s) s page kind [] .range .unknown) ∧
  ∀ (s : State) (x : Client) (a b c : Byte) (v w : Word16) (r : RecordBytes), portTakes s x = true →
    AnswersRefused (exec (.forceRelease (.client x) a) s) s (.client x) 0x20 [a] .authority
      .notSupervisor ∧
    AnswersRefused (exec (.withhold (.client x) a) s) s (.client x) 0x21 [a] .authority
      .notSupervisor ∧
    AnswersRefused (exec (.openGroup (.client x) a) s) s (.client x) 0x22 [a] .authority
      .notSupervisor ∧
    AnswersRefused (exec (.setPriority (.client x) a b c) s) s (.client x) 0x23 [a, b, c] .authority
      .notSupervisor ∧
    AnswersRefused (exec (.setPolicy (.client x) a b v w) s) s (.client x) 0x24
      [a, b, v.extractLsb' 8 8, v.extractLsb' 0 8, w.extractLsb' 8 8, w.extractLsb' 0 8] .authority
      .notSupervisor ∧
    AnswersRefused (exec (.setSafe (.client x) a r) s) s (.client x) 0x25
      [a, r.function, r.shape, r.filter, r.widthHi, r.widthLo, r.source, r.sense] .authority
      .notSupervisor ∧
    AnswersRefused (exec (.setPair (.client x) a b c) s) s (.client x) 0x26 [a, b, c] .authority
      .notSupervisor ∧
    AnswersRefused (exec (.clearPair (.client x) a) s) s (.client x) 0x27 [a] .authority
      .notSupervisor ∧
    AnswersRefused (exec (.setAudit (.client x) a) s) s (.client x) 0x28 [a] .authority
      .notSupervisor ∧
    AnswersRefused (exec (.detach (.client x) a) s) s (.client x) 0x29 [a] .authority
      .notSupervisor

/-- A parameter outside its range is refused RANGE and changes nothing (R24, R29, R31, R50, R72, R73, R81, R129,
R130, R40 to R42, R165 to R168, R100, R102, R171), at the requests whose first test it is: a group, client,
pair index, priority or audit selection of 8 or more, a line of 32 or more, a pair of a line with itself. -/
def Obligations.ParametersOutOfRange : Prop :=
  ∀ (s : State) (x : Client) (a b c : Byte) (v w : Word16) (r : RecordBytes), 8 ≤ a.toNat →
    (portTakes s x = true →
      AnswersRefused (exec (.claim x a b) s) s (.client x) 0x01 [a, b] .range .range ∧
      AnswersRefused (exec (.release x a) s) s (.client x) 0x02 [a] .range .range ∧
      AnswersRefused (exec (.renew x a) s) s (.client x) 0x03 [a] .range .range ∧
      AnswersRefused (exec (.withdraw x a) s) s (.client x) 0x04 [a] .range .range ∧
      AnswersRefused (exec (.stageCopy x a) s) s (.client x) 0x06 [a] .range .range ∧
      AnswersRefused (exec (.exchange x a) s) s (.client x) 0x08 [a] .range .range ∧
      AnswersRefused (exec (.watch x a b) s) s (.client x) 0x09 [a, b] .range .range ∧
      AnswersRefused (exec (.unwatch x a) s) s (.client x) 0x0A [a] .range .range ∧
      (32 ≤ a.toNat → AnswersRefused (exec (.stage x a r) s) s (.client x) 0x05
        [a, r.function, r.shape, r.filter, r.widthHi, r.widthLo, r.source, r.sense] .range .range)) ∧
    (portTakes s .a = true →
      AnswersRefused (exec (.forceRelease .supervisor a) s) s .supervisor 0x20 [a] .range .range ∧
      AnswersRefused (exec (.withhold .supervisor a) s) s .supervisor 0x21 [a] .range .range ∧
      AnswersRefused (exec (.openGroup .supervisor a) s) s .supervisor 0x22 [a] .range .range ∧
      AnswersRefused (exec (.setPriority .supervisor a b c) s) s .supervisor 0x23 [a, b, c] .range .range ∧
      AnswersRefused (exec (.setPriority .supervisor b a c) s) s .supervisor 0x23 [b, a, c] .range .range ∧
      AnswersRefused (exec (.setPriority .supervisor b c a) s) s .supervisor 0x23 [b, c, a] .range .range ∧
      AnswersRefused (exec (.setPolicy .supervisor a b v w) s) s .supervisor 0x24
        [a, b, v.extractLsb' 8 8, v.extractLsb' 0 8, w.extractLsb' 8 8, w.extractLsb' 0 8] .range .range ∧
      AnswersRefused (exec (.setPair .supervisor a b c) s) s .supervisor 0x26 [a, b, c] .range .range ∧
      AnswersRefused (exec (.setPair .supervisor b c c) s) s .supervisor 0x26 [b, c, c] .range .range ∧
      (32 ≤ a.toNat →
        AnswersRefused (exec (.setPair .supervisor b a c) s) s .supervisor 0x26 [b, a, c] .range .range ∧
        AnswersRefused (exec (.setPair .supervisor b c a) s) s .supervisor 0x26 [b, c, a] .range .range ∧
        AnswersRefused (exec (.setSafe .supervisor a r) s) s .supervisor 0x25
          [a, r.function, r.shape, r.filter, r.widthHi, r.widthLo, r.source, r.sense] .range .range) ∧
      AnswersRefused (exec (.clearPair .supervisor a) s) s .supervisor 0x27 [a] .range .range ∧
      AnswersRefused (exec (.setAudit .supervisor a) s) s .supervisor 0x28 [a] .range .range ∧
      AnswersRefused (exec (.detach .supervisor a) s) s .supervisor 0x29 [a] .range .range)

/-! ### Claims (Chapters 2 and 3) -/

/-- The tests of a CLAIM in their order, and their refusals (R24); the first, RANGE, is
`ParametersOutOfRange`. -/
def Obligations.ClaimTests : Prop :=
  ∀ (s : State) (x : Client) (b f : Byte) (g : Group), portTakes s x = true → b.toNat = g.val →
    ((s.entry g).state = .withheld →
      AnswersRefused (exec (.claim x b f) s) s (.client x) 0x01 [b, f] .ownership .withheld) ∧
    ((s.entry g).state ≠ .withheld → (s.policy.get g).priority.get x = 0 →
      AnswersRefused (exec (.claim x b f) s) s (.client x) 0x01 [b, f] .ownership .ineligible) ∧
    ((s.entry g).state ≠ .withheld → (s.policy.get g).priority.get x ≠ 0 → s.holder g = some x →
      AnswersRefused (exec (.claim x b f) s) s (.client x) 0x01 [b, f] .ownership .alreadyHeld) ∧
    ((s.entry g).state ≠ .withheld → (s.policy.get g).priority.get x ≠ 0 → s.holder g ≠ some x →
      s.waits x g = true →
      AnswersRefused (exec (.claim x b f) s) s (.client x) 0x01 [b, f] .ownership .alreadyWaiting)

/-- A claim on a SAFE group that tries no restore is granted at once, and the safe configuration stays in
place (R25, R32, R132). -/
def Obligations.ClaimGrantedFromSafe : Prop :=
  ∀ (s : State) (x : Client) (b f : Byte) (g : Group), Inv s → portTakes s x = true →
    b.toNat = g.val → (s.entry g).state = .safe → (s.policy.get g).priority.get x ≠ 0 →
    (f.getLsbD 2 = false ∨ (s.park.get x).get g = none) →
    ∃ t, exec (.claim x b f) s = .next t ∧ Served s t (.client x) 0x01 [b, f] .granted 0 ∧
      Held s t g x ((s.policy.get g).priority.get x) [] ∧ OtherEntries g s t ∧
      SameExcept [.lease, .queues, .ports] s t ∧ Sends s t (toWatchers s g .held (some x))

/-- A claim with RESTORE on a SAFE group, where the claimant has a valid park record (R25, R86, R87): accepted,
the park configuration is in place with its pulses at rest and the park record is invalid; refused, the safe
configuration and the park record stay and RESTORE_REFUSED says which check failed. -/
def Obligations.ClaimRestoresFromSafe : Prop :=
  ∀ (s : State) (x : Client) (b f : Byte) (g : Group) (cfg : GroupConfig), Inv s →
    portTakes s x = true → b.toNat = g.val → (s.entry g).state = .safe →
    (s.policy.get g).priority.get x ≠ 0 → f.getLsbD 2 = true → (s.park.get x).get g = some cfg →
    ∃ t, exec (.claim x b f) s = .next t ∧ Served s t (.client x) 0x01 [b, f] .granted 0 ∧
      Held s t g x ((s.policy.get g).priority.get x) [] ∧ OtherEntries g s t ∧
      match judge (Proposal.of s [(g, cfg)] false) s with
      | .accepted =>
        SameExcept [.lease, .active, .drivers, .park, .queues, .ports] s t ∧
        (t.park.get x).get g = none ∧
        (∀ y k, ¬ (y = x ∧ k = g) → (t.park.get y).get k = (s.park.get y).get k) ∧
        GroupTakes g cfg s t ∧ LinesOutside (only g) s t ∧
        ∃ rs, Resumes (only g) s t rs ∧
          Sends s t fun y => heldEvents (only g) t y ++ rs y ++ toWatchers s g .held (some x) y
      | .loop =>
        SameExcept [.lease, .queues, .ports] s t ∧
        Sends s t fun y =>
          toClient x [.restoreRefused g .loop] y ++ toWatchers s g .held (some x) y
      | .interlock _ =>
        SameExcept [.lease, .queues, .ports] s t ∧
        Sends s t fun y =>
          toClient x [.restoreRefused g .interlock] y ++ toWatchers s g .held (some x) y

/-- A claim on a HELD group that does not preempt (R26, R46, R47, R53): with WAIT it is queued at its place and
nothing else changes; with NOWAIT it is refused BUSY.  Arrival order is the model's counter (log 13). -/
def Obligations.ClaimOnHeldWaits : Prop :=
  ∀ (s : State) (x : Client) (b f : Byte) (g : Group), LeaseLaw s → portTakes s x = true →
    b.toNat = g.val → (s.entry g).state = .held → (s.policy.get g).priority.get x ≠ 0 →
    s.holder g ≠ some x → s.waits x g = false →
    ¬ (f.getLsbD 1 = true ∧ (s.policy.get g).preemptible = true ∧
      ∃ q, (s.entry g).priority = some q ∧ q < (s.policy.get g).priority.get x) →
    (f.getLsbD 0 = true →
      ∃ t w, exec (.claim x b f) s = .next t ∧ Served s t (.client x) 0x01 [b, f] .queued 0 ∧
        Inserted ⟨x, (s.policy.get g).priority.get x, f.getLsbD 1, f.getLsbD 2, (s.entry g).arrivals⟩
          (s.entry g).waiting w ∧
        t.entry g = { s.entry g with waiting := w, arrivals := (s.entry g).arrivals + 1 } ∧
        OtherEntries g s t ∧ SameExcept [.lease, .ports] s t) ∧
    (f.getLsbD 0 = false →
      AnswersRefused (exec (.claim x b f) s) s (.client x) 0x01 [b, f] .sequence .busy)

/-- A claim on a REVOKING group (R27): queued with WAIT, refused BUSY with NOWAIT, whatever its priority and
whether or not it carries PREEMPT; the revocation continues with its grace timer, and no event is sent.
Arrival order is the model's counter (log 13). -/
def Obligations.ClaimOnRevoking : Prop :=
  ∀ (s : State) (x : Client) (b f : Byte) (g : Group), LeaseLaw s → portTakes s x = true →
    b.toNat = g.val → (s.entry g).state = .revoking → (s.policy.get g).priority.get x ≠ 0 →
    s.holder g ≠ some x → s.waits x g = false →
    (f.getLsbD 0 = true →
      ∃ t w, exec (.claim x b f) s = .next t ∧ Served s t (.client x) 0x01 [b, f] .queued 0 ∧
        Inserted ⟨x, (s.policy.get g).priority.get x, f.getLsbD 1, f.getLsbD 2, (s.entry g).arrivals⟩
          (s.entry g).waiting w ∧
        t.entry g = { s.entry g with waiting := w, arrivals := (s.entry g).arrivals + 1 } ∧
        OtherEntries g s t ∧ SameExcept [.lease, .ports] s t) ∧
    (f.getLsbD 0 = false →
      AnswersRefused (exec (.claim x b f) s) s (.client x) 0x01 [b, f] .sequence .busy)

/-- A claim that passes the preemption test starts a revocation (R53, R54): queued, whether WAIT or NOWAIT;
REVOKING, lease timer stopped, grace timer started, REVOKE_NOTICE to the holder, GROUP_STATE to the
watchers.  Arrival order is the model's counter (log 13). -/
def Obligations.ClaimPreempts : Prop :=
  ∀ (s : State) (x : Client) (b f : Byte) (g : Group) (q : Priority), LeaseLaw s →
    portTakes s x = true → b.toNat = g.val → (s.entry g).state = .held → s.holder g ≠ some x →
    s.waits x g = false → f.getLsbD 1 = true → (s.policy.get g).preemptible = true →
    (s.entry g).priority = some q → q < (s.policy.get g).priority.get x →
    (s.policy.get g).gracePeriod ≠ 0 →
    ∃ t w, exec (.claim x b f) s = .next t ∧ Served s t (.client x) 0x01 [b, f] .queued 0 ∧
      Inserted ⟨x, (s.policy.get g).priority.get x, true, f.getLsbD 2, (s.entry g).arrivals⟩
        (s.entry g).waiting w ∧
      t.entry g = { s.entry g with
        state := .revoking, timer := .stopped, grace := some (s.policy.get g).gracePeriod,
        waiting := w, arrivals := (s.entry g).arrivals + 1 } ∧
      OtherEntries g s t ∧ SameExcept [.lease, .queues, .ports] s t ∧
      Sends s t fun y =>
        toHolder (s.holder g) [.revokeNotice g (s.policy.get g).gracePeriod] y ++
          toWatchers s g .revoking (s.holder g) y

/-- A preemption with a grace period of 0 is a forced loss REVOKED in the claim's own transaction (R55): the
group passes to the head of the list with the new claim in it, and the result is QUEUED.  Here that head
tries no restore; a head that tries one is in `HandoverRestores`.  Arrival order is the model's counter
(log 13). -/
def Obligations.ClaimPreemptsAtOnce : Prop :=
  ∀ (s : State) (x h : Client) (b f : Byte) (g : Group) (q : Priority), Inv s →
    portTakes s x = true → b.toNat = g.val → (s.entry g).state = .held → s.holder g = some h →
    h ≠ x → s.waits x g = false → f.getLsbD 1 = true → (s.policy.get g).preemptible = true →
    (s.entry g).priority = some q → q < (s.policy.get g).priority.get x →
    (s.policy.get g).gracePeriod = 0 →
    ∀ w, Inserted ⟨x, (s.policy.get g).priority.get x, true, f.getLsbD 2, (s.entry g).arrivals⟩
      (s.entry g).waiting w → NoRestore s g w →
    ∃ t, exec (.claim x b f) s = .next t ∧ Served s t (.client x) 0x01 [b, f] .queued 0 ∧
      LosesGroup s t g h .revoked w ∧
      SameExcept [.lease, .active, .drivers, .park, .deferred, .queues, .ports] s t

/-! ### Releases, renewals, withdrawals -/

/-- The tests of a RELEASE, and that an accepted one takes the group out of the caller's hands in its own
transaction (R29). -/
def Obligations.ReleaseTests : Prop :=
  ∀ (s : State) (x : Client) (b : Byte), portTakes s x = true →
    (8 ≤ b.toNat →
      AnswersRefused (exec (.release x b) s) s (.client x) 0x02 [b] .range .range) ∧
    ∀ g : Group, b.toNat = g.val →
      (s.holder g ≠ some x →
        AnswersRefused (exec (.release x b) s) s (.client x) 0x02 [b] .ownership .notHolder) ∧
      (LeaseLaw s → s.holder g = some x →
        ∃ t, exec (.release x b) s = .next t ∧ Served s t (.client x) 0x02 [b] .done 0 ∧
          t.holder g ≠ some x ∧
          AnswersRefused (exec (.release x b) t) t (.client x) 0x02 [b] .ownership .notHolder)

/-- A voluntary release (R30, R36 to R39, R85, R113, R145), where the new holder, if any, tries no restore: no
park record; PULSE_CUT(RELEASED) and PENDING_DROPPED; the group at its safe configuration, with the head of
the waiting list or SAFE. -/
def Obligations.ReleasePassesOn : Prop :=
  ∀ (s : State) (x : Client) (b : Byte) (g : Group), Inv s → portTakes s x = true →
    b.toNat = g.val → s.holder g = some x → NoRestore s g (s.entry g).waiting →
    ∃ t, exec (.release x b) s = .next t ∧ Served s t (.client x) 0x02 [b] .done 0 ∧
      PassesOn s t g (s.entry g).waiting ∧ OtherEntries g s t ∧
      GroupTakes g (s.policy.get g).safe s t ∧ LinesOutside (only g) s t ∧ DropsDeferred s t g x ∧
      SameExcept [.lease, .active, .drivers, .deferred, .queues, .ports] s t ∧
      ∃ rs, Resumes (only g) s t rs ∧
        Sends s t fun y =>
          toClient x (cutEvents s g .released ++ dropEvents s g x) y ++
            grantedEvents g (s.entry g).waiting y ++ rs y ++ passedState s g (s.entry g).waiting y

/-- A handover to a claim with RESTORE whose client has a valid park record (R38, R85 to R87): at a RELEASE, at a
forced loss by FORCE_RELEASE, LEASE_EXPIRY and GRACE_EXPIRY (R35), and at a preemption with a grace period of
0, where the head is the first of the list with the new claim in it (R55).  That an expiry acts when its
timer has counted down to 0 is the model's form (log 3), arrival order its counter (log 13). -/
def Obligations.HandoverRestores : Prop :=
  (∀ (s : State) (h : Client) (b : Byte) (g : Group) (c : Claim) (rest : List Claim)
    (cfg : GroupConfig), Inv s → b.toNat = g.val → s.holder g = some h →
    (s.entry g).waiting = c :: rest → c.restore = true → (s.park.get c.client).get g = some cfg →
    (portTakes s h = true →
      ∃ t, exec (.release h b) s = .next t ∧ Served s t (.client h) 0x02 [b] .done 0 ∧
        (HandsOverRestoring s t g c rest cfg fun es => Sends s t fun y =>
          toClient h (cutEvents s g .released ++ dropEvents s g h) y ++ es y) ∧
        DropsDeferred s t g h ∧
        (∀ y k, ¬ (y = c.client ∧ k = g) → (t.park.get y).get k = (s.park.get y).get k) ∧
        SameExcept [.lease, .active, .drivers, .park, .deferred, .queues, .ports] s t) ∧
    (portTakes s .a = true →
      ∃ t, exec (.forceRelease .supervisor b) s = .next t ∧
        Served s t .supervisor 0x20 [b] .done 0 ∧ LosesToRestore s t g h .forced c rest cfg ∧
        SameExcept [.lease, .active, .drivers, .park, .deferred, .queues, .ports, .sreq] s t) ∧
    ((s.entry g).state = .held → (s.entry g).timer = .running 0 →
      ∃ t, exec (.leaseExpiry g) s = .next t ∧ LosesToRestore s t g h .expired c rest cfg ∧
        SameExcept [.lease, .active, .drivers, .park, .deferred, .queues] s t) ∧
    ((s.entry g).state = .revoking → (s.entry g).grace = some 0 →
      ∃ t, exec (.graceExpiry g) s = .next t ∧ LosesToRestore s t g h .revoked c rest cfg ∧
        SameExcept [.lease, .active, .drivers, .park, .deferred, .queues] s t)) ∧
  ∀ (s : State) (x h : Client) (b f : Byte) (g : Group) (q : Priority) (c : Claim)
    (rest : List Claim) (cfg : GroupConfig), Inv s → portTakes s x = true → b.toNat = g.val →
    (s.entry g).state = .held → s.holder g = some h → h ≠ x → s.waits x g = false →
    f.getLsbD 1 = true → (s.policy.get g).preemptible = true →
    (s.entry g).priority = some q → q < (s.policy.get g).priority.get x →
    (s.policy.get g).gracePeriod = 0 →
    Inserted ⟨x, (s.policy.get g).priority.get x, true, f.getLsbD 2, (s.entry g).arrivals⟩
      (s.entry g).waiting (c :: rest) →
    c.restore = true → (s.park.get c.client).get g = some cfg →
    ∃ t, exec (.claim x b f) s = .next t ∧ Served s t (.client x) 0x01 [b, f] .queued 0 ∧
      LosesToRestore s t g h .revoked c rest cfg ∧
      SameExcept [.lease, .active, .drivers, .park, .deferred, .queues, .ports] s t

/-- RENEW (R31): its tests in order; an accepted one restarts the lease timer from the policy as it stands,
changes no other field and sends no event. -/
def Obligations.RenewRestarts : Prop :=
  ∀ (s : State) (x : Client) (b : Byte), portTakes s x = true →
    (8 ≤ b.toNat →
      AnswersRefused (exec (.renew x b) s) s (.client x) 0x03 [b] .range .range) ∧
    ∀ g : Group, b.toNat = g.val →
      (s.holder g ≠ some x →
        AnswersRefused (exec (.renew x b) s) s (.client x) 0x03 [b] .ownership .notHolder) ∧
      (s.holder g = some x → (s.entry g).state = .revoking →
        AnswersRefused (exec (.renew x b) s) s (.client x) 0x03 [b] .ownership .revoking) ∧
      (s.holder g = some x → (s.entry g).state ≠ .revoking →
        ∃ t, exec (.renew x b) s = .next t ∧ Served s t (.client x) 0x03 [b] .done 0 ∧
          t.entry g = { s.entry g with timer := startedTimer (s.policy.get g).leasePeriod } ∧
          OtherEntries g s t ∧ SameExcept [.lease, .ports] s t)

/-- WITHDRAW (R50, R59 to R61): the caller's claim leaves the list.  In REVOKING, where no claim left carries
PREEMPT above the holder's priority on a preemptible group, the group returns to HELD with a full lease. -/
def Obligations.WithdrawReevaluates : Prop :=
  ∀ (s : State) (x : Client) (b : Byte) (g : Group), portTakes s x = true → b.toNat = g.val →
    (s.waits x g = false →
      AnswersRefused (exec (.withdraw x b) s) s (.client x) 0x04 [b] .ownership .notWaiting) ∧
    (s.waits x g = true →
      ∃ t w, exec (.withdraw x b) s = .next t ∧ Served s t (.client x) 0x04 [b] .done 0 ∧
        w = (s.entry g).waiting.filter (fun c => c.client != x) ∧ OtherEntries g s t ∧
        if (s.entry g).state = .revoking ∧
          ¬ ((s.policy.get g).preemptible = true ∧ ∃ c ∈ w, c.preempt = true ∧
            ∃ q, (s.entry g).priority = some q ∧ q < c.priority) then
          t.entry g = { s.entry g with
            state := .held, timer := startedTimer (s.policy.get g).leasePeriod, grace := none,
            waiting := w } ∧
          SameExcept [.lease, .queues, .ports] s t ∧
          Sends s t fun y =>
            toHolder (s.holder g) [.revokeCancelled g] y ++ toWatchers s g .held (s.holder g) y
        else
          t.entry g = { s.entry g with waiting := w } ∧ SameExcept [.lease, .ports] s t)

/-! ### Forced losses -/

/-- Forced losses by FORCE_RELEASE, LEASE_EXPIRY and GRACE_EXPIRY (R33 to R40, R58, R83), where the new holder,
if any, tries no restore; FORCE_RELEASE of a group without a holder answers DONE and changes nothing.  That
an expiry acts when its timer has counted down to 0, and is without effect before, is the model's form
(log 3). -/
def Obligations.ForcedLosses : Prop :=
  (∀ (s : State) (h : Client) (b : Byte) (g : Group), Inv s → s.holder g = some h →
    NoRestore s g (s.entry g).waiting →
    (portTakes s .a = true → b.toNat = g.val →
      ∃ t, exec (.forceRelease .supervisor b) s = .next t ∧
        Served s t .supervisor 0x20 [b] .done 0 ∧
        LosesGroup s t g h .forced (s.entry g).waiting ∧
        SameExcept [.lease, .active, .drivers, .park, .deferred, .queues, .ports, .sreq] s t) ∧
    ((s.entry g).state = .held → (s.entry g).timer = .running 0 →
      ∃ t, exec (.leaseExpiry g) s = .next t ∧ LosesGroup s t g h .expired (s.entry g).waiting ∧
        SameExcept [.lease, .active, .drivers, .park, .deferred, .queues] s t) ∧
    ((s.entry g).state = .revoking → (s.entry g).grace = some 0 →
      ∃ t, exec (.graceExpiry g) s = .next t ∧ LosesGroup s t g h .revoked (s.entry g).waiting ∧
        SameExcept [.lease, .active, .drivers, .park, .deferred, .queues] s t)) ∧
  ∀ (s : State) (b : Byte) (g : Group),
    (portTakes s .a = true → b.toNat = g.val → s.holder g = none →
      ∃ t, exec (.forceRelease .supervisor b) s = .next t ∧
        Served s t .supervisor 0x20 [b] .done 0 ∧ SameExcept [.ports, .sreq] s t) ∧
    (¬ ((s.entry g).state = .held ∧ (s.entry g).timer = .running 0) →
      exec (.leaseExpiry g) s = .next s) ∧
    (¬ ((s.entry g).state = .revoking ∧ (s.entry g).grace = some 0) →
      exec (.graceExpiry g) s = .next s)

/-- WITHHOLD closes a group (R41): from its holder by a forced loss WITHHELD, every claim refused from the head
on; from SAFE with no change of a pad; from WITHHELD with no effect.  OPEN opens it (R42); in any other state
it has no effect. -/
def Obligations.WithholdAndOpen : Prop :=
  (∀ (s : State) (h : Client) (b : Byte) (g : Group), Inv s → portTakes s .a = true →
    b.toNat = g.val → s.holder g = some h →
    ∃ t, exec (.withhold .supervisor b) s = .next t ∧ Served s t .supervisor 0x21 [b] .done 0 ∧
      Vacant t g .withheld ∧ OtherEntries g s t ∧
      (t.park.get h).get g = some (s.groupConfig g) ∧
      (∀ y k, ¬ (y = h ∧ k = g) → (t.park.get y).get k = (s.park.get y).get k) ∧
      GroupTakes g (s.policy.get g).safe s t ∧ LinesOutside (only g) s t ∧ DropsDeferred s t g h ∧
      SameExcept [.lease, .active, .drivers, .park, .deferred, .queues, .ports, .sreq] s t ∧
      ∃ rs, Resumes (only g) s t rs ∧
        Sends s t fun y =>
          lossEvents s g h .withheld y ++
            (s.entry g).waiting.flatMap
              (fun c => toClient c.client [.claimRefused g .withheld] y) ++
            rs y ++ toWatchers s g .withheld none y) ∧
  (∀ (s : State) (b : Byte) (g : Group), Inv s → portTakes s .a = true → b.toNat = g.val →
    ((s.entry g).state = .safe →
      ∃ t, exec (.withhold .supervisor b) s = .next t ∧ Served s t .supervisor 0x21 [b] .done 0 ∧
        Vacant t g .withheld ∧ OtherEntries g s t ∧
        SameExcept [.lease, .queues, .ports, .sreq] s t ∧
        Sends s t (toWatchers s g .withheld none)) ∧
    ((s.entry g).state = .withheld →
      ∃ t, exec (.withhold .supervisor b) s = .next t ∧ Served s t .supervisor 0x21 [b] .done 0 ∧
        SameExcept [.ports, .sreq] s t) ∧
    ((s.entry g).state = .withheld →
      ∃ t, exec (.openGroup .supervisor b) s = .next t ∧ Served s t .supervisor 0x22 [b] .done 0 ∧
        Vacant t g .safe ∧ OtherEntries g s t ∧
        SameExcept [.lease, .queues, .ports, .sreq] s t ∧ Sends s t (toWatchers s g .safe none)) ∧
    ((s.entry g).state ≠ .withheld →
      ∃ t, exec (.openGroup .supervisor b) s = .next t ∧ Served s t .supervisor 0x22 [b] .done 0 ∧
        SameExcept [.ports, .sreq] s t))

/-! ### Staging, commits, exchanges (Chapter 4) -/

/-- STAGE (R72): a record that the bytes spell is written whole for its line; any other is refused RANGE. -/
def Obligations.StageWrites : Prop :=
  ∀ (s : State) (x : Client) (b : Byte) (l : Line) (rb : RecordBytes), portTakes s x = true →
    b.toNat = l.val →
    (record? l rb = none →
      AnswersRefused (exec (.stage x b rb) s) s (.client x) 0x05
        [b, rb.function, rb.shape, rb.filter, rb.widthHi, rb.widthLo, rb.source, rb.sense] .range
        .range) ∧
    ∀ r, record? l rb = some r →
      ∃ t, exec (.stage x b rb) s = .next t ∧
        Served s t (.client x) 0x05
          [b, rb.function, rb.shape, rb.filter, rb.widthHi, rb.widthLo, rb.source, rb.sense] .done 0 ∧
        (t.staged.get x).get l = r ∧
        (∀ y m, ¬ (y = x ∧ m = l) → (t.staged.get y).get m = (s.staged.get y).get m) ∧
        SameExcept [.staged, .ports] s t

/-- STAGE_COPY (R73): the caller's four staged records of the group are the active ones, in every group state and
whoever holds it; the other 28 and every other client's stay; RANGE outside 0 to 7. -/
def Obligations.StageCopyCopies : Prop :=
  ∀ (s : State) (x : Client) (b : Byte), portTakes s x = true →
    (8 ≤ b.toNat →
      AnswersRefused (exec (.stageCopy x b) s) s (.client x) 0x06 [b] .range .range) ∧
    ∀ g : Group, b.toNat = g.val →
      ∃ t, exec (.stageCopy x b) s = .next t ∧ Served s t (.client x) 0x06 [b] .done 0 ∧
        (∀ l, (t.staged.get x).get l =
          if groupOf l = g then s.record l else (s.staged.get x).get l) ∧
        (∀ y, y ≠ x → t.staged.get y = s.staged.get y) ∧ SameExcept [.staged, .ports] s t

/-- The judgement of a replacement (R76, R92, R93, R98): LOOP where a resulting MIRROR's source is a resulting
MIRROR; otherwise INTERLOCK with the lowest index whose two lines are both in the immediate set; otherwise
accepted. -/
def Obligations.JudgesReplacements : Prop :=
  ∀ (p : Proposal) (s : State),
    let loops := ∃ l src sense src' sense', (p.result l).function = .mirror src sense ∧
      (p.result src).function = .mirror src' sense'
    let immediate := fun l : Line =>
      (p.named (groupOf l) = true ∧ ((p.result l).function = .static true ∨
        p.starts = true ∧ ∃ w, (p.result l).function = .pulse w)) ∨
      (p.named (groupOf l) = false ∧ asserted s l = true)
    let clashes := fun i : Fin 8 =>
      ∃ q, s.pairs.get i = some q ∧ immediate q.lower ∧ immediate q.higher
    (judge p s = .loop ↔ loops) ∧
    (∀ i, judge p s = .interlock i ↔ ¬ loops ∧ clashes i ∧ ∀ j, j < i → ¬ clashes j) ∧
    (judge p s = .accepted ↔ ¬ loops ∧ ∀ i, ¬ clashes i)

/-- The tests of a COMMIT in their order (R75, R93, R163): RANGE for the empty set, NOT_HOLDER, LOOP, INTERLOCK
with the pair's index in RESULT_INFO; the audit copy names the lowest group of the set. -/
def Obligations.CommitTests : Prop :=
  ∀ (s : State) (x : Client) (set : Byte), portTakes s x = true →
    (set = 0 → AnswersRefused (exec (.commit x set) s) s (.client x) 0x07 [set] .range .range) ∧
    (set ≠ 0 → (∃ g : Group, set.getLsbD g.val = true ∧ s.holder g ≠ some x) →
      AnswersRefused (exec (.commit x set) s) s (.client x) 0x07 [set] .ownership .notHolder) ∧
    ∀ low : Group, set.getLsbD low.val = true → (∀ g : Group, g < low → set.getLsbD g.val = false) →
      (∀ g : Group, set.getLsbD g.val = true → s.holder g = some x) →
      (judge ⟨names set, stagedOver s x (names set), true⟩ s = .loop →
        ∃ t, exec (.commit x set) s = .next t ∧
          Refused s t (.client x) 0x07 [set] .conflict .loop 0 (some low)) ∧
      ∀ i, judge ⟨names set, stagedOver s x (names set), true⟩ s = .interlock i →
        ∃ t, exec (.commit x set) s = .next t ∧
          Refused s t (.client x) 0x07 [set] .conflict .interlock (BitVec.ofNat 8 i.val) (some low)

/-- An accepted COMMIT (R78, R79, R94, R108, R111, R112): the caller's staged records are the active records of
every named group, with their pulses started and their mirrors judged; staging stays. -/
def Obligations.CommitReplaces : Prop :=
  ∀ (s : State) (x : Client) (set : Byte), PairLaw s → portTakes s x = true → set ≠ 0 →
    (∀ g : Group, set.getLsbD g.val = true → s.holder g = some x) →
    judge ⟨names set, stagedOver s x (names set), true⟩ s = .accepted →
    ∃ t, exec (.commit x set) s = .next t ∧ Served s t (.client x) 0x07 [set] .done 0 ∧
      Replaced (names set) (s.staged.get x).get true s t ∧ LinesOutside (names set) s t ∧
      SameExcept [.active, .drivers, .queues, .ports] s t ∧
      ∃ rs, Resumes (names set) s t rs ∧
        Sends s t fun y =>
          overtakenEvents (names set) (s.staged.get x).get s y ++ heldEvents (names set) t y ++ rs y

/-- EXCHANGE (R81, R82): its tests in order; an accepted one does what a commit of the group does and leaves the
four old active records in the caller's staging; a second one with no STAGE between puts back the active and
the staged records. -/
def Obligations.ExchangeSwaps : Prop :=
  (∀ (s : State) (x : Client) (b : Byte) (g : Group), portTakes s x = true → b.toNat = g.val →
    (s.holder g ≠ some x →
      AnswersRefused (exec (.exchange x b) s) s (.client x) 0x08 [b] .ownership .notHolder) ∧
    (s.holder g = some x → judge ⟨only g, stagedOver s x (only g), true⟩ s = .loop →
      ∃ t, exec (.exchange x b) s = .next t ∧
        Refused s t (.client x) 0x08 [b] .conflict .loop 0 (some g)) ∧
    (∀ i, s.holder g = some x → judge ⟨only g, stagedOver s x (only g), true⟩ s = .interlock i →
      ∃ t, exec (.exchange x b) s = .next t ∧
        Refused s t (.client x) 0x08 [b] .conflict .interlock (BitVec.ofNat 8 i.val) (some g)) ∧
    (PairLaw s → s.holder g = some x →
      judge ⟨only g, stagedOver s x (only g), true⟩ s = .accepted →
      ∃ t, exec (.exchange x b) s = .next t ∧ Served s t (.client x) 0x08 [b] .done 0 ∧
        Replaced (only g) (s.staged.get x).get true s t ∧ LinesOutside (only g) s t ∧
        (∀ l, (t.staged.get x).get l =
          if groupOf l = g then s.record l else (s.staged.get x).get l) ∧
        (∀ y, y ≠ x → t.staged.get y = s.staged.get y) ∧
        SameExcept [.active, .drivers, .staged, .queues, .ports] s t ∧
        ∃ rs, Resumes (only g) s t rs ∧
          Sends s t fun y =>
            overtakenEvents (only g) (s.staged.get x).get s y ++ heldEvents (only g) t y ++ rs y)) ∧
  ∀ (s t u : State) (x : Client) (b : Byte), portTakes s x = true →
    exec (.exchange x b) s = .next t → (t.port x).result = ResultCode.done.byte →
    exec (.exchange x b) t = .next u → (u.port x).result = ResultCode.done.byte →
    u.active = s.active ∧ u.staged = s.staged

/-! ### The interlock table (Chapter 5) -/

/-- SET_PAIR (R100, R101, R96): its tests in order after RANGE, a refusal with A's audit copy (R163); an accepted
one writes the pair, and where it replaces a different pair the held mirrors of the old pair's lines resume in
ascending line number, those and only those that no partner opposes in the table as it now stands.  That
RESULT_INFO reads 0 after INTERLOCK is the model's choice (log 17). -/
def Obligations.SetPairWrites : Prop :=
  ∀ (s : State) (bi ba bb : Byte) (i : Fin 8) (a b : Line), PairLaw s → portTakes s .a = true →
    bi.toNat = i.val → ba.toNat = a.val → bb.toNat = b.val → a ≠ b →
    (∀ j, j ≠ i → s.pairs.get j = some ⟨min a b, max a b⟩ →
      ∃ t, exec (.setPair .supervisor bi ba bb) s = .next t ∧
        Refused s t .supervisor 0x26 [bi, ba, bb] .conflict .duplicate (BitVec.ofNat 8 j.val) none) ∧
    ((∀ j, j ≠ i → s.pairs.get j ≠ some ⟨min a b, max a b⟩) →
      ((asserted s a = true ∧ asserted s b = true) ∨ safeAsserts s a = true ∨
          safeAsserts s b = true →
        ∃ t, exec (.setPair .supervisor bi ba bb) s = .next t ∧
          Refused s t .supervisor 0x26 [bi, ba, bb] .conflict .interlock 0 none) ∧
      (¬ (asserted s a = true ∧ asserted s b = true) → safeAsserts s a = false →
        safeAsserts s b = false →
        ∃ t, exec (.setPair .supervisor bi ba bb) s = .next t ∧
          Served s t .supervisor 0x26 [bi, ba, bb] .done 0 ∧
          t.pairs.get i = some ⟨min a b, max a b⟩ ∧
          (∀ j, j ≠ i → t.pairs.get j = s.pairs.get j) ∧
          (s.pairs.get i = none ∨ s.pairs.get i = some ⟨min a b, max a b⟩ →
            SameExcept [.pairs, .ports, .sreq] s t) ∧
          ∀ old, s.pairs.get i = some old → old ≠ ⟨min a b, max a b⟩ →
            SameExcept [.pairs, .drivers, .queues, .ports, .sreq] s t ∧
            LinesOutside (fun _ => false) s t ∧
            (∀ l, l ≠ old.lower → l ≠ old.higher → t.driver l = s.driver l) ∧
            (∀ l, l = old.lower ∨ l = old.higher →
              (t.driver l).mirror.map (·.phase) = some .held → partnerAsserted t l = true) ∧
            ∃ rs, Resumes (fun _ => false) s t rs ∧ Sends s t rs))

/-- CLEAR_PAIR (R102, R96): RANGE outside 0 to 7; on an empty index DONE and nothing changes; on a pair the index
is emptied and the held mirrors of its lines resume in ascending line number, those and only those that no
remaining partner opposes. -/
def Obligations.ClearPairFrees : Prop :=
  ∀ (s : State) (b : Byte), PairLaw s → portTakes s .a = true →
    (8 ≤ b.toNat →
      AnswersRefused (exec (.clearPair .supervisor b) s) s .supervisor 0x27 [b] .range .range) ∧
    ∀ i : Fin 8, b.toNat = i.val →
      ∃ t, exec (.clearPair .supervisor b) s = .next t ∧
        Served s t .supervisor 0x27 [b] .done 0 ∧ t.pairs.get i = none ∧
        (∀ j, j ≠ i → t.pairs.get j = s.pairs.get j) ∧
        (s.pairs.get i = none → SameExcept [.ports, .sreq] s t) ∧
        ∀ old, s.pairs.get i = some old →
          SameExcept [.pairs, .drivers, .queues, .ports, .sreq] s t ∧
          LinesOutside (fun _ => false) s t ∧
          (∀ l, l ≠ old.lower → l ≠ old.higher → t.driver l = s.driver l) ∧
          (∀ l, l = old.lower ∨ l = old.higher →
            (t.driver l).mirror.map (·.phase) = some .held → partnerAsserted t l = true) ∧
          ∃ rs, Resumes (fun _ => false) s t rs ∧ Sends s t rs

/-! ### Pulses, samples, watches (Chapters 6 and 7) -/

/-- PULSE_END (R110, R96): a pulse whose remaining time has run out ends, with PULSE_DONE to the holder, and
the held mirrors among its line's partners are judged in ascending line number, each against the state the
earlier have left: one that is still held has a partner that is asserted then, one that has resumed is
opposed by none. No record and no other driver state changes. Before that a PULSE_END is without effect (log
3). -/
def Obligations.PulseEnds : Prop :=
  ∀ (s : State) (l : Line),
    ((s.driver l).pulse ≠ some 0 → exec (.pulseEnd l) s = .next s) ∧
    ((s.driver l).pulse = some 0 →
      ∃ t, exec (.pulseEnd l) s = .next t ∧ SameExcept [.drivers, .queues] s t ∧
        (t.driver l).pulse = none ∧ LinesBut l s t ∧
        ((t.driver l).mirror = (s.driver l).mirror ∨
          ((s.driver l).mirror.map (·.phase) = some .held ∧
            (t.driver l).mirror = some ⟨.following, true⟩)) ∧
        (∀ m, m ≠ l → m ∉ partners s l → t.driver m = s.driver m) ∧
        (∀ m ∈ partners s l, (t.driver m).mirror.map (·.phase) = some .held →
          ∃ k ∈ partners t m, asserted t k = true ∧ (asserted s k = false → k < m)) ∧
        ∃ rs, Resumes (fun _ => false) s t rs ∧
          Sends s t fun y => toHolder (s.holder (groupOf l)) [.pulseDone l] y ++ rs y)

/-- A sample instant judges every line under the filter in force (R123, R124), whatever order its acceptances
are taken in; and the acceptances are separate events, taken one after the other, each with all it does
(R125): those of the lines the command orders in its order, then the others in ascending line number.  That
the filters of every line are those standing when the instant begins (log 16), that the command carries the
order (log 8), and the place of re-evaluation in a filtered change (log 7) are the model's choice. -/
def Obligations.SamplesAreFiltered : Prop :=
  (∀ (s : State) (pads : BitVec 32) (order : List Line), s.resetLow = false →
    ∃ t, exec (.sample pads order) s = .next t ∧
      SameExcept [.sampler, .active, .drivers, .deferred, .queues] s t ∧
      ∀ l, let found : Level := if pads.getLsbD l.val then .high else .low
        let count := ((s.sampler.get l).candidate.elim 0 (·.count)) + 1
        t.sampler.get l =
          if found = s.level l then ⟨found, none⟩
          else if (s.record l).filter.val + 1 ≤ count then ⟨found, none⟩
          else ⟨s.level l, some ⟨found, count⟩⟩) ∧
  ∀ (s : State) (pads : BitVec 32) (order : List Line), Inv s → s.resetLow = false →
    ∃ turns s0 t, exec (.sample pads order) s = .next t ∧
      (∀ l, l ∈ turns ↔ padLevel pads l ≠ s.level l ∧
        (s.record l).filter.val ≤ (s.sampler.get l).candidate.elim 0 (·.count)) ∧
      (turns.Pairwise fun l m => order.idxOf l < order.idxOf m ∨
        (order.idxOf l = order.idxOf m ∧ l < m)) ∧
      SameExcept [.sampler] s s0 ∧ (∀ l, s0.level l = s.level l) ∧
      InTurn (fun l u v => AcceptsChange u v l (padLevel pads l)) turns s0 t

/-- A filtered change of one line, that no mirror follows and that meets no trigger (R123, R125, R126, R131), at the
sample that completes its filter: INPUT_EDGE to the holder whose record selects the direction, then
WATCH_EDGE to the watchers whose edges do; no record and no driver state changes.  It is alone at its instant;
several changes at one instant are in `SamplesAreFiltered`. -/
def Obligations.EdgesAreReported : Prop :=
  ∀ (s : State) (pads : BitVec 32) (order : List Line) (l : Line) (lv : Level),
    s.resetLow = false →
    (∀ m, m ≠ l → padLevel pads m = s.level m) → lv = padLevel pads l → lv ≠ s.level l →
    (s.record l).filter.val ≤ (s.sampler.get l).candidate.elim 0 (·.count) →
    (∀ m sense, (s.record m).function ≠ .mirror l sense) →
    (∀ x d timeout left, s.deferred.get x = some d → d.trigger ≠ .line l lv timeout left) →
    ∃ t, exec (.sample pads order) s = .next t ∧ SameExcept [.sampler, .queues] s t ∧
      t.level l = lv ∧ Sends s t (edgeEvents s l lv)

/-- A filtered change of one line that meets no trigger (R13, R95 to R97, R116, R125), at the sample that completes
its filter: it turns the demand of every mirror of the line, holds and frees mirrors, and touches no record.
That a deasserting mirror's partners are re-evaluated after every mirror of the line has had its turn is
the model's choice (log 7).  Several changes at one instant are in `SamplesAreFiltered`. -/
def Obligations.MirrorsFollow : Prop :=
  ∀ (s : State) (pads : BitVec 32) (order : List Line) (l : Line), Inv s → s.resetLow = false →
    (∀ m, m ≠ l → padLevel pads m = s.level m) → padLevel pads l ≠ s.level l →
    (s.record l).filter.val ≤ (s.sampler.get l).candidate.elim 0 (·.count) →
    (∀ x d timeout left, s.deferred.get x = some d →
      d.trigger ≠ .line l (padLevel pads l) timeout left) →
    ∃ t, exec (.sample pads order) s = .next t ∧ FollowsSource s t l (padLevel pads l)

/-- WATCH puts the caller into a group's watch set or replaces its edges, in every group state and with no event
(R129); UNWATCH takes it out, and is refused NOT_WAITING where it is not in (R130). -/
def Obligations.WatchSets : Prop :=
  ∀ (s : State) (x : Client) (b c : Byte) (g : Group), portTakes s x = true → b.toNat = g.val →
    (4 ≤ c.toNat →
      AnswersRefused (exec (.watch x b c) s) s (.client x) 0x09 [b, c] .range .range) ∧
    (∀ e : Edges, c = e.code →
      ∃ t, exec (.watch x b c) s = .next t ∧ Served s t (.client x) 0x09 [b, c] .done 0 ∧
        (t.watch.get g).get x = some e ∧
        (∀ h y, ¬ (h = g ∧ y = x) → (t.watch.get h).get y = (s.watch.get h).get y) ∧
        SameExcept [.watch, .ports] s t) ∧
    ((s.watch.get g).get x = none →
      AnswersRefused (exec (.unwatch x b) s) s (.client x) 0x0A [b] .ownership .notWaiting) ∧
    ((s.watch.get g).get x ≠ none →
      ∃ t, exec (.unwatch x b) s = .next t ∧ Served s t (.client x) 0x0A [b] .done 0 ∧
        (t.watch.get g).get x = none ∧
        (∀ h y, ¬ (h = g ∧ y = x) → (t.watch.get h).get y = (s.watch.get h).get y) ∧
        SameExcept [.watch, .ports] s t)

/-! ### Pending commits (Chapter 8) -/

/-- DEFER (R136, R137): its tests in order; an accepted one whose trigger is not met at once stores the groups
in ascending order with copies of the caller's staged records, the trigger and its timer, and does nothing
else. -/
def Obligations.DeferMakesRecords : Prop :=
  ∀ (s : State) (x : Client) (set kind line target : Byte) (timeout delay : Word16),
    portTakes s x = true →
    let params : List Byte := [set, kind, line, target, timeout.extractLsb' 8 8,
      timeout.extractLsb' 0 8, delay.extractLsb' 8 8, delay.extractLsb' 0 8]
    let makes := fun (trigger : Trigger) =>
      ∃ t d, exec (.defer x set kind line target timeout delay) s = .next t ∧
        Served s t (.client x) 0x0B params .done 0 ∧ t.deferred.get x = some d ∧
        d.trigger = trigger ∧
        d.parts.map (·.1) = groups.filter (fun g => set.getLsbD g.val) ∧
        (∀ part ∈ d.parts, ∀ p, part.2.get p = (s.staged.get x).get (lineOf part.1 p)) ∧
        (∀ y, y ≠ x → t.deferred.get y = s.deferred.get y) ∧ SameExcept [.deferred, .ports] s t
    let refused := fun (cls : FaultClass) (code : ResultCode) =>
      AnswersRefused (exec (.defer x set kind line target timeout delay) s) s (.client x) 0x0B params
        cls code
    ((s.deferred.get x).isSome = true → refused .sequence .busy) ∧
    (s.deferred.get x = none →
      (set = 0 ∨ (kind ≠ 1 ∧ kind ≠ 2) ∨ (kind = 1 ∧ (32 ≤ line.toNat ∨ 2 ≤ target.toNat)) ∨
          (kind = 2 ∧ (timeout ≠ 0 ∨ delay = 0)) →
        refused .range .range) ∧
      (set ≠ 0 → ((kind = 1 ∧ line.toNat < 32 ∧ target.toNat < 2) ∨
          (kind = 2 ∧ timeout = 0 ∧ delay ≠ 0)) →
        (∃ g : Group, set.getLsbD g.val = true ∧ s.holder g ≠ some x) →
        refused .ownership .notHolder) ∧
      (set ≠ 0 → (∀ g : Group, set.getLsbD g.val = true → s.holder g = some x) →
        (∀ l : Line, kind = 1 → line.toNat = l.val →
          (target = 0 → s.level l = .high →
            makes (.line l .low timeout (if timeout = 0 then none else some timeout))) ∧
          (target = 1 → s.level l = .low →
            makes (.line l .high timeout (if timeout = 0 then none else some timeout)))) ∧
        (kind = 2 → timeout = 0 → delay ≠ 0 → makes (.time delay delay))))

/-- A pending commit that is met is applied and removed (R138, R140 to R143): a LINE trigger already at its
target in the DEFER's own transaction; those that a filtered change meets, after the mirrors of the line have
followed it (R125), client by client in ascending number, each judged against the state the earlier ones
have left; a TIME trigger when its delay has run out.  That DELAY_EXPIRY is without effect before is the
model's form (log 3); that the partners of deasserting mirrors are re-evaluated after every mirror of the
line has had its turn, and so before the first pending commit is judged, is its reading (log 7). -/
def Obligations.MetCommitsApply : Prop :=
  (∀ (s : State) (x : Client) (d : Deferred) (delay : Word16), Inv s →
    s.deferred.get x = some d → d.trigger = .time delay 0 →
    ∃ t, exec (.delayExpiry x) s = .next t ∧ AppliesDeferred s t x d ∧
      SameExcept [.deferred, .active, .drivers, .queues] s t) ∧
  (∀ (s : State) (x : Client),
    (∀ d delay, s.deferred.get x = some d → d.trigger ≠ .time delay 0) →
    exec (.delayExpiry x) s = .next s) ∧
  (∀ (s : State) (pads : BitVec 32) (order : List Line) (l : Line), Inv s → s.resetLow = false →
    (∀ m, m ≠ l → padLevel pads m = s.level m) → padLevel pads l ≠ s.level l →
    (s.record l).filter.val ≤ (s.sampler.get l).candidate.elim 0 (·.count) →
    ∃ t, exec (.sample pads order) s = .next t ∧ AcceptsChange s t l (padLevel pads l)) ∧
  ∀ (s : State) (x : Client) (set line target : Byte) (timeout delay : Word16) (l : Line)
    (d : Deferred), Inv s → portTakes s x = true → s.deferred.get x = none → set ≠ 0 →
    (∀ g : Group, set.getLsbD g.val = true → s.holder g = some x) → line.toNat = l.val →
    (target = 0 ∧ s.level l = .low ∨ target = 1 ∧ s.level l = .high) →
    d.parts = (groups.filter fun g => set.getLsbD g.val).map
      (fun g => (g, Table.tabulate fun p => (s.staged.get x).get (lineOf g p))) →
    d.trigger.line? = some l →
    ∃ t, exec (.defer x set 1 line target timeout delay) s = .next t ∧
      Served s t (.client x) 0x0B [set, 1, line, target, timeout.extractLsb' 8 8,
        timeout.extractLsb' 0 8, delay.extractLsb' 8 8, delay.extractLsb' 0 8] .done 0 ∧
      AppliesDeferred s t x d ∧ SameExcept [.deferred, .active, .drivers, .queues, .ports] s t

/-- CANCEL_PENDING (R139): the caller's record is removed with DONE, nothing applied and no event; without one
it is refused NOT_PENDING. -/
def Obligations.CancelRemoves : Prop :=
  ∀ (s : State) (x : Client), portTakes s x = true →
    (s.deferred.get x = none →
      AnswersRefused (exec (.cancelPending x) s) s (.client x) 0x0C [] .sequence .notPending) ∧
    (s.deferred.get x ≠ none →
      ∃ t, exec (.cancelPending x) s = .next t ∧ Served s t (.client x) 0x0C [] .done 0 ∧
        t.deferred.get x = none ∧ (∀ y, y ≠ x → t.deferred.get y = s.deferred.get y) ∧
        SameExcept [.deferred, .ports] s t)

/-- TIMEOUT_EXPIRY (R144): a timeout timer that has run out removes the record with PENDING_TIMEOUT and applies
nothing.  That it is without effect before is the model's form (log 3). -/
def Obligations.TimeoutsRemove : Prop :=
  ∀ (s : State) (x : Client),
    (∀ d l target timeout, s.deferred.get x = some d →
      d.trigger = .line l target timeout (some 0) →
      ∃ t, exec (.timeoutExpiry x) s = .next t ∧ t.deferred.get x = none ∧
        (∀ y, y ≠ x → t.deferred.get y = s.deferred.get y) ∧
        SameExcept [.deferred, .queues] s t ∧ Sends s t (toClient x [.pendingTimeout l])) ∧
    ((∀ d l target timeout, s.deferred.get x = some d →
        d.trigger ≠ .line l target timeout (some 0)) →
      exec (.timeoutExpiry x) s = .next s)

/-! ### The supervisor's policy (Chapter 10) -/

/-- SET_PRIORITY (R165, R51): RANGE for a client above 3; otherwise the priority is stored.  At 0 the client's
waiting claim is removed with CLAIM_REFUSED(INELIGIBLE), followed by re-evaluation in REVOKING; nothing else
of any entry changes. -/
def Obligations.SetPriorityStores : Prop :=
  ∀ (s : State) (b c p : Byte) (g : Group) (prio : Priority), portTakes s .a = true →
    b.toNat = g.val → p.toNat = prio.val →
    (4 ≤ c.toNat →
      AnswersRefused (exec (.setPriority .supervisor b c p) s) s .supervisor 0x23 [b, c, p] .range
        .range) ∧
    ∀ x : Client, c.toNat = clientNumber x →
      ∃ t, exec (.setPriority .supervisor b c p) s = .next t ∧
        Served s t .supervisor 0x23 [b, c, p] .done 0 ∧
        OtherPolicies g s t ∧ OtherEntries g s t ∧
        (∃ prios, t.policy.get g = { s.policy.get g with priority := prios } ∧
          prios.get x = prio ∧ ∀ y, y ≠ x → prios.get y = (s.policy.get g).priority.get y) ∧
        (prio ≠ 0 ∨ s.waits x g = false → SameExcept [.policy, .ports, .sreq] s t) ∧
        (prio = 0 → s.waits x g = true →
          ∃ w, w = (s.entry g).waiting.filter (fun c => c.client != x) ∧
            SameExcept [.policy, .lease, .queues, .ports, .sreq] s t ∧
            if (s.entry g).state = .revoking ∧
              ¬ ((s.policy.get g).preemptible = true ∧ ∃ c ∈ w, c.preempt = true ∧
                ∃ q, (s.entry g).priority = some q ∧ q < c.priority) then
              t.entry g = { s.entry g with
                state := .held, timer := startedTimer (s.policy.get g).leasePeriod, grace := none,
                waiting := w } ∧
              Sends s t fun y =>
                toClient x [.claimRefused g .ineligible] y ++
                  toHolder (s.holder g) [.revokeCancelled g] y ++
                  toWatchers s g .held (s.holder g) y
            else
              t.entry g = { s.entry g with waiting := w } ∧
              Sends s t (toClient x [.claimRefused g .ineligible]))

/-- SET_POLICY stores the flag and both periods together, sends no event and leaves every lease entry, timer and
list (R166); SET_AUDIT replaces the audit selection (R168). -/
def Obligations.PolicyAndAuditStore : Prop :=
  ∀ (s : State) (b c : Byte) (lease grace : Word16), portTakes s .a = true →
    (∀ g : Group, b.toNat = g.val →
      (2 ≤ c.toNat →
        AnswersRefused (exec (.setPolicy .supervisor b c lease grace) s) s .supervisor 0x24
          [b, c, lease.extractLsb' 8 8, lease.extractLsb' 0 8, grace.extractLsb' 8 8,
            grace.extractLsb' 0 8] .range .range) ∧
      (c.toNat < 2 →
        ∃ t, exec (.setPolicy .supervisor b c lease grace) s = .next t ∧
          Served s t .supervisor 0x24
            [b, c, lease.extractLsb' 8 8, lease.extractLsb' 0 8, grace.extractLsb' 8 8,
              grace.extractLsb' 0 8] .done 0 ∧
          t.policy.get g = { s.policy.get g with
            preemptible := c.getLsbD 0, leasePeriod := lease, gracePeriod := grace } ∧
          OtherPolicies g s t ∧ SameExcept [.policy, .ports, .sreq] s t)) ∧
    (c.toNat < 8 →
      ∃ t, exec (.setAudit .supervisor c) s = .next t ∧ Served s t .supervisor 0x28 [c] .done 0 ∧
        t.audit = ⟨c.getLsbD 0, c.getLsbD 1, c.getLsbD 2⟩ ∧ SameExcept [.audit, .ports, .sreq] s t)

/-- SET_SAFE (R167, R103, R89): RANGE for a record that is not well-formed or not INPUT or STATIC; INTERLOCK with
the lowest index for STATIC ASSERTED on a paired line; otherwise stored, and on a SAFE or WITHHELD group
applied at once to that line alone, with no event to any client: an asserted line of a lawful safe
configuration has no partner, so no mirror resumes. -/
def Obligations.SetSafeStores : Prop :=
  ∀ (s : State) (b : Byte) (rb : RecordBytes) (l : Line), Inv s → portTakes s .a = true →
    b.toNat = l.val →
    let params : List Byte := [b, rb.function, rb.shape, rb.filter, rb.widthHi, rb.widthLo, rb.source,
      rb.sense]
    (record? l rb = none →
      AnswersRefused (exec (.setSafe .supervisor b rb) s) s .supervisor 0x25 params .range .range) ∧
    ∀ r, record? l rb = some r →
      (¬ r.isSafe →
        AnswersRefused (exec (.setSafe .supervisor b rb) s) s .supervisor 0x25 params .range .range) ∧
      (∀ i p, r.function = .static true → s.pairs.get i = some p → (p.lower = l ∨ p.higher = l) →
        (∀ j q, j < i → s.pairs.get j = some q → q.lower ≠ l ∧ q.higher ≠ l) →
        ∃ t, exec (.setSafe .supervisor b rb) s = .next t ∧
          Refused s t .supervisor 0x25 params .conflict .interlock (BitVec.ofNat 8 i.val) none) ∧
      (r.isSafe → (r.function = .static true → partners s l = []) →
        ∃ t, exec (.setSafe .supervisor b rb) s = .next t ∧
          Served s t .supervisor 0x25 params .done 0 ∧
          (∀ g p, (t.policy.get g).safe.get p =
            if lineOf g p = l then r else (s.policy.get g).safe.get p) ∧
          (∀ g, (t.policy.get g).priority = (s.policy.get g).priority ∧
            (t.policy.get g).preemptible = (s.policy.get g).preemptible ∧
            (t.policy.get g).leasePeriod = (s.policy.get g).leasePeriod ∧
            (t.policy.get g).gracePeriod = (s.policy.get g).gracePeriod) ∧
          ((s.entry (groupOf l)).state = .held ∨ (s.entry (groupOf l)).state = .revoking →
            SameExcept [.policy, .ports, .sreq] s t) ∧
          ((s.entry (groupOf l)).state = .safe ∨ (s.entry (groupOf l)).state = .withheld →
            SameExcept [.policy, .active, .drivers, .ports, .sreq] s t ∧
            t.record l = r ∧ t.driver l = ⟨none, none⟩ ∧
            ∀ m, m ≠ l → t.record m = s.record m ∧ t.driver m = s.driver m))

/-! ### Resets and time (Chapter 10) -/

/-- A client reset, by DETACH_SELF, DETACH or CRSTx (R170 to R172, R44, R45, R71, R133, R146, R153), leaves the
client no lease, claim, watch entry, pending commit, staged or park record, queue entry or port setting.  It
leaves the other clients' staging, watches, pending commits and ports, the policy, the pairs and the filtered
levels; of a group that the client does not hold, the holder, the other claims, the park records and the
lines, whose held mirrors may resume; and the whole entry of one that it does not wait on either.  At a DETACH
of another client Port A keeps its settings and answers DONE.  DETACH of a client outside 0 to 3 is refused
RANGE, and of one held by CRSTx does nothing. -/
def Obligations.ClientResetClears : Prop :=
  (∀ (s : State) (x : Client), LeaseLaw s →
    (portTakes s x = true →
      ∃ t, exec (.detachSelf x) s = .next t ∧ ClearedClient s t x ∧ OtherPorts x s t ∧
        t.sreqKind = s.sreqKind ∧ t.sreqParam = s.sreqParam ∧
        Answers t x .done 0x0D 0 ∧ portTakes t x = true) ∧
    (∀ b : Byte, portTakes s .a = true → b.toNat = clientNumber x → (s.port x).crstLow = false →
      ∃ t, exec (.detach .supervisor b) s = .next t ∧ ClearedClient s t x ∧
        Answers t .a .done 0x29 0 ∧ t.sreqKind = 0x29 ∧
        (∀ i, t.sreqParam.get i = [b].getD i.val (s.sreqParam.get i)) ∧
        (x ≠ .a → NoResult t x ∧ PortSettings s t .a ∧ HoldsRequest s t .supervisor 0x29 [b]) ∧
        ∀ y, y ≠ x → y ≠ .a → t.port y = s.port y) ∧
    (s.resetLow = false → (s.port x).crstLow = false →
      ∃ t, exec (.clientReset x true) s = .next t ∧ ClearedClient s t x ∧ OtherPorts x s t ∧
        t.sreqKind = s.sreqKind ∧ t.sreqParam = s.sreqParam ∧
        NoResult t x ∧ (t.port x).crstLow = true ∧ portTakes t x = false ∧
        irqAsserted t x = false)) ∧
  ∀ (s : State) (b : Byte), portTakes s .a = true →
    (4 ≤ b.toNat →
      AnswersRefused (exec (.detach .supervisor b) s) s .supervisor 0x29 [b] .range .range) ∧
    ∀ x, b.toNat = clientNumber x → (s.port x).crstLow = true →
      ∃ t, exec (.detach .supervisor b) s = .next t ∧
        Served s t .supervisor 0x29 [b] .done 0 ∧ SameExcept [.ports, .sreq] s t

/-- What a client reset does to the groups of the client and sends to the others (R44, R45, R163, R172): A's audit
copy where DETACHES is selected and the client is not A; nothing else where the client neither holds nor
waits.  Where it holds one group, that is released without its cuts and its dropped pending commit being
reported, and passes to the head of its list, with or without a restore, or falls to safe.  Where it waits
for one group, its claim leaves the list, with re-evaluation in REVOKING.  Whatever it holds and waits for:
the audit copy, the releases in ascending group order, then the removals of its claims in ascending group
order, each on the state the one before has left. -/
def Obligations.ClientResetAudits : Prop :=
  (∀ (s : State) (x : Client), s.resetLow = false → (s.port x).crstLow = false →
    (∀ g, s.holder g ≠ some x ∧ s.waits x g = false) →
    ∃ t, exec (.clientReset x true) s = .next t ∧
      SameExcept [.watch, .deferred, .park, .staged, .queues, .ports] s t ∧
      SendsOthers x s t (detachAudit s x)) ∧
  (∀ (s : State) (x : Client) (c : Instr) (g : Group), Inv s → ResetsClient s x c →
    s.holder g = some x → (∀ k, k ≠ g → s.holder k ≠ some x) → (∀ k, s.waits x k = false) →
    ∃ t, exec c s = .next t ∧
      SameExcept
        [.lease, .active, .drivers, .watch, .deferred, .park, .staged, .queues, .ports, .sreq] s t ∧
      (NoRestore s g (s.entry g).waiting →
        PassesOn s t g (s.entry g).waiting ∧ OtherEntries g s t ∧
        GroupTakes g (s.policy.get g).safe s t ∧ LinesOutside (only g) s t ∧
        (∀ y, y ≠ x → t.park.get y = s.park.get y) ∧
        ∃ rs, Resumes (only g) s t rs ∧
          SendsOthers x s t fun y =>
            detachAudit s x y ++ grantedEvents g (s.entry g).waiting y ++ rs y ++
              passedState s g (s.entry g).waiting y) ∧
      ∀ claim rest cfg, (s.entry g).waiting = claim :: rest → claim.restore = true →
        (s.park.get claim.client).get g = some cfg →
        (HandsOverRestoring s t g claim rest cfg fun es =>
          SendsOthers x s t fun y => detachAudit s x y ++ es y) ∧
        ∀ y k, y ≠ x → ¬ (y = claim.client ∧ k = g) →
          (t.park.get y).get k = (s.park.get y).get k) ∧
  (∀ (s : State) (x : Client) (c : Instr), Inv s → ResetsClient s x c →
    ∃ t s2 s3 s4, exec c s = .next t ∧
      SameExcept [.deferred, .queues, .ports, .sreq] s s2 ∧ s2.deferred.get x = none ∧
      (∀ y, y ≠ x → s2.deferred.get y = s.deferred.get y ∧
        (s2.port y).crstLow = (s.port y).crstLow) ∧
      SendsOthers x s s2 (detachAudit s x) ∧
      InTurn (ReleasesSilently x) groups s2 s3 ∧ InTurn (RemovesClaim x) groups s3 s4 ∧
      SameExcept [.watch, .staged, .park, .queues, .ports, .sreq] s4 t ∧ OtherQueues x s4 t ∧
      ∀ y, y ≠ x → t.park.get y = s4.park.get y) ∧
  ∀ (s : State) (x : Client) (c : Instr) (g : Group), ResetsClient s x c →
    (∀ k, s.holder k ≠ some x) → s.waits x g = true → (∀ k, k ≠ g → s.waits x k = false) →
    ∃ t w, exec c s = .next t ∧ w = (s.entry g).waiting.filter (fun c => c.client != x) ∧
      SameExcept [.lease, .watch, .deferred, .park, .staged, .queues, .ports, .sreq] s t ∧
      OtherEntries g s t ∧ (∀ y, y ≠ x → t.park.get y = s.park.get y) ∧
      if (s.entry g).state = .revoking ∧
        ¬ ((s.policy.get g).preemptible = true ∧ ∃ c ∈ w, c.preempt = true ∧
          ∃ q, (s.entry g).priority = some q ∧ q < c.priority) then
        t.entry g = { s.entry g with
          state := .held, timer := startedTimer (s.policy.get g).leasePeriod, grace := none,
          waiting := w } ∧
        SendsOthers x s t fun y =>
          detachAudit s x y ++ toHolder (s.holder g) [.revokeCancelled g] y ++
            toWatchers s g .held (s.holder g) y
      else
        t.entry g = { s.entry g with waiting := w } ∧ SendsOthers x s t (detachAudit s x)

/-- The other edges of CRSTx and RESETn (R170, R173, R175): a rise of CRSTx ends the hold and does nothing
else; a low shorter than 1 µs only makes the frames in progress ignored (log 6); while RESETn is low a fall
of CRSTx only moves its pin and makes the frame in progress ignored (log 26), and a client whose CRSTx is
low when RESETn rises is held, with no transaction and no event; a fall of a pin that is low and a rise of
RESETn that is high are no edges (log 24). Every frame that a port ignores, by a pin, by its spacing or by
its access byte, returns zeros and does nothing else, whole or in pieces, and with CS low none begins (log
5); a client reset by CRSTx makes the frame in progress one of these. -/
def Obligations.PinEdges : Prop :=
  ∀ (s : State) (x : Client),
    IgnoresFrames s x ∧
    (s.resetLow = false → (s.port x).crstLow = false →
      ∃ t, exec (.clientReset x true) s = .next t ∧ (t.port x).miso = (s.port x).miso ∧
        (s.port x).frame.isSome = (t.port x).frame.isSome ∧
        ∀ f, (t.port x).frame = some f → f.ignored = true) ∧
    (∃ t, exec (.crstRise x) s = .next t ∧ SameExcept [.ports] s t ∧ OtherPorts x s t ∧
      t.port x = { s.port x with crstLow := false }) ∧
    ((s.port x).crstLow = false →
      ∃ t, exec (.clientReset x false) s = .next t ∧ SameExcept [.ports] s t ∧ OtherPorts x s t ∧
        t.port x = { s.port x with
          frame := (s.port x).frame.map fun f => { f with ignored := true } }) ∧
    (∀ full, (s.port x).crstLow = true → exec (.clientReset x full) s = .next s) ∧
    (s.resetLow = true → (s.port x).crstLow = false →
      ∃ t, exec (.clientReset x true) s = .next t ∧ SameExcept [.ports] s t ∧ OtherPorts x s t ∧
        t.port x = { s.port x with
          frame := (s.port x).frame.map fun f => { f with ignored := true }, crstLow := true }) ∧
    (∀ pads, s.resetLow = true →
      ∃ t, exec (.deviceResetRelease pads) s = .next t ∧ SameExcept [.sampler, .resetLow] s t ∧
        t.resetLow = false ∧
        ((s.port x).crstLow = true →
          portTakes t x = false ∧ irqAsserted t x = false ∧
          ∀ e, (append x e t).queues = t.queues)) ∧
    (s.resetLow = false →
      ∃ t, exec (.deviceReset false) s = .next t ∧ SameExcept [.ports] s t ∧
        ∀ y, t.port y = { s.port y with
          frame := (s.port y).frame.map fun f => { f with ignored := true } }) ∧
    (∀ full, s.resetLow = true → exec (.deviceReset full) s = .next s) ∧
    ∀ pads, s.resetLow = false → exec (.deviceResetRelease pads) s = .next s

/-- Device reset (R18, R70, R122, R173): while RESETn is low every pad is released, every IRQ output deasserted
and no port takes a frame; when it rises every block is at its device-reset value, every filtered level is
what the pads show, no candidate counts, and only the pins, the record of MISO, the waiting commands and the
counter of free values are carried over (log 9).  For as long as RESETn stays low, every step but the release
keeps every part at its device-reset value: only the ports' pins, frames and records of MISO and the waiting
commands change. -/
def Obligations.DeviceResets : Prop :=
  (∀ s t : State, AtDeviceReset s → step s = .next t →
    (∀ pads rest, s.pending ≠ .deviceResetRelease pads :: rest) →
    AtDeviceReset t ∧ SameExcept [.ports, .pending] s t) ∧
  (∀ s : State, s.resetLow = true → (∀ l, padCondition s l = .released) ∧
    ∀ x, irqAsserted s x = false ∧ portTakes s x = false) ∧
  ∀ (s : State) (pads : BitVec 32), s.resetLow = false →
    ∃ t u, exec (.deviceReset true) s = .next t ∧ exec (.deviceResetRelease pads) t = .next u ∧
      AtDeviceReset t ∧ (∀ l, padCondition t l = .released) ∧
      (∀ x, irqAsserted t x = false ∧ portTakes t x = false) ∧
      SameExcept [.sampler, .ports, .draws, .pending] State.reset u ∧
      (∀ l, u.sampler.get l = ⟨if pads.getLsbD l.val then .high else .low, none⟩) ∧
      (∀ x, u.port x = { State.reset.port x with
        frame := (s.port x).frame.map fun f => { f with ignored := true }
        miso := (s.port x).miso, crstLow := (s.port x).crstLow }) ∧
      u.draws = s.draws ∧ u.pending = s.pending

/-- A millisecond boundary (R32, R57, R137, R174): the count advances and wraps, and every running timer counts
down by one; nothing else changes.  While RESETn is low nothing happens (R173).  That a timer already at 0 meets a
further boundary, and stays at 0, is the model's choice, no rule: it arises only because a due expiry may be taken
late (log 3); by R174 a timer of p ms expires at its p-th boundary. -/
def Obligations.TicksCountDown : Prop :=
  ∀ s : State,
    (s.resetLow = true → exec .timebaseTick s = .next s) ∧
    (s.resetLow = false →
      ∃ t, exec .timebaseTick s = .next t ∧ SameExcept [.ms, .lease, .deferred] s t ∧
        t.ms.toNat = (s.ms.toNat + 1) % 65536 ∧
        (∀ g, t.entry g = { s.entry g with
          timer := match (s.entry g).timer with
            | .running w => .running (BitVec.ofNat 16 (w.toNat - 1))
            | other => other
          grace := (s.entry g).grace.map fun w => BitVec.ofNat 16 (w.toNat - 1) }) ∧
        ∀ x, t.deferred.get x = (s.deferred.get x).map fun d =>
          { d with trigger := match d.trigger with
              | .line l target timeout left =>
                .line l target timeout (left.map fun w => BitVec.ofNat 16 (w.toNat - 1))
              | .time delay left => .time delay (BitVec.ofNat 16 (left.toNat - 1)) })
end

