-- ==== Sys2Proof/Laws/State.lean ====
section
/-! SUPPORT. Lemmas about tables, about the four clients, and about each update of the state: one for each field. -/

namespace Sys2Proof.Machine

set_option Elab.async false

/-! ### Tables -/

section Tables

variable {n : Nat} {α : Type}

theorem Table.ext_get {t u : Table n α} (h : ∀ i, t.get i = u.get i) : t = u := by
  obtain ⟨cells, size⟩ := t
  obtain ⟨cells', size'⟩ := u
  have same : cells = cells' := by
    apply List.ext_getElem (by rw [size, size'])
    intro i h1 h2
    exact h ⟨i, size ▸ h1⟩
  subst same
  rfl

@[simp] theorem Table.get_put_self (t : Table n α) (i : Fin n) (x : α) : (t.put i x).get i = x := by
  simp [Table.get, Table.put]

theorem Table.get_put (t : Table n α) (i j : Fin n) (x : α) :
    (t.put i x).get j = if i = j then x else t.get j := by
  simp [Table.get, Table.put, List.getElem_set, Fin.ext_iff]

@[simp] theorem Table.get_put_ne (t : Table n α) {i j : Fin n} (x : α) (h : j ≠ i) :
    (t.put i x).get j = t.get j := by
  simp [Table.get_put, Ne.symm h]

@[simp] theorem Table.get_modify_self (t : Table n α) (i : Fin n) (f : α → α) :
    (t.modify i f).get i = f (t.get i) := by
  simp [Table.modify]

theorem Table.get_modify (t : Table n α) (i j : Fin n) (f : α → α) :
    (t.modify i f).get j = if i = j then f (t.get j) else t.get j := by
  unfold Table.modify
  rw [Table.get_put]
  split
  · next h => subst h; rfl
  · rfl

@[simp] theorem Table.get_modify_ne (t : Table n α) {i j : Fin n} (f : α → α) (h : j ≠ i) :
    (t.modify i f).get j = t.get j := by
  simp [Table.get_modify, Ne.symm h]

@[simp] theorem Table.get_tabulate (f : Fin n → α) (i : Fin n) : (Table.tabulate f).get i = f i := by
  simp [Table.get, Table.tabulate]

@[simp] theorem Table.get_fill (x : α) (i : Fin n) : (Table.fill x : Table n α).get i = x := by
  simp [Table.get, Table.fill]

/-- A table is what its cells are. -/
@[simp] theorem Table.tabulate_get (t : Table n α) : Table.tabulate t.get = t :=
  Table.ext_get fun i => by simp

@[simp] theorem Table.put_get_self (t : Table n α) (i : Fin n) : t.put i (t.get i) = t :=
  Table.ext_get fun j => by
    by_cases h : i = j
    · subst h; simp
    · rw [Table.get_put, if_neg h]

end Tables

/-! ### One for each client -/

section Clients

variable {α : Type}

theorem PerClient.ext_get {t u : PerClient α} (h : ∀ x, t.get x = u.get x) : t = u := by
  cases t; cases u
  have ha := h .a
  have hb := h .b
  have hc := h .c
  have hd := h .d
  simp only [PerClient.get] at ha hb hc hd
  simp [ha, hb, hc, hd]

@[simp] theorem PerClient.get_put_self (t : PerClient α) (x : Client) (v : α) :
    (t.put x v).get x = v := by
  cases x <;> rfl

@[simp] theorem PerClient.get_put_ne (t : PerClient α) {x y : Client} (v : α) (h : y ≠ x) :
    (t.put x v).get y = t.get y := by
  cases x <;> cases y <;> first | rfl | exact absurd rfl h

theorem PerClient.get_put (t : PerClient α) (x y : Client) (v : α) :
    (t.put x v).get y = if x = y then v else t.get y := by
  by_cases h : x = y
  · subst h; simp
  · simp [h, Ne.symm h]

@[simp] theorem PerClient.get_modify_self (t : PerClient α) (x : Client) (f : α → α) :
    (t.modify x f).get x = f (t.get x) := by
  simp [PerClient.modify]

@[simp] theorem PerClient.get_modify_ne (t : PerClient α) {x y : Client} (f : α → α) (h : y ≠ x) :
    (t.modify x f).get y = t.get y := by
  simp [PerClient.modify, h]

theorem PerClient.get_modify (t : PerClient α) (x y : Client) (f : α → α) :
    (t.modify x f).get y = if x = y then f (t.get y) else t.get y := by
  by_cases h : x = y
  · subst h; simp
  · simp [h, Ne.symm h]

@[simp] theorem PerClient.get_tabulate (f : Client → α) (x : Client) :
    (PerClient.tabulate f).get x = f x := by
  cases x <;> rfl

@[simp] theorem PerClient.get_fill (v : α) (x : Client) : (PerClient.fill v).get x = v := by
  cases x <;> rfl

@[simp] theorem PerClient.put_put (t : PerClient α) (x : Client) (v w : α) :
    (t.put x v).put x w = t.put x w := by
  cases x <;> rfl

@[simp] theorem PerClient.put_get_self (t : PerClient α) (x : Client) : t.put x (t.get x) = t := by
  cases x <;> rfl

/-- Every client is in the list of clients. -/
@[simp] theorem mem_clients (x : Client) : x ∈ clients := by cases x <;> decide

end Clients

/-! ### Lines and groups (R1) -/

@[simp] theorem mem_groups (g : Group) : g ∈ groups := by revert g; decide

@[simp] theorem mem_lines (l : Line) : l ∈ lines := by revert l; decide

@[simp] theorem groupOf_lineOf (g : Group) (p : Fin 4) : groupOf (lineOf g p) = g := by
  ext; simp only [groupOf, lineOf]; omega

@[simp] theorem positionOf_lineOf (g : Group) (p : Fin 4) : positionOf (lineOf g p) = p := by
  ext; simp only [positionOf, lineOf]; omega

@[simp] theorem lineOf_groupOf (l : Line) : lineOf (groupOf l) (positionOf l) = l := by
  ext; simp only [groupOf, positionOf, lineOf]; omega

theorem mem_linesOf {g : Group} {l : Line} : l ∈ linesOf g ↔ groupOf l = g := by
  revert g l; decide

/-! ### One lemma for each field of each update -/

section Updates

variable (s : State)

@[simp] theorem State.withEntry_fields (g : Group) (f : LeaseEntry → LeaseEntry) :
    (s.withEntry g f).policy = s.policy ∧ (s.withEntry g f).audit = s.audit ∧
    (s.withEntry g f).active = s.active ∧ (s.withEntry g f).staged = s.staged ∧
    (s.withEntry g f).park = s.park ∧ (s.withEntry g f).pairs = s.pairs ∧
    (s.withEntry g f).drivers = s.drivers ∧ (s.withEntry g f).sampler = s.sampler ∧
    (s.withEntry g f).watch = s.watch ∧ (s.withEntry g f).deferred = s.deferred ∧
    (s.withEntry g f).queues = s.queues ∧ (s.withEntry g f).ports = s.ports ∧
    (s.withEntry g f).groupSel = s.groupSel ∧ (s.withEntry g f).sreqKind = s.sreqKind ∧
    (s.withEntry g f).sreqParam = s.sreqParam ∧ (s.withEntry g f).ms = s.ms ∧
    (s.withEntry g f).resetLow = s.resetLow ∧ (s.withEntry g f).draws = s.draws ∧
    (s.withEntry g f).pending = s.pending := by and_intros <;> rfl

@[simp] theorem State.withEntry_entry_self (g : Group) (f : LeaseEntry → LeaseEntry) :
    (s.withEntry g f).entry g = f (s.entry g) := by
  simp [State.withEntry, State.entry]

@[simp] theorem State.withEntry_entry_ne {g h : Group} (f : LeaseEntry → LeaseEntry) (ne : h ≠ g) :
    (s.withEntry g f).entry h = s.entry h := by
  simp [State.withEntry, State.entry, ne]

@[simp] theorem State.withDriver_fields (l : Line) (f : Driver → Driver) :
    (s.withDriver l f).lease = s.lease ∧
    (s.withDriver l f).policy = s.policy ∧ (s.withDriver l f).audit = s.audit ∧
    (s.withDriver l f).active = s.active ∧ (s.withDriver l f).staged = s.staged ∧
    (s.withDriver l f).park = s.park ∧ (s.withDriver l f).pairs = s.pairs ∧
    (s.withDriver l f).sampler = s.sampler ∧
    (s.withDriver l f).watch = s.watch ∧ (s.withDriver l f).deferred = s.deferred ∧
    (s.withDriver l f).queues = s.queues ∧ (s.withDriver l f).ports = s.ports ∧
    (s.withDriver l f).groupSel = s.groupSel ∧ (s.withDriver l f).sreqKind = s.sreqKind ∧
    (s.withDriver l f).sreqParam = s.sreqParam ∧ (s.withDriver l f).ms = s.ms ∧
    (s.withDriver l f).resetLow = s.resetLow ∧ (s.withDriver l f).draws = s.draws ∧
    (s.withDriver l f).pending = s.pending := by and_intros <;> rfl

@[simp] theorem State.withDriver_driver_self (l : Line) (f : Driver → Driver) :
    (s.withDriver l f).driver l = f (s.driver l) := by
  simp [State.withDriver, State.driver]

@[simp] theorem State.withDriver_driver_ne {l m : Line} (f : Driver → Driver) (ne : m ≠ l) :
    (s.withDriver l f).driver m = s.driver m := by
  simp [State.withDriver, State.driver, ne]

@[simp] theorem State.withPort_fields (x : Client) (f : Port → Port) :
    (s.withPort x f).lease = s.lease ∧
    (s.withPort x f).policy = s.policy ∧ (s.withPort x f).audit = s.audit ∧
    (s.withPort x f).active = s.active ∧ (s.withPort x f).staged = s.staged ∧
    (s.withPort x f).park = s.park ∧ (s.withPort x f).pairs = s.pairs ∧
    (s.withPort x f).drivers = s.drivers ∧ (s.withPort x f).sampler = s.sampler ∧
    (s.withPort x f).watch = s.watch ∧ (s.withPort x f).deferred = s.deferred ∧
    (s.withPort x f).queues = s.queues ∧
    (s.withPort x f).groupSel = s.groupSel ∧ (s.withPort x f).sreqKind = s.sreqKind ∧
    (s.withPort x f).sreqParam = s.sreqParam ∧ (s.withPort x f).ms = s.ms ∧
    (s.withPort x f).resetLow = s.resetLow ∧ (s.withPort x f).draws = s.draws ∧
    (s.withPort x f).pending = s.pending := by and_intros <;> rfl

@[simp] theorem State.withPort_port_self (x : Client) (f : Port → Port) :
    (s.withPort x f).port x = f (s.port x) := by
  simp [State.withPort, State.port]

@[simp] theorem State.withPort_port_ne {x y : Client} (f : Port → Port) (ne : y ≠ x) :
    (s.withPort x f).port y = s.port y := by
  simp [State.withPort, State.port, ne]

end Updates

/-! ### Folds -/

/-- What every single step leaves alone, the fold leaves alone. -/
theorem foldl_keeps {σ β α : Type} (f : σ → α → σ) (π : σ → β) (h : ∀ t a, π (f t a) = π t)
    (l : List α) (s : σ) : π (l.foldl f s) = π s := by
  induction l generalizing s with
  | nil => rfl
  | cons a l ih => rw [List.foldl_cons, ih, h]

/-- What holds at the start and is kept by every single step holds after the fold. -/
theorem foldl_invariant {σ α : Type} (f : σ → α → σ) (P : σ → Prop) (h : ∀ t a, P t → P (f t a))
    (l : List α) (s : σ) (hs : P s) : P (l.foldl f s) := by
  induction l generalizing s with
  | nil => exact hs
  | cons a l ih => exact ih _ (h s a hs)

end Sys2Proof.Machine
end

