-- ==== Sys2Proof/Laws/Frames.lean ====
section
/-! SUPPORT. Frames: which parts of the state each shared operation can change, said once for each. -/

namespace Sys2Proof.Machine

set_option Elab.async false

/-! ### The frame relation -/

section Relation

variable {ps qs : List Part} {s t u : State}

theorem SameExcept.refl (ps : List Part) (s : State) : SameExcept ps s s := by
  intro p _
  cases p <;> first | rfl | exact ⟨rfl, rfl⟩

theorem Part.same_trans (p : Part) (h1 : p.same s t) (h2 : p.same t u) : p.same s u := by
  cases p <;> first | exact Eq.trans h2 h1 | exact ⟨h2.1.trans h1.1, h2.2.trans h1.2⟩

theorem SameExcept.trans (h1 : SameExcept ps s t) (h2 : SameExcept ps t u) : SameExcept ps s u :=
  fun p hp => p.same_trans (h1 p hp) (h2 p hp)

/-- A frame with fewer parts is a frame with more. -/
theorem SameExcept.mono (h : SameExcept ps s t) (sub : ∀ p ∈ ps, p ∈ qs := by decide) :
    SameExcept qs s t :=
  fun p hp => h p fun hps => hp (sub p hps)

theorem SameExcept.foldl {α : Type} (f : State → α → State) (h : ∀ t a, SameExcept ps t (f t a))
    (l : List α) (s : State) : SameExcept ps s (l.foldl f s) := by
  induction l generalizing s with
  | nil => exact .refl ps s
  | cons a l ih => exact (h s a).trans (ih _)

theorem SameExcept.ite {c : Prop} [Decidable c] (h1 : SameExcept ps s t) (h2 : SameExcept ps s u) :
    SameExcept ps s (if c then t else u) := by
  split
  · exact h1
  · exact h2

variable (h : SameExcept ps s t)
include h

theorem SameExcept.lease (hp : Part.lease ∉ ps := by decide) : t.lease = s.lease := h .lease hp
theorem SameExcept.policy (hp : Part.policy ∉ ps := by decide) : t.policy = s.policy := h .policy hp
theorem SameExcept.audit (hp : Part.audit ∉ ps := by decide) : t.audit = s.audit := h .audit hp
theorem SameExcept.active (hp : Part.active ∉ ps := by decide) : t.active = s.active := h .active hp
theorem SameExcept.staged (hp : Part.staged ∉ ps := by decide) : t.staged = s.staged := h .staged hp
theorem SameExcept.park (hp : Part.park ∉ ps := by decide) : t.park = s.park := h .park hp
theorem SameExcept.pairs (hp : Part.pairs ∉ ps := by decide) : t.pairs = s.pairs := h .pairs hp
theorem SameExcept.drivers (hp : Part.drivers ∉ ps := by decide) : t.drivers = s.drivers :=
  h .drivers hp
theorem SameExcept.sampler (hp : Part.sampler ∉ ps := by decide) : t.sampler = s.sampler :=
  h .sampler hp
theorem SameExcept.watch (hp : Part.watch ∉ ps := by decide) : t.watch = s.watch := h .watch hp
theorem SameExcept.deferred (hp : Part.deferred ∉ ps := by decide) : t.deferred = s.deferred :=
  h .deferred hp
theorem SameExcept.queues (hp : Part.queues ∉ ps := by decide) : t.queues = s.queues := h .queues hp
theorem SameExcept.ports (hp : Part.ports ∉ ps := by decide) : t.ports = s.ports := h .ports hp
theorem SameExcept.groupSel (hp : Part.groupSel ∉ ps := by decide) : t.groupSel = s.groupSel :=
  h .groupSel hp
theorem SameExcept.sreq (hp : Part.sreq ∉ ps := by decide) :
    t.sreqKind = s.sreqKind ∧ t.sreqParam = s.sreqParam := h .sreq hp
theorem SameExcept.ms (hp : Part.ms ∉ ps := by decide) : t.ms = s.ms := h .ms hp
theorem SameExcept.resetLow (hp : Part.resetLow ∉ ps := by decide) : t.resetLow = s.resetLow :=
  h .resetLow hp
theorem SameExcept.draws (hp : Part.draws ∉ ps := by decide) : t.draws = s.draws := h .draws hp
theorem SameExcept.pending (hp : Part.pending ∉ ps := by decide) : t.pending = s.pending :=
  h .pending hp

/-- The accessors follow their parts. -/
theorem SameExcept.entry (g : Group) (hp : Part.lease ∉ ps := by decide) : t.entry g = s.entry g := by
  unfold State.entry; rw [h .lease hp]
theorem SameExcept.holder (g : Group) (hp : Part.lease ∉ ps := by decide) :
    t.holder g = s.holder g := by
  unfold State.holder State.entry; rw [h .lease hp]
theorem SameExcept.record (l : Line) (hp : Part.active ∉ ps := by decide) :
    t.record l = s.record l := by
  unfold State.record; rw [h .active hp]
theorem SameExcept.driver (l : Line) (hp : Part.drivers ∉ ps := by decide) :
    t.driver l = s.driver l := by
  unfold State.driver; rw [h .drivers hp]
theorem SameExcept.level (l : Line) (hp : Part.sampler ∉ ps := by decide) : t.level l = s.level l := by
  unfold State.level; rw [h .sampler hp]
theorem SameExcept.port (x : Client) (hp : Part.ports ∉ ps := by decide) : t.port x = s.port x := by
  unfold State.port; rw [h .ports hp]

/-- Partners are what the interlock table says. -/
theorem SameExcept.partners (l : Line) (hp : Part.pairs ∉ ps := by decide) :
    partners t l = partners s l := by
  unfold Machine.partners State.pairList; rw [h .pairs hp]

/-- Assertion is decided by the active record and the driver state (R8). -/
theorem SameExcept.asserted (l : Line) (ha : Part.active ∉ ps := by decide)
    (hd : Part.drivers ∉ ps := by decide) : asserted t l = asserted s l := by
  unfold Machine.asserted; rw [h.record l ha, h.driver l hd]

end Relation

/-! ### The event unit -/

theorem append_frame (x : Client) (e : Event) (s : State) :
    SameExcept [.queues] s (append x e s) := by
  unfold append
  split
  · exact .refl _ s
  · intro p hp
    cases p <;> first | rfl | exact ⟨rfl, rfl⟩ | exact absurd (by decide) hp

theorem appendHolder_frame (g : Group) (e : Event) (s : State) :
    SameExcept [.queues] s (appendHolder g e s) := by
  unfold appendHolder
  split
  · exact append_frame _ _ s
  · exact .refl _ s

theorem notifyWatchers_frame (g : Group) (s : State) :
    SameExcept [.queues] s (notifyWatchers g s) :=
  .foldl _ (fun t _ => (append_frame _ _ t).ite (.refl _ t)) _ _

theorem auditCopy_frame (x : Client) (o : Occurrence) (g : Option Group) (s : State) :
    SameExcept [.queues] s (auditCopy x o g s) :=
  append_frame _ _ s

theorem refuseClaims_frame (g : Group) (s : State) : SameExcept [.queues] s (refuseClaims g s) :=
  .foldl _ (fun t (c : Claim) => append_frame c.client _ t) _ _

/-! ### One part changed -/

theorem withEntry_frame (g : Group) (f : LeaseEntry → LeaseEntry) (s : State) :
    SameExcept [.lease] s (s.withEntry g f) := by
  intro p hp
  cases p <;> first | rfl | exact ⟨rfl, rfl⟩ | exact absurd (by decide) hp

theorem withDriver_frame (l : Line) (f : Driver → Driver) (s : State) :
    SameExcept [.drivers] s (s.withDriver l f) := by
  intro p hp
  cases p <;> first | rfl | exact ⟨rfl, rfl⟩ | exact absurd (by decide) hp

theorem withPort_frame (x : Client) (f : Port → Port) (s : State) :
    SameExcept [.ports] s (s.withPort x f) := by
  intro p hp
  cases p <;> first | rfl | exact ⟨rfl, rfl⟩ | exact absurd (by decide) hp

theorem withPolicy_frame (g : Group) (f : Policy → Policy) (s : State) :
    SameExcept [.policy] s (s.withPolicy g f) := by
  intro p hp
  cases p <;> first | rfl | exact ⟨rfl, rfl⟩ | exact absurd (by decide) hp

/-! ### The interlock table and the line drivers -/

theorem reevaluateMirror_frame (m : Line) (s : State) :
    SameExcept [.drivers, .queues] s (reevaluateMirror m s) := by
  unfold reevaluateMirror
  split
  · exact .ite (.refl _ s) ((withDriver_frame m _ s).mono.trans (appendHolder_frame _ _ _).mono)
  · exact .refl _ s

theorem reportDeassertion_frame (l : Line) (s : State) :
    SameExcept [.drivers, .queues] s (reportDeassertion l s) :=
  .foldl _ (fun t m => (reevaluateMirror_frame m t).ite (.refl _ t)) _ _

theorem reportDeassertions_frame (was : Line → Bool) (s : State) :
    SameExcept [.drivers, .queues] s (reportDeassertions was s) :=
  .foldl _ (fun t l => (reportDeassertion_frame l t).ite (.refl _ t)) _ _

theorem reevaluatePair_frame (p : Pair) (s : State) :
    SameExcept [.drivers, .queues] s (reevaluatePair p s) :=
  (reevaluateMirror_frame _ s).trans (reevaluateMirror_frame _ _)

theorem startMirror_frame (l : Line) (s : State) :
    SameExcept [.drivers, .queues] s (startMirror l s) := by
  unfold startMirror
  split
  · exact .ite
      (.ite ((withDriver_frame l _ s).mono.trans (appendHolder_frame _ _ _).mono)
        (withDriver_frame l _ s).mono)
      (.refl _ s)
  · exact .refl _ s

theorem startMirrors_frame (p : Proposal) (s : State) :
    SameExcept [.drivers, .queues] s (p.startMirrors s) :=
  .foldl _ (fun t l => (startMirror_frame l t).ite (.refl _ t)) _ _

theorem reportCuts_frame (p : Proposal) (s : State) : SameExcept [.queues] s (p.reportCuts s) := by
  apply SameExcept.foldl
  intro t l
  apply SameExcept.ite
  · split
    · exact .refl _ t
    · exact appendHolder_frame _ _ t
  · exact .refl _ t

theorem place_frame (p : Proposal) (s : State) : SameExcept [.active, .drivers] s (p.place s) := by
  intro q hq
  cases q <;> first | rfl | exact ⟨rfl, rfl⟩ | exact absurd (by decide) hq

theorem apply_frame (p : Proposal) (was : Line → Bool) (s : State) :
    SameExcept [.active, .drivers, .queues] s (p.apply was s) :=
  (((reportCuts_frame p s).mono.trans (place_frame p _).mono).trans
    (startMirrors_frame p _).mono).trans (reportDeassertions_frame was _).mono

theorem replaceGroup_frame (g : Group) (cfg : GroupConfig) (was : Line → Bool) (s : State) :
    SameExcept [.active, .drivers, .queues] s (replaceGroup g cfg was s) :=
  apply_frame _ was s

theorem cutPulse_frame (h : Client) (reason : Option CutReason) (l : Line) (s : State) :
    SameExcept [.drivers, .queues] s (cutPulse h reason l s) := by
  unfold cutPulse
  apply SameExcept.ite
  · cases reason with
    | none => exact (withDriver_frame l _ s).mono
    | some r => exact (withDriver_frame l _ s).mono.trans (append_frame _ _ _).mono
  · exact .refl _ s

theorem cutPulses_frame (g : Group) (h : Client) (reason : Option CutReason) (s : State) :
    SameExcept [.drivers, .queues] s (cutPulses g h reason s) :=
  .foldl _ (fun t l => cutPulse_frame h reason l t) _ _

/-! ### Grants and ends of holding -/

theorem dropDeferred_frame (g : Group) (h : Client) (s : State) :
    SameExcept [.deferred, .queues] s (dropDeferred g h s) := by
  have drop : SameExcept [.deferred, .queues] s { s with deferred := s.deferred.put h none } := by
    intro p hp
    cases p <;> first | rfl | exact ⟨rfl, rfl⟩ | exact absurd (by decide) hp
  unfold dropDeferred
  split
  · exact .ite (drop.trans (append_frame _ _ _).mono) (.refl _ s)
  · exact .refl _ s

theorem withPark_frame (park : PerClient (Table 8 (Option GroupConfig))) (s : State) :
    SameExcept [.park] s { s with park } := by
  intro p hp
  cases p <;> first | rfl | exact ⟨rfl, rfl⟩ | exact absurd (by decide) hp

theorem grant_frame (g : Group) (n : Client) (restore : Bool) (was : Line → Bool) (s : State) :
    SameExcept [.active, .drivers, .park, .queues] s (grant g n restore was s) := by
  unfold grant
  dsimp only
  split
  · split
    · exact (withPark_frame _ s).mono.trans (replaceGroup_frame _ _ _ _).mono
    · exact (append_frame _ _ s).mono.trans (replaceGroup_frame _ _ _ _).mono
    · exact (append_frame _ _ s).mono.trans (replaceGroup_frame _ _ _ _).mono
  · exact (replaceGroup_frame _ _ _ s).mono

theorem fallToSafe_frame (g : Group) (st : GroupState) (was : Line → Bool) (s : State) :
    SameExcept [.lease, .active, .drivers, .queues] s (fallToSafe g st was s) :=
  ((withEntry_frame g _ s).mono.trans (replaceGroup_frame _ _ _ _).mono).trans
    (notifyWatchers_frame _ _).mono

theorem handover_frame (g : Group) (c : Claim) (rest : List Claim) (was : Line → Bool) (s : State) :
    SameExcept [.lease, .active, .drivers, .park, .queues] s (handover g c rest was s) :=
  (((withEntry_frame g _ s).mono.trans (append_frame _ _ _).mono).trans
    (grant_frame _ _ _ _ _).mono).trans (notifyWatchers_frame _ _).mono

theorem passOn_frame (g : Group) (was : Line → Bool) (s : State) :
    SameExcept [.lease, .active, .drivers, .park, .queues] s (passOn g was s) := by
  unfold passOn
  split
  · exact (fallToSafe_frame _ _ _ s).mono
  · exact handover_frame _ _ _ _ s

theorem releaseGroup_frame (g : Group) (h : Client) (silent : Bool) (s : State) :
    SameExcept [.lease, .active, .drivers, .park, .deferred, .queues] s (releaseGroup g h silent s) :=
  ((cutPulses_frame g h _ s).mono.trans (dropDeferred_frame g h _).mono).trans
    (passOn_frame g _ _).mono

theorem beginLoss_frame (g : Group) (h : Client) (reason : LossReason) (s : State) :
    SameExcept [.drivers, .park, .deferred, .queues] s (beginLoss g h reason s) := by
  unfold beginLoss
  exact ((((withPark_frame _ s).mono.trans (append_frame _ _ _).mono).trans
    (.ite (auditCopy_frame _ _ _ _).mono (.refl _ _))).trans
    (cutPulses_frame g h _ _).mono).trans (dropDeferred_frame g h _).mono

theorem forcedLoss_frame (g : Group) (reason : LossReason) (s : State) :
    SameExcept [.lease, .active, .drivers, .park, .deferred, .queues] s (forcedLoss g reason s) := by
  unfold forcedLoss
  split
  · exact .refl _ s
  · dsimp only
    split
    · exact ((beginLoss_frame _ _ _ s).mono.trans (refuseClaims_frame _ _).mono).trans
        (fallToSafe_frame _ _ _ _).mono
    · exact (beginLoss_frame _ _ _ s).mono.trans (passOn_frame _ _ _).mono

/-! ### Revocation -/

theorem cancelRevocation_frame (g : Group) (s : State) :
    SameExcept [.lease, .queues] s (cancelRevocation g s) :=
  ((withEntry_frame g _ s).mono.trans (appendHolder_frame _ _ _).mono).trans
    (notifyWatchers_frame _ _).mono

theorem reevaluate_frame (g : Group) (s : State) : SameExcept [.lease, .queues] s (reevaluate g s) :=
  .ite (cancelRevocation_frame g s) (.refl _ s)

theorem dropClaim_frame (g : Group) (x : Client) (s : State) :
    SameExcept [.lease] s (dropClaim g x s) :=
  withEntry_frame g _ s

theorem queueClaim_frame (g : Group) (x : Client) (prio : Priority) (preempt restore : Bool)
    (s : State) : SameExcept [.lease] s (queueClaim g x prio preempt restore s) :=
  withEntry_frame g _ s

theorem startRevocation_frame (g : Group) (s : State) :
    SameExcept [.lease, .active, .drivers, .park, .deferred, .queues] s (startRevocation g s) :=
  .ite (forcedLoss_frame _ _ s)
    (((withEntry_frame g _ s).mono.trans (appendHolder_frame _ _ _).mono).trans
      (notifyWatchers_frame _ _).mono)

theorem grantFromSafe_frame (g : Group) (x : Client) (prio : Priority) (restore : Bool) (s : State) :
    SameExcept [.lease, .active, .drivers, .park, .queues] s (grantFromSafe g x prio restore s) :=
  ((withEntry_frame g _ s).mono.trans (grant_frame _ _ _ _ _).mono).trans
    (notifyWatchers_frame _ _).mono

/-! ### Pending commits, filtered changes, client reset -/

theorem withDeferred_frame (d : PerClient (Option Deferred)) (s : State) :
    SameExcept [.deferred] s { s with deferred := d } := by
  intro p hp
  cases p <;> first | rfl | exact ⟨rfl, rfl⟩ | exact absurd (by decide) hp

theorem applyDeferred_frame (x : Client) (s : State) :
    SameExcept [.active, .drivers, .deferred, .queues] s (applyDeferred x s) := by
  unfold applyDeferred
  split
  · exact .refl _ s
  · dsimp only
    split
    · exact ((withDeferred_frame _ s).mono.trans (append_frame _ _ _).mono).trans
        (apply_frame _ _ _).mono
    · exact (withDeferred_frame _ s).mono.trans (append_frame _ _ _).mono
    · exact (withDeferred_frame _ s).mono.trans (append_frame _ _ _).mono

theorem reportEdge_frame (l : Line) (lv : Level) (s : State) :
    SameExcept [.queues] s (reportEdge l lv s) :=
  .ite (appendHolder_frame _ _ s) (.refl _ s)

theorem reportWatchers_frame (l : Line) (lv : Level) (s : State) :
    SameExcept [.queues] s (reportWatchers l lv s) := by
  apply SameExcept.foldl
  intro t x
  split
  · exact .ite (append_frame _ _ t) (.refl _ t)
  · exact .refl _ t

theorem followMirror_frame (m : Line) (demand : Bool) (s : State) :
    SameExcept [.drivers, .queues] s (followMirror m demand s) := by
  unfold followMirror
  split
  · exact .ite ((withDriver_frame m _ s).mono.trans (appendHolder_frame _ _ _).mono)
      (withDriver_frame m _ s).mono
  · exact (withDriver_frame m _ s).mono
  · exact (withDriver_frame m _ s).mono.trans (appendHolder_frame _ _ _).mono
  · exact .refl _ s

theorem followSource_frame (l : Line) (s : State) :
    SameExcept [.drivers, .queues] s (followSource l s) := by
  refine SameExcept.trans ?_ (reportDeassertions_frame _ _)
  apply SameExcept.foldl
  intro t m
  split
  · exact .ite (followMirror_frame _ _ t) (.refl _ t)
  · exact .refl _ t

theorem fireTriggers_frame (l : Line) (lv : Level) (s : State) :
    SameExcept [.active, .drivers, .deferred, .queues] s (fireTriggers l lv s) := by
  apply SameExcept.foldl
  intro t x
  split
  · exact .ite (applyDeferred_frame _ t) (.refl _ t)
  · exact .refl _ t

theorem withSampler_frame (t : Table 32 LineSampler) (s : State) :
    SameExcept [.sampler] s { s with sampler := t } := by
  intro p hp
  cases p <;> first | rfl | exact ⟨rfl, rfl⟩ | exact absurd (by decide) hp

theorem filteredChange_frame (l : Line) (lv : Level) (s : State) :
    SameExcept [.sampler, .active, .drivers, .deferred, .queues] s (filteredChange l lv s) :=
  ((((withSampler_frame _ s).mono.trans (reportEdge_frame l lv _).mono).trans
    (reportWatchers_frame l lv _).mono).trans (followSource_frame l _).mono).trans
    (fireTriggers_frame l lv _).mono

theorem takeSample_frame (pads : BitVec 32) (order : List Line) (s : State) :
    SameExcept [.sampler, .active, .drivers, .deferred, .queues] s (takeSample pads order s) :=
  (withSampler_frame _ s).mono.trans
    (.foldl _ (fun t l => (filteredChange_frame l _ t).ite (.refl _ t)) _ _)

theorem resetClientState_frame (x : Client) (s : State) :
    SameExcept [.watch, .staged, .park, .queues, .ports] s (resetClientState x s) := by
  intro p hp
  cases p <;> first | rfl | exact ⟨rfl, rfl⟩ | exact absurd (by decide) hp

theorem releaseIfHeld_frame (x : Client) (s : State) (g : Group) :
    SameExcept [.lease, .active, .drivers, .park, .deferred, .queues] s (releaseIfHeld x s g) :=
  .ite (releaseGroup_frame _ _ _ s) (.refl _ s)

theorem removeClaim_frame (x : Client) (s : State) (g : Group) :
    SameExcept [.lease, .queues] s (removeClaim x s g) :=
  .ite ((dropClaim_frame g x s).mono.trans (reevaluate_frame g _)) (.refl _ s)

theorem clientResetTransaction_frame (x : Client) (s : State) :
    SameExcept
      [.lease, .active, .drivers, .park, .deferred, .queues, .watch, .staged, .ports]
      s (clientResetTransaction x s) := by
  unfold clientResetTransaction
  exact (((SameExcept.ite (auditCopy_frame _ _ _ s).mono (.refl _ s)).trans
    (withDeferred_frame _ _).mono).trans
    (SameExcept.foldl _ (fun t g => (releaseIfHeld_frame x t g).mono) _ _)).trans
    (.trans (.foldl _ (fun t g => (removeClaim_frame x t g).mono) _ _)
      (resetClientState_frame x _).mono)

/-! ### Requests -/

theorem reportRefusal_frame (x : Client) (kind : Byte) (r : Reply) (s : State) :
    SameExcept [.queues] s (reportRefusal x kind r s) := by
  unfold reportRefusal
  split
  · exact .refl _ s
  · exact .ite
      ((SameExcept.ite (append_frame _ _ s) (.refl _ s)).trans (auditCopy_frame _ _ _ _))
      (.ite (append_frame _ _ s) (.refl _ s))

theorem writeResult_frame (x : Client) (kind : Byte) (r : Reply) (s : State) :
    SameExcept [.ports] s (writeResult x kind r s) :=
  withPort_frame x _ s

theorem answer_frame (x : Client) (kind : Byte) (t : Taken) :
    SameExcept [.queues, .ports] t.1 (answer x kind t) :=
  (reportRefusal_frame x kind t.2 t.1).mono.trans (writeResult_frame x kind t.2 _).mono

theorem storeRequest_frame (page : Page) (kind : Byte) (params : List Byte) (s : State) :
    SameExcept [.ports, .sreq] s (storeRequest page kind params s) := by
  cases page with
  | client x => exact (withPort_frame x _ s).mono
  | supervisor =>
    intro p hp
    cases p <;> first | rfl | exact ⟨rfl, rfl⟩ | exact absurd (by decide) hp

theorem misoZeros_frame (x : Client) (count : Nat) (s : State) :
    SameExcept [.ports] s (misoZeros x count s) :=
  withPort_frame x _ s

end Sys2Proof.Machine
end

