-- ==== Sys2Proof/Laws/Events.lean ====
section
/-! SUPPORT. What each shared operation sends to the event queues, said once for each, and how sending composes. -/

namespace Sys2Proof.Machine

set_option Elab.async false

/-! ### What counts for the interrupt (R159) -/

/-- An event counts where it is OVERFLOW or the bit of its kind's class in IRQ_SEL is 1 (9.5, R159, R179). -/
theorem Event.counts_eq_bit (sel : BitVec 6) (e : Event) :
    e.counts sel = (e == .overflow || sel.getLsbD (irqBit e)) := by
  cases e <;> rfl

/-! ### The append rule (R152) -/

theorem enqueue_length_le {q : List Entry} (h : q.length ≤ 32) (e : Event) (now : Word16) :
    (enqueue q e now).length ≤ 32 := by
  unfold enqueue
  split
  · simp only [List.length_append, List.length_singleton]; omega
  · split
    · simp only [List.length_append, List.length_singleton]; omega
    · exact h

/-- A queue that an event brings to 32 entries ends with OVERFLOW (R152, R160). -/
theorem enqueue_full {q : List Entry} (e : Event) (now : Word16)
    (h : q.length = 32 → q.getLast?.map (·.event) = some .overflow)
    (full : (enqueue q e now).length = 32) :
    (enqueue q e now).getLast?.map (·.event) = some .overflow := by
  unfold enqueue at full ⊢
  split at full
  · next h30 => simp only [List.length_append, List.length_singleton] at full; omega
  · next h30 =>
    rw [if_neg h30]
    split at full
    · next h31 => simp [h31]
    · next h31 => rw [if_neg h31]; exact h full

/-! ### Composition -/

variable {ps : List Part} {s t u : State}

@[simp] theorem delivered_nil (s : State) (y : Client) : delivered s y [] = s.queues.get y := by
  simp [delivered]

theorem Sends.nil (h : t.queues = s.queues) : Sends s t fun _ => [] := by
  intro y; rw [delivered_nil, h]

/-- A frame that spares the queues sends nothing. -/
theorem SameExcept.sends (h : SameExcept ps s t) (hq : Part.queues ∉ ps := by decide) :
    Sends s t fun _ => [] :=
  .nil (h.queues hq)

theorem Sends.of_eq {a b : Client → List Event} (h : Sends s t a) (e : ∀ y, a y = b y) :
    Sends s t b := fun y => e y ▸ h y

/-- One sending after another, where no port and no count changes between them. -/
theorem Sends.trans {a b : Client → List Event} (h1 : Sends s t a) (h2 : Sends t u b)
    (f : SameExcept ps s t) (hp : Part.ports ∉ ps := by decide) (hm : Part.ms ∉ ps := by decide) :
    Sends s u fun y => a y ++ b y := by
  intro y
  have port := f.port y hp
  have ms := f.ms hm
  rw [h2 y]
  unfold delivered
  rw [h1 y, port, ms]
  unfold delivered
  split <;> simp [List.foldl_append, *]

/-- Sending from a state whose ports' reset pins, count and queues are the same. -/
theorem Sends.start {a : Client → List Event} (h : Sends t u a)
    (f : SameExcept ps s t) (hq : Part.queues ∉ ps := by decide)
    (hp : Part.ports ∉ ps := by decide) (hm : Part.ms ∉ ps := by decide) : Sends s u a := by
  intro y
  rw [h y]
  unfold delivered
  rw [f.port y hp, f.ms hm, f.queues hq]

theorem Sends.ending {a : Client → List Event} (h : Sends s t a)
    (f : SameExcept ps t u) (hq : Part.queues ∉ ps := by decide) : Sends s u a := by
  intro y
  rw [f.queues hq, h y]

theorem Sends.ite {c : Prop} [Decidable c] {a b : Client → List Event} (h1 : c → Sends s t a)
    (h2 : ¬ c → Sends s u b) : Sends s (if c then t else u) fun y => if c then a y else b y := by
  split
  · next h => exact h1 h
  · next h => exact h2 h

/-- A fold of sendings that change no port, no count and nothing that decides what is sent. -/
theorem Sends.foldl {α : Type} (f : State → α → State) (es : α → Client → List Event)
    (frame : ∀ t a, SameExcept ps t (f t a)) (hp : Part.ports ∉ ps := by decide)
    (hm : Part.ms ∉ ps := by decide) (P : State → Prop) (keep : ∀ t a, P t → P (f t a))
    (sends : ∀ t a, P t → Sends t (f t a) (es a)) (l : List α) (s : State) (hs : P s) :
    Sends s (l.foldl f s) fun y => l.flatMap fun a => es a y := by
  induction l generalizing s with
  | nil => exact .nil rfl
  | cons a l ih =>
    exact ((sends s a hs).trans (ih _ (keep s a hs)) (frame s a) hp hm).of_eq fun y => by simp

/-! ### The event unit -/

theorem append_sends (x : Client) (e : Event) (s : State) :
    Sends s (append x e s) (toClient x [e]) := by
  intro y
  unfold append delivered toClient
  by_cases hx : (s.port x).crstLow
  · rw [if_pos hx]
    by_cases h : y = x
    · subst h; simp [hx]
    · simp [h]
  · rw [if_neg hx]
    by_cases h : y = x
    · subst h; simp [hx]
    · simp [h]

theorem appendHolder_sends (g : Group) (e : Event) (s : State) :
    Sends s (appendHolder g e s) (toHolder (s.holder g) [e]) := by
  unfold appendHolder
  split
  · next x h =>
    refine (append_sends x e s).of_eq fun y => ?_
    simp only [toClient, toHolder, h, Option.some.injEq]
    by_cases hy : y = x
    · simp [hy]
    · simp [hy, Ne.symm hy]
  · next h => exact (Sends.nil rfl).of_eq fun y => by simp [toHolder, h]

/-- A sending once for each client, in ascending client number, is a sending to each. -/
theorem flatMap_clients (f : Client → Client → List Event) (y : Client)
    (h : ∀ x, x ≠ y → f x y = []) : (clients.flatMap fun x => f x y) = f y y := by
  cases y <;> simp [clients, h]

theorem notifyWatchers_sends (g : Group) (s : State) :
    Sends s (notifyWatchers g s) (toWatchers s g (s.entry g).state (s.entry g).holder) := by
  unfold notifyWatchers
  refine (Sends.foldl (ps := [.queues]) _
    (fun x y => if ((s.watch.get g).get x).isSome then
      toClient x [.groupState g (s.entry g).state (s.entry g).holder] y else [])
    (fun t _ => (append_frame _ _ t).ite (.refl _ t)) (by decide) (by decide)
    (fun t => SameExcept [.queues] s t)
    (fun t _ h => h.trans ((append_frame _ _ t).ite (.refl _ t))) ?_ _ s (.refl _ s)).of_eq ?_
  · intro t x h
    rw [h.watch, h.entry]
    exact .ite (fun _ => append_sends x _ t) fun _ => .nil rfl
  · intro y
    refine (flatMap_clients (fun x y => if ((s.watch.get g).get x).isSome then
      toClient x [.groupState g (s.entry g).state (s.entry g).holder] y else []) y ?_).trans ?_
    · intro x hx; simp [toClient, Ne.symm hx]
    · simp [toWatchers, toClient]

theorem auditCopy_sends (x : Client) (o : Occurrence) (g : Option Group) (s : State) :
    Sends s (auditCopy x o g s) (toClient .a [.audit x o g]) :=
  append_sends _ _ s

theorem refuseClaims_sends (g : Group) (s : State) :
    Sends s (refuseClaims g s) fun y =>
      (s.entry g).waiting.flatMap fun c => toClient c.client [.claimRefused g .withheld] y := by
  unfold refuseClaims
  exact Sends.foldl (ps := [.queues]) (fun t (c : Claim) => append c.client _ t)
    (fun c y => toClient c.client [.claimRefused g .withheld] y)
    (fun t (c : Claim) => append_frame c.client _ t) (by decide) (by decide) (fun _ => True)
    (fun _ _ h => h) (fun t (c : Claim) _ => append_sends c.client _ t) _ s trivial

end Sys2Proof.Machine
end

