-- ==== Sys2Proof/Laws/Reports.lean ====
section
/-! SUPPORT. The interlock table and the reports of deassertions: partners, what a report can do, and in which
order mirrors resume. -/

namespace Sys2Proof.Machine

set_option Elab.async false

variable {s t u : State} {l m : Line}

/-! ### Partners (R90) -/

theorem mem_partners : m ∈ partners s l ↔ ∃ i p, s.pairs.get i = some p ∧ p.partner l = some m := by
  simp only [partners, State.pairList, List.mem_filterMap, mem_groups, true_and, Option.map_eq_some_iff]
  constructor
  · rintro ⟨⟨i, p⟩, ⟨j, q, hq, he⟩, hm⟩
    cases he
    exact ⟨_, _, hq, hm⟩
  · rintro ⟨i, p, hp, hm⟩
    exact ⟨(i, p), ⟨i, p, hp, rfl⟩, hm⟩

theorem Pair.partner_symm {p : Pair} (h : p.partner l = some m) : p.partner m = some l := by
  unfold Pair.partner at *
  split at h
  · next hl =>
    cases h
    split
    · next hm => rw [← hl, hm]
    · next hm => rw [if_pos rfl, hl]
  · next hl =>
    split at h
    · next hh => cases h; rw [if_pos rfl, hh]
    · cases h

theorem partners_symm (h : m ∈ partners s l) : l ∈ partners s m := by
  rw [mem_partners] at *
  obtain ⟨i, p, hp, hm⟩ := h
  exact ⟨i, p, hp, p.partner_symm hm⟩

/-- No line is its own partner where the pairs are of two distinct lines (R90). -/
def PairsDistinct (s : State) : Prop := ∀ i p, s.pairs.get i = some p → p.lower ≠ p.higher

theorem PairLaw.distinct (h : PairLaw s) : PairsDistinct s := fun i p hp =>
  ne_of_lt (h i p hp).1

theorem PairsDistinct.ne (h : PairsDistinct s) (hm : m ∈ partners s l) : m ≠ l := by
  rw [mem_partners] at hm
  obtain ⟨i, p, hp, hm⟩ := hm
  have := h i p hp
  unfold Pair.partner at hm
  split at hm
  · next hl => cases hm; rw [← hl]; exact Ne.symm this
  · split at hm
    · next hl => cases hm; rw [← hl]; exact this
    · cases hm

theorem partnerAsserted_iff : partnerAsserted s l = true ↔ ∃ m ∈ partners s l, asserted s m = true := by
  simp [partnerAsserted]

/-! ### Deassertion reports (R14, R96) -/

/-- Whether a line is a held mirror. -/
def isHeld (s : State) (l : Line) : Prop := (s.driver l).mirror.map (·.phase) = some .held

/-- All a deassertion report can do: held mirrors with no asserted partner resume. -/
structure Reported (s t : State) : Prop where
  frame : SameExcept [.drivers, .queues] s t
  driver : ∀ l, t.driver l = s.driver l ∨
    (isHeld s l ∧ partnerAsserted s l = false ∧
      t.driver l = { s.driver l with mirror := some ⟨.following, true⟩ })

theorem Reported.refl (s : State) : Reported s s := ⟨.refl _ s, fun _ => .inl rfl⟩

/-- No report deasserts a line. -/
theorem Reported.asserted (h : Reported s t) (ha : asserted s l = true) : asserted t l = true := by
  have same := h.frame.record l
  unfold Machine.asserted at *
  rw [same]
  rcases h.driver l with hd | ⟨held, _, hd⟩
  · rw [hd]; exact ha
  · revert ha
    split <;> intro ha
    · exact ha
    · exact ha
    · rw [hd]; exact ha
    · rw [beq_iff_eq] at ha
      rw [isHeld, ha] at held
      cases held

theorem Reported.partnerAsserted (h : Reported s t) (ha : partnerAsserted s l = true) :
    partnerAsserted t l = true := by
  rw [partnerAsserted_iff] at *
  obtain ⟨m, hm, ha⟩ := ha
  exact ⟨m, h.frame.partners l ▸ hm, h.asserted ha⟩

theorem Reported.trans (h1 : Reported s t) (h2 : Reported t u) : Reported s u := by
  refine ⟨h1.frame.trans h2.frame, fun l => ?_⟩
  rcases h1.driver l with e1 | ⟨held, pa, e1⟩
  · rcases h2.driver l with e2 | ⟨held2, pa2, e2⟩
    · exact .inl (e2.trans e1)
    · refine .inr ⟨by rw [isHeld, ← e1]; exact held2, ?_, by rw [e2, e1]⟩
      by_contra hc
      rw [Bool.not_eq_false] at hc
      rw [h1.partnerAsserted hc] at pa2
      cases pa2
  · rcases h2.driver l with e2 | ⟨held2, pa2, e2⟩
    · exact .inr ⟨held, pa, e2.trans e1⟩
    · rw [isHeld, e1] at held2
      cases held2

/-- Held mirrors that a report leaves held have an asserted partner or were not reached; one that has an
asserted partner stays. -/
theorem Reported.stays (h : Reported s t) (ha : Machine.partnerAsserted s l = true) :
    t.driver l = s.driver l := by
  rcases h.driver l with e | ⟨_, pa, _⟩
  · exact e
  · rw [ha] at pa; cases pa

/-- A report with what it sends: one MIRROR_RESUMED for each mirror that resumes. -/
def Reports (s t : State) : Prop :=
  Reported s t ∧ ∃ es, Sends s t es ∧ Resumptions (fun _ => false) s t es

theorem Reports.refl (s : State) : Reports s s := by
  refine ⟨.refl s, fun _ => [], .nil rfl, fun y => ⟨List.nodup_nil, fun e => ?_⟩⟩
  simp only [List.not_mem_nil, false_iff, not_exists, not_and]
  intro l _ _ _ held follow
  rw [follow] at held
  cases held

theorem Reports.trans (h1 : Reports s t) (h2 : Reports t u) : Reports s u := by
  obtain ⟨r1, es1, sends1, res1⟩ := h1
  obtain ⟨r2, es2, sends2, res2⟩ := h2
  refine ⟨r1.trans r2, _, sends1.trans sends2 r1.frame, fun y => ⟨?_, fun e => ?_⟩⟩
  · refine List.Nodup.append (res1 y).1 (res2 y).1 ?_
    intro e he1 he2
    obtain ⟨l, rfl, _, _, _, follow⟩ := ((res1 y).2 e).1 he1
    obtain ⟨l', hl, _, _, held, _⟩ := ((res2 y).2 _).1 he2
    cases hl
    rw [follow] at held
    cases held
  · rw [List.mem_append, (res1 y).2, (res2 y).2]
    constructor
    · rintro (⟨l, rfl, hn, holder, held, follow⟩ | ⟨l, rfl, hn, holder, held, follow⟩)
      · refine ⟨l, rfl, hn, holder, held, ?_⟩
        rcases r2.driver l with e | ⟨_, _, e⟩
        · rw [e]; exact follow
        · rw [e]
      · refine ⟨l, rfl, hn, by rw [← r1.frame.holder]; exact holder, ?_, follow⟩
        rcases r1.driver l with e | ⟨held1, _, e⟩
        · rw [← e]; exact held
        · exact held1
    · rintro ⟨l, rfl, hn, holder, held, follow⟩
      rcases r1.driver l with e | ⟨_, _, e⟩
      · exact .inr ⟨l, rfl, hn, by rw [r1.frame.holder]; exact holder, by rw [e]; exact held, follow⟩
      · exact .inl ⟨l, rfl, hn, holder, held, by rw [e]⟩

theorem Reports.foldl {α : Type} (f : State → α → State) (h : ∀ t a, Reports t (f t a))
    (l : List α) (s : State) : Reports s (l.foldl f s) := by
  induction l generalizing s with
  | nil => exact .refl s
  | cons a l ih => exact (h s a).trans (ih _)

theorem Reports.ite {c : Prop} [Decidable c] (h : Reports s t) :
    Reports s (if c then t else s) := by
  split
  · exact h
  · exact .refl s

theorem reevaluateMirror_reports (m : Line) (s : State) : Reports s (reevaluateMirror m s) := by
  unfold reevaluateMirror
  split
  · next d hd =>
    split
    · exact .refl s
    · next pa =>
      have held : isHeld s m := by rw [isHeld, hd]; rfl
      have frame : SameExcept [.drivers] s
          (s.withDriver m fun d => { d with mirror := some ⟨.following, true⟩ }) := withDriver_frame m _ s
      have after := appendHolder_frame (groupOf m) (.mirrorResumed m true)
        (s.withDriver m fun d => { d with mirror := some ⟨.following, true⟩ })
      have driver : ∀ l, (appendHolder (groupOf m) (.mirrorResumed m true)
          (s.withDriver m fun d => { d with mirror := some ⟨.following, true⟩ })).driver l =
          if l = m then { s.driver m with mirror := some ⟨.following, true⟩ } else s.driver l := by
        intro l
        rw [after.driver]
        by_cases e : l = m
        · subst e; simp
        · simp [e]
      refine ⟨⟨frame.mono.trans after.mono, fun l => ?_⟩, _,
        (appendHolder_sends _ _ _).start frame, fun y => ⟨?_, fun e => ?_⟩⟩
      · rw [driver]
        split
        · next e => subst e; exact .inr ⟨held, by simpa using pa, rfl⟩
        · exact .inl rfl
      · unfold toHolder; split <;> simp
      · rw [frame.holder]
        unfold toHolder
        constructor
        · intro he
          split at he
          · next hy =>
            simp only [List.mem_singleton] at he
            exact ⟨m, he, rfl, hy, held, by rw [driver]; simp⟩
          · cases he
        · rintro ⟨l, rfl, _, holder, held', follow⟩
          rw [driver] at follow
          split at follow
          · next e => subst e; rw [if_pos holder]; simp
          · rw [follow] at held'; cases held'
  · exact .refl s

theorem reportDeassertion_reports (l : Line) (s : State) : Reports s (reportDeassertion l s) :=
  .foldl _ (fun t m => (reevaluateMirror_reports m t).ite) _ _

theorem reportDeassertions_reports (was : Line → Bool) (s : State) :
    Reports s (reportDeassertions was s) :=
  .foldl _ (fun t l => (reportDeassertion_reports l t).ite) _ _

/-- A re-evaluated line is held only where a partner is asserted (R96). -/
theorem reevaluateMirror_held (m : Line) (s : State) (held : isHeld (reevaluateMirror m s) m) :
    partnerAsserted (reevaluateMirror m s) m = true := by
  unfold reevaluateMirror at *
  split at held
  · split at held
    · next pa => rw [if_pos pa]; exact pa
    · unfold isHeld at held
      rw [(appendHolder_frame _ _ _).driver] at held
      simp at held
  · next follows =>
    cases hd : (s.driver m).mirror with
    | none => rw [isHeld, hd] at held; cases held
    | some mir =>
      obtain ⟨phase, demand⟩ := mir
      rw [isHeld, hd] at held
      cases phase with
      | held => exact absurd hd (follows demand)
      | following => cases held

/-- A step of reports during which a line is re-evaluated leaves it held only where a partner is
asserted. -/
theorem reevaluated_foldl {α : Type} (f : State → α → State) (reports : ∀ t a, Reports t (f t a))
    {l : List α} {a : α} (ha : a ∈ l) (m : Line) (s : State)
    (done : ∀ t, Reports s t → isHeld (f t a) m → partnerAsserted (f t a) m = true)
    (held : isHeld (l.foldl f s) m) : partnerAsserted (l.foldl f s) m = true := by
  obtain ⟨before, after, rfl⟩ := List.append_of_mem ha
  rw [List.foldl_append, List.foldl_cons] at *
  have later := (Reports.foldl f reports after (f (before.foldl f s) a)).1
  refine later.partnerAsserted (done _ (Reports.foldl f reports before s) ?_)
  rcases later.driver m with e | ⟨h, _⟩
  · rw [isHeld, ← e]; exact held
  · exact h

/-- A report of a line re-evaluates its partners. -/
theorem reportDeassertion_held (l m : Line) (s : State) (hm : m ∈ partners s l)
    (held : isHeld (reportDeassertion l s) m) : partnerAsserted (reportDeassertion l s) m = true := by
  refine reevaluated_foldl _ (fun t m => (reevaluateMirror_reports m t).ite) (mem_lines m) m s
    (fun t _ h => ?_) held
  rw [if_pos hm] at *
  exact reevaluateMirror_held m t h

theorem reevaluatePair_reports (p : Pair) (s : State) : Reports s (reevaluatePair p s) :=
  (reevaluateMirror_reports _ s).trans (reevaluateMirror_reports _ _)

/-! ### The order of resumptions (R96, R98) -/

theorem asserted_of_driver (hr : t.record l = s.record l) (hd : t.driver l = s.driver l) :
    asserted t l = asserted s l := by
  unfold asserted; rw [hr, hd]

/-- All a re-evaluation does: nothing where the line is no held mirror or a partner is asserted, otherwise the
line resumes. -/
theorem reevaluateMirror_cases (m : Line) (s : State) :
    (reevaluateMirror m s = s ∧ (isHeld s m → partnerAsserted s m = true)) ∨
      (isHeld s m ∧ partnerAsserted s m = false ∧
        (∀ l, (reevaluateMirror m s).driver l =
          if l = m then { s.driver m with mirror := some ⟨.following, true⟩ } else s.driver l) ∧
        Sends s (reevaluateMirror m s) (toHolder (s.holder (groupOf m)) [.mirrorResumed m true])) := by
  unfold reevaluateMirror
  split
  · next d hd =>
    by_cases pa : partnerAsserted s m = true
    · rw [if_pos pa]
      exact .inl ⟨rfl, fun _ => pa⟩
    · rw [if_neg pa]
      have frame := withDriver_frame m (fun d => { d with mirror := some ⟨.following, true⟩ }) s
      refine .inr ⟨by rw [isHeld, hd]; rfl, by simpa using pa, fun l => ?_, ?_⟩
      · rw [(appendHolder_frame _ _ _).driver]
        by_cases e : l = m
        · subst e; simp
        · simp [e]
      · have := (appendHolder_sends (groupOf m) (.mirrorResumed m true)
          (s.withDriver m fun d => { d with mirror := some ⟨.following, true⟩ })).start frame
        rwa [frame.holder] at this
  · next no =>
    refine .inl ⟨rfl, fun held => ?_⟩
    cases hd : (s.driver m).mirror with
    | none => rw [isHeld, hd] at held; cases held
    | some mir =>
      obtain ⟨_ | _, d⟩ := mir
      · rw [isHeld, hd] at held; cases held
      · exact absurd hd (no d)

/-- Re-evaluations for a list of reports: the report of a line, and a mirror it re-evaluates. -/
def reevaluateAll (P : List (Line × Line)) (s : State) : State :=
  P.foldl (fun t p => reevaluateMirror p.2 t) s

theorem reevaluateAll_reports (P : List (Line × Line)) (s : State) : Reports s (reevaluateAll P s) :=
  .foldl (fun t (p : Line × Line) => reevaluateMirror p.2 t) (fun t p => reevaluateMirror_reports p.2 t) P s

/-- A re-evaluated mirror that is still held has an asserted partner. -/
theorem reevaluateAll_held {P : List (Line × Line)} {p : Line × Line} (hp : p ∈ P)
    (held : isHeld (reevaluateAll P s) p.2) : partnerAsserted (reevaluateAll P s) p.2 = true :=
  reevaluated_foldl (fun t (p : Line × Line) => reevaluateMirror p.2 t) (fun t p => reevaluateMirror_reports p.2 t) hp
    p.2 s (fun t _ => reevaluateMirror_held p.2 t) held

/-- The re-evaluations at which mirrors resume, in their order: what they send, which mirrors they are, that
each is its mirror's first, and that no partner of a mirror that has resumed is asserted. -/
theorem reevaluateAll_trace (P : List (Line × Line)) (s : State) :
    ∃ R : List (Line × Line), R.Sublist P ∧
      (Sends s (reevaluateAll P s) fun y =>
        (R.filter fun p => s.holder (groupOf p.2) == some y).map fun p => .mirrorResumed p.2 true) ∧
      (∀ m, m ∈ R.map (·.2) ↔
        isHeld s m ∧ ((reevaluateAll P s).driver m).mirror = some ⟨.following, true⟩) ∧
      (R.map (·.2)).Nodup ∧
      (∀ p ∈ R, ∃ before after, P = before ++ p :: after ∧ ∀ q ∈ before, q.2 ≠ p.2) ∧
      ∀ m ∈ R.map (·.2), asserted (reevaluateAll P s) m = true →
        ∀ k ∈ partners (reevaluateAll P s) m, k ≠ m → asserted (reevaluateAll P s) k = false := by
  induction P using List.reverseRecOn with
  | nil =>
    refine ⟨[], List.Sublist.refl _, .nil rfl, fun m => ?_, List.nodup_nil, ?_, ?_⟩
    · simp only [List.map_nil, List.not_mem_nil, false_iff, not_and, isHeld]
      intro held follow
      rw [show (reevaluateAll [] s).driver m = s.driver m from rfl] at follow
      rw [follow] at held; cases held
    · intro p hp; cases hp
    · intro m hm; cases hm
  | append_singleton P p ih =>
    obtain ⟨R, sub, sends, mem, nodup, first, free⟩ := ih
    have eq : reevaluateAll (P ++ [p]) s = reevaluateMirror p.2 (reevaluateAll P s) := by
      unfold reevaluateAll; rw [List.foldl_append]; rfl
    have rep := (reevaluateAll_reports P s).1
    have stays : ∀ q ∈ P, isHeld (reevaluateAll P s) q.2 →
        partnerAsserted (reevaluateAll P s) q.2 = true := fun q hq h => reevaluateAll_held hq h
    have grown : ∀ q ∈ R, ∃ before after, P ++ [p] = before ++ q :: after ∧
        ∀ q' ∈ before, q'.2 ≠ q.2 := fun q hq => by
      obtain ⟨before, after, e, no⟩ := first q hq
      exact ⟨before, after ++ [p], by rw [e]; simp, no⟩
    rw [eq]
    generalize reevaluateAll P s = u at *
    rcases reevaluateMirror_cases p.2 u with ⟨same, _⟩ | ⟨held, pa, dr, told⟩
    · rw [same]
      exact ⟨R, sub.trans (List.sublist_append_left _ _), sends, mem, nodup, grown, free⟩
    · have frame := reevaluateMirror_frame p.2 u
      generalize reevaluateMirror p.2 u = t at *
      have fresh : p.2 ∉ R.map (·.2) := fun h => by
        have := ((mem p.2).1 h).2
        rw [isHeld, this] at held; cases held
      have others : ∀ k, k ≠ p.2 → asserted t k = asserted u k := fun k hk =>
        asserted_of_driver (frame.record k) (by rw [dr, if_neg hk])
      refine ⟨R ++ [p], sub.append (List.Sublist.refl _), ?_, fun m => ?_, ?_, fun q hq => ?_, ?_⟩
      · refine (sends.trans told rep.frame).of_eq fun y => ?_
        rw [rep.frame.holder]
        by_cases hy : s.holder (groupOf p.2) = some y <;>
          simp [toHolder, List.filter_append, hy]
      · rw [List.map_append, List.mem_append, mem, dr]
        by_cases e : m = p.2
        · subst e
          simp only [List.map_cons, List.map_nil, List.mem_singleton, or_true, if_true, and_true, true_iff]
          rcases rep.driver p.2 with h | ⟨h, _⟩
          · rw [isHeld, ← h]; exact held
          · exact h
        · simp [e]
      · rw [List.map_append, List.nodup_append]
        refine ⟨nodup, by simp, fun a ha b hb => ?_⟩
        simp only [List.map_cons, List.map_nil, List.mem_singleton] at hb
        rintro rfl
        exact fresh (hb ▸ ha)
      · rcases List.mem_append.1 hq with hq | hq
        · exact grown q hq
        · rw [List.mem_singleton] at hq
          subst hq
          refine ⟨P, [], rfl, fun q' hq' e => ?_⟩
          rw [← e] at held pa
          rw [stays q' hq' held] at pa; cases pa
      · intro m hm ha k hk ne
        rw [frame.partners] at hk
        by_cases e : m = p.2
        · subst e
          rw [others k ne]
          by_contra hc
          rw [Bool.not_eq_false] at hc
          rw [partnerAsserted_iff.2 ⟨k, hk, hc⟩] at pa; cases pa
        · have hm : m ∈ R.map (·.2) := by
            rw [List.map_append, List.mem_append] at hm
            exact hm.resolve_right fun h => e (by simpa using h)
          rw [others m e] at ha
          by_cases ek : k = p.2
          · rw [ek] at hk
            rw [partnerAsserted_iff.2 ⟨m, partners_symm hk, ha⟩] at pa; cases pa
          · rw [others k ek]; exact free m hm ha k hk ne

theorem reevaluateAll_append (P Q : List (Line × Line)) (s : State) :
    reevaluateAll (P ++ Q) s = reevaluateAll Q (reevaluateAll P s) := List.foldl_append

/-- A line that no re-evaluation names is as before. -/
theorem reevaluateAll_other {P : List (Line × Line)} (h : ∀ p ∈ P, p.2 ≠ m) :
    asserted (reevaluateAll P s) m = asserted s m := by
  refine asserted_of_driver ((reevaluateAll_reports P s).1.frame.record m) ?_
  induction P generalizing s with
  | nil => rfl
  | cons p P ih =>
    refine (ih (s := reevaluateMirror p.2 s) fun q hq => h q (List.mem_cons_of_mem _ hq)).trans ?_
    rcases reevaluateMirror_cases p.2 s with ⟨e, -⟩ | ⟨-, -, dr, -⟩
    · rw [e]
    · rw [dr, if_neg (h p List.mem_cons_self).symm]

/-- A re-evaluated mirror that is still held was blocked by a line that was asserted when it was judged: before
all re-evaluations, or by one before it. -/
theorem reevaluateAll_blocked {before after : List (Line × Line)} {p : Line × Line}
    (held : isHeld (reevaluateAll (before ++ p :: after) s) p.2) :
    ∃ k ∈ partners (reevaluateAll (before ++ p :: after) s) p.2,
      asserted (reevaluateAll (before ++ p :: after) s) k = true ∧
        (asserted s k = false → ∃ q ∈ before, q.2 = k) := by
  have frame := (reevaluateAll_reports (before ++ p :: after) s).1.frame
  have early := (reevaluateAll_reports before s).1.frame
  rw [reevaluateAll_append] at *
  change isHeld (reevaluateAll after (reevaluateMirror p.2 (reevaluateAll before s))) p.2 at held
  change ∃ k ∈ partners (reevaluateAll after (reevaluateMirror p.2 (reevaluateAll before s))) p.2,
    asserted (reevaluateAll after (reevaluateMirror p.2 (reevaluateAll before s))) k = true ∧ _
  have later := (reevaluateAll_reports after (reevaluateMirror p.2 (reevaluateAll before s))).1
  have now : isHeld (reevaluateMirror p.2 (reevaluateAll before s)) p.2 := by
    rcases later.driver p.2 with e | ⟨h, -⟩
    · rw [isHeld, ← e]; exact held
    · exact h
  obtain ⟨k, hk, ha⟩ := partnerAsserted_iff.1 (reevaluateMirror_held _ _ now)
  refine ⟨k, later.frame.partners p.2 ▸ hk, later.asserted ha, fun rests => ?_⟩
  have same : reevaluateMirror p.2 (reevaluateAll before s) = reevaluateAll before s := by
    rcases reevaluateMirror_cases p.2 (reevaluateAll before s) with ⟨e, -⟩ | ⟨-, -, dr, -⟩
    · exact e
    · rw [isHeld, dr, if_pos rfl] at now; cases now
  rw [same] at ha
  by_contra no
  rw [reevaluateAll_other fun q hq e => no ⟨q, hq, e⟩, rests] at ha
  cases ha

/-- The reports of some deassertions as one list of re-evaluations. -/
def reportList (was : Line → Bool) (s : State) : List (Line × Line) :=
  lines.flatMap fun l =>
    if was l && !asserted s l then
      (lines.filter fun m => decide (m ∈ partners s l)).map fun m => (l, m)
    else []

theorem reportDeassertion_eq (l : Line) (s : State) : reportDeassertion l s =
    reevaluateAll ((lines.filter fun m => decide (m ∈ partners s l)).map fun m => (l, m)) s := by
  unfold reportDeassertion reevaluateAll
  rw [List.foldl_map, List.foldl_filter]
  simp

theorem reportDeassertions_eq (was : Line → Bool) (s : State) :
    reportDeassertions was s = reevaluateAll (reportList was s) s := by
  have go : ∀ (L : List Line) (t : State), (∀ l, partners t l = partners s l) →
      L.foldl (fun t l => if was l && !asserted s l then reportDeassertion l t else t) t =
        reevaluateAll (L.flatMap fun l => if was l && !asserted s l then
          (lines.filter fun m => decide (m ∈ partners s l)).map fun m => (l, m) else []) t := by
    intro L
    induction L with
    | nil => exact fun _ _ => rfl
    | cons l L ih =>
      intro t ht
      rw [List.foldl_cons, ih _ fun k => ?_]
      · unfold reevaluateAll
        rw [List.flatMap_cons, List.foldl_append]
        congr 1
        split
        · rw [reportDeassertion_eq, ht]; rfl
        · rfl
      · split
        · rw [(reportDeassertion_frame _ _).partners, ht]
        · exact ht k
  exact go lines s fun _ => rfl

/-- Reports in ascending line number, and in each the mirrors in ascending line number. -/
def ReportsAscend (P : List (Line × Line)) : Prop :=
  P.Pairwise fun p q => p.1 < q.1 ∨ (p.1 = q.1 ∧ p.2 < q.2)

theorem lines_ascend : lines.Pairwise (· < ·) := by decide

theorem reportList_ascends (was : Line → Bool) (s : State) : ReportsAscend (reportList was s) := by
  unfold ReportsAscend reportList
  rw [List.pairwise_flatMap]
  have mem : ∀ {l p}, p ∈ (if (was l && !asserted s l) = true then
      (lines.filter fun m => decide (m ∈ partners s l)).map fun m => (l, m) else []) → p.1 = l := by
    intro l p hp
    split at hp
    · obtain ⟨m, _, rfl⟩ := List.mem_map.1 hp; rfl
    · cases hp
  refine ⟨fun l _ => ?_, lines_ascend.imp fun {a b} h p hp q hq => ?_⟩
  · split
    · rw [List.pairwise_map]
      exact (lines_ascend.filter _).imp fun h => .inr ⟨rfl, h⟩
    · exact List.Pairwise.nil
  · rw [mem hp, mem hq]; exact .inl h

theorem mem_reportList {was : Line → Bool} {p : Line × Line} : p ∈ reportList was s ↔
    was p.1 = true ∧ asserted s p.1 = false ∧ p.2 ∈ partners s p.1 := by
  unfold reportList
  simp only [List.mem_flatMap, mem_lines, true_and]
  constructor
  · rintro ⟨l, h⟩
    split at h
    · next c =>
      obtain ⟨m, hm, rfl⟩ := List.mem_map.1 h
      simpa [and_assoc] using And.intro c (List.mem_filter.1 hm).2
    · cases h
  · rintro ⟨h1, h2, h3⟩
    refine ⟨p.1, ?_⟩
    rw [if_pos (by simp [h1, h2])]
    exact List.mem_map.2 ⟨p.2, List.mem_filter.2 ⟨mem_lines _, by simpa using h3⟩, rfl⟩

/-- What resumptions send, which lines resume, against what, in which order, and which are left held. -/
structure Resumed (named : Group → Bool) (was : Line → Bool) (s t : State)
    (es : Client → List Event) : Prop where
  events : Resumptions named s t es
  free : Unopposed named s t
  order : InReportOrder was t es
  blocked : Reevaluated was (RestsOutside named s) t

theorem Resumed.resumes {named : Group → Bool} {es : Client → List Event}
    (r : Resumed named (asserted s) s t es) : Resumes named s t es :=
  ⟨r.events, r.free, r.order, r.blocked⟩

theorem reportOf_eq {was : Line → Bool} {l : Line} (h : reportOf was t m = l.val)
    (reported : ∃ k, was k = true ∧ asserted t k = false ∧ k ∈ partners t m) :
    was l = true ∧ asserted t l = false ∧ l ∈ partners t m := by
  obtain ⟨k, h1, h2, h3⟩ := reported
  unfold reportOf at h
  cases hf : lines.find? fun l => was l && !asserted t l && decide (l ∈ partners t m) with
  | none => have := List.find?_eq_none.1 hf k (mem_lines k); simp [h1, h2, h3] at this
  | some a =>
    rw [hf] at h
    obtain rfl : a = l := Fin.ext h
    simpa [and_assoc] using List.find?_some hf

/-- The report of a line is the lowest of its partners that have deasserted. -/
theorem reportOf_le {was : Line → Bool} {k : Line} (h1 : was k = true) (h2 : asserted t k = false)
    (h3 : k ∈ partners t m) : reportOf was t m ≤ k.val := by
  unfold reportOf
  cases hf : lines.find? fun l => was l && !asserted t l && decide (l ∈ partners t m) with
  | none => exact Nat.zero_le _
  | some a =>
    dsimp only
    obtain ⟨-, as, bs, e, no⟩ := List.find?_eq_some_iff_append.1 hf
    have sorted := lines_ascend
    rw [e, List.pairwise_append, List.pairwise_cons] at sorted
    have hk : k ∈ as ++ a :: bs := e ▸ mem_lines k
    rcases List.mem_append.1 hk with h | h
    · have := no k h; simp [h1, h2, h3] at this
    · rcases List.mem_cons.1 h with rfl | h
      · exact le_refl _
      · exact le_of_lt (sorted.2.1.1 k h)

/-- The reports re-evaluate every partner of a line that has deasserted, each against the state the ones before
it have left (R14, R96), where no line that the transaction deasserts asserts again. -/
theorem reportDeassertions_blocked (was : Line → Bool) (s : State)
    (gone : ∀ l, was l = true → asserted s l = false → asserted (reportDeassertions was s) l = false) :
    Reevaluated was (fun k => asserted s k = false) (reportDeassertions was s) := by
  intro l m hm hwas dead held
  have rep := (reportDeassertions_reports was s).1
  have dies : ∀ k, asserted (reportDeassertions was s) k = false → asserted s k = false := fun k h => by
    by_contra hc
    rw [rep.asserted (by simpa using hc)] at h; cases h
  rw [reportDeassertions_eq] at *
  obtain ⟨r, hr⟩ : ∃ r : Line, reportOf was (reevaluateAll (reportList was s) s) m = r.val :=
    ⟨⟨_, lt_of_le_of_lt (reportOf_le hwas dead hm) l.isLt⟩, rfl⟩
  obtain ⟨r1, r2, r3⟩ := reportOf_eq hr ⟨l, hwas, dead, hm⟩
  have mem : (r, m) ∈ reportList was s := mem_reportList.2
    ⟨r1, dies r r2, partners_symm (rep.frame.partners m ▸ r3)⟩
  have ascend := reportList_ascends was s
  obtain ⟨before, after, split⟩ := List.append_of_mem mem
  unfold ReportsAscend at ascend
  have inList : ∀ q ∈ before, q ∈ reportList was s := fun q hq => by rw [split]; simp [hq]
  rw [split] at ascend
  have sorted : ∀ q ∈ before, q.1 < r ∨ (q.1 = r ∧ q.2 < m) := fun q hq =>
    (List.pairwise_append.1 ascend).2.2 q hq (r, m) List.mem_cons_self
  obtain ⟨k, hk, ha, hb⟩ := reevaluateAll_blocked (s := s) (before := before) (after := after)
    (p := (r, m)) (by rw [← split]; exact held)
  rw [← split] at hk ha
  refine ⟨k, hk, ha, fun rests => ?_⟩
  obtain ⟨q, hq, rfl⟩ := hb rests
  obtain ⟨q1, q2, q3⟩ := mem_reportList.1 (inList q hq)
  have le := reportOf_le (t := reevaluateAll (reportList was s) s) q1 (gone _ q1 q2)
    (rep.frame.partners q.2 ▸ partners_symm q3)
  unfold JudgedBefore
  rw [hr]
  rcases sorted q hq with h | ⟨h, lt⟩
  · exact .inl (lt_of_le_of_lt le h)
  · rw [h] at le
    exact (lt_or_eq_of_le le).imp id fun e => ⟨e, lt⟩

/-- Fewer lines may have resumed. -/
theorem Reevaluated.mono {was : Line → Bool} {resumed fewer : Line → Prop} (r : Reevaluated was resumed t)
    (le : ∀ k, asserted t k = true → fewer k → resumed k) : Reevaluated was fewer t := by
  intro l m hm hwas dead held
  obtain ⟨k, hk, ha, hb⟩ := r l m hm hwas dead held
  exact ⟨k, hk, ha, fun h => hb (le k ha h)⟩

/-- Everything some re-evaluations do, whose reports stand at the places that `reportOf` says. -/
theorem reevaluateAll_resumed {was : Line → Bool} {P : List (Line × Line)} (ascend : ReportsAscend P)
    (place : ∀ p ∈ P, (∀ q ∈ P, q.2 = p.2 → ¬ q.1 < p.1) →
      isHeld s p.2 → ((reevaluateAll P s).driver p.2).mirror = some ⟨.following, true⟩ →
      reportOf was (reevaluateAll P s) p.2 = p.1.val)
    (blocked : Reevaluated was (fun k => asserted s k = false) (reevaluateAll P s)) :
    ∃ es, Sends s (reevaluateAll P s) es ∧ Resumed (fun _ => false) was s (reevaluateAll P s) es := by
  obtain ⟨R, sub, sends, mem, nodup, first, free⟩ := reevaluateAll_trace P s
  have frame := (reevaluateAll_reports P s).1.frame
  generalize reevaluateAll P s = t at *
  have lowest : ∀ p ∈ R, reportOf was t p.2 = p.1.val := by
    intro p hp
    obtain ⟨held, follow⟩ := (mem p.2).1 (List.mem_map.2 ⟨p, hp, rfl⟩)
    refine place p (sub.subset hp) (fun q hq e lt => ?_) held follow
    obtain ⟨before, after, eP, no⟩ := first p hp
    unfold ReportsAscend at ascend
    rw [eP] at hq ascend
    rcases List.mem_append.1 hq with hq | hq
    · exact no q hq e
    · rcases List.mem_cons.1 hq with rfl | hq
      · exact lt_irrefl _ lt
      · rcases (List.pairwise_cons.1 (List.pairwise_append.1 ascend).2.1).1 q hq with h | ⟨_, h⟩
        · exact lt_asymm h lt
        · rw [e] at h; exact lt_irrefl _ h
  refine ⟨_, sends, fun y => ⟨?_, fun e => ?_⟩, fun m src sense _ held follow fn => ?_, fun y => ?_,
    blocked.mono fun _ _ h => h.2⟩
  · refine List.Nodup.map_on ?_ (List.Nodup.of_map (fun p => p.2) ?_ |>.filter _)
    · intro p hp q hq h
      have hp := List.mem_of_mem_filter hp
      have hq := List.mem_of_mem_filter hq
      exact List.inj_on_of_nodup_map nodup hp hq (by injection h)
    · exact nodup
  · simp only [List.mem_map, List.mem_filter, beq_iff_eq]
    constructor
    · rintro ⟨p, ⟨hp, hy⟩, rfl⟩
      obtain ⟨held, follow⟩ := (mem p.2).1 (List.mem_map.2 ⟨p, hp, rfl⟩)
      exact ⟨p.2, rfl, trivial, hy, held, follow⟩
    · rintro ⟨m, rfl, -, hy, held, follow⟩
      obtain ⟨p, hp, rfl⟩ := List.mem_map.1 ((mem m).2 ⟨held, follow⟩)
      exact ⟨p, ⟨hp, hy⟩, rfl⟩
  · refine free m ((mem m).2 ⟨held, follow⟩) ?_
    unfold asserted
    rw [fn, follow]; rfl
  · rw [List.pairwise_map]
    refine ((ascend.sublist sub).filter _).imp_of_mem ?_
    rintro p q hp hq h m k em ek
    injection em with em; injection ek with ek
    subst em ek
    unfold JudgedBefore
    rw [lowest p (List.mem_of_mem_filter hp), lowest q (List.mem_of_mem_filter hq)]
    exact h.imp id fun ⟨e, h⟩ => ⟨by rw [e], h⟩

/-- Everything the reports of a transaction do, where no line that it deasserts asserts again. -/
theorem reportDeassertions_resumed (was : Line → Bool) (s : State)
    (gone : ∀ l, was l = true → asserted s l = false → asserted (reportDeassertions was s) l = false) :
    ∃ es, Sends s (reportDeassertions was s) es ∧
      Resumed (fun _ => false) was s (reportDeassertions was s) es := by
  have rep := (reportDeassertions_reports was s).1
  have blocked := reportDeassertions_blocked was s gone
  rw [reportDeassertions_eq] at *
  refine reevaluateAll_resumed (reportList_ascends was s) (fun p hp lowest _ _ => ?_) blocked
  obtain ⟨h1, h2, h3⟩ := mem_reportList.1 hp
  generalize reevaluateAll (reportList was s) s = t at *
  have here : (was p.1 && !asserted t p.1 && decide (p.1 ∈ partners t p.2)) = true := by
    rw [rep.frame.partners]
    simp [h1, gone _ h1 h2, partners_symm h3]
  unfold reportOf
  cases hf : lines.find? fun l => was l && !asserted t l && decide (l ∈ partners t p.2) with
  | none => have := List.find?_eq_none.1 hf p.1 (mem_lines _); rw [here] at this; exact absurd rfl this
  | some l =>
    dsimp only
    obtain ⟨hl, as, bs, e, no⟩ := List.find?_eq_some_iff_append.1 hf
    simp only [Bool.and_eq_true, Bool.not_eq_true', decide_eq_true_eq] at hl
    obtain ⟨⟨l1, l2⟩, l3⟩ := hl
    have dead : asserted s l = false := by
      by_contra hc
      rw [rep.asserted (by simpa using hc)] at l2; cases l2
    rw [rep.frame.partners] at l3
    have notLower := lowest (l, p.2) (mem_reportList.2 ⟨l1, dead, partners_symm l3⟩) rfl
    have sorted := lines_ascend
    rw [e, List.pairwise_append, List.pairwise_cons] at sorted
    have hp1 : p.1 ∈ as ++ l :: bs := e ▸ mem_lines p.1
    rcases List.mem_append.1 hp1 with h | h
    · have := no p.1 h; rw [here] at this; cases this
    · rcases List.mem_cons.1 h with h | h
      · rw [h]
      · exact absurd (sorted.2.1.1 p.1 h) notLower

theorem reportOf_none {was : Line → Bool} (m : Line)
    (no : ∀ l, was l = true → asserted t l = true) : reportOf was t m = 0 := by
  unfold reportOf
  rw [List.find?_eq_none.2]
  intro l _
  cases h : was l with
  | false => simp
  | true => simp [no l h]

/-- The re-evaluation of a removed pair's lines (R101, R102). -/
theorem reevaluatePair_resumed (p : Pair) (h : p.lower < p.higher) (s : State) :
    ∃ es, Sends s (reevaluatePair p s) es ∧
      Resumed (fun _ => false) (asserted s) s (reevaluatePair p s) es := by
  have rep := (reevaluateAll_reports [(0, p.lower), (0, p.higher)] s).1
  refine reevaluateAll_resumed (P := [(0, p.lower), (0, p.higher)]) ?_ (fun q hq _ _ _ => ?_)
    fun l _ _ hl dead => by rw [rep.asserted hl] at dead; cases dead
  · unfold ReportsAscend
    simp [h]
  · rw [reportOf_none _ fun l hl => rep.asserted hl]
    simp only [List.mem_cons, List.not_mem_nil, or_false] at hq
    rcases hq with rfl | rfl <;> rfl

/-- Resumptions seen from an earlier state that differs in the named groups alone. -/
theorem Resumptions.base {named : Group → Bool} {es : Client → List Event}
    (r : Resumptions named u t es)
    (hm : ∀ l, named (groupOf l) = false → (u.driver l).mirror = (s.driver l).mirror)
    (hh : ∀ k, named k = false → u.holder k = s.holder k) : Resumptions named s t es := by
  intro y
  refine ⟨(r y).1, fun e => ((r y).2 e).trans ?_⟩
  constructor
  · rintro ⟨l, rfl, hn, ho, held, follow⟩
    exact ⟨l, rfl, hn, hh _ hn ▸ ho, hm l hn ▸ held, follow⟩
  · rintro ⟨l, rfl, hn, ho, held, follow⟩
    exact ⟨l, rfl, hn, (hh _ hn).symm ▸ ho, (hm l hn).symm ▸ held, follow⟩

theorem Resumed.base {named : Group → Bool} {was : Line → Bool} {es : Client → List Event}
    (r : Resumed named was u t es)
    (hm : ∀ l, named (groupOf l) = false → (u.driver l).mirror = (s.driver l).mirror)
    (ha : ∀ l, named (groupOf l) = false → asserted u l = asserted s l)
    (hh : ∀ k, named k = false → u.holder k = s.holder k) : Resumed named was s t es :=
  ⟨r.events.base hm hh, fun m src sense hn held => r.free m src sense hn (hm m hn ▸ held), r.order,
    r.blocked.mono fun k _ h => ⟨h.1, (ha k h.1).trans h.2⟩⟩

theorem reportOf_frame {was : Line → Bool} {ps : List Part} (f : SameExcept ps t u)
    (ha : Part.active ∉ ps := by decide) (hd : Part.drivers ∉ ps := by decide)
    (hp : Part.pairs ∉ ps := by decide) : reportOf was u = reportOf was t := by
  funext m; unfold reportOf
  simp only [f.partners _ hp, f.asserted _ ha hd]

theorem InReportOrder.frame {was : Line → Bool} {ps : List Part} {es : Client → List Event}
    (r : InReportOrder was t es) (f : SameExcept ps t u) (ha : Part.active ∉ ps := by decide)
    (hd : Part.drivers ∉ ps := by decide) (hp : Part.pairs ∉ ps := by decide) :
    InReportOrder was u es := by
  unfold InReportOrder JudgedBefore
  rw [reportOf_frame f ha hd hp]; exact r

theorem Reevaluated.frame {was : Line → Bool} {resumed : Line → Prop} {ps : List Part}
    (r : Reevaluated was resumed t) (f : SameExcept ps t u) (ha : Part.active ∉ ps := by decide)
    (hd : Part.drivers ∉ ps := by decide) (hp : Part.pairs ∉ ps := by decide) :
    Reevaluated was resumed u := by
  intro l m
  unfold JudgedBefore
  simp only [reportOf_frame f ha hd hp, f.partners _ hp, f.asserted _ ha hd, f.driver _ hd]
  exact r l m

/-- What follows resumptions without touching a line keeps them. -/
theorem Resumed.frame {named : Group → Bool} {was : Line → Bool} {ps : List Part}
    {es : Client → List Event} (r : Resumed named was s t es) (f : SameExcept ps t u)
    (ha : Part.active ∉ ps := by decide) (hd : Part.drivers ∉ ps := by decide)
    (hp : Part.pairs ∉ ps := by decide) : Resumed named was s u es := by
  refine ⟨fun y => ⟨(r.events y).1, fun e => ((r.events y).2 e).trans ?_⟩,
    fun m src sense hn held follow fn k hk ne => ?_, r.order.frame f ha hd hp,
    r.blocked.frame f ha hd hp⟩
  · simp only [f.driver _ hd]
  · rw [f.driver _ hd] at follow
    rw [f.record _ ha] at fn
    rw [f.partners _ hp] at hk
    rw [f.asserted _ ha hd]
    exact r.free m src sense hn held follow fn k hk ne

/-! ### The safe update (R89, R91) -/

/-- Nothing is reported where no line that has deasserted has a partner. -/
theorem reportDeassertions_idle {was : Line → Bool}
    (idle : ∀ l, was l = true → asserted s l = false → partners s l = []) :
    reportDeassertions was s = s := by
  unfold reportDeassertions
  generalize lines = L
  induction L with
  | nil => rfl
  | cons l L ih =>
    rw [List.foldl_cons]
    split
    · next h =>
      simp only [Bool.and_eq_true, Bool.not_eq_true'] at h
      rw [reportDeassertion_eq, idle l h.1 h.2]
      simpa [reevaluateAll] using ih
    · exact ih

/-- An asserted line of a safe configuration that is in place has no partner (R21, R91). -/
theorem partners_of_safe (pairs : PairLaw s) (safe : SafeConfigLaw s) (active : SafeActiveLaw s)
    (h : atSafe s (groupOf l) = true) (on : asserted s l = true) : partners s l = [] := by
  have stored := active l h
  have isSafe := safe (groupOf l) (positionOf l)
  have asserts : safeAsserts s l = true := by
    unfold asserted at on
    unfold safeAsserts
    rw [← stored] at isSafe ⊢
    unfold Record.isSafe at isSafe
    split at isSafe
    · next e => rw [e] at on; cases on
    · next e => rw [e] at on; subst on; simp [e]
    · exact isSafe.elim
  rw [List.eq_nil_iff_forall_not_mem]
  intro m hm
  obtain ⟨i, p, hp, hm⟩ := mem_partners.1 hm
  obtain ⟨lower, higher⟩ := (pairs i p hp).2.2.1
  unfold Pair.partner at hm
  split at hm
  · next e => rw [e, asserts] at lower; cases lower
  · split at hm
    · next e => rw [e, asserts] at higher; cases higher
    · cases hm

/-- All a safe update does, where the line has no partner if it is asserted: the line takes the record (R89). -/
theorem safeUpdate_eq (l : Line) (r : Record) (free : asserted s l = true → partners s l = []) :
    safeUpdate l r s =
      { s with active := s.active.put l r, drivers := s.drivers.put l (r.startDriver false) } := by
  unfold safeUpdate
  refine reportDeassertions_idle fun m on off => ?_
  by_cases e : m = l
  · subst e; exact free on
  · rw [asserted_of_driver (s := s) (by simp [State.record, e]) (by simp [State.driver, e]), on] at off
    cases off

end Sys2Proof.Machine
end

