-- ==== Sys2Proof/Laws/Replacements.lean ====
section
/-! SUPPORT. Replacements: what a new mirror and a whole replacement can do. -/

namespace Sys2Proof.Machine

set_option Elab.async false

variable {s t u : State} {l m : Line}

/-! ### New mirrors (R94) -/

/-- A line whose driver state is fresh from its record, before its mirror is judged. -/
def Fresh (s : State) (starts : Bool) (l : Line) : Prop := s.driver l = (s.record l).startDriver starts

/-- All that starting some new mirrors can do. -/
structure Started (s t : State) : Prop where
  frame : SameExcept [.drivers, .queues] s t
  /-- No line is deasserted. -/
  keeps : ∀ l, asserted s l = true → asserted t l = true
  /-- A line asserts only where no partner was asserted. -/
  free : ∀ l, asserted t l = true → asserted s l = true ∨ partnerAsserted s l = false

theorem Started.refl (s : State) : Started s s := ⟨.refl _ s, fun _ h => h, fun _ h => .inl h⟩

theorem Started.partnerAsserted (h : Started s t) (ha : Machine.partnerAsserted s l = true) :
    Machine.partnerAsserted t l = true := by
  rw [partnerAsserted_iff] at *
  obtain ⟨m, hm, ha⟩ := ha
  exact ⟨m, h.frame.partners l ▸ hm, h.keeps m ha⟩

theorem Started.trans (h1 : Started s t) (h2 : Started t u) : Started s u := by
  refine ⟨h1.frame.trans h2.frame, fun l h => h2.keeps l (h1.keeps l h), fun l h => ?_⟩
  rcases h2.free l h with h | h
  · exact h1.free l h
  · refine .inr ?_
    by_contra hc
    rw [Bool.not_eq_false] at hc
    rw [h1.partnerAsserted hc] at h
    cases h

/-- The whole effect of starting one line. -/
theorem startMirror_started {starts : Bool} (hf : Fresh s starts l) :
    Started s (startMirror l s) ∧
    (∀ m, m ≠ l → (startMirror l s).driver m = s.driver m) ∧
    (∀ src sense, (s.record l).function = .mirror src sense →
      ((startMirror l s).driver l).pulse = none ∧
      ((startMirror l s).driver l).mirror =
        some ⟨if demandOf s src sense && partnerAsserted s l then .held else .following,
          demandOf s src sense⟩) ∧
    ((∀ src sense, (s.record l).function ≠ .mirror src sense) → startMirror l s = s) ∧
    (isHeld (startMirror l s) l →
      Sends s (startMirror l s) (toHolder (s.holder (groupOf l)) [.mirrorHeld l])) ∧
    (¬ isHeld (startMirror l s) l → Sends s (startMirror l s) fun _ => []) := by
  unfold startMirror Fresh at *
  split
  · next src sense hfn =>
    have hd : s.driver l = { pulse := none, mirror := some ⟨.following, false⟩ } := by
      rw [hf]; unfold Record.startDriver; rw [hfn]
    have notAsserted : asserted s l = false := by
      unfold asserted; rw [hfn, hd]; rfl
    have heldNot : ¬ isHeld s l := by rw [isHeld, hd]; simp
    by_cases dem : demandOf s src sense
    · rw [if_pos dem]
      by_cases pa : partnerAsserted s l
      · rw [if_pos pa]
        have f1 := withDriver_frame l (fun d => { d with mirror := some ⟨.held, true⟩ }) s
        have f2 := appendHolder_frame (groupOf l) (.mirrorHeld l)
          (s.withDriver l fun d => { d with mirror := some ⟨.held, true⟩ })
        have f : SameExcept [.drivers, .queues] s _ := f1.mono.trans f2.mono
        have hl : (appendHolder (groupOf l) (.mirrorHeld l)
            (s.withDriver l fun d => { d with mirror := some ⟨.held, true⟩ })).driver l =
            { s.driver l with mirror := some ⟨.held, true⟩ } := by
          rw [f2.driver]; simp
        have hm : ∀ m, m ≠ l → (appendHolder (groupOf l) (.mirrorHeld l)
            (s.withDriver l fun d => { d with mirror := some ⟨.held, true⟩ })).driver m = s.driver m := by
          intro m hne; rw [f2.driver]; simp [hne]
        have same : ∀ m, asserted (appendHolder (groupOf l) (.mirrorHeld l)
            (s.withDriver l fun d => { d with mirror := some ⟨.held, true⟩ })) m = asserted s m := by
          intro m
          by_cases e : m = l
          · subst e
            rw [notAsserted]
            unfold asserted
            rw [f.record, hfn, hl]
            rfl
          · exact asserted_of_driver (f.record m) (hm m e)
        refine ⟨⟨f, fun m h => (same m).trans h, fun m h => .inl ((same m).symm.trans h)⟩, hm, ?_, ?_, ?_⟩
        · intro src' sense' h
          rw [hfn] at h
          cases h
          rw [hl, hd, dem, pa]
          exact ⟨rfl, rfl⟩
        · intro h; exact absurd hfn (h src sense)
        · have := (appendHolder_sends (groupOf l) (.mirrorHeld l)
            (s.withDriver l fun d => { d with mirror := some ⟨.held, true⟩ })).start f1
          rw [f1.holder] at this
          exact ⟨fun _ => this, fun h => absurd (by rw [isHeld, hl]; rfl) h⟩
      · rw [if_neg pa]
        have f1 := withDriver_frame l (fun d => { d with mirror := some ⟨.following, true⟩ }) s
        have hm : ∀ m, m ≠ l → (s.withDriver l fun d =>
            { d with mirror := some ⟨.following, true⟩ }).driver m = s.driver m := by
          intro m hne; simp [hne]
        refine ⟨⟨f1.mono, ?_, ?_⟩, hm, ?_, ?_, ?_⟩
        · intro m h
          by_cases e : m = l
          · subst e; rw [notAsserted] at h; cases h
          · exact (asserted_of_driver (f1.record m) (hm m e)).trans h
        · intro m h
          by_cases e : m = l
          · subst e; exact .inr (by simpa using pa)
          · exact .inl ((asserted_of_driver (f1.record m) (hm m e)).symm.trans h)
        · intro src' sense' h
          rw [hfn] at h
          cases h
          simp [hd, dem, pa]
        · intro h; exact absurd hfn (h src sense)
        · exact ⟨fun h => absurd h (by rw [isHeld]; simp), fun _ => f1.sends⟩
    · rw [if_neg dem]
      refine ⟨.refl s, fun _ _ => rfl, ?_, fun _ => rfl, ?_⟩
      · intro src' sense' h
        rw [hfn] at h
        cases h
        simp [hd, dem]
      · exact ⟨fun h => absurd h heldNot, fun _ => .nil rfl⟩
  · next hfn =>
    refine ⟨.refl s, fun _ _ => rfl, fun src sense h => absurd h (hfn src sense), fun _ => rfl, ?_⟩
    refine ⟨fun h => absurd h ?_, fun _ => .nil rfl⟩
    · rw [isHeld, hf]
      unfold Record.startDriver
      split
      · simp
      · next h => exact absurd h (hfn _ _)
      · simp

/-- The lines whose mirrors start held among those of a list. -/
def heldIn (named : Group → Bool) (L : List Line) (t : State) (y : Client) : List Event :=
  (L.filter fun l => named (groupOf l) && (t.driver l).mirror.map (·.phase) == some .held &&
    t.holder (groupOf l) == some y).map .mirrorHeld

/-- A line whose mirror has not been judged is not asserted. -/
theorem Fresh.rests {starts : Bool} {src : Line} {sense : Sense} (h : Fresh s starts l)
    (hfn : (s.record l).function = .mirror src sense) : asserted s l = false := by
  unfold asserted
  rw [hfn, h]
  unfold Record.startDriver
  rw [hfn]
  rfl

/-- Starting states seen from a state in which the lines outside are asserted as here. -/
theorem Starts.base {named : Group → Bool} {r : Record} {starts : Bool}
    (same : ∀ k, named (groupOf k) = false → asserted u k = asserted s k)
    (h : Starts named u t l r starts) : Starts named s t l r starts := by
  unfold Starts at *
  split at h
  · exact h
  · exact h
  · exact h
  · obtain ⟨hp, m, hm, hd, hiff, hb⟩ := h
    refine ⟨hp, m, hm, hd, hiff, fun held => ?_⟩
    obtain ⟨k, hk, ha, hn, ho⟩ := hb held
    exact ⟨k, hk, ha, hn, fun h => same k h ▸ ho h⟩

/-- What starting the mirrors of some lines, in ascending line number, does to each of them, where the named
mirrors below them have been started. -/
theorem startMirrors_started {starts : Bool} (distinct : PairsDistinct s) (named : Group → Bool)
    (L : List Line) (sorted : L.Pairwise (· < ·))
    (fresh : ∀ l ∈ L, named (groupOf l) = true → Fresh s starts l)
    (below : ∀ k, named (groupOf k) = true → k ∉ L → ∀ l ∈ L, k < l) :
    Started s (L.foldl (fun t l => if named (groupOf l) then startMirror l t else t) s) ∧
    (∀ l, l ∉ L ∨ named (groupOf l) = false →
      (L.foldl (fun t l => if named (groupOf l) then startMirror l t else t) s).driver l = s.driver l) ∧
    (∀ l ∈ L, named (groupOf l) = true →
      Starts named s (L.foldl (fun t l => if named (groupOf l) then startMirror l t else t) s) l
        (s.record l) starts) ∧
    Sends s (L.foldl (fun t l => if named (groupOf l) then startMirror l t else t) s)
      (heldIn named L (L.foldl (fun t l => if named (groupOf l) then startMirror l t else t) s)) := by
  induction L generalizing s with
  | nil =>
    refine ⟨.refl s, fun _ _ => rfl, fun _ h => absurd h List.not_mem_nil, ?_⟩
    exact .nil rfl
  | cons a L ih =>
    rw [List.foldl_cons]
    obtain ⟨least, sorted⟩ := List.pairwise_cons.1 sorted
    have anot : a ∉ L := fun h => lt_irrefl a (least a h)
    have below' : ∀ k, named (groupOf k) = true → k ∉ L → ∀ l ∈ L, k < l := fun k hk hkL l hl => by
      by_cases e : k = a
      · rw [e]; exact least l hl
      · exact below k hk (fun h => (List.mem_cons.1 h).elim e hkL) l (List.mem_cons_of_mem _ hl)
    by_cases hn : named (groupOf a) = true
    · rw [if_pos hn]
      have hfa := fresh a (List.mem_cons_self) hn
      obtain ⟨st, other, mir, non, sends⟩ := startMirror_started hfa
      have distinct' : PairsDistinct (startMirror a s) := by
        unfold PairsDistinct; rw [st.frame.pairs]; exact distinct
      obtain ⟨st', other', starts', sends'⟩ := ih distinct' sorted
        (fun l hl hnl => by
          have : l ≠ a := fun e => anot (e ▸ hl)
          have h := fresh l (List.mem_cons_of_mem _ hl) hnl
          unfold Fresh at *
          rw [other l this, h, st.frame.record]) below'
      generalize ht : L.foldl (fun t l => if named (groupOf l) then startMirror l t else t)
        (startMirror a s) = t at *
      have da : t.driver a = (startMirror a s).driver a := other' a (.inl anot)
      refine ⟨st.trans st', ?_, ?_, ?_⟩
      · intro l hl
        have hne : l ≠ a := by
          rintro rfl
          rcases hl with hl | hl
          · exact hl List.mem_cons_self
          · rw [hn] at hl; cases hl
        rw [other' l (hl.imp (fun h hl' => h (List.mem_cons_of_mem _ hl')) id), other l hne]
      · intro l hl hnl
        rcases List.mem_cons.1 hl with rfl | hl
        · unfold Starts
          split
          · next hfn =>
            have same : startMirror l s = s := non (by intro _ _ h; rw [hfn] at h; cases h)
            rw [da, same, hfa]; unfold Record.startDriver; rw [hfn]
          · next hfn =>
            have same : startMirror l s = s := non (by intro _ _ h; rw [hfn] at h; cases h)
            rw [da, same, hfa]; unfold Record.startDriver; rw [hfn]
          · next hfn =>
            have same : startMirror l s = s := non (by intro _ _ h; rw [hfn] at h; cases h)
            rw [da, same, hfa]; unfold Record.startDriver; rw [hfn]
          · next src sense hfn =>
            obtain ⟨hp, hm⟩ := mir src sense hfn
            have dem : demandOf t src sense = demandOf s src sense := by
              unfold demandOf
              cases sense <;> simp [(st.trans st').frame.level]
            refine ⟨by rw [da, hp], _, by rw [da, hm], dem.symm, ?_, fun held => ?_⟩
            rotate_left
            · -- the partner that its judgement found
              have pa : partnerAsserted s l = true := by
                revert held; cases partnerAsserted s l <;> simp
              obtain ⟨k, hk, ha⟩ := partnerAsserted_iff.1 pa
              refine ⟨k, (st.trans st').frame.partners l ▸ hk, (st.trans st').keeps k ha,
                fun hnk src' sense' hmk => ?_, fun _ => ha⟩
              rw [(st.trans st').frame.record] at hmk
              refine below k hnk (fun hkL => ?_) l List.mem_cons_self
              rw [(fresh k hkL hnk).rests hmk] at ha
              cases ha
            dsimp only
            by_cases hd : demandOf s src sense = true
            · by_cases pa : partnerAsserted s l = true
              · rw [hd, pa]
                simpa using (st.trans st').partnerAsserted pa
              · rw [hd]
                rw [Bool.not_eq_true] at pa
                rw [pa]
                simp only [Bool.and_false, Bool.false_eq_true, if_false, reduceCtorEq, true_and,
                  false_iff]
                intro hc
                rw [partnerAsserted_iff] at hc
                obtain ⟨p, hp', ha⟩ := hc
                have hp : p ∈ partners s l := (st.trans st').frame.partners l ▸ hp'
                have hpne : p ≠ l := distinct.ne hp
                have la : asserted (startMirror l s) l = true := by
                  unfold asserted
                  rw [st.frame.record, hfn, hm, hd, pa]
                  rfl
                rcases st'.free p ha with h | h
                · rw [asserted_of_driver (st.frame.record p) (other p hpne)] at h
                  have : partnerAsserted s l = true := partnerAsserted_iff.2 ⟨p, hp, h⟩
                  rw [this] at pa; cases pa
                · have : partnerAsserted (startMirror l s) p = true :=
                    partnerAsserted_iff.2 ⟨l, st.frame.partners p ▸ partners_symm hp, la⟩
                  rw [this] at h; cases h
            · rw [Bool.not_eq_true] at hd
              rw [hd]
              simp
        · have := starts' l hl hnl
          rw [st.frame.record] at this
          refine Starts.base (fun k hk => ?_) this
          have ne : k ≠ a := by rintro rfl; rw [hn] at hk; cases hk
          exact asserted_of_driver (st.frame.record k) (other k ne)
      · have heldEq : isHeld (startMirror a s) a ↔ isHeld t a := by rw [isHeld, isHeld, da]
        have hold : t.holder (groupOf a) = s.holder (groupOf a) := (st.trans st').frame.holder _
        by_cases held : isHeld (startMirror a s) a
        · refine ((sends.1 held).trans sends' st.frame).of_eq fun y => ?_
          have h : (t.driver a).mirror.map (·.phase) = some .held := heldEq.1 held
          unfold heldIn
          by_cases hy : s.holder (groupOf a) = some y
          · rw [List.filter_cons_of_pos (by simp [hn, h, hold, hy])]
            simp [toHolder, hy]
          · rw [List.filter_cons_of_neg (by simp [hold, hy])]
            simp [toHolder, hy]
        · refine ((sends.2 held).trans sends' st.frame).of_eq fun y => ?_
          have h : ¬ (t.driver a).mirror.map (·.phase) = some .held := fun c => held (heldEq.2 c)
          unfold heldIn
          rw [List.filter_cons_of_neg (by simp [h])]
          rfl
    · rw [if_neg hn]
      obtain ⟨st', other', starts', sends'⟩ := ih distinct sorted
        (fun l hl hnl => fresh l (List.mem_cons_of_mem _ hl) hnl) below'
      refine ⟨st', ?_, ?_, ?_⟩
      · intro l hl
        exact other' l (hl.imp (fun h hl' => h (List.mem_cons_of_mem _ hl')) id)
      · intro l hl hnl
        rcases List.mem_cons.1 hl with rfl | hl
        · exact absurd hnl hn
        · exact starts' l hl hnl
      · refine sends'.of_eq fun y => ?_
        unfold heldIn
        rw [List.filter_cons_of_neg (by simp [hn])]

/-! ### Whole replacements (R98) -/

theorem flatMap_filter_map {α : Type} (L : List α) (c : α → Bool) (f : α → Event) :
    (L.flatMap fun a => if c a then [f a] else []) = (L.filter c).map f := by
  induction L with
  | nil => rfl
  | cons a L ih =>
    rw [List.flatMap_cons, ih]
    by_cases h : c a
    · rw [if_pos h, List.filter_cons_of_pos h]; rfl
    · rw [if_neg h, List.filter_cons_of_neg h]; rfl

theorem reportCuts_sends (p : Proposal) (s : State) :
    Sends s (p.reportCuts s) (overtakenEvents p.named p.result s) := by
  unfold Proposal.reportCuts
  refine (Sends.foldl (ps := [.queues]) _
    (fun l y => if (p.named (groupOf l) && (s.driver l).pulse.isSome &&
      (match (p.result l).function with
        | .pulse _ => false
        | _ => true) && s.holder (groupOf l) == some y) = true then [.pulseCut l .overtaken] else [])
    (fun t l => ?_) (by decide) (by decide)
    (fun t => SameExcept [.queues] s t) (fun t l h => h.trans ?_) ?_ _ s (.refl _ s)).of_eq ?_
  · refine .ite ?_ (.refl _ t)
    split
    · exact .refl _ t
    · exact appendHolder_frame _ _ t
  · refine .ite ?_ (.refl _ t)
    split
    · exact .refl _ t
    · exact appendHolder_frame _ _ t
  · intro t l h
    split
    · next hc =>
      split
      · next hp => exact (Sends.nil rfl).of_eq fun y => by simp [hp]
      · next hp =>
        refine (appendHolder_sends _ _ t).of_eq fun y => ?_
        rw [h.holder]
        unfold toHolder
        rw [hc]
        split
        · next he => simp [he]
        · next he => simp [he]
    · next hc =>
      exact (Sends.nil rfl).of_eq fun y => by simp [hc]
  · intro y
    exact flatMap_filter_map _ _ _

@[simp] theorem place_record (p : Proposal) (s : State) (l : Line) :
    (p.place s).record l = if p.named (groupOf l) then p.result l else s.record l := by
  simp [Proposal.place, State.record]

@[simp] theorem place_driver (p : Proposal) (s : State) (l : Line) :
    (p.place s).driver l =
      if p.named (groupOf l) then (p.result l).startDriver p.starts else s.driver l := by
  simp [Proposal.place, State.driver]

theorem lines_nodup : lines.Nodup := by decide

/-- The filtered levels decide demand. -/
theorem SameExcept.demandOf {ps : List Part} (h : SameExcept ps s t) (src : Line) (sense : Sense)
    (hp : Part.sampler ∉ ps := by decide) : demandOf t src sense = demandOf s src sense := by
  unfold Machine.demandOf
  cases sense <;> simp [h.level src hp]

theorem Replaced.base {named : Group → Bool} {r : Line → Record} {starts : Bool}
    (h : Replaced named r starts u t)
    (same : ∀ k, named (groupOf k) = false → asserted u k = asserted s k) :
    Replaced named r starts s t := fun l hl => ⟨(h l hl).1, (h l hl).2.base same⟩

/-- What follows a replacement without touching a line keeps it. -/
theorem Replaced.frame {named : Group → Bool} {r : Line → Record} {starts : Bool} {ps : List Part}
    (h : Replaced named r starts s t) (f : SameExcept ps t u) (ha : Part.active ∉ ps := by decide)
    (hd : Part.drivers ∉ ps := by decide) (hp : Part.pairs ∉ ps := by decide)
    (hs : Part.sampler ∉ ps := by decide) : Replaced named r starts s u := by
  intro l hl
  obtain ⟨h1, h2⟩ := h l hl
  refine ⟨by rw [f.record l ha]; exact h1, ?_⟩
  unfold Starts BlockedBy partnerAsserted at *
  simp only [f.driver _ hd, f.record _ ha, f.partners _ hp, f.demandOf _ _ hs,
    show asserted u = asserted t from funext fun m => f.asserted m ha hd]
  exact h2

/-- Everything a replacement does, where `was` is the assertion of the lines outside as they stand. -/
theorem apply_spec (p : Proposal) (was : Line → Bool) (s : State) (distinct : PairsDistinct s)
    (hwas : ∀ l, p.named (groupOf l) = false → was l = asserted s l) :
    Replaced p.named p.result p.starts s (p.apply was s) ∧ LinesOutside p.named s (p.apply was s) ∧
    ∃ rs, Resumed p.named was s (p.apply was s) rs ∧
      Sends s (p.apply was s) fun y =>
        overtakenEvents p.named p.result s y ++ heldEvents p.named (p.apply was s) y ++ rs y := by
  have cutsF := reportCuts_frame p s
  have cutsS := reportCuts_sends p s
  have placeF := place_frame p (p.reportCuts s)
  have distinct1 : PairsDistinct (p.place (p.reportCuts s)) := by
    unfold PairsDistinct; rw [placeF.pairs, cutsF.pairs]; exact distinct
  obtain ⟨st, other, starts, sends⟩ := startMirrors_started (starts := p.starts) distinct1 p.named lines
    lines_ascend (fun l _ hn => by unfold Fresh; simp [hn]) fun k _ h => absurd (mem_lines k) h
  have eq : p.startMirrors (p.place (p.reportCuts s)) =
    lines.foldl (fun t l => if p.named (groupOf l) then startMirror l t else t)
      (p.place (p.reportCuts s)) := rfl
  unfold Proposal.apply
  rw [← eq] at st other starts sends
  generalize hs1 : p.startMirrors (p.place (p.reportCuts s)) = s1 at *
  have rep := (reportDeassertions_reports was s1).1
  have resumed := reportDeassertions_resumed was s1
  generalize ht : reportDeassertions was s1 = t at *
  have namedStay : ∀ l, p.named (groupOf l) = true → t.driver l = s1.driver l := by
    intro l hn
    have h := starts l (mem_lines l) hn
    by_cases held : isHeld s1 l
    · apply rep.stays
      unfold Starts at h
      rw [isHeld] at held
      split at h
      · rw [h] at held; cases held
      · rw [h] at held; cases held
      · rw [h] at held; cases held
      · obtain ⟨_, m, hm, _, hiff⟩ := h
        rw [hm] at held
        exact (hiff.1.1 (by simpa using held)).2
    · rcases rep.driver l with e | ⟨held', _, _⟩
      · exact e
      · exact absurd held' held
  have recNamed : ∀ l, p.named (groupOf l) = true → t.record l = p.result l := by
    intro l hn
    rw [rep.frame.record, st.frame.record, place_record, if_pos hn]
  have outDriver : ∀ l, p.named (groupOf l) = false → s1.driver l = s.driver l := by
    intro l hn
    rw [other l (.inr hn), place_driver, hn]
    simp [cutsF.driver]
  have outRecord : ∀ l, p.named (groupOf l) = false → s1.record l = s.record l := by
    intro l hn
    rw [st.frame.record, place_record, hn]
    simp [cutsF.record]
  have holder1 : ∀ g, s1.holder g = s.holder g := by
    intro g; rw [st.frame.holder, placeF.holder, cutsF.holder]
  obtain ⟨es, repS, res⟩ := resumed fun l hl dead => by
    by_cases hn : p.named (groupOf l) = true
    · rw [asserted_of_driver (rep.frame.record l) (namedStay l hn)]; exact dead
    · rw [Bool.not_eq_true] at hn
      rw [asserted_of_driver (outRecord l hn) (outDriver l hn), ← hwas l hn, hl] at dead
      cases dead
  have freed : ∀ l, isHeld s1 l → (t.driver l).mirror = some ⟨.following, true⟩ →
      p.named (groupOf l) = false := by
    intro l held follow
    by_contra hc
    rw [Bool.not_eq_false] at hc
    rw [namedStay l hc] at follow
    rw [isHeld, follow] at held
    cases held
  have outside : ∀ l, p.named (groupOf l) = false → asserted s1 l = asserted s l := fun l hn =>
    asserted_of_driver (outRecord l hn) (outDriver l hn)
  refine ⟨fun l hn => ⟨recNamed l hn, ?_⟩, fun l hn => ⟨?_, ?_⟩, es,
    ⟨fun y => ⟨(res.events y).1, fun e => ?_⟩, fun m src sense hn held follow fn => ?_, res.order,
      res.blocked.mono fun k _ h => ⟨rfl, (outside k h.1).trans h.2⟩⟩, ?_⟩
  · have h := starts l (mem_lines l) hn
    rw [place_record, if_pos hn] at h
    unfold Starts at h ⊢
    rw [namedStay l hn]
    split at h
    · exact h
    · exact h
    · exact h
    · obtain ⟨hp, m, hm, hd, hiff⟩ := h
      obtain ⟨hiff, hblock⟩ := hiff
      refine ⟨hp, m, hm, by rw [hd, rep.frame.demandOf], hiff.trans ?_, fun held => ?_⟩
      rotate_left
      · obtain ⟨k, hk, ha, hk1, hk2⟩ := hblock held
        refine ⟨k, rep.frame.partners l ▸ hk, rep.asserted ha, fun hnk src' sense' hmk => ?_, fun hnk => ?_⟩
        · exact hk1 hnk src' sense' (by rw [← rep.frame.record]; exact hmk)
        · rw [← hk2 hnk]
          exact asserted_of_driver (by simp [hnk, cutsF.record]) (by simp [hnk, cutsF.driver]) |>.symm
      constructor
      · rintro ⟨h1, h2⟩; exact ⟨h1, rep.partnerAsserted h2⟩
      · rintro ⟨h1, h2⟩
        refine ⟨h1, ?_⟩
        -- a line that resumed has no asserted partner, but the mirror would be one
        by_contra hc
        have la : asserted s1 l = true := by
          have follow : m.phase = .following := by
            rcases hph : m.phase with _ | _
            · rfl
            · exact absurd (hiff.1 hph).2 hc
          unfold asserted
          rw [st.frame.record, place_record, if_pos hn]
          have hm' : (s1.driver l).mirror = some ⟨.following, true⟩ := by
            rw [hm]; cases m; simp_all
          split
          · simp_all
          · simp_all
          · simp_all
          · rw [hm']; rfl
        rw [partnerAsserted_iff] at h2
        obtain ⟨q, hq, ha⟩ := h2
        have hq1 : q ∈ partners s1 l := rep.frame.partners l ▸ hq
        have qa : asserted s1 q = false := by
          by_contra hqa
          rw [Bool.not_eq_false] at hqa
          exact hc (partnerAsserted_iff.2 ⟨q, hq1, hqa⟩)
        rcases rep.driver q with e | ⟨_, pa, _⟩
        · rw [asserted_of_driver (rep.frame.record q) e, qa] at ha; cases ha
        · rw [partnerAsserted_iff.2 ⟨l, partners_symm hq1, la⟩] at pa; cases pa
  · rw [rep.frame.record, outRecord l hn]
  · rcases rep.driver l with e | ⟨held, _, e⟩
    · left; rw [e, outDriver l hn]
    · right
      rw [isHeld, outDriver l hn] at held
      exact ⟨held, by rw [e, outDriver l hn]⟩
  · rw [(res.events y).2]
    constructor
    · rintro ⟨l, rfl, _, holder, held, follow⟩
      have hn := freed l held follow
      exact ⟨l, rfl, hn, by rw [← holder1]; exact holder, by rw [← outDriver l hn]; exact held, follow⟩
    · rintro ⟨l, rfl, hn, holder, held, follow⟩
      exact ⟨l, rfl, rfl, by rw [holder1]; exact holder, by rw [outDriver l hn]; exact held, follow⟩
  · exact res.free m src sense rfl (by rw [outDriver m hn]; exact held) follow fn
  · have toPlace : SameExcept [.active, .drivers, .queues] s (p.place (p.reportCuts s)) :=
      cutsF.mono.trans placeF.mono
    refine (((cutsS.ending placeF).trans sends toPlace).trans repS
      (toPlace.trans st.frame.mono)).of_eq fun y => ?_
    congr 2
    unfold heldIn heldEvents
    congr 1
    apply List.filter_congr
    intro l _
    by_cases hn : p.named (groupOf l) = true
    · rw [namedStay l hn, rep.frame.holder]
    · rw [Bool.not_eq_true] at hn
      simp [hn]

end Sys2Proof.Machine
end

