-- ==== Sys2Proof/Laws/Beyond.lean ====
section
/-! SUPPORT. What a replacement and the end of a holding leave of the groups they do not name, whatever the
records that are placed. -/

namespace Sys2Proof.Machine

set_option Elab.async false

variable {s u t : State} {g : Group}

/-- Outside the named groups the lines keep their records, and their driver states but for held mirrors that
resume; the park records of these groups stay. -/
structure Beyond (named : Group → Bool) (s t : State) : Prop where
  lines : LinesOutside named s t
  park : ∀ y k, named k = false → (t.park.get y).get k = (s.park.get y).get k

theorem LinesOutside.trans {named : Group → Bool} (h1 : LinesOutside named s t)
    (h2 : LinesOutside named t u) : LinesOutside named s u := by
  intro l hl
  obtain ⟨r1, d1⟩ := h1 l hl
  obtain ⟨r2, d2⟩ := h2 l hl
  refine ⟨r2.trans r1, ?_⟩
  rcases d1 with e1 | ⟨held, e1⟩
  · rwa [e1] at d2
  · rcases d2 with e2 | ⟨held', _⟩
    · exact .inr ⟨held, e2.trans e1⟩
    · rw [e1] at held'; cases held'

theorem Beyond.trans {named : Group → Bool} (h1 : Beyond named s t) (h2 : Beyond named t u) :
    Beyond named s u :=
  ⟨h1.lines.trans h2.lines, fun y k hk => (h2.park y k hk).trans (h1.park y k hk)⟩

theorem Beyond.mono {named wider : Group → Bool} (h : Beyond named s t)
    (le : ∀ k, wider k = false → named k = false) : Beyond wider s t :=
  ⟨fun l hl => h.lines l (le _ hl), fun y k hk => h.park y k (le k hk)⟩

/-- What touches no record, driver state or park record leaves every group. -/
theorem Beyond.of_frame {named : Group → Bool} {ps : List Part} (f : SameExcept ps s t)
    (ha : Part.active ∉ ps := by decide) (hd : Part.drivers ∉ ps := by decide)
    (hp : Part.park ∉ ps := by decide) : Beyond named s t :=
  ⟨fun l _ => ⟨f.record l ha, .inl (f.driver l hd)⟩, fun y k _ => by rw [f.park hp]⟩

theorem startMirror_other (l m : Line) (s : State) (h : m ≠ l) :
    (startMirror l s).driver m = s.driver m := by
  unfold startMirror
  split
  · split
    · split
      · rw [(appendHolder_frame _ _ _).driver]; simp [h]
      · simp [h]
    · rfl
  · rfl

/-- A replacement leaves the groups it does not name. -/
theorem apply_beyond (p : Proposal) (was : Line → Bool) (s : State) :
    Beyond p.named s (p.apply was s) := by
  have cuts := reportCuts_frame p s
  have mirrors := startMirrors_frame p (p.place (p.reportCuts s))
  have outside : ∀ l, p.named (groupOf l) = false →
      (p.startMirrors (p.place (p.reportCuts s))).driver l = (p.place (p.reportCuts s)).driver l := by
    intro l hl
    have go : ∀ (L : List Line) (t : State), (L.foldl (fun t m =>
        if p.named (groupOf m) then startMirror m t else t) t).driver l = t.driver l := by
      intro L
      induction L with
      | nil => exact fun _ => rfl
      | cons m L ih =>
        intro t
        rw [List.foldl_cons, ih]
        split
        · next h => exact startMirror_other m l t fun e => by rw [e, h] at hl; cases hl
        · rfl
    exact go _ _
  have rep := (reportDeassertions_reports was (p.startMirrors (p.place (p.reportCuts s)))).1
  refine ⟨fun l hl => ⟨?_, ?_⟩, fun y k _ => by rw [(apply_frame p was s).park]⟩
  · show (reportDeassertions was _).record l = _
    rw [rep.frame.record, mirrors.record, place_record, hl]
    simp [cuts.record]
  · have same : (p.startMirrors (p.place (p.reportCuts s))).driver l = s.driver l := by
      rw [outside l hl, place_driver, hl]
      simp [cuts.driver]
    rcases rep.driver l with e | ⟨held, _, e⟩
    · exact .inl (e.trans same)
    · rw [isHeld, same] at held
      exact .inr ⟨held, by rw [← same]; exact e⟩

theorem replaceGroup_beyond (g : Group) (cfg : GroupConfig) (was : Line → Bool) (s : State) :
    Beyond (only g) s (replaceGroup g cfg was s) :=
  (apply_beyond _ was s).mono fun k hk => by
    unfold only at hk
    simpa [Proposal.of, BEq.comm] using hk

/-- A used park record leaves the other groups. -/
theorem usedPark_beyond (g : Group) (n : Client) (s : State) :
    Beyond (only g) s { s with park := s.park.modify n fun t => t.put g none } := by
  refine ⟨fun l _ => ⟨rfl, .inl rfl⟩, fun y k hk => ?_⟩
  have ne : k ≠ g := by rintro rfl; simp [only] at hk
  by_cases hy : y = n
  · subst hy; simp [ne]
  · simp [hy]

theorem grant_beyond (g : Group) (n : Client) (restore : Bool) (was : Line → Bool) (s : State) :
    Beyond (only g) s (grant g n restore was s) := by
  have refused : ∀ r, Beyond (only g) s
      (replaceGroup g (s.policy.get g).safe was (append n (.restoreRefused g r) s)) := fun r =>
    (Beyond.of_frame (append_frame _ _ _)).trans (replaceGroup_beyond _ _ _ _)
  unfold grant
  dsimp only
  split
  · next parked _ =>
    generalize judge (Proposal.of s [(g, parked)] false) s = verdict
    cases verdict with
    | accepted => exact (usedPark_beyond g n s).trans (replaceGroup_beyond g parked was _)
    | loop => exact refused _
    | interlock _ => exact refused _
  · exact replaceGroup_beyond _ _ _ _

theorem passOn_beyond (g : Group) (was : Line → Bool) (s : State) :
    Beyond (only g) s (passOn g was s) := by
  unfold passOn
  split
  · unfold fallToSafe
    dsimp only
    exact ((Beyond.of_frame (withEntry_frame g _ s)).trans (replaceGroup_beyond _ _ _ _)).trans
      (.of_frame (notifyWatchers_frame _ _))
  · unfold handover
    dsimp only
    exact (((Beyond.of_frame (withEntry_frame g _ s)).trans (.of_frame (append_frame _ _ _))).trans
      (grant_beyond _ _ _ _ _)).trans (.of_frame (notifyWatchers_frame _ _))

theorem cutPulses_beyond (g : Group) (h : Client) (reason : Option CutReason) (s : State) :
    Beyond (only g) s (cutPulses g h reason s) := by
  have frame := cutPulses_frame g h reason s
  refine ⟨fun l hl => ⟨frame.record l, .inl ?_⟩, fun y k _ => by rw [frame.park]⟩
  have go : ∀ (L : List Line) (t : State), (∀ m ∈ L, groupOf m = g) →
      (L.foldl (fun t l => cutPulse h reason l t) t).driver l = t.driver l := by
    intro L
    induction L with
    | nil => exact fun _ _ => rfl
    | cons m L ih =>
      intro t hL
      rw [List.foldl_cons, ih _ fun k hk => hL k (List.mem_cons_of_mem _ hk)]
      have ne : l ≠ m := fun e => by
        rw [only, e, hL m List.mem_cons_self, beq_self_eq_true] at hl; cases hl
      unfold cutPulse
      split
      · dsimp only
        split
        · rw [(append_frame _ _ _).driver]; simp [ne]
        · simp [ne]
      · rfl
  exact go _ _ fun m hm => mem_linesOf.1 hm

theorem releaseGroup_beyond (g : Group) (h : Client) (silent : Bool) (s : State) :
    Beyond (only g) s (releaseGroup g h silent s) :=
  ((cutPulses_beyond g h _ s).trans (.of_frame (dropDeferred_frame g h _))).trans
    (passOn_beyond g _ _)

end Sys2Proof.Machine
end

