-- ==== Sys2Proof/Laws/Checks.lean ====
section
/-! SUPPORT. Decidable forms of the laws, to show that a written-out state meets them. -/

namespace Sys2Proof.Machine

set_option Elab.async false

variable {s : State}

/-- The pairs that stand in a table, one check for each. -/
def pairCheck (s : State) : Bool :=
  groups.all fun i => match s.pairs.get i with
    | none => true
    | some p =>
      decide (p.lower < p.higher) && (groups.all fun j => s.pairs.get j != some p || j == i) &&
        !safeAsserts s p.lower && !safeAsserts s p.higher && !(asserted s p.lower && asserted s p.higher)

/-- A lease entry. -/
def entryCheck (e : LeaseEntry) : Bool :=
  (e.holder.isSome == (e.state == .held || e.state == .revoking)) &&
  (e.priority.isSome == e.holder.isSome && e.priority != some 0) &&
  (!(e.state == .safe || e.state == .withheld) || e.waiting == []) &&
  (e.state != .revoking || e.waiting != []) &&
  ((e.timer == .stopped) == (e.state != .held)) &&
  (e.grace.isSome == (e.state == .revoking)) &&
  decide (e.waiting.map (·.client)).Nodup &&
  (e.waiting.all fun c => e.holder != some c.client && c.priority != 0 && decide (c.arrival < e.arrivals)) &&
  decide (e.waiting.Pairwise fun c d =>
    d.priority < c.priority ∨ (d.priority = c.priority ∧ c.arrival < d.arrival))

/-- A record of a line. -/
def recordCheck (r : Record) (l : Line) : Bool :=
  match r.function with
  | .pulse w => w != 0
  | .mirror src _ => src != l
  | _ => true

/-- A configuration of a group. -/
def configCheck (g : Group) (cfg : GroupConfig) : Bool :=
  ([0, 1, 2, 3] : List (Fin 4)).all fun p => recordCheck (cfg.get p) (lineOf g p)

/-- The records, R3. -/
def recordsCheck (s : State) : Bool :=
  (lines.all fun l => recordCheck (s.record l) l) &&
  (clients.all fun x => lines.all fun l => recordCheck ((s.staged.get x).get l) l) &&
  (clients.all fun x => groups.all fun g => match (s.park.get x).get g with
    | none => true
    | some cfg => configCheck g cfg) &&
  (clients.all fun x => match s.deferred.get x with
    | none => true
    | some d => d.parts.all fun part => configCheck part.1 part.2)

/-- Safe configurations, R16. -/
def safeCheck (s : State) : Bool :=
  groups.all fun g => ([0, 1, 2, 3] : List (Fin 4)).all fun p =>
    match ((s.policy.get g).safe.get p).function with
    | .input | .static _ => true
    | _ => false

/-- Mirrors of mirrors, R118. -/
def loopCheck (s : State) : Bool :=
  lines.all fun l => match (s.record l).function with
    | .mirror src _ => !(s.record src).isMirror
    | _ => true

/-- Candidates, R122. -/
def samplerCheck (s : State) : Bool :=
  lines.all fun l => match (s.sampler.get l).candidate with
    | none => true
    | some c => c.level != (s.sampler.get l).level && decide (1 ≤ c.count) && decide (c.count ≤ 15)

/-- Queues, R149, R160. -/
def queueCheck (s : State) : Bool :=
  clients.all fun x => decide ((s.queues.get x).length ≤ 32) &&
    ((s.queues.get x).length != 32 || (s.queues.get x).getLast?.map (·.event) == some .overflow)

/-- Driver state, R107. -/
def driverCheck (s : State) : Bool :=
  lines.all fun l =>
    ((s.driver l).mirror.isSome == (s.record l).isMirror) &&
    (!(s.driver l).pulse.isSome || (s.record l).isPulse && (s.holder (groupOf l)).isSome) &&
    (!(s.driver l).mirror.isSome || (s.holder (groupOf l)).isSome) &&
    match (s.driver l).mirror with
    | none => true
    | some m => m.phase != .held || m.demand

/-- SAFE and WITHHELD groups, R21. -/
def atSafeCheck (s : State) : Bool :=
  lines.all fun l => !atSafe s (groupOf l) ||
    s.record l == (s.policy.get (groupOf l)).safe.get (positionOf l)

/-- Pending commits, R134. -/
def deferredCheck (s : State) : Bool :=
  clients.all fun x => match s.deferred.get x with
    | none => true
    | some d => d.parts != [] && decide ((d.parts.map (·.1)).Pairwise (· < ·)) &&
        d.parts.all fun part => s.holder part.1 == some x

/-- Every law. -/
def invCheck (s : State) : Bool :=
  queueCheck s && (groups.all fun g => entryCheck (s.entry g)) && samplerCheck s && recordsCheck s &&
    safeCheck s && loopCheck s && pairCheck s && driverCheck s && atSafeCheck s && deferredCheck s

theorem pairLaw_of_check (h : pairCheck s = true) : PairLaw s := by
  intro i p hp
  have hi := List.all_eq_true.mp h i (mem_groups i)
  simp only [hp, Bool.and_eq_true, decide_eq_true_eq, List.all_eq_true, Bool.or_eq_true, bne_iff_ne,
    beq_iff_eq, Bool.not_eq_true'] at hi
  obtain ⟨⟨⟨⟨lt, once⟩, low⟩, high⟩, both⟩ := hi
  refine ⟨lt, fun j hj => (once j (mem_groups j)).resolve_left (fun n => n hj), ⟨low, high⟩, ?_⟩
  rintro ⟨a, b⟩
  simp [a, b] at both

theorem leaseLaw_of_check (h : (groups.all fun g => entryCheck (s.entry g)) = true) : LeaseLaw s := by
  intro g
  have hg := List.all_eq_true.mp h g (mem_groups g)
  simp only [entryCheck, Bool.and_eq_true, decide_eq_true_eq, List.all_eq_true] at hg
  obtain ⟨⟨⟨⟨⟨⟨⟨⟨a, b⟩, c⟩, d⟩, e⟩, f⟩, k⟩, l⟩, m⟩ := hg
  refine ⟨⟨?_, ?_, ?_, ?_, ?_, ?_⟩, k, ?_, m⟩
  · simpa using Bool.eq_iff_iff.mp (beq_iff_eq.mp a)
  · simpa using b
  · intro hs; rcases hs with hs | hs <;> simpa [hs] using c
  · intro hs; simpa [hs] using d
  · simpa using Bool.eq_iff_iff.mp (beq_iff_eq.mp e)
  · simpa using Bool.eq_iff_iff.mp (beq_iff_eq.mp f)
  · intro c hc; simpa [and_assoc] using l c hc

theorem wfFor_of_check {r : Record} {l : Line} (h : recordCheck r l = true) : r.wfFor l := by
  unfold recordCheck at h
  unfold Record.wfFor
  split at h <;> simp_all

theorem configWf_of_check {g : Group} {cfg : GroupConfig} (h : configCheck g cfg = true) :
    ConfigWf g cfg := fun p => wfFor_of_check (List.all_eq_true.mp h p (by revert p; decide))

theorem configLaw_of_check (hr : recordsCheck s = true) (hs : safeCheck s = true)
    (hl : loopCheck s = true) : ConfigLaw s := by
  simp only [recordsCheck, Bool.and_eq_true, List.all_eq_true] at hr
  obtain ⟨⟨⟨a, b⟩, c⟩, d⟩ := hr
  refine ⟨⟨fun l => wfFor_of_check (a l (mem_lines l)),
    fun x l => wfFor_of_check (b x (mem_clients x) l (mem_lines l)), ?_, ?_⟩, ?_, ?_⟩
  · intro x g cfg hc
    have := c x (mem_clients x) g (mem_groups g)
    rw [hc] at this
    exact configWf_of_check this
  · intro x q hq part hp
    have := d x (mem_clients x)
    rw [hq] at this
    exact configWf_of_check (List.all_eq_true.mp this part hp)
  · intro g p
    have := List.all_eq_true.mp (List.all_eq_true.mp hs g (mem_groups g)) p (by revert p; decide)
    unfold Record.isSafe
    split at this <;> simp_all
  · intro l src sense hf
    have := List.all_eq_true.mp hl l (mem_lines l)
    rw [hf] at this
    simpa using this

/-- A state that passes the check meets every law. -/
theorem inv_of_check (h : invCheck s = true) : Inv s := by
  simp only [invCheck, Bool.and_eq_true] at h
  obtain ⟨⟨⟨⟨⟨⟨⟨⟨⟨q, e⟩, c⟩, r⟩, sf⟩, lp⟩, p⟩, d⟩, a⟩, df⟩ := h
  refine ⟨?_, leaseLaw_of_check e, ?_, configLaw_of_check r sf lp, pairLaw_of_check p, ?_, ?_, ?_⟩
  · intro x
    have := List.all_eq_true.mp q x (mem_clients x)
    simp only [Bool.and_eq_true, decide_eq_true_eq, Bool.or_eq_true, bne_iff_ne, beq_iff_eq] at this
    exact ⟨this.1, fun full => this.2.resolve_left fun n => n full⟩
  · intro l cand hc
    have := List.all_eq_true.mp c l (mem_lines l)
    rw [hc] at this
    simpa [and_assoc] using this
  · intro l
    have := List.all_eq_true.mp d l (mem_lines l)
    simp only [Bool.and_eq_true, beq_iff_eq] at this
    obtain ⟨⟨⟨x, y⟩, z⟩, w⟩ := this
    refine ⟨x, fun hp => by simpa [hp] using y, fun hm => by simpa [hm] using z, ?_⟩
    intro m hm held
    rw [hm] at w
    simpa [held] using w
  · intro l hl
    have := List.all_eq_true.mp a l (mem_lines l)
    simpa [hl] using this
  · intro x q hq
    have := List.all_eq_true.mp df x (mem_clients x)
    rw [hq] at this
    simp only [Bool.and_eq_true, bne_iff_ne, decide_eq_true_eq, List.all_eq_true, beq_iff_eq] at this
    exact ⟨this.1.1, this.1.2, this.2⟩

/-- Demands, R13. -/
def demandCheck (s : State) : Bool :=
  lines.all fun l => match (s.record l).function, (s.driver l).mirror with
    | .mirror src sense, some m =>
      m.demand == (s.level src == .high && sense == .same || s.level src == .low && sense == .opposite)
    | _, _ => true

/-- Trigger lines, R140. -/
def triggerCheck (s : State) : Bool :=
  clients.all fun x => match s.deferred.get x with
    | some { trigger := .line l target _ _, .. } => s.level l != target
    | _ => true

/-- A state with RESETn high that passes every check meets every law. -/
theorem everyLaw_of_check
    (h : (invCheck s && demandCheck s && triggerCheck s && !s.resetLow) = true) : EveryLaw s := by
  simp only [Bool.and_eq_true] at h
  obtain ⟨⟨⟨i, d⟩, tr⟩, low⟩ := h
  refine ⟨inv_of_check i, ?_, ?_, fun l => by rw [l] at low; cases low⟩
  · intro l src sense m hf hm
    have := List.all_eq_true.mp d l (mem_lines l)
    rw [hf, hm] at this
    rw [beq_iff_eq.mp this]
    simp
  · intro x q l target timeout left hq ht
    have := List.all_eq_true.mp tr x (mem_clients x)
    obtain ⟨parts, trigger⟩ := q
    dsimp only at ht
    subst ht
    rw [hq] at this
    simpa using this

end Sys2Proof.Machine
end

