-- ==== Sys2Proof/Laws/Requests.lean ====
section
/-! SUPPORT. What taking and answering a request does, said once for accepted and once for refused requests. -/

namespace Sys2Proof.Machine

set_option Elab.async false

variable {s t u : State} {x y : Client} {page : Page} {kind : Byte} {params : List Byte}

/-! ### Parameters -/

theorem inRange_some {n : Nat} {b : Byte} {i : Fin n} (h : b.toNat = i.val) : inRange n b = some i := by
  unfold inRange
  rw [dif_pos (by omega)]
  simp [h]

theorem inRange_none {n : Nat} {b : Byte} (h : n ≤ b.toNat) : inRange n b = none := by
  unfold inRange
  rw [dif_neg (by omega)]

theorem group?_some {b : Byte} {g : Group} (h : b.toNat = g.val) : group? b = some g := inRange_some h

theorem group?_none {b : Byte} (h : 8 ≤ b.toNat) : group? b = none := inRange_none h

theorem line?_some {b : Byte} {l : Line} (h : b.toNat = l.val) : line? b = some l := inRange_some h

theorem line?_none {b : Byte} (h : 32 ≤ b.toNat) : line? b = none := inRange_none h

theorem client?_some {b : Byte} {x : Client} (h : b.toNat = clientNumber x) : client? b = some x := by
  unfold client?
  cases x <;> rw [inRange_some (i := ⟨_, by decide⟩) h]

theorem client?_none {b : Byte} (h : 4 ≤ b.toNat) : client? b = none := by
  unfold client?; rw [inRange_none h]

theorem withGroup_some {b : Byte} {g : Group} (h : b.toNat = g.val) (s : State) (body : Group → Taken) :
    withGroup b s body = body g := by
  unfold withGroup; rw [group?_some h]

theorem withGroup_none {b : Byte} (h : 8 ≤ b.toNat) (s : State) (body : Group → Taken) :
    withGroup b s body = refuse .range s := by
  unfold withGroup; rw [group?_none h]

/-! ### The frame is shifted and the registers are stored -/

/-- The state in which the owning block takes a request. -/
def prepared (page : Page) (kind : Byte) (params : List Byte) (s : State) : State :=
  storeRequest page kind params (misoZeros (pagePort page) (params.length + 3) s)

/-- Storing a request changes request registers and the record of MISO, and nothing that decides an append. -/
structure Stored (s t : State) : Prop where
  frame : SameExcept [.ports, .sreq] s t
  crst : ∀ y, (t.port y).crstLow = (s.port y).crstLow
  fault : ∀ y, (t.port y).faultSel = (s.port y).faultSel

theorem requestFrame_takes (takes : portTakes s (pagePort page) = true) (body : State → Taken) :
    requestFrame page kind params body s =
      answer (pagePort page) kind (body (prepared page kind params s)) := by
  have h : (s.port (pagePort page)).frame = none := by
    unfold portTakes at takes
    simp only [Bool.and_eq_true, Option.isNone_iff_eq_none] at takes
    exact takes.2
  unfold requestFrame prepared
  simp only [h, Option.isSome_none, Bool.false_eq_true, if_false]
  rw [if_pos takes]

theorem overwrite_get {n : Nat} {α : Type} (t : Table n α) (xs : List α) (i : Fin n) :
    (t.overwrite xs).get i = xs.getD i.val (t.get i) := by
  simp [Table.overwrite]

theorem prepared_stored (page : Page) (kind : Byte) (params : List Byte) (s : State) :
    Stored s (prepared page kind params s) := by
  have f : SameExcept [.ports, .sreq] s (prepared page kind params s) :=
    (misoZeros_frame _ _ s).mono.trans (storeRequest_frame _ _ _ _)
  refine ⟨f, fun y => ?_, fun y => ?_⟩ <;>
  · unfold prepared storeRequest misoZeros
    cases page with
    | client x =>
      by_cases h : y = x
      · subst h; simp [pagePort]
      · simp [pagePort, h]
    | supervisor =>
      by_cases h : y = .a
      · subst h; simp [pagePort, State.withPort, State.port]
      · simp [pagePort, State.withPort, State.port, h]

/-- The request registers and MISO after the block's part, and everything of the ports before it. -/
theorem prepared_ports (page : Page) (kind : Byte) (params : List Byte) (s : State) :
    HoldsRequest s (prepared page kind params s) page kind params ∧
    ((prepared page kind params s).port (pagePort page)).miso = List.replicate (params.length + 3) 0 ∧
    PortSettings s (prepared page kind params s) (pagePort page) ∧
    OtherPorts (pagePort page) s (prepared page kind params s) := by
  cases page with
  | client x =>
    refine ⟨⟨?_, fun i => ?_, ?_, ?_⟩, ?_, ⟨?_, ?_, ?_, ?_, ?_, ?_⟩, fun y h => ?_⟩ <;>
      (simp [prepared, storeRequest, misoZeros, pagePort, overwrite_get]; try simp_all [pagePort])
  | supervisor =>
    refine ⟨⟨?_, fun i => ?_, ?_, ?_⟩, ?_, ⟨?_, ?_, ?_, ?_, ?_, ?_⟩, fun y h => ?_⟩ <;>
      (simp [prepared, storeRequest, misoZeros, pagePort, overwrite_get, State.withPort, State.port]
       try simp_all [pagePort])

/-- Sending from the state in which a request is taken. -/
theorem Stored.sends {a : Client → List Event} (f : Stored s u) (h : Sends u t a) : Sends s t a := by
  intro y
  rw [h y]
  unfold delivered
  rw [f.crst, f.frame.ms, f.frame.queues]

/-- A request through a client page leaves the supervisor's request registers. -/
theorem prepared_client (x : Client) (kind : Byte) (params : List Byte) (s : State) :
    SameExcept [.ports] s (prepared (.client x) kind params s) :=
  (misoZeros_frame _ _ s).trans (withPort_frame x _ _)

/-! ### The answer -/

/-- An accepted request: the block's part, then the result (R156). -/
theorem request_accepted {ps : List Part} {t0 : State} {r : Reply} {body : State → Taken}
    (takes : portTakes s (pagePort page) = true)
    (hb : body (prepared page kind params s) = (t0, r)) (success : r.code.faultClass = none)
    (f : SameExcept ps (prepared page kind params s) t0) (hp : Part.ports ∉ ps := by decide)
    (hr : Part.sreq ∉ ps := by decide) :
    Served s (requestFrame page kind params body s) page kind params r.code r.info ∧
      SameExcept [.ports] t0 (requestFrame page kind params body s) := by
  rw [requestFrame_takes takes, hb]
  have e : answer (pagePort page) kind (t0, r) = writeResult (pagePort page) kind r t0 := by
    unfold answer reportRefusal; rw [success]
  rw [e]
  obtain ⟨reg, miso, set, others⟩ := prepared_ports page kind params s
  have port : ∀ y, t0.port y = (prepared page kind params s).port y := fun y => f.port y hp
  have sreq := f.sreq hr
  refine ⟨⟨⟨?_, ?_, ?_⟩, ?_, ?_, ?_, ?_⟩, writeResult_frame _ _ _ _⟩
  · simp [writeResult]
  · simp [writeResult]
  · simp [writeResult]
  · revert reg
    unfold HoldsRequest writeResult
    cases page with
    | client x =>
      simp only [pagePort, State.withPort_port_self, State.withPort_fields, port]
      rw [sreq.1, sreq.2]
      exact id
    | supervisor =>
      simp only [pagePort, State.withPort_port_self, State.withPort_fields, port]
      rw [sreq.1, sreq.2]
      exact id
  · simp only [writeResult, State.withPort_port_self, port]; exact miso
  · unfold PortSettings at *
    simp only [writeResult, State.withPort_port_self, port]
    exact set
  · intro y h
    simp only [writeResult]
    rw [State.withPort_port_ne _ _ h, port]
    exact others y h

/-- A class is RECORD exactly where its bit of FAULT_SEL is 1 (R157, R179). -/
theorem records_eq_bit (sel : BitVec 5) (cls : FaultClass) :
    records sel cls = sel.getLsbD (faultBit cls) := by
  cases cls <;> rfl

theorem reportRefusal_sends (x : Client) (kind : Byte) (r : Reply) {cls : FaultClass} (s : State)
    (h : r.code.faultClass = some cls) :
    Sends s (reportRefusal x kind r s) fun y =>
      faultEvents s (reportedTo x kind) cls r.code kind y ++
        if cls = .conflict ∧ s.audit.conflicts = true then
          toClient .a [.audit x .conflict r.group] y
        else [] := by
  unfold reportRefusal
  rw [h]
  dsimp only
  generalize reportedTo x kind = w
  have f : SameExcept [.queues] s
      (if records (s.port w).faultSel cls then append w (.fault cls r.code kind) s else s) :=
    (append_frame _ _ s).ite (.refl _ s)
  have first : Sends s
      (if records (s.port w).faultSel cls then append w (.fault cls r.code kind) s else s)
      (faultEvents s w cls r.code kind) := by
    refine (Sends.ite (c := records (s.port w).faultSel cls = true)
      (fun _ => append_sends w (.fault cls r.code kind) s) fun _ => .nil rfl).of_eq fun y => ?_
    unfold faultEvents; rw [records_eq_bit]
  rw [f.audit]
  refine first.trans (b := fun y => if cls = .conflict ∧ s.audit.conflicts = true then
    toClient .a [.audit x .conflict r.group] y else []) ?_ f
  exact .ite (fun _ => auditCopy_sends _ _ _ _) fun _ => .nil rfl

/-- A refused request: nothing but the port, the FAULT and the audit copy (R156, R157, R163). -/
theorem request_refused {r : Reply} {cls : FaultClass} {body : State → Taken}
    (takes : portTakes s (pagePort page) = true)
    (hb : body (prepared page kind params s) = (prepared page kind params s, r))
    (refusal : r.code.faultClass = some cls) :
    Refused s (requestFrame page kind params body s) page kind params cls r.code r.info r.group := by
  rw [requestFrame_takes takes, hb]
  obtain ⟨reg, miso, set, others⟩ := prepared_ports page kind params s
  have st := prepared_stored page kind params s
  generalize prepared page kind params s = u at *
  have rf := reportRefusal_frame (pagePort page) kind r u
  have port := fun y => rf.port y
  have sreq := rf.sreq
  show Refused s (writeResult (pagePort page) kind r (reportRefusal (pagePort page) kind r u)) _ _ _ _ _ _ _
  refine ⟨⟨⟨?_, ?_, ?_⟩, ?_, ?_, ?_, ?_⟩, ?_, ?_⟩
  · simp [writeResult]
  · simp [writeResult]
  · simp [writeResult]
  · revert reg
    unfold HoldsRequest writeResult
    cases page with
    | client x =>
      simp only [pagePort, State.withPort_port_self, State.withPort_fields]
      simp only [pagePort] at port sreq
      rw [sreq.1, sreq.2, port]
      exact id
    | supervisor =>
      simp only [pagePort, State.withPort_port_self, State.withPort_fields]
      simp only [pagePort] at port sreq
      rw [sreq.1, sreq.2, port]
      exact id
  · simp only [writeResult, State.withPort_port_self, port]; exact miso
  · unfold PortSettings at *
    simp only [writeResult, State.withPort_port_self, port]
    exact set
  · intro y h
    simp only [writeResult]
    rw [State.withPort_port_ne _ _ h, port]
    exact others y h
  · exact (st.frame.mono.trans rf.mono).trans (writeResult_frame _ _ _ _).mono
  · refine (st.sends (reportRefusal_sends (pagePort page) kind r u refusal)).ending
      (writeResult_frame _ _ _ _) |>.of_eq fun y => ?_
    unfold faultEvents
    rw [st.fault, st.frame.audit]
    rfl

end Sys2Proof.Machine
end

