-- ==== Sys2Proof/Laws/Claims.lean ====
section
/-! SUPPORT. The waiting lists: a claim queued, and the re-evaluation of a revocation (R47, R60, R61). -/

namespace Sys2Proof.Machine

set_option Elab.async false

variable {s u t0 t : State} {g : Group}

/-- A claim goes behind those of its priority or above, ahead of those below (R47). -/
theorem insertClaim_inserted (c : Claim) (w : List Claim)
    (h : w.Pairwise fun c d => d.priority ≤ c.priority) : Inserted c w (insertClaim c w) := by
  induction w with
  | nil => exact ⟨[], [], rfl, rfl, by simp, by simp⟩
  | cons d rest ih =>
    rw [List.pairwise_cons] at h
    unfold insertClaim
    by_cases hd : d.priority < c.priority
    · rw [if_pos hd]
      refine ⟨[], d :: rest, rfl, rfl, by simp, ?_⟩
      intro e he
      rcases List.mem_cons.mp he with rfl | he
      · exact hd
      · exact lt_of_le_of_lt (h.1 e he) hd
    · rw [if_neg hd]
      obtain ⟨f, b, e1, e2, e3, e4⟩ := ih h.2
      refine ⟨d :: f, b, by rw [e1]; rfl, by rw [e2]; rfl, ?_, e4⟩
      intro e he
      rcases List.mem_cons.mp he with rfl | he
      · exact not_lt.mp hd
      · exact e3 e he

/-- There is one place for a claim (R47). -/
theorem Inserted.eq_insertClaim {c : Claim} {before after : List Claim} (h : Inserted c before after) :
    after = insertClaim c before := by
  obtain ⟨front, back, rfl, rfl, hf, hb⟩ := h
  induction front with
  | nil =>
    cases back with
    | nil => rfl
    | cons d rest => simp [insertClaim, hb d List.mem_cons_self]
  | cons d front ih =>
    rw [List.cons_append, List.cons_append, insertClaim,
      if_neg (not_lt.mpr (hf d List.mem_cons_self)), ih fun e he => hf e (List.mem_cons_of_mem _ he)]

/-- A waiting list is sorted by captured priority (R47). -/
theorem LeaseLaw.sorted (h : LeaseLaw s) (g : Group) : (s.entry g).waiting.Pairwise fun c d =>
    d.priority ≤ c.priority :=
  (h g).2.2.2.imp fun {c d} h => by rcases h with h | h; exact le_of_lt h; exact le_of_eq h.1

theorem queueClaim_entry (x : Client) (prio : Priority) (p r : Bool) (s : State) :
   (queueClaim g x prio p r s).entry g =
     { s.entry g with
       waiting := insertClaim ⟨x, prio, p, r, (s.entry g).arrivals⟩ (s.entry g).waiting
       arrivals := (s.entry g).arrivals + 1 } := by
  unfold queueClaim; rw [State.withEntry_entry_self]

theorem queueClaim_other (x : Client) (prio : Priority) (p r : Bool) (s : State) :
    OtherEntries g s (queueClaim g x prio p r s) := by
  intro k hk; unfold queueClaim; rw [State.withEntry_entry_ne _ _ hk]

/-- A claim that still justifies a revocation (R60). -/
theorem justified_iff (p : Policy) (e : LeaseEntry) : justified p e = true ↔
   (p.preemptible = true ∧ ∃ c ∈ e.waiting, c.preempt = true ∧ ∃ q, e.priority = some q ∧
     q < c.priority) := by
  unfold justified
  cases h : e.priority <;> simp

/-- All a re-evaluation does: where no claim justifies the revocation, it is cancelled (R60, R61). -/
theorem reevaluate_spec (g : Group) (s : State) :
    (if (s.entry g).state = .revoking ∧
          ¬ ((s.policy.get g).preemptible = true ∧ ∃ c ∈ (s.entry g).waiting, c.preempt = true ∧
            ∃ q, (s.entry g).priority = some q ∧ q < c.priority) then
      (reevaluate g s).entry g = { s.entry g with
            state := .held, timer := startedTimer (s.policy.get g).leasePeriod, grace := none } ∧
          SameExcept [.lease, .queues] s (reevaluate g s) ∧ OtherEntries g s (reevaluate g s) ∧
          Sends s (reevaluate g s) fun y =>
            toHolder (s.holder g) [.revokeCancelled g] y ++ toWatchers s g .held (s.holder g) y
    else reevaluate g s = s) := by
  simp only [← justified_iff, Bool.not_eq_true]
  unfold reevaluate
  split
  · next h =>
    have f1 := withEntry_frame g (fun e : LeaseEntry =>
      { e with state := .held, timer := (s.policy.get g).startLease, grace := none }) s
    have f2 := appendHolder_frame g (.revokeCancelled g)
      (s.withEntry g fun e =>
      { e with state := .held, timer := (s.policy.get g).startLease, grace := none })
    have f3 := notifyWatchers_frame g (appendHolder g (.revokeCancelled g)
      (s.withEntry g fun e =>
      { e with state := .held, timer := (s.policy.get g).startLease, grace := none }))
    have s2 := appendHolder_sends g (.revokeCancelled g)
      (s.withEntry g fun e =>
      { e with state := .held, timer := (s.policy.get g).startLease, grace := none })
    have s3 := notifyWatchers_sends g (appendHolder g (.revokeCancelled g)
      (s.withEntry g fun e =>
      { e with state := .held, timer := (s.policy.get g).startLease, grace := none }))
    unfold cancelRevocation
    dsimp only
    refine ⟨?_, (f1.mono.trans f2.mono).trans f3.mono, ?_, ?_⟩
    · rw [f3.entry, f2.entry, State.withEntry_entry_self]; rfl
    · intro k hk; rw [f3.entry, f2.entry, State.withEntry_entry_ne _ _ hk]
    · refine ((s2.trans s3 f2).start f1).of_eq fun y => ?_
      rw [f2.entry]
      unfold toWatchers State.holder
      simp only [State.withEntry_entry_self]
      rw [f2.watch, f1.watch]
  · rfl

end Sys2Proof.Machine
end

