-- ==== Sys2Proof/Laws/Leases.lean ====
section
/-! SUPPORT. Grants, releases and forced losses: everything each can do. -/

namespace Sys2Proof.Machine

set_option Elab.async false

variable {s t u : State} {g : Group} {h x y : Client}

/-! ### One group replaced -/

theorem named_only (s : State) (g : Group) (cfg : GroupConfig) (starts : Bool) :
    (Proposal.of s [(g, cfg)] starts).named = only g := by
  funext k
  simp [Proposal.of, only, Bool.beq_comm (a := g)]

theorem result_only (s : State) (g : Group) (cfg : GroupConfig) (starts : Bool) {l : Line}
    (hl : only g (groupOf l) = true) :
    (Proposal.of s [(g, cfg)] starts).result l = cfg.get (positionOf l) := by
  have e : groupOf l = g := by simpa [only] using hl
  simp [Proposal.of, e]

theorem overtakenEvents_congr {named : Group → Bool} {r r' : Line → Record}
    (hr : ∀ l, named (groupOf l) = true → r l = r' l) (s : State) (y : Client) :
    overtakenEvents named r s y = overtakenEvents named r' s y := by
  unfold overtakenEvents
  congr 1
  apply List.filter_congr
  intro l _
  by_cases hn : named (groupOf l) = true
  · rw [hr l hn]
  · simp [hn]

/-- A group takes a configuration without a start of pulses (R85, R88). -/
theorem replaceGroup_spec (g : Group) (cfg : GroupConfig) (was : Line → Bool) (s : State)
    (distinct : PairsDistinct s) (hwas : ∀ l, groupOf l ≠ g → was l = asserted s l) :
    GroupTakes g cfg s (replaceGroup g cfg was s) ∧ LinesOutside (only g) s (replaceGroup g cfg was s) ∧
    ∃ rs, Resumed (only g) was s (replaceGroup g cfg was s) rs ∧
      Sends s (replaceGroup g cfg was s) fun y =>
        overtakenEvents (only g) (fun l => cfg.get (positionOf l)) s y ++
          heldEvents (only g) (replaceGroup g cfg was s) y ++ rs y := by
  obtain ⟨rep, out, rs, res, sends⟩ := apply_spec (Proposal.of s [(g, cfg)] false) was s distinct
    fun l hl => hwas l (by rw [named_only] at hl; simpa [only] using hl)
  rw [named_only] at rep out res sends
  unfold replaceGroup
  refine ⟨fun l hl => ?_, out, rs, res, sends.of_eq fun y => ?_⟩
  · have := rep l hl
    rw [result_only s g cfg false hl] at this
    exact this
  · rw [overtakenEvents_congr (fun l hl => result_only s g cfg false hl)]

theorem overtakenEvents_resting {named : Group → Bool} (r : Line → Record) (s : State) (y : Client)
    (rest : ∀ l, named (groupOf l) = true → (s.driver l).pulse = none) :
    overtakenEvents named r s y = [] := by
  unfold overtakenEvents
  rw [List.map_eq_nil_iff, List.filter_eq_nil_iff]
  intro l _
  by_cases hn : named (groupOf l) = true
  · simp [rest l hn]
  · simp [hn]

/-- A line that has taken an INPUT or STATIC record keeps no driver state. -/
theorem Starts.safe {named : Group → Bool} {r : Record} {l : Line} {starts : Bool}
    (h : Starts named s t l r starts) (safe : r.isSafe) :
    t.driver l = ⟨none, none⟩ := by
  unfold Starts at h
  unfold Record.isSafe at safe
  split at h
  · exact h
  · exact h
  · next e => rw [e] at safe; exact safe.elim
  · next e => rw [e] at safe; exact safe.elim

theorem heldEvents_none {named : Group → Bool} (t : State) (y : Client)
    (none : ∀ l, named (groupOf l) = true → ¬ isHeld t l) : heldEvents named t y = [] := by
  unfold heldEvents
  rw [List.map_eq_nil_iff, List.filter_eq_nil_iff]
  intro l _
  by_cases hn : named (groupOf l) = true
  · have := none l hn
    unfold isHeld at this
    simp [this]
  · simp [hn]

theorem LinesOutside.base {named : Group → Bool} (o : LinesOutside named u t)
    (hr : ∀ l, named (groupOf l) = false → u.record l = s.record l)
    (hd : ∀ l, named (groupOf l) = false → u.driver l = s.driver l) : LinesOutside named s t := by
  intro l hn
  obtain ⟨r, d⟩ := o l hn
  rw [hr l hn] at r
  rw [hd l hn] at d
  exact ⟨r, d⟩

/-- A group falls to a configuration of INPUT and STATIC records with no pulse in flight. -/
theorem replaceGroup_safe (g : Group) (cfg : GroupConfig) (was : Line → Bool) (s : State)
    (distinct : PairsDistinct s) (hwas : ∀ l, groupOf l ≠ g → was l = asserted s l)
    (safe : ∀ p, (cfg.get p).isSafe)
    (rest : ∀ l, groupOf l = g → (s.driver l).pulse = none) :
    GroupTakes g cfg s (replaceGroup g cfg was s) ∧ LinesOutside (only g) s (replaceGroup g cfg was s) ∧
    ∃ rs, Resumed (only g) was s (replaceGroup g cfg was s) rs ∧
      Sends s (replaceGroup g cfg was s) rs := by
  obtain ⟨takes, out, rs, res, sends⟩ := replaceGroup_spec g cfg was s distinct hwas
  refine ⟨takes, out, rs, res, sends.of_eq fun y => ?_⟩
  rw [overtakenEvents_resting _ _ _ fun l hl => rest l (by simpa [only] using hl),
    heldEvents_none _ _ fun l hl => ?_]
  · rfl
  · have := (takes l hl).2.safe (safe _)
    rw [isHeld, this]
    simp

/-! ### The steps before a group passes on (R30, R34) -/

theorem cutPulse_driver (h : Client) (reason : Option CutReason) (m : Line) (s : State) (l : Line) :
    (cutPulse h reason m s).driver l =
      if l = m then { s.driver l with pulse := none } else s.driver l := by
  unfold cutPulse
  split
  · have same : ∀ e : Event, (append h e (s.withDriver m fun d => { d with pulse := none })).driver l =
        (s.withDriver m fun d => { d with pulse := none }).driver l :=
      fun e => (append_frame h e _).driver l
    cases reason with
    | none => by_cases e : l = m <;> simp [e]
    | some r =>
      refine (same _).trans ?_
      by_cases e : l = m
      · subst e; simp
      · simp [e]
  · next hp =>
    split
    · next e =>
      subst e
      have : (s.driver l).pulse = none := by simpa using hp
      cases hd : s.driver l
      simp_all
    · rfl

theorem cutPulse_sends (h : Client) (reason : Option CutReason) (m : Line) (s : State) :
    Sends s (cutPulse h reason m s)
      (toClient h (match reason with
        | some r => if (s.driver m).pulse.isSome then [.pulseCut m r] else []
        | none => [])) := by
  unfold cutPulse
  split
  · next hp =>
    cases reason with
    | none => exact (withDriver_frame m _ s).sends.of_eq fun y => by simp [toClient]
    | some r =>
      exact (append_sends h (.pulseCut m r) _).start (withDriver_frame m _ s)
  · next hp =>
    refine (Sends.nil rfl).of_eq fun y => ?_
    cases reason <;> simp [toClient]

theorem cutPulses_driver (g : Group) (h : Client) (reason : Option CutReason) (s : State) (l : Line) :
    (cutPulses g h reason s).driver l =
      if groupOf l = g then { s.driver l with pulse := none } else s.driver l := by
  have fold : ∀ (L : List Line) (s : State),
      (L.foldl (fun t l => cutPulse h reason l t) s).driver l =
        if l ∈ L then { s.driver l with pulse := none } else s.driver l := by
    intro L
    induction L with
    | nil => intro s; simp
    | cons m L ih =>
      intro s
      rw [List.foldl_cons, ih, cutPulse_driver]
      by_cases e : l = m
      · subst e; simp
      · simp [e]
  have := fold (linesOf g) s
  simp only [mem_linesOf] at this
  exact this

theorem linesOf_nodup (g : Group) : (linesOf g).Nodup := by revert g; decide

theorem cutPulses_sends (g : Group) (h : Client) (reason : Option CutReason) (s : State) :
    Sends s (cutPulses g h reason s)
      (toClient h (match reason with
        | some r => cutEvents s g r
        | none => [])) := by
  have fold : ∀ (L : List Line) (s : State), L.Nodup →
      Sends s (L.foldl (fun t l => cutPulse h reason l t) s)
        (toClient h (match reason with
          | some r => (L.filter fun l => (s.driver l).pulse.isSome).map fun l => .pulseCut l r
          | none => [])) := by
    intro L
    induction L with
    | nil => intro s _; refine (Sends.nil rfl).of_eq fun y => ?_; cases reason <;> simp [toClient]
    | cons m L ih =>
      intro s nodup
      obtain ⟨hm, hL⟩ := List.nodup_cons.1 nodup
      rw [List.foldl_cons]
      have other : ∀ l, l ∈ L → (cutPulse h reason m s).driver l = s.driver l := by
        intro l hl
        rw [cutPulse_driver, if_neg fun e : l = m => hm (e ▸ hl)]
      refine ((cutPulse_sends h reason m s).trans (ih _ hL) (cutPulse_frame h reason m s)).of_eq
        fun y => ?_
      cases reason with
      | none => simp [toClient]
      | some r =>
        have same : (L.filter fun l => ((cutPulse h (some r) m s).driver l).pulse.isSome) =
            L.filter fun l => (s.driver l).pulse.isSome :=
          List.filter_congr fun l hl => by rw [other l hl]
        dsimp only
        rw [same]
        rw [List.filter_cons]
        unfold toClient
        by_cases hp : (s.driver m).pulse.isSome <;> by_cases hy : y = h <;> simp [hp, hy]
  exact fold (linesOf g) s (linesOf_nodup g)

theorem dropDeferred_spec (g : Group) (h : Client) (s : State) :
    DropsDeferred s (dropDeferred g h s) g h ∧
      Sends s (dropDeferred g h s) (toClient h (dropEvents s g h)) := by
  have nothing : dropEvents s g h = [] → dropDeferred g h s = s →
      DropsDeferred s (dropDeferred g h s) g h ∧
        Sends s (dropDeferred g h s) (toClient h (dropEvents s g h)) := by
    intro e same
    rw [same, e]
    exact ⟨⟨by rw [e, if_pos rfl], fun _ _ => rfl⟩, (Sends.nil rfl).of_eq fun y => by simp [toClient]⟩
  cases hd : s.deferred.get h with
  | none =>
    exact nothing (by unfold dropEvents; rw [hd]) (by unfold dropDeferred; rw [hd])
  | some d =>
    by_cases hc : (d.parts.any fun p => p.1 == g) = true
    · have e : dropEvents s g h = [.pendingDropped g] := by unfold dropEvents; rw [hd]; simp only [hc, if_true]
      have t : dropDeferred g h s =
          append h (.pendingDropped g) { s with deferred := s.deferred.put h none } := by
        unfold dropDeferred; rw [hd]; simp only [hc, if_true]
      have f := append_frame h (.pendingDropped g) { s with deferred := s.deferred.put h none }
      have drop : SameExcept [.deferred] s { s with deferred := s.deferred.put h none } := by
        intro p hp
        cases p <;> first | rfl | exact ⟨rfl, rfl⟩ | exact absurd (by decide) hp
      rw [t, e]
      refine ⟨⟨?_, fun y hy => ?_⟩, (append_sends h (.pendingDropped g) _).start drop⟩
      · rw [f.deferred, e, if_neg (by simp)]; simp
      · rw [f.deferred]; simp [hy]
    · refine nothing ?_ ?_
      · unfold dropEvents; rw [hd]; simp only [hc]; rfl
      · unfold dropDeferred; rw [hd]; simp only [hc]; rfl

/-- What stands right before a group passes on: no pulse in flight on its lines, everything else of it and
of the other lines as before. -/
structure Ready (s u : State) (g : Group) (h : Client) : Prop where
  frame : SameExcept [.drivers, .park, .deferred, .queues] s u
  driver : ∀ l, u.driver l =
    if groupOf l = g then { s.driver l with pulse := none } else s.driver l
  drops : DropsDeferred s u g h

theorem dropDeferred_driver (g : Group) (h : Client) (s : State) (l : Line) :
    (dropDeferred g h s).driver l = s.driver l := (dropDeferred_frame g h s).driver l

theorem DropsDeferred.base (d : DropsDeferred u t g h) (e : u.deferred = s.deferred) :
    DropsDeferred s t g h := by
  unfold DropsDeferred dropEvents at *
  rw [e] at d
  exact d

/-- The release step (R30): cuts with RELEASED, or silent; then the dropped pending commit. -/
theorem release_ready (g : Group) (h : Client) (reason : Option CutReason) (s : State) :
    Ready s (dropDeferred g h (cutPulses g h reason s)) g h ∧
    (dropDeferred g h (cutPulses g h reason s)).park = s.park ∧
    Sends s (dropDeferred g h (cutPulses g h reason s))
      (toClient h ((match reason with
        | some r => cutEvents s g r
        | none => []) ++ dropEvents s g h)) := by
  have cf := cutPulses_frame g h reason s
  have df := dropDeferred_frame g h (cutPulses g h reason s)
  obtain ⟨drops, dsends⟩ := dropDeferred_spec g h (cutPulses g h reason s)
  have de : dropEvents (cutPulses g h reason s) g h = dropEvents s g h := by
    unfold dropEvents; rw [cf.deferred]
  refine ⟨⟨cf.mono.trans df.mono, fun l => ?_, drops.base cf.deferred⟩, by rw [df.park, cf.park], ?_⟩
  · rw [dropDeferred_driver, cutPulses_driver]
  · refine ((cutPulses_sends g h reason s).trans dsends cf).of_eq fun y => ?_
    rw [de]
    unfold toClient
    split <;> simp

/-- The loss step (R34, R83, R162). -/
theorem beginLoss_ready (g : Group) (h : Client) (reason : LossReason) (s : State) :
    Ready s (beginLoss g h reason s) g h ∧
    ((beginLoss g h reason s).park.get h).get g = some (s.groupConfig g) ∧
    (∀ y k, ¬ (y = h ∧ k = g) →
      ((beginLoss g h reason s).park.get y).get k = (s.park.get y).get k) ∧
    Sends s (beginLoss g h reason s) (lossEvents s g h reason) := by
  unfold beginLoss
  have f1 : SameExcept [.park] s
      { s with park := s.park.modify h fun t => t.put g (some (s.groupConfig g)) } := withPark_frame _ s
  have f2 := append_frame h (.lost g reason)
    { s with park := s.park.modify h fun t => t.put g (some (s.groupConfig g)) }
  have s2 := (append_sends h (.lost g reason)
    { s with park := s.park.modify h fun t => t.put g (some (s.groupConfig g)) }).start f1
  have f12 : SameExcept [.park, .queues] s _ := f1.mono.trans f2.mono
  dsimp only
  generalize append h (.lost g reason)
    { s with park := s.park.modify h fun t => t.put g (some (s.groupConfig g)) } = u2 at *
  have f3 : SameExcept [.queues] u2 (if u2.audit.losses then auditCopy h .loss (some g) u2 else u2) :=
    (auditCopy_frame _ _ _ _).ite (.refl _ _)
  have s3 : Sends u2 (if u2.audit.losses then auditCopy h .loss (some g) u2 else u2)
      (fun y => if u2.audit.losses then toClient .a [.audit h .loss (some g)] y else []) :=
    .ite (fun _ => auditCopy_sends _ _ _ _) fun _ => .nil rfl
  rw [f12.audit] at f3 s3
  rw [f12.audit]
  have f13 : SameExcept [.park, .queues] s _ := f12.trans f3.mono
  have s13 := s2.trans s3 f12
  generalize (if s.audit.losses then auditCopy h .loss (some g) u2 else u2) = u3 at *
  obtain ⟨r, park, s4⟩ := release_ready g h (some .lost) u3
  refine ⟨⟨f13.mono.trans r.frame.mono, fun l => ?_, r.drops.base f13.deferred⟩, ?_, fun y k hn => ?_, ?_⟩
  · rw [r.driver, f13.driver]
  · rw [park, f3.park, f2.park]
    simp
  · rw [park, f3.park, f2.park]
    by_cases hy : y = h
    · subst hy
      have hk : k ≠ g := fun e => hn ⟨rfl, e⟩
      simp [hk]
    · simp [hy]
  · refine (s13.trans s4 f13).of_eq fun y => ?_
    have ce : cutEvents u3 g .lost = cutEvents s g .lost := by
      unfold cutEvents
      congr 1
      exact List.filter_congr fun l _ => by rw [f13.driver]
    have de : dropEvents u3 g h = dropEvents s g h := by
      unfold dropEvents; rw [f13.deferred]
    unfold lossEvents
    dsimp only
    rw [ce, de]

/-! ### Passing on (R35 to R39) -/

/-- The other groups' entries follow a change of one. -/
theorem withEntry_other {k : Group} (f : LeaseEntry → LeaseEntry) (s : State) (hk : k ≠ g) :
    (s.withEntry g f).holder k = s.holder k := by
  unfold State.holder; rw [State.withEntry_entry_ne _ _ hk]

theorem startLease_eq (p : Policy) : p.startLease = startedTimer p.leasePeriod := rfl

/-- A fall to safe from a state right before it. -/
theorem fallToSafe_spec (st : GroupState) (r : Ready s u g h)
    (distinct : PairsDistinct s) (safe : SafeConfigLaw s) :
    Vacant (fallToSafe g st (asserted s) u) g st ∧ OtherEntries g s (fallToSafe g st (asserted s) u) ∧
    GroupTakes g (s.policy.get g).safe s (fallToSafe g st (asserted s) u) ∧
    LinesOutside (only g) s (fallToSafe g st (asserted s) u) ∧
    ∃ rs, Resumed (only g) (asserted s) s (fallToSafe g st (asserted s) u) rs ∧
      Sends u (fallToSafe g st (asserted s) u) fun y => rs y ++ toWatchers s g st none y := by
  unfold fallToSafe
  dsimp only
  have f1 := withEntry_frame g (fun e : LeaseEntry =>
    { e with state := st, holder := none, priority := none, timer := .stopped, grace := none,
             waiting := [] }) u
  have self : (u.withEntry g fun e =>
    { e with state := st, holder := none, priority := none, timer := .stopped, grace := none,
             waiting := [] }).entry g = { u.entry g with
      state := st, holder := none, priority := none, timer := .stopped, grace := none,
      waiting := [] } := by simp
  have other : ∀ k, k ≠ g → (u.withEntry g fun e =>
    { e with state := st, holder := none, priority := none, timer := .stopped, grace := none,
             waiting := [] }).entry k = s.entry k := by
    intro k hk
    rw [State.withEntry_entry_ne _ _ hk, r.frame.entry]
  have pol := f1.policy
  generalize u.withEntry g (fun e =>
    { e with state := st, holder := none, priority := none, timer := .stopped, grace := none,
             waiting := [] }) = u1 at *
  rw [pol, r.frame.policy]
  have distinct1 : PairsDistinct u1 := by
    unfold PairsDistinct; rw [f1.pairs, r.frame.pairs]; exact distinct
  obtain ⟨takes, out, rs, res, sends⟩ := replaceGroup_safe g (s.policy.get g).safe (asserted s) u1 distinct1
    (fun l hl => (asserted_of_driver (by rw [f1.record, r.frame.record])
      (by rw [f1.driver, r.driver, if_neg hl])).symm) (safe g) (fun l hl => by rw [f1.driver, r.driver, if_pos hl])
  have f2 := replaceGroup_frame g (s.policy.get g).safe (asserted s) u1
  generalize replaceGroup g (s.policy.get g).safe (asserted s) u1 = u2 at *
  have f3 := notifyWatchers_frame g u2
  have s3 := notifyWatchers_sends g u2
  generalize notifyWatchers g u2 = t at *
  have entryT : ∀ k, t.entry k = u1.entry k := fun k => by rw [f3.entry, f2.entry]
  have outDriver : ∀ l, only g (groupOf l) = false → u1.driver l = s.driver l := by
    intro l hl
    have : groupOf l ≠ g := by simpa [only] using hl
    rw [f1.driver, r.driver, if_neg this]
  have outAsserted : ∀ l, only g (groupOf l) = false → asserted u1 l = asserted s l := fun l hl =>
    asserted_of_driver (by rw [f1.record, r.frame.record]) (outDriver l hl)
  refine ⟨?_, fun k hk => ?_, ?_, ?_, rs, ?_, ?_⟩
  · unfold Vacant; and_intros <;> rw [entryT, self]
  · rw [entryT, other k hk]
  · exact Replaced.frame (takes.base outAsserted) f3
  · intro l hl
    obtain ⟨h1, h2⟩ := out l hl
    rw [f3.record, f3.driver, h1, f1.record, r.frame.record]
    refine ⟨rfl, ?_⟩
    rw [outDriver l hl] at h2
    exact h2
  · have res' : Resumed (only g) (asserted s) s u2 rs := res.base
      (fun l hl => by rw [outDriver l hl]) outAsserted
      (fun k hk => by
        have : k ≠ g := by simpa [only] using hk
        unfold State.holder; rw [other k this])
    exact res'.frame f3
  · refine ((sends.trans s3 f2).start f1).of_eq fun y => ?_
    unfold toWatchers
    rw [f2.watch, f1.watch, r.frame.watch, f2.entry, self]

/-- A handover to a claim that tries no restore, from a state right before it. -/
theorem handover_spec (c : Claim) (rest : List Claim) (r : Ready s u g h)
    (distinct : PairsDistinct s) (safe : SafeConfigLaw s)
    (noRestore : c.restore = false ∨ (u.park.get c.client).get g = none) :
    Held s (handover g c rest (asserted s) u) g c.client c.priority rest ∧
    OtherEntries g s (handover g c rest (asserted s) u) ∧
    GroupTakes g (s.policy.get g).safe s (handover g c rest (asserted s) u) ∧
    LinesOutside (only g) s (handover g c rest (asserted s) u) ∧
    (handover g c rest (asserted s) u).park = u.park ∧
    ∃ rs, Resumed (only g) (asserted s) s (handover g c rest (asserted s) u) rs ∧
      Sends u (handover g c rest (asserted s) u) fun y =>
        toClient c.client [.granted g] y ++ rs y ++ toWatchers s g .held (some c.client) y := by
  unfold handover
  dsimp only
  have f1 := withEntry_frame g (fun e : LeaseEntry =>
    { e with state := .held, holder := some c.client, priority := some c.priority,
             timer := (u.policy.get g).startLease, grace := none, waiting := rest }) u
  have self : (u.withEntry g fun e =>
    { e with state := .held, holder := some c.client, priority := some c.priority,
             timer := (u.policy.get g).startLease, grace := none, waiting := rest }).entry g =
      { u.entry g with
        state := .held, holder := some c.client, priority := some c.priority,
        timer := startedTimer (s.policy.get g).leasePeriod, grace := none, waiting := rest } := by
    rw [State.withEntry_entry_self, startLease_eq, r.frame.policy]
  have other : ∀ k, k ≠ g → (u.withEntry g fun e =>
    { e with state := .held, holder := some c.client, priority := some c.priority,
             timer := (u.policy.get g).startLease, grace := none, waiting := rest }).entry k =
      s.entry k := by
    intro k hk
    rw [State.withEntry_entry_ne _ _ hk, r.frame.entry]
  generalize u.withEntry g (fun e =>
    { e with state := .held, holder := some c.client, priority := some c.priority,
             timer := (u.policy.get g).startLease, grace := none, waiting := rest }) = u1 at *
  have fa := append_frame c.client (.granted g) u1
  have sa := append_sends c.client (.granted g) u1
  generalize append c.client (.granted g) u1 = ua at *
  have grantEq : grant g c.client c.restore (asserted s) ua =
      replaceGroup g (s.policy.get g).safe (asserted s) ua := by
    unfold grant
    rw [fa.policy, f1.policy, r.frame.policy, fa.park, f1.park]
    rcases noRestore with e | e
    · rw [e]
    · rw [e]; cases c.restore <;> rfl
  rw [grantEq]
  have distinct1 : PairsDistinct ua := by
    unfold PairsDistinct; rw [fa.pairs, f1.pairs, r.frame.pairs]; exact distinct
  obtain ⟨takes, out, rs, res, sends⟩ := replaceGroup_safe g (s.policy.get g).safe (asserted s) ua distinct1
    (fun l hl => (asserted_of_driver (by rw [fa.record, f1.record, r.frame.record])
      (by rw [fa.driver, f1.driver, r.driver, if_neg hl])).symm) (safe g)
      (fun l hl => by rw [fa.driver, f1.driver, r.driver, if_pos hl])
  have f2 := replaceGroup_frame g (s.policy.get g).safe (asserted s) ua
  generalize replaceGroup g (s.policy.get g).safe (asserted s) ua = u2 at *
  have f3 := notifyWatchers_frame g u2
  have s3 := notifyWatchers_sends g u2
  generalize notifyWatchers g u2 = t at *
  have entryT : ∀ k, t.entry k = u1.entry k := fun k => by rw [f3.entry, f2.entry, fa.entry]
  have outDriver : ∀ l, only g (groupOf l) = false → ua.driver l = s.driver l := by
    intro l hl
    have : groupOf l ≠ g := by simpa [only] using hl
    rw [fa.driver, f1.driver, r.driver, if_neg this]
  have outAsserted : ∀ l, only g (groupOf l) = false → asserted ua l = asserted s l := fun l hl =>
    asserted_of_driver (by rw [fa.record, f1.record, r.frame.record]) (outDriver l hl)
  refine ⟨?_, fun k hk => ?_, ?_, ?_, ?_, rs, ?_, ?_⟩
  · unfold Held; and_intros <;> rw [entryT, self]
  · rw [entryT, other k hk]
  · exact Replaced.frame (takes.base outAsserted) f3
  · intro l hl
    obtain ⟨h1, h2⟩ := out l hl
    rw [f3.record, f3.driver, h1, fa.record, f1.record, r.frame.record]
    refine ⟨rfl, ?_⟩
    rw [outDriver l hl] at h2
    exact h2
  · rw [f3.park, f2.park, fa.park, f1.park]
  · have res' : Resumed (only g) (asserted s) s u2 rs := res.base
      (fun l hl => by rw [outDriver l hl]) outAsserted
      (fun k hk => by
        have : k ≠ g := by simpa [only] using hk
        unfold State.holder; rw [fa.entry, other k this])
    exact res'.frame f3
  · refine (((sa.trans (sends.trans s3 f2) fa)).start f1).of_eq fun y => ?_
    unfold toWatchers
    rw [f2.watch, fa.watch, f1.watch, r.frame.watch, f2.entry, fa.entry, self]
    simp

/-- The end of a release, or of a forced loss that is not WITHHELD, where no restore is tried. -/
theorem passOn_spec (r : Ready s u g h) (distinct : PairsDistinct s)
    (safe : SafeConfigLaw s) (noRestore : NoRestore u g (s.entry g).waiting) :
    PassesOn s (passOn g (asserted s) u) g (s.entry g).waiting ∧ OtherEntries g s (passOn g (asserted s) u) ∧
    GroupTakes g (s.policy.get g).safe s (passOn g (asserted s) u) ∧
    LinesOutside (only g) s (passOn g (asserted s) u) ∧ (passOn g (asserted s) u).park = u.park ∧
    (passOn g (asserted s) u).deferred = u.deferred ∧
    ∃ rs, Resumed (only g) (asserted s) s (passOn g (asserted s) u) rs ∧
      Sends u (passOn g (asserted s) u) fun y =>
        grantedEvents g (s.entry g).waiting y ++ rs y ++ passedState s g (s.entry g).waiting y := by
  have w : (u.entry g).waiting = (s.entry g).waiting := by rw [r.frame.entry]
  have f := passOn_frame g (asserted s) u
  unfold passOn at f ⊢
  rw [w] at f ⊢
  cases hw : (s.entry g).waiting with
  | nil =>
    rw [hw] at f
    obtain ⟨v, o, tk, out, rs, res, sends⟩ := fallToSafe_spec .safe r distinct safe
    have f := fallToSafe_frame g .safe (asserted s) u
    refine ⟨v, o, tk, out, f.park, f.deferred, rs, res, sends.of_eq fun y => ?_⟩
    simp [grantedEvents, passedState, toHolder]
  | cons c rest =>
    rw [hw] at f noRestore
    obtain ⟨v, o, tk, out, park, rs, res, sends⟩ :=
      handover_spec c rest r distinct safe (noRestore c rfl)
    refine ⟨v, o, tk, out, park, f.deferred, rs, res, sends.of_eq fun y => ?_⟩
    simp only [grantedEvents, passedState, toHolder, toClient, List.head?_cons, Option.map_some,
      Option.some.injEq]
    by_cases e : y = c.client
    · simp [e]
    · simp [e, Ne.symm e]

/-- The head of a waiting list is not the holder (R48). -/
theorem LeaseLaw.head_ne (law : LeaseLaw s) {c : Claim} (holder : s.holder g = some h)
    (hc : c ∈ (s.entry g).waiting) : c.client ≠ h := by
  intro e
  have := ((law g).2.2.1 c hc).1
  unfold State.holder at holder
  rw [holder, e] at this
  exact this rfl

/-- A voluntary release (R30). -/
theorem releaseGroup_spec (silent : Bool) (distinct : PairsDistinct s) (safe : SafeConfigLaw s)
    (noRestore : NoRestore s g (s.entry g).waiting) :
    PassesOn s (releaseGroup g h silent s) g (s.entry g).waiting ∧
    OtherEntries g s (releaseGroup g h silent s) ∧
    GroupTakes g (s.policy.get g).safe s (releaseGroup g h silent s) ∧
    LinesOutside (only g) s (releaseGroup g h silent s) ∧
    DropsDeferred s (releaseGroup g h silent s) g h ∧ (releaseGroup g h silent s).park = s.park ∧
    ∃ rs, Resumed (only g) (asserted s) s (releaseGroup g h silent s) rs ∧
      Sends s (releaseGroup g h silent s) fun y =>
        toClient h ((if silent then [] else cutEvents s g .released) ++ dropEvents s g h) y ++
          grantedEvents g (s.entry g).waiting y ++ rs y ++ passedState s g (s.entry g).waiting y := by
  obtain ⟨r, park, s1⟩ := release_ready g h (if silent then none else some CutReason.released) s
  unfold releaseGroup
  dsimp only
  generalize dropDeferred g h (cutPulses g h (if silent then none else some CutReason.released) s) = u
    at *
  obtain ⟨v, o, tk, out, park', def', rs, res, sends⟩ := passOn_spec r distinct safe
    (by unfold NoRestore at *; rw [park]; exact noRestore)
  refine ⟨v, o, tk, out, ?_, by rw [park', park], rs, res, (s1.trans sends r.frame).of_eq fun y => ?_⟩
  · have := r.drops
    unfold DropsDeferred at *
    rw [def']; exact this
  · cases silent <;> simp

/-- A forced loss that is not WITHHELD (R34, R35). -/
theorem forcedLoss_spec {reason : LossReason} (hr : reason ≠ .withheld) (holder : s.holder g = some h)
    (law : ∀ c ∈ (s.entry g).waiting, c.client ≠ h) (distinct : PairsDistinct s) (safe : SafeConfigLaw s)
    (noRestore : NoRestore s g (s.entry g).waiting) :
    LosesGroup s (forcedLoss g reason s) g h reason (s.entry g).waiting := by
  obtain ⟨r, park, parks, s1⟩ := beginLoss_ready g h reason s
  have e : forcedLoss g reason s = passOn g (asserted s) (beginLoss g h reason s) := by
    unfold forcedLoss
    rw [holder]
    cases reason <;> first | rfl | exact absurd rfl hr
  rw [e]
  generalize beginLoss g h reason s = u at *
  obtain ⟨v, o, tk, out, park', def', rs, res, sends⟩ := passOn_spec r distinct safe
    (fun c hc => by
      rw [parks _ _ fun e => law c (List.mem_of_mem_head? hc) e.1]
      exact noRestore c hc)
  refine ⟨v, o, by rw [park', park], fun y k hn => by rw [park', parks y k hn], tk, out, ?_, rs,
    res.resumes, (s1.trans sends r.frame).of_eq fun y => by simp⟩
  have := r.drops
  unfold DropsDeferred at *
  rw [def']; exact this

end Sys2Proof.Machine
end

