-- ==== Sys2Proof/Laws/ClientResets.lean ====
section
/-! SUPPORT. Everything a client reset does to the state (R172). -/

namespace Sys2Proof.Machine

set_option Elab.async false

variable {s u t0 t : State} {g : Group}

/-- A release leaves its group without the client, as holder and as claimant. -/
theorem releaseGroup_leaves (law : EntryLaw (s.entry g) ∧ WaitingLaw (s.entry g)) (x : Client)
    (silent) (hh : s.holder g = some x) :
   (releaseGroup g x silent s).holder g ≠ some x ∧ (releaseGroup g x silent s).waits x g = false := by
  unfold releaseGroup passOn
  dsimp only
  generalize hr : (if silent = true then none else some CutReason.released) = rr
  have f : SameExcept [.drivers, .queues, .deferred] s (dropDeferred g x (cutPulses g x rr s)) :=
    (cutPulses_frame _ _ _ _).mono.trans (dropDeferred_frame _ _ _).mono
  rw [f.entry]
  have hx : ∀ c ∈ (s.entry g).waiting, c.client ≠ x := by
    intro c hc e
    have := (law.2.2.1 c hc).1
    unfold State.holder at hh
    rw [hh, e] at this; exact this rfl
  cases hw : (s.entry g).waiting with
  | nil =>
    dsimp only
    unfold fallToSafe State.waits
    dsimp only
    rw [(notifyWatchers_frame _ _).holder, (replaceGroup_frame _ _ _ _).holder,
      (notifyWatchers_frame _ _).entry, (replaceGroup_frame _ _ _ _).entry]
    simp [State.holder]
  | cons c rest =>
    dsimp only
    unfold handover State.waits
    dsimp only
    rw [(notifyWatchers_frame _ _).holder, (grant_frame _ _ _ _ _).holder,
      (append_frame _ _ _).holder, (notifyWatchers_frame _ _).entry, (grant_frame _ _ _ _ _).entry,
      (append_frame _ _ _).entry]
    simp only [State.holder, State.withEntry_entry_self]
    refine ⟨by simpa using hx c (by rw [hw]; simp), ?_⟩
    rw [List.any_eq_false]; intro d hd; simpa using hx d (by rw [hw]; simp [hd])

theorem releaseGroup_other (x : Client) (silent) (k) (hk : k ≠ g) :
    (releaseGroup g x silent s).entry k = s.entry k := by
  unfold releaseGroup passOn
  dsimp only
  generalize hr : (if silent = true then none else some CutReason.released) = rr
  have f : SameExcept [.drivers, .queues, .deferred] s (dropDeferred g x (cutPulses g x rr s)) :=
    (cutPulses_frame _ _ _ _).mono.trans (dropDeferred_frame _ _ _).mono
  cases hw : ((dropDeferred g x (cutPulses g x rr s)).entry g).waiting with
  | nil =>
    dsimp only
    unfold fallToSafe
    dsimp only
    rw [(notifyWatchers_frame _ _).entry, (replaceGroup_frame _ _ _ _).entry,
      State.withEntry_entry_ne _ _ hk, f.entry]
  | cons c rest =>
    dsimp only
    unfold handover
    dsimp only
    rw [(notifyWatchers_frame _ _).entry, (grant_frame _ _ _ _ _).entry, (append_frame _ _ _).entry,
      State.withEntry_entry_ne _ _ hk, f.entry]

theorem releaseIfHeld_foldl (x : Client) (L : List Group) (nd : L.Nodup) (s : State)
    (law : ∀ g ∈ L, EntryLaw (s.entry g) ∧ WaitingLaw (s.entry g)) :
   (∀ g ∈ L, (L.foldl (releaseIfHeld x) s).holder g ≠ some x ∧
     (s.holder g = some x → (L.foldl (releaseIfHeld x) s).waits x g = false)) ∧
   (∀ g, (g ∉ L ∨ s.holder g ≠ some x) → (L.foldl (releaseIfHeld x) s).entry g = s.entry g) := by
  induction L generalizing s with
  | nil => exact ⟨by simp, fun g _ => rfl⟩
  | cons a L ih =>
    rw [List.nodup_cons] at nd
    rw [List.foldl_cons]
    have oth : ∀ k, k ≠ a → (releaseIfHeld x s a).entry k = s.entry k := by
      intro k hk; unfold releaseIfHeld; split
      · exact releaseGroup_other _ _ _ hk
      · rfl
    obtain ⟨i1, i2⟩ := ih nd.2 (releaseIfHeld x s a) (fun g hg => by
      rw [oth g (by rintro rfl; exact nd.1 hg)]; exact law g (by simp [hg]))
    refine ⟨fun g hg => ?_, fun g hg => ?_⟩
    · rcases List.mem_cons.mp hg with rfl | hg
      · have e := i2 g (.inl nd.1)
        have e' : (L.foldl (releaseIfHeld x) (releaseIfHeld x s g)).holder g =
          (releaseIfHeld x s g).holder g := by unfold State.holder; rw [e]
        have e'' : (L.foldl (releaseIfHeld x) (releaseIfHeld x s g)).waits x g =
          (releaseIfHeld x s g).waits x g := by unfold State.waits; rw [e]
        rw [e', e'']
        unfold releaseIfHeld
        by_cases hh : s.holder g = some x
        · rw [if_pos hh]; obtain ⟨a, b⟩ := releaseGroup_leaves (law g (by simp)) x true hh
          exact ⟨a, fun _ => b⟩
        · rw [if_neg hh]; exact ⟨hh, fun h => absurd h hh⟩
      · have hga : g ≠ a := by intro e; rw [e] at hg; exact nd.1 hg
        obtain ⟨a1, a2⟩ := i1 g hg
        refine ⟨a1, fun h => a2 ?_⟩
        unfold State.holder; rw [oth g hga]; exact h
    · by_cases e : g = a
      · subst e
        rw [i2 g (.inl nd.1)]
        rcases hg with hg | hg
        · simp at hg
        · unfold releaseIfHeld; rw [if_neg hg]
      · rw [i2 g ?_, oth g e]
        rcases hg with hg | hg
        · left; intro h; exact hg (by simp [h])
        · right; unfold State.holder; rw [oth g e]; exact hg

/-- Removing a client's claim changes its group alone, and its holder not (R45). -/
theorem removeClaim_spec (x : Client) (g : Group) (s : State) :
    (∀ k, k ≠ g → (removeClaim x s g).entry k = s.entry k) ∧ (removeClaim x s g).holder g =
    s.holder g ∧ (removeClaim x s g).waits x g = false ∧
    (s.waits x g = false → removeClaim x s g = s) := by
  unfold removeClaim
  by_cases h : s.waits x g = true
  · rw [if_pos h]
    have sp := reevaluate_spec g (dropClaim g x s)
    have de : (dropClaim g x s).entry g =
      { s.entry g with waiting := (s.entry g).waiting.filter fun c => c.client != x } := by
      unfold dropClaim; rw [State.withEntry_entry_self]
    have dO : ∀ k, k ≠ g → (dropClaim g x s).entry k = s.entry k := fun k hk => by
      unfold dropClaim; rw [State.withEntry_entry_ne _ _ hk]
    have key : (reevaluate g (dropClaim g x s)).waits x g = false ∧
      (reevaluate g (dropClaim g x s)).holder g = s.holder g ∧ ∀ k,
      k ≠ g → (reevaluate g (dropClaim g x s)).entry k = s.entry k := by
      split at sp
      · obtain ⟨a, b, c, d⟩ := sp
        refine ⟨?_, ?_, fun k hk => by rw [c k hk, dO k hk]⟩
        · unfold State.waits; rw [a, de]; simp
        · unfold State.holder; rw [a, de]
      · rw [sp]; exact ⟨by unfold State.waits; rw [de]; simp, by unfold State.holder; rw [de], dO⟩
    exact ⟨key.2.2, key.2.1, key.1, fun n => by rw [n] at h; cases h⟩
  · rw [if_neg h]; exact ⟨fun _ _ => rfl, rfl, by simpa using h, fun _ => rfl⟩

theorem removeClaim_foldl (x : Client) (L : List Group) (s : State) :
   (∀ g, (L.foldl (removeClaim x) s).holder g = s.holder g) ∧
     (∀ g ∈ L, (L.foldl (removeClaim x) s).waits x g = false) ∧
   (∀ g, s.waits x g = false → (L.foldl (removeClaim x) s).entry g = s.entry g) := by
  induction L generalizing s with
  | nil => exact ⟨fun _ => rfl, by simp, fun _ _ => rfl⟩
  | cons a L ih =>
    rw [List.foldl_cons]
    obtain ⟨r1, r2, r3, r4⟩ := removeClaim_spec x a s
    obtain ⟨i1, i2, i3⟩ := ih (removeClaim x s a)
    have hol : ∀ g, (removeClaim x s a).holder g = s.holder g := by
      intro g; by_cases e : g = a
      · subst e; exact r2
      · unfold State.holder; rw [r1 g e]
    refine ⟨fun g => by rw [i1, hol], fun g hg => ?_, fun g hg => ?_⟩
    · rcases List.mem_cons.mp hg with rfl | hg
      · unfold State.waits; rw [i3 g r3]; exact r3
      · exact i2 g hg
    · by_cases e : g = a
      · subst e; rw [r4 hg] at i3 ⊢; exact i3 g hg
      · rw [i3 g (by unfold State.waits; rw [r1 g e]; exact hg), r1 g e]

/-- The list after the removal of a client's claim is the list without it (R45). -/
theorem removeClaim_waiting (x : Client) (g k : Group) (s : State) :
    ((removeClaim x s g).entry k).waiting =
      if k = g then (s.entry k).waiting.filter fun c => c.client != x else (s.entry k).waiting := by
  by_cases e : k = g
  · subst e
    rw [if_pos rfl]
    by_cases h : s.waits x k = true
    · have drop : (dropClaim k x s).entry k =
          { s.entry k with waiting := (s.entry k).waiting.filter fun c => c.client != x } := by
        unfold dropClaim; rw [State.withEntry_entry_self]
      have sp := reevaluate_spec k (dropClaim k x s)
      unfold removeClaim
      rw [if_pos h]
      split at sp
      · rw [sp.1, drop]
      · rw [sp, drop]
    · rw [Bool.not_eq_true] at h
      rw [(removeClaim_spec x k s).2.2.2 h, List.filter_eq_self.2]
      unfold State.waits at h
      rw [List.any_eq_false] at h
      intro c hc
      simpa using h c hc
  · rw [if_neg e, (removeClaim_spec x g s).1 k e]

theorem removeClaim_foldl_waiting (x : Client) (k : Group) (L : List Group) (s : State) :
    ((L.foldl (removeClaim x) s).entry k).waiting =
      if k ∈ L then (s.entry k).waiting.filter fun c => c.client != x else (s.entry k).waiting := by
  induction L generalizing s with
  | nil => rfl
  | cons a L ih =>
    rw [List.foldl_cons, ih, removeClaim_waiting]
    by_cases e : k = a <;> by_cases h : k ∈ L <;> simp [e, h, List.filter_filter]

/-- The releases of a client reset leave the groups that the client does not hold. -/
theorem releaseIfHeld_foldl_beyond (x : Client) (L : List Group) (t : State)
    (held : ∀ k, t.holder k = some x → s.holder k = some x) :
    Beyond (fun k => s.holder k == some x) t (L.foldl (releaseIfHeld x) t) := by
  induction L generalizing t with
  | nil => exact .of_frame (.refl [] t)
  | cons a L ih =>
    rw [List.foldl_cons]
    unfold releaseIfHeld at ih ⊢
    by_cases h : t.holder a = some x
    · rw [if_pos h]
      refine Beyond.trans ((releaseGroup_beyond a x true t).mono fun k hk => ?_)
        (ih (releaseGroup a x true t) fun k hk => ?_)
      · unfold only
        rw [beq_eq_false_iff_ne]
        rintro rfl
        rw [held k h, beq_self_eq_true] at hk
        cases hk
      · by_cases e : k = a
        · subst e; exact held k h
        · refine held k ?_
          unfold State.holder at hk ⊢
          rwa [releaseGroup_other x true k e] at hk
    · rw [if_neg h]
      exact ih t held

theorem releaseIfHeld_foldl_deferred (x : Client) (L : List Group) (t : State)
    (ht : t.deferred.get x = none) : (L.foldl (releaseIfHeld x) t).deferred = t.deferred := by
  induction L generalizing t with
  | nil => rfl
  | cons a L ih =>
    rw [List.foldl_cons]
    have : (releaseIfHeld x t a).deferred = t.deferred := by
      unfold releaseIfHeld; split
      · unfold releaseGroup
        dsimp only
        have c := cutPulses_frame a x (if true = true then none else some CutReason.released) t
        have : dropDeferred a x (cutPulses a x (if true = true then none else
          some CutReason.released) t) = cutPulses a x (if true = true then none else
          some CutReason.released) t := by
          unfold dropDeferred; rw [c.deferred, ht]
        rw [(passOn_frame _ _ _).deferred, this, c.deferred]
      · rfl
    rw [ih _ (by rw [this]; exact ht), this]

/-- The reset up to its step 4: nothing held, claimed or deferred by the client (R172). -/
theorem clientReset_before_registers (x : Client) (s : State) (law : LeaseLaw s) : ∃ s4,
    clientResetTransaction x s = resetClientState x s4 ∧
   SameExcept [.lease, .active, .drivers, .park, .deferred, .queues] s s4 ∧
     (∀ g, s4.holder g ≠ some x ∧ s4.waits x g = false) ∧ s4.deferred.get x = none ∧
     (∀ y, y ≠ x → s4.deferred.get y = s.deferred.get y) ∧
   (∀ g, s.holder g ≠ some x → s4.holder g = s.holder g ∧
      (s4.entry g).waiting = ((s.entry g).waiting.filter fun c => c.client != x) ∧
      (s.waits x g = false → s4.entry g = s.entry g)) ∧
   Beyond (fun g => s.holder g == some x) s s4 := by
  have f1 : SameExcept [.queues] s (if s.audit.detaches && x != .a then
    auditCopy x .detach none s else s) := (auditCopy_frame _ _ _ _).ite (.refl _ s)
  have e : clientResetTransaction x s = resetClientState x (groups.foldl (removeClaim x)
    (groups.foldl (releaseIfHeld x)
    { (if s.audit.detaches && x != .a then auditCopy x .detach none s else s) with
      deferred := (if s.audit.detaches && x != .a then auditCopy x .detach none s
        else s).deferred.put x none })) := rfl
  generalize (if s.audit.detaches && x != .a then auditCopy x .detach none s else s) = s1 at *
  have f2 : SameExcept [.deferred] s1 { s1 with deferred := s1.deferred.put x none } :=
    withDeferred_frame _ _
  have d2 : ({ s1 with deferred := s1.deferred.put x none } : State).deferred.get x = none := by
    simp
  have d2' : ∀ y, y ≠ x → ({ s1 with deferred := s1.deferred.put x none } : State).deferred.get y =
    s.deferred.get y := by intro y hy; simp [hy, f1.deferred]
  generalize ({ s1 with deferred := s1.deferred.put x none } : State) = s2 at *
  have f12 : SameExcept [.queues, .deferred] s s2 := f1.mono.trans f2.mono
  have law2 : ∀ g ∈ groups, EntryLaw (s2.entry g) ∧ WaitingLaw (s2.entry g) := fun g _ => by
    rw [f12.entry]; exact law g
  obtain ⟨q1, q2⟩ := releaseIfHeld_foldl x groups (by decide) s2 law2
  have f3 : SameExcept [.lease, .active, .drivers, .park, .deferred,
    .queues] s2 (groups.foldl (releaseIfHeld x) s2) :=
    .foldl _ (fun t a => (releaseIfHeld_frame x t a).mono) _ _
  have d3 := releaseIfHeld_foldl_deferred x groups s2 d2
  have b3 := releaseIfHeld_foldl_beyond (s := s) x groups s2 fun k hk => by rwa [f12.holder] at hk
  generalize groups.foldl (releaseIfHeld x) s2 = s3 at *
  obtain ⟨w1, w2, w3⟩ := removeClaim_foldl x groups s3
  have w4 := fun k => removeClaim_foldl_waiting x k groups s3
  have f4 : SameExcept [.lease, .queues] s3 (groups.foldl (removeClaim x) s3) :=
    .foldl _ (fun t a => (removeClaim_frame x t a).mono) _ _
  generalize groups.foldl (removeClaim x) s3 = s4 at *
  refine ⟨s4, e, (f12.mono.trans f3.mono).trans f4.mono,
    fun g => ⟨by rw [w1]; exact (q1 g (mem_groups g)).1, w2 g (mem_groups g)⟩, by
    rw [f4.deferred, d3]; exact d2, fun y hy => by rw [f4.deferred, d3]; exact d2' y hy, ?_,
    ((Beyond.of_frame f12).trans b3).trans (.of_frame f4)⟩
  intro g hg
  have e3 : s3.entry g = s.entry g := by
    rw [q2 g (.inr (by rw [f12.holder]; exact hg)), f12.entry]
  refine ⟨?_, ?_, fun hw => ?_⟩
  · rw [w1]; unfold State.holder; rw [e3]
  · rw [w4, if_pos (mem_groups g), e3]
  · rw [w3 g ?_, e3]
    unfold State.waits
    rw [e3]
    exact hw

/-- What a client reset leaves of the client, of the others, and of the state. -/
def ClientResets (x : Client) (s T : State) : Prop :=
   (∀ g, T.holder g ≠ some x ∧ T.waits x g = false ∧ (T.watch.get g).get x = none ∧
    (T.park.get x).get g = none) ∧
  T.deferred.get x = none ∧ T.queues.get x = [] ∧
  (∀ l, (T.staged.get x).get l = ⟨.input, .normal, .pushPull, 3, .none⟩) ∧
  (T.port x = Port.clientReset (s.port x)) ∧ OtherPorts x s T ∧
  (∀ y, y ≠ x → T.staged.get y = s.staged.get y ∧ T.deferred.get y = s.deferred.get y ∧
    ∀ g, (T.watch.get g).get y = (s.watch.get g).get y) ∧
  (∀ g, s.holder g ≠ some x → T.holder g = s.holder g ∧
    (T.entry g).waiting = ((s.entry g).waiting.filter fun c => c.client != x) ∧
    (s.waits x g = false → T.entry g = s.entry g) ∧
    ∀ y, y ≠ x → (T.park.get y).get g = (s.park.get y).get g) ∧
  LinesOutside (fun g => s.holder g == some x) s T ∧
  SameExcept
    [.lease, .active, .drivers, .watch, .deferred, .park, .staged, .queues, .ports] s T

/-- All a client reset leaves (R172). -/
theorem clientResetTransaction_spec (x : Client) (s : State) (law : LeaseLaw s) :
    ClientResets x s (clientResetTransaction x s) := by
  obtain ⟨s4, e, f, h1, h2, h3, h4, beyond⟩ := clientReset_before_registers x s law
  rw [e]
  clear e
  have fr : SameExcept [.watch, .staged, .park, .queues, .ports] s4 (resetClientState x s4) :=
    resetClientState_frame _ _
  refine ⟨fun g => ⟨by rw [fr.holder]; exact (h1 g).1, by
    unfold State.waits; rw [fr.entry]; exact (h1 g).2, by simp [resetClientState], by
      simp [resetClientState]⟩, by rw [fr.deferred]; exact h2, by simp [resetClientState],
        fun l => by simp [resetClientState]; rfl, ?_, ?_, ?_, ?_, fun l hl => ?_, f.mono.trans fr.mono⟩
  · simp only [resetClientState, State.port, PerClient.get_modify_self]; rw [f.ports]
  · intro y hy; simp only [resetClientState, State.port, PerClient.get_modify_ne _ _ hy]
    rw [f.ports]
  · intro y hy
    refine ⟨?_, by rw [fr.deferred]; exact h3 y hy, fun g => ?_⟩
    · simp only [resetClientState, PerClient.get_put_ne _ _ hy]; rw [f.staged]
    · simp only [resetClientState, Table.get_tabulate, PerClient.get_put_ne _ _ hy]; rw [f.watch]
  · intro g hg
    rw [fr.holder, fr.entry]
    obtain ⟨holder, waiting, entry⟩ := h4 g hg
    refine ⟨holder, waiting, entry, fun y hy => ?_⟩
    rw [← beyond.park y g (by simpa using hg)]
    simp [resetClientState, hy]
  · rw [fr.record, fr.driver]
    exact beyond.lines l hl

/-! ### The groups of a client that is reset (R44, R45) -/

/-- A fold in which one member of the list alone acts. -/
theorem foldl_single {σ α : Type} (f : σ → α → σ) (P : σ → Prop) (a : α)
    (idle : ∀ t b, P t → b ≠ a → f t b = t) :
    ∀ (L : List α) (s : σ), L.Nodup → a ∈ L → P s → P (f s a) → L.foldl f s = f s a
  | [], _, _, ha, _, _ => absurd ha List.not_mem_nil
  | b :: L, s, nodup, ha, hs, hf => by
    obtain ⟨hb, hL⟩ := List.nodup_cons.1 nodup
    have rest : ∀ (L : List α) (t : σ), P t → a ∉ L → L.foldl f t = t := by
      intro L
      induction L with
      | nil => exact fun _ _ _ => rfl
      | cons c L ih =>
        intro t ht hc
        have ne : c ≠ a := fun e => hc (e ▸ List.mem_cons_self)
        rw [List.foldl_cons, idle t c ht ne]
        exact ih t ht fun h => hc (List.mem_cons_of_mem _ h)
    rw [List.foldl_cons]
    by_cases e : b = a
    · subst e; exact rest L _ hf hb
    · rw [idle s b hs e]
      exact foldl_single f P a idle L s hL ((List.mem_cons.1 ha).resolve_left (Ne.symm e)) hs hf

/-- A fold takes the turns of its list one after the other, where each turn keeps what the next rests on. -/
theorem InTurn.foldl {α : Type} {turn : α → State → State → Prop} (f : State → α → State) (P : State → Prop)
    (each : ∀ s a, P s → turn a s (f s a) ∧ P (f s a)) (L : List α) (s : State) (hs : P s) :
    InTurn turn L s (L.foldl f s) ∧ P (L.foldl f s) := by
  induction L generalizing s with
  | nil => exact ⟨rfl, hs⟩
  | cons a L ih =>
    obtain ⟨acts, keeps⟩ := each s a hs
    obtain ⟨later, all⟩ := ih _ keeps
    exact ⟨⟨_, acts, later⟩, all⟩

/-- A fold in which no member acts. -/
theorem foldl_idle {σ α : Type} (f : σ → α → σ) (s : σ) (idle : ∀ b, f s b = s) (L : List α) :
    L.foldl f s = s := by
  induction L with
  | nil => rfl
  | cons b L ih => rw [List.foldl_cons, idle b, ih]

/-- The steps 1 and 2 of a client reset (R172): the audit copy, and the pending commit gone. -/
def beginReset (x : Client) (s : State) : State :=
  let s1 := if s.audit.detaches && x != .a then auditCopy x .detach none s else s
  { s1 with deferred := s1.deferred.put x none }

theorem beginReset_spec (x : Client) (s : State) :
    SameExcept [.queues, .deferred] s (beginReset x s) ∧ Sends s (beginReset x s) (detachAudit s x) ∧
      (beginReset x s).deferred.get x = none := by
  have f1 : SameExcept [.queues] s (if s.audit.detaches && x != .a then
    auditCopy x .detach none s else s) := (auditCopy_frame _ _ _ _).ite (.refl _ s)
  have s1 : Sends s (if s.audit.detaches && x != .a then auditCopy x .detach none s else s)
      (detachAudit s x) := by
    unfold detachAudit
    by_cases c : s.audit.detaches = true ∧ x ≠ .a
    · simp only [c.1, c.2, Bool.true_and, bne_iff_ne, ne_eq, not_false_eq_true, if_true, and_self]
      exact auditCopy_sends _ _ _ _
    · have : (s.audit.detaches && x != .a) = false := by
        by_contra h
        simp only [Bool.not_eq_false, Bool.and_eq_true, bne_iff_ne] at h
        exact c h
      rw [this]
      simp only [if_neg c]
      exact .nil rfl
  exact ⟨f1.mono.trans (withDeferred_frame _ _).mono, fun y => s1 y, by simp [beginReset]⟩

theorem clientReset_begin (x : Client) (s : State) : clientResetTransaction x s = resetClientState x
    (groups.foldl (removeClaim x) (groups.foldl (releaseIfHeld x) (beginReset x s))) := rfl

/-- The port of a client that is reset, in any state (R171, R172). -/
theorem clientReset_port (x : Client) (s : State) :
    (clientResetTransaction x s).port x = (s.port x).clientReset := by
  have steps : SameExcept [.queues, .lease, .active, .drivers, .park, .deferred] s
      (groups.foldl (removeClaim x) (groups.foldl (releaseIfHeld x) (beginReset x s))) :=
    ((beginReset_spec x s).1.mono.trans
      (SameExcept.foldl (releaseIfHeld x) (fun t g => releaseIfHeld_frame x t g) groups _).mono).trans
      (SameExcept.foldl (removeClaim x) (fun t g => removeClaim_frame x t g) groups _).mono
  rw [clientReset_begin]
  unfold resetClientState
  simp only [State.port, PerClient.get_modify_self]
  rw [steps.ports]

/-- A client that holds one group and waits for none: that group is released silently (R44). -/
theorem clientReset_holding (law : LeaseLaw s) (x : Client) (holder : s.holder g = some x)
    (others : ∀ k, k ≠ g → s.holder k ≠ some x) (waits : ∀ k, s.waits x k = false) :
    clientResetTransaction x s = resetClientState x (releaseGroup g x true (beginReset x s)) := by
  obtain ⟨f, -, -⟩ := beginReset_spec x s
  have hg : (beginReset x s).holder g = some x := by rw [f.holder]; exact holder
  have acts : releaseIfHeld x (beginReset x s) g = releaseGroup g x true (beginReset x s) := by
    unfold releaseIfHeld; rw [if_pos hg]
  have lawG : EntryLaw ((beginReset x s).entry g) ∧ WaitingLaw ((beginReset x s).entry g) := by
    rw [f.entry]; exact law g
  rw [clientReset_begin, foldl_single (releaseIfHeld x) (fun t => ∀ k, k ≠ g → t.holder k ≠ some x) g
    (fun t b ht hb => by unfold releaseIfHeld; rw [if_neg (ht b hb)]) groups _ (by decide)
    (mem_groups g) (fun k hk => by rw [f.holder]; exact others k hk)
    (fun k hk => by
      rw [acts]; unfold State.holder; rw [releaseGroup_other _ _ _ hk, f.entry]; exact others k hk),
    acts, foldl_idle]
  intro k
  refine (removeClaim_spec x k _).2.2.2 ?_
  by_cases hk : k = g
  · subst hk; exact (releaseGroup_leaves lawG x true hg).2
  · unfold State.waits; rw [releaseGroup_other _ _ _ hk, f.entry]; exact waits k

/-- A client that holds no group and waits for one: its claim leaves the list (R45). -/
theorem clientReset_waiting (x : Client) (holds : ∀ k, s.holder k ≠ some x)
    (others : ∀ k, k ≠ g → s.waits x k = false) :
    clientResetTransaction x s = resetClientState x (removeClaim x (beginReset x s) g) := by
  obtain ⟨f, -, -⟩ := beginReset_spec x s
  have same : ∀ k, (beginReset x s).waits x k = s.waits x k := fun k => by
    unfold State.waits; rw [f.entry]
  rw [clientReset_begin, foldl_idle (releaseIfHeld x) (beginReset x s) fun k => by
    unfold releaseIfHeld; rw [f.holder, if_neg (holds k)],
    foldl_single (removeClaim x) (fun t => ∀ k, k ≠ g → t.waits x k = false) g
      (fun t b ht hb => (removeClaim_spec x b t).2.2.2 (ht b hb)) groups _ (by decide) (mem_groups g)
      (fun k hk => by rw [same]; exact others k hk)
      (fun k hk => by
        unfold State.waits
        rw [(removeClaim_spec x g _).1 k hk]
        exact (same k).trans (others k hk))]

end Sys2Proof.Machine
end

