-- ==== Sys2Proof/Laws/Transport.lean ====
section
/-! SUPPORT. What is said of a replacement, a grant or a loss carries over to states that differ in
their ports alone: a request's taking and its answer change no more. -/

namespace Sys2Proof.Machine

set_option Elab.async false

variable {s u t0 t : State} {g : Group}

/-- Two states that differ in their ports and the supervisor request registers alone. -/
abbrev SameBesidePorts (s t : State) := SameExcept [.ports, .sreq] s t

theorem SameBesidePorts.symm (h : SameBesidePorts s t) : SameBesidePorts t s := by
  intro p hp; have := h p hp; cases p <;> first | exact this.symm | exact ⟨this.1.symm, this.2.symm⟩

theorem SameBesidePorts.asserted_eq (f : SameBesidePorts s u) : asserted u = asserted s :=
    funext fun l => f.asserted l

theorem SameBesidePorts.demandOf_eq (f : SameBesidePorts s u) (a b) :
    demandOf u a b = demandOf s a b := f.demandOf a b

theorem SameBesidePorts.partnerAsserted_eq (f : SameBesidePorts s u) (l) : partnerAsserted u l =
    partnerAsserted s l := by
  unfold partnerAsserted; rw [f.partners, SameBesidePorts.asserted_eq f]

theorem Replaced.transport {n r b s'} (f0 : SameBesidePorts s s') (f : SameBesidePorts t0 t)
    (h : Replaced n r b s' t0) : Replaced n r b s t :=
  (h.base fun k _ => f0.asserted k).frame f

theorem LinesOutside.transport {n s'} (f0 : SameBesidePorts s s') (f : SameBesidePorts t0 t)
    (h : LinesOutside n s' t0) : LinesOutside n s t := by
  intro l hl
  have := h l hl
  rwa [f0.record, f0.driver, ← f.record l, ← f.driver l] at this

theorem LinesBut.transport {n s'} (f0 : SameBesidePorts s s') (f : SameBesidePorts t0 t)
    (h : LinesBut n s' t0) : LinesBut n s t := by
  intro l hl
  have := h l hl
  rwa [f0.record, f0.driver, ← f.record l, ← f.driver l] at this

theorem OtherEntries.transport {s'} (f0 : SameBesidePorts s s') (f : SameBesidePorts t0 t)
    (h : OtherEntries g s' t0) : OtherEntries g s t := by
  intro l hl
  have := h l hl
  rwa [f0.entry, ← f.entry l] at this

theorem Vacant.transport {st} (f : SameBesidePorts t0 t) (h : Vacant t0 g st) : Vacant t g st := by
  unfold Vacant at *; rw [f.entry]; exact h

theorem Held.transport {s' n p rest} (f0 : SameBesidePorts s s') (f : SameBesidePorts t0 t)
    (h : Held s' t0 g n p rest) : Held s t g n p rest := by
  unfold Held at *; rw [f.entry, ← f0.policy]; exact h

theorem PassesOn.transport {s'} {w} (f0 : SameBesidePorts s s') (f : SameBesidePorts t0 t)
    (h : PassesOn s' t0 g w) : PassesOn s t g w := by
  cases w
  · exact Vacant.transport f h
  · exact Held.transport f0 f h

theorem Resumptions.transport {n s' rs} (f0 : SameBesidePorts s s') (f : SameBesidePorts t0 t)
    (h : Resumptions n s' t0 rs) : Resumptions n s t rs := by
  intro y
  have := h y
  simp only [f0.driver, f0.holder] at this
  simp only [f.driver]
  exact this

theorem Resumes.transport {n s' rs} (f0 : SameBesidePorts s s') (f : SameBesidePorts t0 t)
    (h : Resumes n s' t0 rs) : Resumes n s t rs := by
  obtain ⟨events, free, order, blocked⟩ := h
  rw [SameBesidePorts.asserted_eq f0] at order blocked
  have r : Resumed n (asserted s) s' t0 rs := ⟨events, free, order, blocked⟩
  exact ((r.base (fun l _ => by rw [f0.driver]) (fun l _ => f0.asserted l) fun k _ =>
    f0.holder k).frame f).resumes

theorem DropsDeferred.transport {s' h} (f0 : SameBesidePorts s s') (f : SameBesidePorts t0 t)
    (d : DropsDeferred s' t0 g h) : DropsDeferred s t g h := by
  unfold DropsDeferred dropEvents at *
  rw [f0.deferred] at d; rw [f.deferred]; exact d

theorem heldEvents_transport {n} (f : SameBesidePorts t0 t) : heldEvents n t = heldEvents n t0 := by
  funext y; unfold heldEvents; simp only [f.driver, f.holder]

theorem overtakenEvents_transport {n r} (f : SameBesidePorts s u) : overtakenEvents n r u =
    overtakenEvents n r s := by
  funext y; unfold overtakenEvents; simp only [f.driver, f.holder]

theorem toWatchers_transport {g st h} (f : SameBesidePorts s u) : toWatchers u g st h =
    toWatchers s g st h := by
  funext y; unfold toWatchers; simp only [f.watch]

theorem passedState_transport {w} (f : SameBesidePorts s u) : passedState u g w =
    passedState s g w := by
  funext y; unfold passedState; cases w <;> simp only [toWatchers_transport f]

theorem cutEvents_transport {r} (f : SameBesidePorts s u) : cutEvents u g r = cutEvents s g r := by
  unfold cutEvents; simp only [f.driver]

theorem dropEvents_transport {h} (f : SameBesidePorts s u) : dropEvents u g h = dropEvents s g h := by
  unfold dropEvents; simp only [f.deferred]

theorem lossEvents_transport {h r} (f : SameBesidePorts s u) : lossEvents u g h r =
    lossEvents s g h r := by
  funext y; unfold lossEvents; rw [cutEvents_transport f, dropEvents_transport f, f.audit]

theorem groupConfig_transport (f : SameBesidePorts s u) : u.groupConfig g = s.groupConfig g := by
  unfold State.groupConfig; congr 1; funext p; exact f.record _

/-- What a request sends is the same before it is taken and after it is answered. -/
theorem Sends.answered {s' a} (st : Stored s s') (f : SameExcept [.ports] t0 t)
    (h : Sends s' t0 a) : Sends s t a :=
  (st.sends h).ending f

theorem LosesGroup.transport {s' h r w} (f0 : Stored s s') (f : SameExcept [.ports] t0 t)
    (l : LosesGroup s' t0 g h r w) : LosesGroup s t g h r w := by
  have e0 : SameBesidePorts s s' := f0.frame
  have e1 : SameBesidePorts t0 t := f.mono
  obtain ⟨a, b, c, d, e, o, dd, rs, res, sends⟩ := l
  refine ⟨PassesOn.transport e0 e1 a, OtherEntries.transport e0 e1 b, ?_, ?_, ?_,
    LinesOutside.transport e0 e1 o, DropsDeferred.transport e0 e1 dd, rs,
    res.transport e0 e1, ?_⟩
  · rw [e1.park, c, groupConfig_transport e0]
  · intro y k n; rw [e1.park, d y k n, e0.park]
  · have := Replaced.transport e0 e1 e; rw [e0.policy] at this; exact this
  · refine (Sends.answered f0 f sends).of_eq fun y => ?_
    rw [lossEvents_transport e0, passedState_transport e0]

/-- A forced loss in the transaction of a claim, seen from before the claim was queued (R55). -/
theorem LosesGroup.base {s' : State} {h : Client} {reason : LossReason} {w : List Claim}
    (f : SameExcept [.lease] s s') (holders : ∀ k, s'.holder k = s.holder k) (others : OtherEntries g s s')
    (l : LosesGroup s' t g h reason w) : LosesGroup s t g h reason w := by
  obtain ⟨passes, entries, park, parks, takes, outside, drops, rs, ⟨events, free, order, blocked⟩, sends⟩ := l
  have same : asserted s' = asserted s := funext fun l => f.asserted l
  rw [same] at order blocked
  have r : Resumed (only g) (asserted s) s' t rs := ⟨events, free, order, blocked⟩
  refine ⟨?_, fun k hk => (entries k hk).trans (others k hk), ?_,
    fun y k n => by rw [parks y k n, f.park], ?_, ?_, ?_, rs,
    (r.base (fun l _ => by rw [f.driver]) (fun l _ => f.asserted l) fun k _ => holders k).resumes, ?_⟩
  · cases w with
    | nil => exact passes
    | cons c rest => unfold PassesOn Held at *; rw [f.policy] at passes; exact passes
  · rw [park]; unfold State.groupConfig; congr 2; funext p; exact f.record _
  · have := Replaced.base (s := s) takes fun k _ => f.asserted k
    rw [f.policy] at this; exact this
  · intro l hl; have := outside l hl; rwa [f.record, f.driver] at this
  · unfold DropsDeferred dropEvents at *; rw [f.deferred] at drops; exact drops
  · refine (sends.start f).of_eq fun y => ?_
    unfold lossEvents cutEvents dropEvents passedState toWatchers
    simp only [f.driver, f.deferred, f.audit, f.watch]

end Sys2Proof.Machine
end

