-- ==== Sys2Proof/Laws/Judgements.lean ====
section
/-! SUPPORT. Judging a replacement: what it depends on, staged replacements, and a met pending commit (R76,
R93, R142). -/

namespace Sys2Proof.Machine

set_option Elab.async false

variable {s u t0 t : State} {g : Group}

/-- A group that has a safe configuration active and no driver state is not changed by taking it again. -/
theorem replaceGroup_same (g : Group) (cfg : GroupConfig) (s : State)
    (hr : ∀ l, groupOf l = g → s.record l = cfg.get (positionOf l))
    (hs : ∀ p, (cfg.get p).isSafe)
    (hd : ∀ l, groupOf l = g → s.driver l = ⟨none, none⟩) :
    replaceGroup g cfg (asserted s) s = s := by
  unfold replaceGroup Proposal.apply
  have cuts : (Proposal.of s [(g, cfg)] false).reportCuts s = s := by
    unfold Proposal.reportCuts
    apply foldl_invariant _ (fun t => t = s)
    · rintro t l rfl
      have : ((Proposal.of t [(g, cfg)] false).named (groupOf l) && (t.driver l).pulse.isSome) =
        false := by
        by_cases e : g = groupOf l
        · simp [hd l e.symm]
        · simp [Proposal.of, e]
      rw [this]; simp
    · rfl
  rw [cuts]
  have place : (Proposal.of s [(g, cfg)] false).place s = s := by
    unfold Proposal.place
    have e1 : (Table.tabulate fun l => if (Proposal.of s [(g, cfg)] false).named (groupOf l) =
      true then (Proposal.of s [(g, cfg)] false).result l else s.record l) = s.active := by
      apply Table.ext_get; intro l
      rw [Table.get_tabulate]
      split
      · next h =>
        have : g = groupOf l := by simpa [Proposal.of] using h
        rw [result_only _ _ _ _ (by simp [only, this]), ← hr l this.symm]; rfl
      · rfl
    have e2 : (Table.tabulate fun l => if (Proposal.of s [(g, cfg)] false).named (groupOf l) =
      true then
      ((Proposal.of s [(g, cfg)] false).result l).startDriver (Proposal.of s [(g,
      cfg)] false).starts else s.driver l) = s.drivers := by
      apply Table.ext_get; intro l
      rw [Table.get_tabulate]
      split
      · next h =>
        have : g = groupOf l := by simpa [Proposal.of] using h
        rw [result_only _ _ _ _ (by simp [only, this])]
        have hs := hs (positionOf l)
        show _ = s.driver l
        rw [hd l this.symm]
        unfold Record.isSafe at hs
        unfold Record.startDriver
        split at hs <;> simp_all
      · rfl
    rw [e1, e2]
  rw [place]
  have mirrors : (Proposal.of s [(g, cfg)] false).startMirrors s = s := by
    unfold Proposal.startMirrors
    apply foldl_invariant _ (fun t => t = s)
    · rintro t l rfl
      split
      · next h =>
        have : g = groupOf l := by simpa [Proposal.of] using h
        unfold startMirror
        have hs := hs (positionOf l)
        rw [← hr l this.symm] at hs
        unfold Record.isSafe at hs
        split
        · next h => rw [h] at hs; exact absurd hs (by simp)
        · rfl
      · rfl
    · rfl
  rw [mirrors]
  unfold reportDeassertions
  apply foldl_invariant _ (fun t => t = s)
  · rintro t l rfl
    split
    · next h => simp at h
    · rfl
  · rfl

/-- A judgement depends on the resulting records, the pairs and what is asserted outside the named groups. -/
theorem judge_congr (p p' : Proposal) (s u : State) (hn : p.named = p'.named)
    (hr : p.result = p'.result) (hs : p.starts = p'.starts) (hp : u.pairs = s.pairs)
   (ha : ∀ l, p.named (groupOf l) = false → asserted u l = asserted s l) : judge p u = judge p' s := by
  have him : p.immediate u = p'.immediate s := by
    funext l; unfold Proposal.immediate; rw [← hn, ← hr, ← hs]
    by_cases h : p.named (groupOf l) = true
    · simp [h]
    · simp only [h]; exact ha l (by simpa using h)
  have hl : p.hasLoop = p'.hasLoop := by unfold Proposal.hasLoop; rw [hr]
  have hc : p.conflict u = p'.conflict s := by unfold Proposal.conflict State.pairList; rw [him, hp]
  unfold judge; rw [hl, hc]

theorem Proposal.of_congr (gs : List (Group × GroupConfig)) (b : Bool) (s u : State)
    (hr : ∀ l, u.record l = s.record l) : Proposal.of u gs b = Proposal.of s gs b := by
  unfold Proposal.of; simp only [hr]

/-- The first index whose pair meets a condition, and when there is none (R93, R100). -/
theorem pairList_find (s : State) (c : Fin 8 × Pair → Bool) :
   (∀ i, (s.pairList.find? c).map (·.1) = some i ↔ (∃ q, s.pairs.get i = some q ∧ c (i, q) = true) ∧
     ∀ j, j < i → ¬ ∃ q, s.pairs.get j = some q ∧ c (j, q) = true) ∧
   ((s.pairList.find? c).map (·.1) = none ↔ ∀ i, ¬ ∃ q, s.pairs.get i = some q ∧ c (i, q) = true) := by
  have mem : ∀ ip, ip ∈ s.pairList ↔ s.pairs.get ip.1 = some ip.2 := by
    rintro ⟨i, p⟩; unfold State.pairList; rw [List.mem_filterMap]
    constructor
    · rintro ⟨j, _, h⟩
      obtain ⟨q, hq, e⟩ := Option.map_eq_some_iff.mp h
      injection e with e1 e2; subst e1; subst e2; exact hq
    · intro h; exact ⟨i, mem_groups i, by simp only at h; rw [h]; rfl⟩
  have sorted : s.pairList.Pairwise fun a b => a.1 < b.1 := by
    unfold State.pairList
    rw [List.pairwise_filterMap]
    have : groups.Pairwise (· < ·) := by decide
    refine this.imp ?_
    intro a b hab p hp q hq
    obtain ⟨p', _, rfl⟩ := Option.map_eq_some_iff.mp hp
    obtain ⟨q', _, rfl⟩ := Option.map_eq_some_iff.mp hq
    exact hab
  refine ⟨fun i => ?_, ?_⟩
  · constructor
    · intro h
      obtain ⟨⟨j, q⟩, hf, rfl⟩ := Option.map_eq_some_iff.mp h
      have hm := List.mem_of_find?_eq_some hf
      refine ⟨⟨q, (mem _).mp hm, List.find?_some hf⟩, ?_⟩
      rintro k hk ⟨q', hq', hc⟩
      obtain ⟨_, as, bs, e, no⟩ := List.find?_eq_some_iff_append.mp hf
      have hm' : (k, q') ∈ s.pairList := (mem _).mpr hq'
      rw [e] at hm' sorted
      rcases List.mem_append.mp hm' with hm' | hm'
      · have := no _ hm'; simp [hc] at this
      · rcases List.mem_cons.mp hm' with e' | hm'
        · injection e' with e1; subst e1; exact absurd hk (lt_irrefl _)
        · have := (List.pairwise_cons.mp (List.pairwise_append.mp sorted).2.1).1 _ hm'
          exact absurd hk (not_lt.mpr (le_of_lt this))
    · rintro ⟨⟨q, hq, hc⟩, no⟩
      cases hf : s.pairList.find? c with
      | none =>
        have := List.find?_eq_none.mp hf _ ((mem (i, q)).mpr hq)
        exact absurd hc this
      | some ip =>
        obtain ⟨j, q'⟩ := ip
        have hm := (mem _).mp (List.mem_of_find?_eq_some hf)
        have hj : ¬ j < i := fun lt => no j lt ⟨q', hm, List.find?_some hf⟩
        rcases lt_or_eq_of_le (not_lt.mp hj) with lt | e
        · obtain ⟨_, as, bs, e, no'⟩ := List.find?_eq_some_iff_append.mp hf
          have hm' : (i, q) ∈ s.pairList := (mem _).mpr hq
          rw [e] at hm' sorted
          rcases List.mem_append.mp hm' with hm' | hm'
          · have := no' _ hm'; simp [hc] at this
          · rcases List.mem_cons.mp hm' with e' | hm'
            · injection e' with e1; subst e1; rfl
            · have := (List.pairwise_cons.mp (List.pairwise_append.mp sorted).2.1).1 _ hm'
              exact absurd lt (not_lt.mpr (le_of_lt this))
        · subst e; rfl
  · rw [Option.map_eq_none_iff, List.find?_eq_none]
    constructor
    · rintro h i ⟨q, hq, hc⟩; exact h _ ((mem (i, q)).mpr hq) hc
    · rintro h ⟨i, q⟩ hm hc; exact h i ⟨q, (mem _).mp hm, hc⟩

theorem mem_groupsOf (set : Byte) (g : Group) : g ∈ groupsOf set ↔ set.getLsbD g.val = true := by
  unfold groupsOf names; simp

theorem groupsOf_nil (set : Byte) : groupsOf set = [] ↔ set = 0 := by
  constructor
  · intro h
    apply BitVec.eq_of_getLsbD_eq; intro i hi
    have := mem_groupsOf set ⟨i, hi⟩
    rw [h] at this; simp only [List.not_mem_nil, false_iff, Bool.not_eq_true] at this; rw [this]
    simp
  · rintro rfl; decide

theorem holdsAll_iff (s : State) (x : Client) (set : Byte) : s.holdsAll x (groupsOf set) = true ↔
    ∀ g : Group, set.getLsbD g.val = true → s.holder g = some x := by
  unfold State.holdsAll; simp [List.all_eq_true, mem_groupsOf]

theorem stagedProposal_parts (s : State) (x : Client) (gs : List Group) (b : Bool) (l : Line) :
   (Proposal.of s (gs.map fun g => (g, stagedConfig s x g)) b).named (groupOf l) =
     decide (groupOf l ∈ gs) ∧
   (Proposal.of s (gs.map fun g => (g, stagedConfig s x g)) b).result l = if groupOf l ∈ gs then
     (s.staged.get x).get l else s.record l := by
  unfold Proposal.of
  dsimp only
  refine ⟨?_, ?_⟩
  · rw [Bool.eq_iff_iff]; simp
  · by_cases h : groupOf l ∈ gs
    · rw [if_pos h]
      cases hf : (gs.map fun g => (g, stagedConfig s x g)).find? fun p => p.1 == groupOf l with
      | none =>
        have := List.find?_eq_none.mp hf (groupOf l, stagedConfig s x (groupOf l))
          (List.mem_map.mpr ⟨_, h, rfl⟩)
        simp at this
      | some p =>
        have h1 := List.find?_some hf
        obtain ⟨k, hk, rfl⟩ := List.mem_map.mp (List.mem_of_find?_eq_some hf)
        have : k = groupOf l := by simpa using h1
        subst this
        simp [stagedConfig]
    · rw [if_neg h]
      have : (gs.map fun g => (g, stagedConfig s x g)).find? (fun p => p.1 == groupOf l) = none := by
        rw [List.find?_eq_none]; intro p hp
        obtain ⟨k, hk, rfl⟩ := List.mem_map.mp hp
        simp; rintro rfl; exact h hk
      rw [this]

theorem stagedProposal_named (s : State) (x : Client) (gs : List Group) (b : Bool) (g : Group) :
   (Proposal.of s (gs.map fun g => (g, stagedConfig s x g)) b).named g = decide (g ∈ gs) := by
  have := (stagedProposal_parts s x gs b (lineOf g 0)).1; simpa using this

/-- What a COMMIT proposes for a group set. -/
theorem stagedProposal_groupsOf (s : State) (x : Client) (set : Byte) :
    stagedProposal x (groupsOf set) s = ⟨names set, stagedOver s x (names set), true⟩ := by
  unfold stagedProposal
  have h1 : (Proposal.of s ((groupsOf set).map fun g => (g, stagedConfig s x g)) true).named =
    names set := by
    funext g; rw [stagedProposal_named, Bool.eq_iff_iff]; simp [mem_groupsOf, names]
  have h2 : (Proposal.of s ((groupsOf set).map fun g => (g, stagedConfig s x g)) true).result =
    stagedOver s x (names set) := by
    funext l; rw [(stagedProposal_parts _ _ _ _ _).2]; unfold stagedOver names
    by_cases h : groupOf l ∈ groupsOf set
    · rw [if_pos h, if_pos ((mem_groupsOf _ _).mp h)]
    · rw [if_neg h, if_neg (fun e => h ((mem_groupsOf _ _).mpr e))]
  rw [← h2, ← h1]; rfl

/-- What an EXCHANGE proposes for a group. -/
theorem stagedProposal_single (s : State) (x : Client) (g : Group) : stagedProposal x [g] s =
    ⟨only g, stagedOver s x (only g), true⟩ := by
  unfold stagedProposal
  have h1 : (Proposal.of s ([g].map fun g => (g, stagedConfig s x g)) true).named = only g := by
    funext k; rw [stagedProposal_named, Bool.eq_iff_iff]; simp [only]
  have h2 : (Proposal.of s ([g].map fun g => (g, stagedConfig s x g)) true).result =
    stagedOver s x (only g) := by
    funext l; rw [(stagedProposal_parts _ _ _ _ _).2]; unfold stagedOver only
    by_cases h : groupOf l = g <;> simp [h]
  rw [← h2, ← h1]; rfl

theorem stagedOver_transport (e : SameBesidePorts s u) (x) (n) : stagedOver u x n =
    stagedOver s x n := by
  funext l; unfold stagedOver; rw [e.staged, e.record]

theorem judge_transport (e : SameBesidePorts s u) (p : Proposal) : judge p u = judge p s :=
  judge_congr p p s u rfl rfl rfl e.pairs fun l _ => by rw [SameBesidePorts.asserted_eq e]

/-- The lowest group of a set, which the audit of a refusal names (R163). -/
theorem groupsOf_head (set : Byte) (low : Group) (h1 : set.getLsbD low.val = true)
    (h2 : ∀ g : Group, g < low → set.getLsbD g.val = false) : (groupsOf set).head? = some low := by
  revert low set; decide +kernel

/-- All the application of a met pending commit does (R142, R143). -/
theorem applyDeferred_spec (x : Client) (d : Deferred) (law : PairsDistinct s)
    (dl : ∀ part ∈ d.parts, ∀ part' ∈ d.parts, part.1 = part'.1 → part = part')
    (hd : s.deferred.get x = some d) : AppliesDeferred s (applyDeferred x s) x d := by
  have e : applyDeferred x s = let t : State := { s with deferred := s.deferred.put x none }
    match judge (Proposal.of t d.parts true) t with
    | .accepted => (Proposal.of t d.parts true).apply (asserted t)
      (append x (.pendingDone d.trigger.line?) t)
    | .loop => append x (.pendingFailed d.trigger.line? .loop) t
    | .interlock _ => append x (.pendingFailed d.trigger.line? .interlock) t := by
    unfold applyDeferred
    generalize s.deferred.get x = o at hd
    subst hd
    cases h : judge (Proposal.of { s with deferred := s.deferred.put x none } d.parts true)
        { s with deferred := s.deferred.put x none } <;> simp only [h]
  dsimp only at e
  let v : State := { s with deferred := s.deferred.put x none }
  have fv : SameExcept [.deferred] s v := withDeferred_frame _ _
  have pj : judge (Proposal.of v d.parts true) v = judge (Proposal.of s d.parts true) s := rfl
  have vd : v.deferred.get x = none ∧ ∀ y, y ≠ x → v.deferred.get y = s.deferred.get y :=
    ⟨by simp [v], fun y hy => by simp [v, hy]⟩
  rw [show judge (Proposal.of ({ s with deferred := s.deferred.put x none } : State) d.parts true)
    { s with deferred := s.deferred.put x none } = _ from pj] at e
  unfold AppliesDeferred
  cases hj : judge (Proposal.of s d.parts true) s with
  | accepted =>
    rw [hj] at e; dsimp only at e
    let P := Proposal.of s d.parts true
    have fa := append_frame x (.pendingDone d.trigger.line?) v
    have sa := append_sends x (.pendingDone d.trigger.line?) v
    have e : applyDeferred x s = P.apply (asserted v) (append x (.pendingDone d.trigger.line?) v) :=
      e
    have fp := apply_frame P (asserted v) (append x (.pendingDone d.trigger.line?) v)
    obtain ⟨rp, lo, rs, res, sends⟩ := apply_spec P (asserted v)
      (append x (.pendingDone d.trigger.line?) v)
      (by unfold PairsDistinct; rw [fa.pairs]; exact law) fun l _ => (fa.asserted l).symm
    rw [e]
    have sv : SameExcept [.deferred, .queues] s (append x (.pendingDone d.trigger.line?) v) :=
      fv.mono.trans fa.mono
    refine ⟨by rw [fp.deferred, fa.deferred]; exact vd.1, by
      rw [fp.deferred, fa.deferred]; exact vd.2, ?_, rp.base fun l _ => sv.asserted l, ?_, rs, ?_, ?_⟩
    · intro part hp p
      have hn : P.named (groupOf (lineOf part.1 p)) = true := by
        show (d.parts.any _) = true
        rw [List.any_eq_true]; exact ⟨part, hp, by simp⟩
      rw [(rp _ hn).1]
      show (match d.parts.find? _ with | some p' => _ | none => _) = _
      cases hf : d.parts.find? (fun q => q.1 == groupOf (lineOf part.1 p)) with
      | none => have := List.find?_eq_none.mp hf part hp; simp at this
      | some q =>
        have h1 := List.find?_some hf
        have h2 := List.mem_of_find?_eq_some hf
        have : q = part := dl q h2 part hp (by simpa using h1)
        subst this; simp
    · intro l hl; have := lo l hl; rwa [sv.record, sv.driver] at this
    · have same : asserted s = asserted v := (funext fun l => fv.asserted l).symm
      rw [← same] at res ⊢
      exact (res.base (fun l _ => by rw [sv.driver]) (fun l _ => sv.asserted l) fun k _ =>
        sv.holder k).resumes
    · refine ((sa.trans sends fa).start fv).of_eq fun y => ?_
      have : overtakenEvents P.named P.result (append x (.pendingDone d.trigger.line?) v) y =
        overtakenEvents P.named P.result s y := by
        unfold overtakenEvents; simp only [sv.driver, sv.holder]
      rw [this]; simp [P]
  | loop =>
    rw [hj] at e; dsimp only at e
    have fa := append_frame x (.pendingFailed d.trigger.line? .loop) v
    rw [e]
    exact ⟨by rw [fa.deferred]; exact vd.1, by rw [fa.deferred]; exact vd.2, by rw [fa.active], by
      rw [fa.drivers], (append_sends _ _ _).start fv⟩
  | interlock i =>
    rw [hj] at e; dsimp only at e
    have fa := append_frame x (.pendingFailed d.trigger.line? .interlock) v
    rw [e]
    exact ⟨by rw [fa.deferred]; exact vd.1, by rw [fa.deferred]; exact vd.2, by rw [fa.active], by
      rw [fa.drivers], (append_sends _ _ _).start fv⟩

theorem snapshot_parts_unique {parts : List (Group × GroupConfig)}
    (h : (parts.map (·.1)).Pairwise (· < ·)) : ∀ part ∈ parts, ∀ part' ∈ parts, part.1 = part'.1 →
    part = part' := by
  have := h.imp (fun {a b} h => ne_of_lt h)
  have nd : (parts.map (·.1)).Nodup := this
  intro a ha b hb e
  exact List.inj_on_of_nodup_map nd ha hb e

end Sys2Proof.Machine
end

