-- ==== Sys2Proof/Laws/Handovers.lean ====
section
/-! SUPPORT. Handovers to a claim whose client has a valid park record and asks for it (R85 to R87). -/

namespace Sys2Proof.Machine

set_option Elab.async false

variable {s t t0 u : State} {g : Group} {h : Client} {c : Claim} {rest : List Claim} {cfg : GroupConfig}

/-- The judgement of one group's replacement looks at that group's lines nowhere. -/
theorem judge_only (cfg : GroupConfig) (hr : ∀ l, groupOf l ≠ g → u.record l = s.record l)
    (hd : ∀ l, groupOf l ≠ g → u.driver l = s.driver l) (hp : u.pairs = s.pairs) :
    judge (Proposal.of u [(g, cfg)] false) u = judge (Proposal.of s [(g, cfg)] false) s := by
  apply judge_congr
  · rw [named_only, named_only]
  · funext l
    by_cases e : groupOf l = g
    · rw [result_only _ _ _ _ (by simp [only, e]), result_only _ _ _ _ (by simp [only, e])]
    · simp [Proposal.of, Ne.symm e, hr l e]
  · rfl
  · exact hp
  · intro l hl
    rw [named_only] at hl
    have : groupOf l ≠ g := by simpa [only] using hl
    unfold asserted; rw [hr l this, hd l this]

/-- The lease table and the queues right before the grant of a handover (R36 to R38). -/
def granted (g : Group) (c : Claim) (rest : List Claim) (u : State) : State :=
  append c.client (.granted g) (u.withEntry g fun e =>
    { e with state := .held, holder := some c.client, priority := some c.priority,
             timer := (u.policy.get g).startLease, grace := none, waiting := rest })

theorem granted_frame : SameExcept [.lease, .queues] u (granted g c rest u) :=
  (withEntry_frame _ _ _).mono.trans (append_frame _ _ _).mono

theorem granted_self (r : Ready s u g h) : (granted g c rest u).entry g =
    { s.entry g with
      state := .held, holder := some c.client, priority := some c.priority,
      timer := startedTimer (s.policy.get g).leasePeriod, grace := none, waiting := rest } := by
  unfold granted
  rw [(append_frame _ _ _).entry, State.withEntry_entry_self, startLease_eq, r.frame.policy, r.frame.entry]

theorem granted_other (r : Ready s u g h) {k : Group} (hk : k ≠ g) :
    (granted g c rest u).entry k = s.entry k := by
  unfold granted
  rw [(append_frame _ _ _).entry, State.withEntry_entry_ne _ _ hk, r.frame.entry]

theorem granted_sends : Sends u (granted g c rest u) (toClient c.client [.granted g]) :=
  (append_sends _ _ _).start (withEntry_frame _ _ _)

/-- A grant that asks for a restore of a valid park record (R85 to R87). -/
theorem grant_restores {n : Client} (was : Line → Bool) (restore : c.restore = true)
    (parked : (u.park.get n).get g = some cfg) :
    grant g n c.restore was u = match judge (Proposal.of u [(g, cfg)] false) u with
      | .accepted => replaceGroup g cfg was { u with park := u.park.modify n fun t => t.put g none }
      | .loop => replaceGroup g (u.policy.get g).safe was (append n (.restoreRefused g .loop) u)
      | .interlock _ =>
        replaceGroup g (u.policy.get g).safe was (append n (.restoreRefused g .interlock) u) := by
  unfold grant
  rw [restore]
  generalize (u.park.get n).get g = record at parked
  subst parked
  rfl

/-- Any configuration put in place by a handover, and the watchers told: what there is to know besides
which it is. -/
theorem handover_places (r : Ready s u g h) (distinct : PairsDistinct s) (cfg : GroupConfig)
    {v : State} (f : SameExcept [.park, .queues] (granted g c rest u) v) :
    Held s (notifyWatchers g (replaceGroup g cfg (asserted s) v)) g c.client c.priority rest ∧
    OtherEntries g s (notifyWatchers g (replaceGroup g cfg (asserted s) v)) ∧
    LinesOutside (only g) s (notifyWatchers g (replaceGroup g cfg (asserted s) v)) ∧
    GroupTakes g cfg s (notifyWatchers g (replaceGroup g cfg (asserted s) v)) ∧
    (notifyWatchers g (replaceGroup g cfg (asserted s) v)).park = v.park ∧
    ∃ rs, Resumed (only g) (asserted s) s (notifyWatchers g (replaceGroup g cfg (asserted s) v)) rs ∧
      Sends v (notifyWatchers g (replaceGroup g cfg (asserted s) v)) fun y =>
        heldEvents (only g) (notifyWatchers g (replaceGroup g cfg (asserted s) v)) y ++ rs y ++
          toWatchers s g .held (some c.client) y := by
  have fv : SameExcept [.lease, .drivers, .park, .deferred, .queues] s v :=
    (r.frame.mono.trans granted_frame.mono).trans f.mono
  have dr : ∀ l, v.driver l = if groupOf l = g then { s.driver l with pulse := none } else s.driver l :=
    fun l => by rw [f.driver, granted_frame.driver, r.driver]
  obtain ⟨takes, out, rs, res, sends⟩ := replaceGroup_spec g cfg (asserted s) v
    (by unfold PairsDistinct; rw [fv.pairs]; exact distinct)
    (fun l hl => (asserted_of_driver (fv.record l) (by rw [dr, if_neg hl])).symm)
  have fr := replaceGroup_frame g cfg (asserted s) v
  generalize replaceGroup g cfg (asserted s) v = w at *
  have fw := notifyWatchers_frame g w
  have sw := notifyWatchers_sends g w
  have entryT : ∀ k, (notifyWatchers g w).entry k = (granted g c rest u).entry k := fun k => by
    rw [fw.entry, fr.entry, f.entry]
  have outside : ∀ k : Group, only g k = false → k ≠ g := fun k hk => by simpa [only] using hk
  have outAsserted : ∀ l, only g (groupOf l) = false → asserted v l = asserted s l := fun l hl =>
    asserted_of_driver (fv.record l) (by rw [dr, if_neg (outside _ hl)])
  refine ⟨?_, fun k hk => by rw [entryT, granted_other r hk], ?_, ?_, ?_, rs, ?_, ?_⟩
  · unfold Held; rw [entryT, granted_self r]; and_intros <;> rfl
  · intro l hl
    have := out l hl
    rw [fv.record, dr, if_neg (outside _ hl)] at this
    rw [fw.record, fw.driver]; exact this
  · exact Replaced.frame (takes.base outAsserted) fw
  · rw [fw.park, fr.park]
  · have := Resumed.base (s := s) res (fun l hl => by rw [dr, if_neg (outside _ hl)])
      outAsserted (fun k hk => by unfold State.holder; rw [f.entry, granted_other r (outside k hk)])
    exact this.frame fw
  · refine (sends.trans sw fr).of_eq fun y => ?_
    have held : heldEvents (only g) (notifyWatchers g w) y = heldEvents (only g) w y := by
      unfold heldEvents; simp only [fw.driver, fw.holder]
    rw [held, overtakenEvents_resting _ _ _ fun l hl => by
      rw [dr, if_pos (by simpa [only] using hl)], fr.entry, f.entry, granted_self r]
    unfold toWatchers
    rw [fr.watch, fv.watch]
    simp

/-- A handover to a claim that asks for a restore of a valid park record (R36 to R38, R85 to R87). -/
theorem handover_restoring (r : Ready s u g h) (distinct : PairsDistinct s) (safe : SafeConfigLaw s)
    (restore : c.restore = true) (parked : (u.park.get c.client).get g = some cfg) :
    (HandsOverRestoring s (handover g c rest (asserted s) u) g c rest cfg
      (Sends u (handover g c rest (asserted s) u))) ∧
    ∀ y k, ¬ (y = c.client ∧ k = g) →
      ((handover g c rest (asserted s) u).park.get y).get k = (u.park.get y).get k := by
  have ho : handover g c rest (asserted s) u =
      notifyWatchers g (grant g c.client c.restore (asserted s) (granted g c rest u)) := rfl
  have parkG : (granted g c rest u).park = u.park := granted_frame.park
  have polG : ((granted g c rest u).policy.get g).safe = (s.policy.get g).safe := by
    rw [granted_frame.policy, r.frame.policy]
  rw [grant_restores _ restore (by rw [parkG]; exact parked), judge_only (s := s) cfg
    (fun l _ => by rw [granted_frame.record, r.frame.record])
    (fun l hl => by rw [granted_frame.driver, r.driver, if_neg hl])
    (by rw [granted_frame.pairs, r.frame.pairs]), polG] at ho
  -- the two refusals differ in the reason alone
  have refused : ∀ reason : CheckReason, handover g c rest (asserted s) u =
      notifyWatchers g (replaceGroup g (s.policy.get g).safe (asserted s)
        (append c.client (.restoreRefused g reason) (granted g c rest u))) →
      (Held s (handover g c rest (asserted s) u) g c.client c.priority rest ∧
        OtherEntries g s (handover g c rest (asserted s) u) ∧
        LinesOutside (only g) s (handover g c rest (asserted s) u) ∧
        ∃ rs, Resumes (only g) s (handover g c rest (asserted s) u) rs ∧
          ((handover g c rest (asserted s) u).park.get c.client).get g = some cfg ∧
          GroupTakes g (s.policy.get g).safe s (handover g c rest (asserted s) u) ∧
          Sends u (handover g c rest (asserted s) u) fun y =>
            toClient c.client [.granted g, .restoreRefused g reason] y ++ rs y ++
              toWatchers s g .held (some c.client) y) ∧
      ∀ y k, ¬ (y = c.client ∧ k = g) →
        ((handover g c rest (asserted s) u).park.get y).get k = (u.park.get y).get k := by
    intro reason e
    have fa := append_frame c.client (.restoreRefused g reason) (granted g c rest u)
    have sa := append_sends c.client (.restoreRefused g reason) (granted g c rest u)
    obtain ⟨held, others, out, takes, park, rs, res, sends⟩ :=
      handover_places r distinct (s.policy.get g).safe
        (v := append c.client (.restoreRefused g reason) (granted g c rest u)) fa.mono
    rw [← e] at held others out takes park res sends
    rw [fa.park, parkG] at park
    refine ⟨⟨held, others, out, rs, res.resumes, by rw [park]; exact parked, takes,
      (granted_sends.trans (sa.trans sends fa) granted_frame).of_eq fun y => ?_⟩,
      fun y k _ => by rw [park]⟩
    rw [heldEvents_none _ _ fun l hl => ?_]
    · unfold toClient
      by_cases hy : y = c.client <;> simp [hy]
    · rw [isHeld, (takes l hl).2.safe (safe g _)]; simp
  unfold HandsOverRestoring
  cases hj : judge (Proposal.of s [(g, cfg)] false) s with
  | accepted =>
    rw [hj] at ho; dsimp only at ho
    have fp := withPark_frame ((granted g c rest u).park.modify c.client fun t => t.put g none)
      (granted g c rest u)
    obtain ⟨held, others, out, takes, park, rs, res, sends⟩ :=
      handover_places r distinct cfg fp.mono
    rw [← ho] at held others out takes park res sends
    rw [parkG] at park
    refine ⟨⟨held, others, out, rs, res.resumes, by rw [park]; simp, takes,
      (granted_sends.trans (sends.start fp) granted_frame).of_eq fun y => by simp⟩, fun y k hn => ?_⟩
    rw [park, PerClient.get_modify]
    by_cases hy : y = c.client
    · have hk : k ≠ g := fun e => hn ⟨hy, e⟩
      subst hy; simp [hk]
    · rw [if_neg (Ne.symm hy)]
  | loop => rw [hj] at ho; exact refused .loop ho
  | interlock i => rw [hj] at ho; exact refused .interlock ho

/-- Such a handover seen from before a request's taking and after its answer, or from before a client
reset's last steps. -/
theorem HandsOverRestoring.transport {s' : State} {sends sends' : (Client → List Event) → Prop}
    (f0 : SameBesidePorts s s') (f : SameBesidePorts t0 t)
    (hs : ∀ es es', (∀ y, es y = es' y) → sends' es → sends es')
    (e : HandsOverRestoring s' t0 g c rest cfg sends') : HandsOverRestoring s t g c rest cfg sends := by
  obtain ⟨held, others, out, rs, res, verdict⟩ := e
  refine ⟨held.transport f0 f, others.transport f0 f, out.transport f0 f, rs, res.transport f0 f, ?_⟩
  have j : judge (Proposal.of s' [(g, cfg)] false) s' = judge (Proposal.of s [(g, cfg)] false) s :=
    judge_only cfg (fun l _ => f0.record l) (fun l _ => f0.driver l) f0.pairs
  rw [j] at verdict
  rw [← f0.policy]
  split <;> (rename_i e; simp only [e] at verdict; obtain ⟨p, tk, sd⟩ := verdict)
  · exact ⟨by rw [f.park]; exact p, Replaced.transport f0 f tk, hs _ _ (fun y => by
      rw [heldEvents_transport f, toWatchers_transport f0]) sd⟩
  · exact ⟨by rw [f.park]; exact p, Replaced.transport f0 f tk, hs _ _ (fun y => by
      rw [toWatchers_transport f0]) sd⟩
  · exact ⟨by rw [f.park]; exact p, Replaced.transport f0 f tk, hs _ _ (fun y => by
      rw [toWatchers_transport f0]) sd⟩

theorem LosesToRestore.transport {s' : State} {reason : LossReason} (f0 : Stored s s')
    (f : SameExcept [.ports] t0 t) (l : LosesToRestore s' t0 g h reason c rest cfg) :
    LosesToRestore s t g h reason c rest cfg := by
  have e0 : SameBesidePorts s s' := f0.frame
  have e1 : SameBesidePorts t0 t := f.mono
  obtain ⟨ho, drops, park, parks⟩ := l
  refine ⟨ho.transport e0 e1 fun es es' he sd => (Sends.answered f0 f sd).of_eq fun y => ?_,
    drops.transport e0 e1, ?_, fun y k hn hn' => ?_⟩
  · rw [lossEvents_transport e0, he]
  · rw [e1.park, park, groupConfig_transport e0]
  · rw [e1.park, parks y k hn hn', e0.park]

/-- A release, spoken or silent, to such a claim (R30, R44). -/
theorem releaseGroup_restoring (silent : Bool) (distinct : PairsDistinct s) (safe : SafeConfigLaw s)
    (waiting : (s.entry g).waiting = c :: rest) (restore : c.restore = true)
    (parked : (s.park.get c.client).get g = some cfg) :
    (HandsOverRestoring s (releaseGroup g h silent s) g c rest cfg fun es =>
      Sends s (releaseGroup g h silent s) fun y =>
        toClient h ((if silent then [] else cutEvents s g .released) ++ dropEvents s g h) y ++ es y) ∧
    DropsDeferred s (releaseGroup g h silent s) g h ∧
    ∀ y k, ¬ (y = c.client ∧ k = g) →
      ((releaseGroup g h silent s).park.get y).get k = (s.park.get y).get k := by
  obtain ⟨r, park, s1⟩ := release_ready g h (if silent then none else some CutReason.released) s
  have e : releaseGroup g h silent s = handover g c rest (asserted s)
      (dropDeferred g h (cutPulses g h (if silent then none else some CutReason.released) s)) := by
    unfold releaseGroup passOn
    dsimp only
    rw [r.frame.entry, waiting]
  rw [e]
  generalize dropDeferred g h (cutPulses g h (if silent then none else some CutReason.released) s) = u
    at *
  obtain ⟨ho, parks⟩ := handover_restoring (rest := rest) r distinct safe restore (by rw [park]; exact parked)
  refine ⟨ho.transport (.refl _ _) (.refl _ _) fun es es' he sd =>
    ((s1.trans sd r.frame).of_eq fun y => ?_), ?_, fun y k hn => by rw [parks y k hn, park]⟩
  · rw [he]; cases silent <;> rfl
  · have d := (handover_frame g c rest (asserted s) u).deferred
    have := r.drops
    unfold DropsDeferred at *
    rw [d]; exact this

/-- A forced loss to such a claim (R34, R35). -/
theorem forcedLoss_restoring {reason : LossReason} (hr : reason ≠ .withheld)
    (holder : s.holder g = some h) (law : c.client ≠ h) (distinct : PairsDistinct s)
    (safe : SafeConfigLaw s) (waiting : (s.entry g).waiting = c :: rest) (restore : c.restore = true)
    (parked : (s.park.get c.client).get g = some cfg) :
    LosesToRestore s (forcedLoss g reason s) g h reason c rest cfg := by
  obtain ⟨r, park, parks, s1⟩ := beginLoss_ready g h reason s
  have e : forcedLoss g reason s = handover g c rest (asserted s) (beginLoss g h reason s) := by
    have : passOn g (asserted s) (beginLoss g h reason s) =
        handover g c rest (asserted s) (beginLoss g h reason s) := by
      unfold passOn; rw [r.frame.entry, waiting]
    rw [← this]
    unfold forcedLoss
    rw [holder]
    cases reason <;> first | rfl | exact absurd rfl hr
  rw [e]
  generalize beginLoss g h reason s = u at *
  obtain ⟨ho, parks'⟩ := handover_restoring (rest := rest) r distinct safe restore
    (by rw [parks _ _ fun e => law e.1]; exact parked)
  refine ⟨ho.transport (.refl _ _) (.refl _ _) fun es es' he sd =>
    ((s1.trans sd r.frame).of_eq fun y => by rw [he]), ?_, ?_, fun y k hn hn' => ?_⟩
  · have d := (handover_frame g c rest (asserted s) u).deferred
    have := r.drops
    unfold DropsDeferred at *
    rw [d]; exact this
  · rw [parks' _ _ fun e => law e.1.symm, park]
  · rw [parks' y k hn', parks y k hn]

end Sys2Proof.Machine
end

