-- ==== Sys2Proof/Laws/Ports.lean ====
section
/-! SUPPORT. Write frames: the bytes they store, and the requests they issue (R175, R177, R178). -/

namespace Sys2Proof.Machine

set_option Elab.async false

theorem PerClient.modify_modify' {α} (t : PerClient α) (x : Client) (f g : α → α) :
    (t.modify x f).modify x g = t.modify x (fun a => g (f a)) := by
  simp [PerClient.modify]

@[simp] theorem withPort_withPort (s : State) (x : Client) (f g : Port → Port) :
    (s.withPort x f).withPort x g = s.withPort x (fun p => g (f p)) := by
  simp [State.withPort, PerClient.modify_modify']

theorem withPort_id (s : State) (x : Client) (f : Port → Port) (h : f (s.port x) = s.port x) :
    s.withPort x f = s := by
  have : s.ports.modify x f = s.ports := by
    unfold PerClient.modify; rw [show f (s.ports.get x) = s.ports.get x from h]; simp
  simp [State.withPort, this]

theorem withPort_congr (s : State) (x : Client) (f g : Port → Port)
    (h : f (s.port x) = g (s.port x)) :
    s.withPort x f = s.withPort x g := by
  have : s.ports.modify x f = s.ports.modify x g := by
    unfold PerClient.modify; rw [show f (s.ports.get x) = g (s.ports.get x) from h]
  simp [State.withPort, this]

/-- The record of what MISO returned is set. -/
def setMiso (x : Client) (bs : List Byte) (s : State) : State := s.withPort x fun p => { p with miso := bs }

theorem misoZeros_eq (x : Client) (n : Nat) (s : State) : misoZeros x n s = setMiso x (List.replicate n 0) s := rfl

@[simp] theorem setMiso_setMiso (x : Client) (bs cs : List Byte) (s : State) :
    setMiso x bs (setMiso x cs s) = setMiso x bs s := by
  unfold setMiso; rw [withPort_withPort]

theorem setMiso_self (x : Client) (s : State) : setMiso x (s.port x).miso s = s := withPort_id _ _ _ rfl

@[simp] theorem setMiso_port (x : Client) (bs : List Byte) (s : State) :
    (setMiso x bs s).port x = { s.port x with miso := bs } := by simp [setMiso]

/-- Two changes of ports commute where neither changes what the other reads. -/
theorem withPort_setMiso (x : Client) (bs : List Byte) (s : State) (y : Client) (f : Port → Port)
    (h : ∀ p : Port, f { p with miso := bs } = { f p with miso := bs }) :
    (setMiso x bs s).withPort y f = setMiso x bs (s.withPort y f) := by
  unfold setMiso
  by_cases e : y = x
  · subst e
    rw [withPort_withPort, withPort_withPort]
    exact withPort_congr _ _ _ _ (h _)
  · cases y <;> cases x <;> first | exact absurd rfl e | rfl

/-- The frame assembly buffer after some data bytes from an address on. -/
def bufferOf : Byte → List Byte → List (Byte × Byte)
  | _, [] => []
  | a, v :: vs => (a, v) :: bufferOf (nextAddress a) vs

/-- The address that follows some data bytes. -/
def addressAfter : Byte → List Byte → Byte
  | a, [] => a
  | a, _ :: vs => addressAfter (nextAddress a) vs

/-- The data bytes of a write frame fill the buffer and return zeros. -/
theorem shiftByte_foldl_write (x : Client) (data : List Byte) (s : State) (f : Frame)
    (hf : (s.port x).frame = some f) (hi : f.ignored = false) (hr : f.isRead = false) :
    data.foldl (shiftByte x) s = s.withPort x fun p =>
      { p with frame := some { f with address := addressAfter f.address data,
                                      buffer := f.buffer ++ bufferOf f.address data }
               miso := p.miso ++ List.replicate data.length 0 } := by
  induction data generalizing s f with
  | nil =>
    simp only [List.foldl_nil, addressAfter, bufferOf, List.append_nil, List.length_nil,
      List.replicate_zero]
    symm; apply withPort_id
    rw [← hf]
  | cons v vs ih =>
    rw [List.foldl_cons]
    have e : shiftByte x s v = s.withPort x fun p =>
      { p with
          frame := some
            { f with address := nextAddress f.address, buffer := f.buffer ++ [(f.address, v)] }
          miso := p.miso ++ [0] } := by
      unfold shiftByte; rw [hf]; simp [hi, hr]
    rw [e, ih _ { f with address := nextAddress f.address, buffer := f.buffer ++ [(f.address, v)] }
      (by simp) hi hr]
    simp [bufferOf, addressAfter, List.replicate_succ]

/-- An ignored frame stores nothing and returns zeros. -/
theorem shiftByte_foldl_ignored (x : Client) (data : List Byte) (s : State) (f : Frame)
    (hf : (s.port x).frame = some f) (hi : f.ignored = true) :
    data.foldl (shiftByte x) s = s.withPort x fun p =>
      { p with miso := p.miso ++ List.replicate data.length 0 } := by
  induction data generalizing s with
  | nil => simp only [List.foldl_nil, List.length_nil, List.replicate_zero, List.append_nil]
           symm; apply withPort_id; rfl
  | cons v vs ih =>
    rw [List.foldl_cons]
    have e : shiftByte x s v = s.withPort x fun p => { p with miso := p.miso ++ [0] } := by
      unfold shiftByte; rw [hf]; simp [hi]
    rw [e, ih _ (by simpa using hf)]
    simp [List.replicate_succ]

theorem portTakes_iff (s : State) (x : Client) : portTakes s x = true ↔
    s.resetLow = false ∧ (s.port x).crstLow = false ∧ (s.port x).frame = none := by
  simp [portTakes, and_assoc]

/-- A whole write frame: its buffer takes effect. -/
theorem wholeFrame_write (x : Client) (start : Byte) (data : List Byte) (s : State)
    (h : portTakes s x = true) :
    wholeFrame x 0x80 start data s =
      takeWrites x (bufferOf start data) (misoZeros x (data.length + 2) s) := by
  obtain ⟨h1, h2, h3⟩ := (portTakes_iff s x).mp h
  unfold wholeFrame
  rw [h3]
  simp only [Option.isSome_none, Bool.false_eq_true, if_false]
  have hb : beginFrame x true 0x80 start s = s.withPort x fun p =>
      { p with
        frame := some
          { ignored := false, isRead := false
            address := start, buffer := [], latched := [], entry := .untaken, evt5Read := false }
        miso := [0, 0] } := by
    unfold beginFrame; rw [h3]
    simp only [Option.isSome_none, Bool.false_eq_true, if_false]
    apply withPort_congr
    simp [h1, h2]
  rw [hb, shiftByte_foldl_write x data _ ⟨false, false, start, [], [], .untaken, false⟩ (by
    simp) rfl rfl]
  unfold finishFrame
  simp only [State.withPort_port_self, withPort_withPort, Bool.false_eq_true, if_false, if_true,
    List.nil_append]
  congr 1
  unfold misoZeros
  apply withPort_congr
  simp only [h3.symm]
  congr 1

/-- A frame that begins where the port ignores it (R175). -/
theorem beginFrame_ignored (x : Client) (spaced : Bool) (access start : Byte) (s : State)
    (h3 : (s.port x).frame = none)
    (h : spaced = false ∨ s.resetLow = true ∨ (s.port x).crstLow = true ∨
      (access ≠ 0x40 ∧ access ≠ 0x80)) :
    beginFrame x spaced access start s = s.withPort x fun p =>
      { p with
        frame := some ⟨true, access == 0x40, start, [], [], .untaken, false⟩, miso := [0, 0] } := by
  unfold beginFrame; rw [h3]
  simp only [Option.isSome_none, Bool.false_eq_true, if_false]
  apply withPort_congr
  rcases h with h | h | h | h
  · simp [h]
  · simp [h]
  · simp [h]
  · simp only [ne_eq] at h
    simpa using Or.inr h

/-- The end of a frame that the port ignores. -/
theorem finishFrame_ignored (x : Client) (whole : Bool) (s : State) (f : Frame)
    (hf : (s.port x).frame = some f) (hi : f.ignored = true) :
    finishFrame x whole s = s.withPort x fun p => { p with frame := none } := by
  unfold finishFrame; rw [hf]; simp [hi]

/-- An ignored frame only returns zeros. -/
theorem wholeFrame_ignored (x : Client) (access start : Byte) (data : List Byte) (s : State)
    (h : portTakes s x = false) (h3 : (s.port x).frame = none) :
    wholeFrame x access start data s = misoZeros x (data.length + 2) s := by
  have low : s.resetLow = true ∨ (s.port x).crstLow = true := by
    cases hr : s.resetLow <;> cases hc : (s.port x).crstLow <;> simp_all [portTakes]
  unfold wholeFrame
  rw [h3]
  simp only [Option.isSome_none, Bool.false_eq_true, if_false]
  rw [beginFrame_ignored x true access start s h3 (.inr (low.imp_right .inl)),
    shiftByte_foldl_ignored x data _ ⟨true, access == 0x40, start, [], [], .untaken, false⟩ (by simp)
      rfl, finishFrame_ignored x true _ ⟨true, access == 0x40, start, [], [], .untaken, false⟩ (by simp)
      rfl]
  simp only [withPort_withPort]
  unfold misoZeros
  apply withPort_congr
  simp only [h3.symm]
  congr 1

/-- A request is the write frame that writes its kind and parameters. -/
theorem requestFrame_eq_frame (page : Page) (x : Client) (start : Byte) (kind : Byte)
    (params : List Byte)
    (s : State) (hx : pagePort page = x)
    (body : State → Taken)
    (hw : takeWrites x (bufferOf start (kind :: params)) = fun t =>
      answer x kind (body (storeRequest page kind params t))) :
    Host.Outcome.next (requestFrame page kind params body s) =
      exec (.registerWrite x (.frame start (kind :: params))) s := by
  show _ = Host.Outcome.next (wholeFrame x 0x80 start (kind :: params) s)
  congr 1
  unfold requestFrame
  subst hx
  dsimp only
  by_cases h3 : (s.port (pagePort page)).frame = none
  · rw [h3]
    simp only [Option.isSome_none, Bool.false_eq_true, if_false]
    by_cases ht : portTakes s (pagePort page) = true
    · rw [if_pos ht, wholeFrame_write _ _ _ _ ht, hw]; simp
    · rw [if_neg ht, wholeFrame_ignored _ _ _ _ _ (by simpa using ht) h3]; simp
  · have : (s.port (pagePort page)).frame.isSome = true := by
      rw [Option.isSome_iff_ne_none]; exact h3
    unfold wholeFrame
    rw [if_pos this, if_pos this]

theorem Table.eq_overwrite (t : Table 16 Byte) (xs : List Byte) (u : Table 16 Byte)
    (h : ∀ i, u.get i = xs.getD i.val (t.get i)) : u = t.overwrite xs :=
  Table.ext_get fun i => by rw [h, overwrite_get]

theorem nextAddress_client (n : Nat) (h : n < 127) : nextAddress (BitVec.ofNat 8 n) =
    BitVec.ofNat 8 (n+1) := by
  have : ∀ n : Fin 127, nextAddress (BitVec.ofNat 8 n.val) = BitVec.ofNat 8 (n.val+1) := by
    decide +kernel
  exact this ⟨n, h⟩

theorem nextAddress_supervisor (n : Nat) (h : 0x80 ≤ n ∧ n < 0xFF) :
    nextAddress (BitVec.ofNat 8 n) = BitVec.ofNat 8 (n+1) := by
  have : ∀ n : Fin 127, nextAddress (BitVec.ofNat 8 (n.val+0x80)) = BitVec.ofNat 8 (n.val+0x80+1) :=
    by decide +kernel
  have := this ⟨n - 0x80, by omega⟩
  simpa [show n - 128 + 128 = n by omega] using this

theorem writeRegister_param (x : Client) (s : State) (k : Nat) (hk : k < 16) (v : Byte) :
    writeRegister x s (BitVec.ofNat 8 (5+k), v) = s.withPort x fun p =>
      { p with reqParam := p.reqParam.put ⟨k, hk⟩ v } := by
  unfold writeRegister
  have e : (BitVec.ofNat 8 (5+k)).toNat = 5 + k := by simp [BitVec.toNat_ofNat]; omega
  simp only [e]
  rw [if_neg (by omega), dif_pos (by omega)]
  congr! 5; omega

theorem writeRegister_params (x : Client) (vs : List Byte) (k : Nat) (hk : k + vs.length ≤ 16)
    (s : State) :
    (bufferOf (BitVec.ofNat 8 (5+k)) vs).foldl (writeRegister x) s =
      s.withPort x fun p => { p with reqParam := .tabulate fun i =>
        if k ≤ i.val ∧ i.val < k + vs.length then vs.getD (i.val - k) 0 else p.reqParam.get i } := by
  induction vs generalizing k s with
  | nil =>
    simp only [bufferOf, List.foldl_nil]
    symm; apply withPort_id
    congr 1
    apply Table.ext_get; intro i
    rw [Table.get_tabulate, if_neg (by simp)]
    rfl
  | cons v vs ih =>
    simp only [List.length_cons] at hk
    simp only [bufferOf, List.foldl_cons]
    rw [writeRegister_param x s k (by omega), nextAddress_client _ (by omega),
      show 5 + k + 1 = 5 + (k+1) by omega, ih (k+1) (by omega)]
    rw [withPort_withPort]
    apply withPort_congr
    congr 1
    apply Table.ext_get; intro i
    simp only [Table.get_tabulate, List.length_cons, Table.get_put]
    by_cases h1 : i.val = k
    · have : (⟨k, by omega⟩ : Fin 16) = i := Fin.ext h1.symm
      simp [h1, this]
    · have hne : ¬ (⟨k, by omega⟩ : Fin 16) = i := fun e => h1 (by rw [← e])
      simp only [hne, if_false]
      by_cases h2 : k + 1 ≤ i.val ∧ i.val < k + 1 + vs.length
      · rw [if_pos h2, if_pos (by omega)]
        rw [show i.val - k = (i.val - (k+1)) + 1 by omega]; simp
      · rw [if_neg h2, if_neg (by omega)]

theorem writeRegister_request (x : Client) (kind : Byte) (params : List Byte)
    (h : params.length ≤ 16) (s : State) :
    (bufferOf 0x04 (kind :: params)).foldl (writeRegister x) s =
      storeRequest (.client x) kind params s := by
  simp only [bufferOf, List.foldl_cons]
  have e : writeRegister x s (0x04, kind) = s.withPort x fun p => { p with reqKind := kind } := by
    unfold writeRegister; simp
  rw [e, show nextAddress 0x04 = BitVec.ofNat 8 (5+0) by decide, writeRegister_params x params 0 (by
    omega)]
  unfold storeRequest
  dsimp only
  rw [withPort_withPort]
  apply withPort_congr
  congr 1
  apply Table.eq_overwrite
  intro i
  simp only [Table.get_tabulate, Nat.zero_le, true_and, Nat.zero_add, Nat.sub_zero]
  split
  · next h => rw [List.getD_eq_getElem _ _ h, List.getD_eq_getElem _ _ h]
  · next h => rw [List.getD_eq_default _ _ (by omega)]

/-- The write frame from REQ_KIND on issues the client page's request. -/
theorem takeWrites_client (x : Client) (kind : Byte) (params : List Byte) (h : params.length ≤ 16)
    (s : State) :
    takeWrites x (bufferOf 0x04 (kind :: params)) s =
      answer x kind (takeRequest (.client x) kind (storeRequest (.client x) kind params s)) := by
  unfold takeWrites
  rw [writeRegister_request x kind params h]
  have : ((bufferOf 0x04 (kind :: params)).any fun w => w.1 == 0x04) = true := by simp [bufferOf]
  rw [if_pos this]
  unfold issue
  simp [storeRequest, pagePort]

theorem writeRegister_sparam (s : State) (k : Nat) (hk : k < 16) (v : Byte) :
    writeRegister .a s (BitVec.ofNat 8 (0x82+k), v) =
      { s with sreqParam := s.sreqParam.put ⟨k, hk⟩ v } := by
  unfold writeRegister
  have e : (BitVec.ofNat 8 (0x82+k)).toNat = 0x82 + k := by simp [BitVec.toNat_ofNat]; omega
  simp only [e]
  have above : ∀ n, n < 0x82 → 0x82 + k ≠ n := fun n h => by omega
  simp only [above, dif_neg (show ¬ (0x05 ≤ 0x82 + k ∧ 0x82 + k ≤ 0x14) by omega),
    dif_pos (show True ∧ 0x82 ≤ 0x82 + k ∧ 0x82 + k ≤ 0x91 by simp; omega), Nat.reduceLT, if_false,
    and_false]
  have : ∀ h, (⟨0x82 + k - 0x82, h⟩ : Fin 16) = ⟨k, hk⟩ := fun h => Fin.ext (by simp)
  simp only [this]

theorem writeRegister_sparams (vs : List Byte) (k : Nat) (hk : k + vs.length ≤ 16) (s : State) :
    (bufferOf (BitVec.ofNat 8 (0x82+k)) vs).foldl (writeRegister .a) s =
      { s with sreqParam := .tabulate fun i =>
        if k ≤ i.val ∧ i.val < k + vs.length then vs.getD (i.val - k) 0 else s.sreqParam.get i } := by
  induction vs generalizing k s with
  | nil =>
    simp only [bufferOf, List.foldl_nil]
    have : (Table.tabulate fun i : Fin 16 =>
        if k ≤ i.val ∧ i.val < k + ([] : List Byte).length then
          ([] : List Byte).getD (i.val - k) 0 else s.sreqParam.get i) = s.sreqParam := by
      apply Table.ext_get; intro i
      rw [Table.get_tabulate, if_neg (by simp)]
    rw [this]
  | cons v vs ih =>
    simp only [List.length_cons] at hk
    simp only [bufferOf, List.foldl_cons]
    rw [writeRegister_sparam s k (by omega), nextAddress_supervisor _ (by omega),
      show 0x82 + k + 1 = 0x82 + (k+1) by omega, ih (k+1) (by omega)]
    congr 1
    apply Table.ext_get; intro i
    simp only [Table.get_tabulate, List.length_cons, Table.get_put]
    by_cases h1 : i.val = k
    · have : (⟨k, by omega⟩ : Fin 16) = i := Fin.ext h1.symm
      simp [h1, this]
    · have hne : ¬ (⟨k, by omega⟩ : Fin 16) = i := fun e => h1 (by rw [← e])
      simp only [hne, if_false]
      by_cases h2 : k + 1 ≤ i.val ∧ i.val < k + 1 + vs.length
      · rw [if_pos h2, if_pos (by omega)]
        rw [show i.val - k = (i.val - (k+1)) + 1 by omega]; simp
      · rw [if_neg h2, if_neg (by omega)]

theorem bufferOf_supervisor (vs : List Byte) (n : Nat) (hn : 0x80 ≤ n) (h : n + vs.length ≤ 0xFF) :
    ((bufferOf (BitVec.ofNat 8 n) vs).any fun w => w.1 == 0x04) = false := by
  induction vs generalizing n with
  | nil => rfl
  | cons v vs ih =>
    simp only [List.length_cons] at h
    simp only [bufferOf, List.any_cons]
    rw [nextAddress_supervisor n (by omega), ih (n+1) (by omega) (by omega)]
    have : ¬ BitVec.ofNat 8 n = 4#8 := by
      intro e; have := congrArg BitVec.toNat e; simp at this; omega
    simp [this]

/-- The write frame from SREQ_KIND on issues the supervisor page's request. -/
theorem takeWrites_supervisor (kind : Byte) (params : List Byte) (h : params.length ≤ 16)
    (s : State) :
    takeWrites .a (bufferOf 0x81 (kind :: params)) s =
      answer .a kind (takeRequest .supervisor kind (storeRequest .supervisor kind params s)) := by
  have e : writeRegister .a s (0x81, kind) = { s with sreqKind := kind } := by
    unfold writeRegister; simp
  have fold : (bufferOf 0x81 (kind :: params)).foldl (writeRegister .a) s =
    storeRequest .supervisor kind params s := by
    simp only [bufferOf, List.foldl_cons]
    rw [e, show nextAddress 0x81 = BitVec.ofNat 8 (0x82+0) by decide,
      writeRegister_sparams params 0 (by omega)]
    unfold storeRequest
    dsimp only
    congr 1
    apply Table.eq_overwrite
    intro i
    simp only [Table.get_tabulate, Nat.zero_le, true_and, Nat.zero_add, Nat.sub_zero]
    split
    · next h => rw [List.getD_eq_getElem _ _ h, List.getD_eq_getElem _ _ h]
    · next h => rw [List.getD_eq_default _ _ (by omega)]
  unfold takeWrites
  rw [fold]
  have h1 : ((bufferOf 0x81 (kind :: params)).any fun w => w.1 == 0x04) = false :=
    bufferOf_supervisor (kind :: params) 0x81 (by omega) (by simp; omega)
  have h2 : ((bufferOf 0x81 (kind :: params)).any fun w => w.1 == 0x81) = true := by simp [bufferOf]
  rw [h1, if_neg (by simp), if_pos ⟨rfl, h2⟩]
  unfold issue
  simp [storeRequest, pagePort]

theorem storeRequest_params_client (x : Client) (kind : Byte) (params : List Byte) (s : State)
    (i : Nat) (h : i < params.length) (h16 : i < 16) :
    (storeRequest (.client x) kind params s).params (.client x) i = params[i] := by
  unfold storeRequest State.params Table.at
  simp only [State.withPort_port_self]
  rw [dif_pos (by omega), overwrite_get, List.getD_eq_getElem _ _ h]

theorem storeRequest_params_supervisor (kind : Byte) (params : List Byte) (s : State) (i : Nat)
    (h : i < params.length) (h16 : i < 16) :
    (storeRequest .supervisor kind params s).params .supervisor i = params[i] := by
  unfold storeRequest State.params Table.at
  dsimp only
  rw [dif_pos (by omega), overwrite_get, List.getD_eq_getElem _ _ h]

theorem word16_split (w : Word16) : word16 (w.extractLsb' 8 8) (w.extractLsb' 0 8) = w := by
  unfold word16
  apply BitVec.eq_of_getLsbD_eq; intro i hi
  rw [BitVec.getLsbD_append]
  by_cases h : i < 8
  · simp [h]
  · have h8 : i - 8 < 8 := by omega
    simp [h, h8]; rw [show 8 + (i - 8) = i by omega]

end Sys2Proof.Machine
end

