-- ==== Sys2Proof/Laws/Ignored.lean ====
section
/-! SUPPORT. Whole frames at a port that does not take them (R170, R173, R175): the record of MISO is zeros, and
nothing else happens; and the state while RESETn is low. -/

namespace Sys2Proof.Machine

set_option Elab.async false

variable {s : State} {x : Client}

/-- A request's frame at a port that does not take it. -/
theorem requestFrame_ignored (page : Page) (kind : Byte) (params : List Byte) (body : State → Taken)
    (h : portTakes s (pagePort page) = false) (h3 : (s.port (pagePort page)).frame = none) :
    requestFrame page kind params body s = misoZeros (pagePort page) (params.length + 3) s := by
  unfold requestFrame
  simp [h3, h]

/-- A request's frame while CS is low. -/
theorem requestFrame_low (page : Page) (kind : Byte) (params : List Byte) (body : State → Taken)
    (h3 : (s.port (pagePort page)).frame.isSome = true) : requestFrame page kind params body s = s := by
  unfold requestFrame
  simp [h3]

theorem wholeFrame_low (access start : Byte) (data : List Byte) (h3 : (s.port x).frame.isSome = true) :
    wholeFrame x access start data s = s := by
  unfold wholeFrame
  simp [h3]

/-- What a whole frame does: the part's own work where the port takes it, and otherwise zeros on MISO, or
nothing where CS is low. -/
theorem exec_frame {c : Instr} {count : Nat} (hc : frameOf c = some (x, count)) (h : portTakes s x = false) :
    exec c s = .next (if (s.port x).frame.isSome then s else misoZeros x count s) := by
  have request : ∀ (page : Page) (kind : Byte) (params : List Byte) (body : State → Taken),
      some (pagePort page, params.length + 3) = some (x, count) →
      requestFrame page kind params body s =
        if (s.port x).frame.isSome then s else misoZeros x count s := by
    intro page kind params body e
    injection e with e
    injection e with e1 e2
    subst e1 e2
    split
    · exact requestFrame_low _ _ _ _ ‹_›
    · exact requestFrame_ignored _ _ _ _ h (Option.not_isSome_iff_eq_none.1 ‹_›)
  have whole : ∀ (y : Client) (access start : Byte) (data : List Byte),
      some (y, data.length + 2) = some (x, count) →
      wholeFrame y access start data s = if (s.port x).frame.isSome then s else misoZeros x count s := by
    intro y access start data e
    injection e with e
    injection e with e1 e2
    subst e1 e2
    split
    · exact wholeFrame_low _ _ _ ‹_›
    · exact wholeFrame_ignored _ _ _ _ _ h (Option.not_isSome_iff_eq_none.1 ‹_›)
  cases c with
  | eventPop y op =>
    cases op <;> first
      | (cases hc; done)
      | exact congrArg Host.Outcome.next (whole y _ _ _ (by simpa [frameOf] using hc))
  | registerWrite y op =>
    cases op <;> first
      | (cases hc; done)
      | exact congrArg Host.Outcome.next (whole y _ _ _ hc)
  | irqSelWrite y v =>
    injection hc with e
    injection e with e1 e2
    subst e1 e2
    refine congrArg Host.Outcome.next ?_
    simp [h]
  | _ =>
    first
      | (cases hc; done)
      | (refine congrArg Host.Outcome.next (request _ _ _ _ ?_); exact hc)

/-- A device reset puts every part at its device-reset value (R173). -/
theorem deviceResetState_at (s : State) : AtDeviceReset (deviceResetState s) := by
  refine ⟨rfl, fun p hp => ?_, fun l => by simp [deviceResetState, LineSampler.first], fun x => ?_⟩
  · cases p <;> first | rfl | exact ⟨rfl, rfl⟩ | exact absurd (by decide) hp
  · have port : (deviceResetState s).port x = (s.port x).deviceReset := by
      simp [deviceResetState, State.port]
    rw [port]
    refine ⟨by simp [Port.deviceReset, State.reset, State.port], fun f hf => ?_⟩
    simp only [Port.deviceReset, Port.cutFrame, Option.map_eq_some_iff] at hf
    obtain ⟨g, -, rfl⟩ := hf
    rfl

end Sys2Proof.Machine
end

