-- ==== Sys2Proof/Laws/Turns.lean ====
section
/-! SUPPORT. The turns of a changed line's mirrors, in ascending line number, and what they send (R95, R97,
R116). -/

namespace Sys2Proof.Machine

set_option Elab.async false

variable {s t u : State} {l m : Line} {lv : Level}

/-! ### The turn of one mirror (R95, R97, R116) -/

/-- The mirror state of a mirror whose demand is now this, where `caught` says whether a gained demand
finds a partner asserted. -/
def turnedMirror (mirror : Option Mirror) (demand caught : Bool) : Option Mirror :=
  match mirror, demand with
  | some ⟨.following, false⟩, true => some (if caught then ⟨.held, true⟩ else ⟨.following, true⟩)
  | some ⟨.following, true⟩, false => some ⟨.following, false⟩
  | some ⟨.held, _⟩, false => some ⟨.following, false⟩
  | other, _ => other

/-- Whether a mirror gains demand. -/
def gains (mirror : Option Mirror) (demand : Bool) : Bool :=
  demand && (mirror == some ⟨.following, false⟩)

/-- What the turn of a mirror sends to its holder. -/
def followEvents (m : Line) (mirror : Option Mirror) (demand caught : Bool) : List Event :=
  if gains mirror demand && caught then [.mirrorHeld m]
  else if mirror.map (·.phase) = some .held ∧ demand = false then [.mirrorResumed m false]
  else []

/-- All a turn does. -/
theorem followMirror_spec (m : Line) (demand : Bool) (s : State) :
    (∀ k, (followMirror m demand s).driver k = if k = m then
      { s.driver m with mirror := turnedMirror (s.driver m).mirror demand (partnerAsserted s m) }
      else s.driver k) ∧
    Sends s (followMirror m demand s) (toHolder (s.holder (groupOf m))
      (followEvents m (s.driver m).mirror demand (partnerAsserted s m))) := by
  -- a changed mirror state, with and without an event
  have one : ∀ mir : Option Mirror, ∀ k, (s.withDriver m fun d => { d with mirror := mir }).driver k =
      if k = m then { s.driver m with mirror := mir } else s.driver k := by
    intro mir k
    by_cases e : k = m
    · subst e; simp
    · simp [e]
  have told : ∀ (mir : Option Mirror) (e : Event),
      (∀ k, (appendHolder (groupOf m) e (s.withDriver m fun d => { d with mirror := mir })).driver k =
        if k = m then { s.driver m with mirror := mir } else s.driver k) ∧
      Sends s (appendHolder (groupOf m) e (s.withDriver m fun d => { d with mirror := mir }))
        (toHolder (s.holder (groupOf m)) [e]) := by
    intro mir e
    refine ⟨fun k => by rw [(appendHolder_frame _ _ _).driver, one], ?_⟩
    have f := withDriver_frame m (fun d => { d with mirror := mir }) s
    have := (appendHolder_sends (groupOf m) e (s.withDriver m fun d => { d with mirror := mir })).start f
    rwa [f.holder] at this
  have untold : ∀ mir : Option Mirror,
      Sends s (s.withDriver m fun d => { d with mirror := mir }) (toHolder (s.holder (groupOf m)) []) :=
    fun mir => (Sends.nil (withDriver_frame m _ s).queues).of_eq fun y => by simp [toHolder]
  have same : (s.driver m).mirror = (s.driver m).mirror → ∀ k, s.driver k = if k = m then
      { s.driver m with mirror := (s.driver m).mirror } else s.driver k := by
    intro _ k; by_cases e : k = m
    · subst e; simp
    · simp [e]
  have silent : Sends s s (toHolder (s.holder (groupOf m)) []) :=
    (Sends.nil rfl).of_eq fun y => by simp [toHolder]
  unfold followMirror
  rcases hm : (s.driver m).mirror with _ | ⟨phase, d⟩
  · exact ⟨by simpa [turnedMirror, hm] using same rfl, by simpa [followEvents, gains] using silent⟩
  · cases phase <;> cases d <;> cases demand <;> dsimp only <;>
      first
      | exact ⟨by simpa [turnedMirror, hm] using same rfl, by simpa [followEvents, gains] using silent⟩
      | exact ⟨by simpa [turnedMirror] using one _, by simpa [followEvents, gains] using untold _⟩
      | exact ⟨by simpa [turnedMirror] using (told _ _).1,
          by simpa [followEvents, gains] using (told _ _).2⟩
      | (cases pa : partnerAsserted s m
         · exact ⟨by simpa [turnedMirror] using one _, by simpa [followEvents, gains] using untold _⟩
         · exact ⟨by simpa [turnedMirror] using (told _ _).1,
             by simpa [followEvents, gains] using (told _ _).2⟩)

/-! ### The turns of all mirrors of a line -/

/-- The turn of one line. -/
def turn (l : Line) (t : State) (m : Line) : State :=
  match (t.record m).function with
  | .mirror src sense => if src = l then followMirror m (demandOf t src sense) t else t
  | _ => t

theorem followSource_eq (l : Line) (s : State) :
    followSource l s = reportDeassertions (asserted s) (lines.foldl (turn l) s) := rfl

/-- The demand a line has as a mirror of `l`; none where it is no mirror of it. -/
def demandFrom (s : State) (l m : Line) : Option Bool :=
  match (s.record m).function with
  | .mirror src sense => if src = l then some (demandOf s src sense) else none
  | _ => none

theorem demandFrom_eq_some {d : Bool} : demandFrom s l m = some d ↔
    ∃ sense, (s.record m).function = .mirror l sense ∧ demandOf s l sense = d := by
  unfold demandFrom
  cases h : (s.record m).function with
  | mirror src sense =>
    by_cases e : src = l
    · subst e; simp
    · simp [e]
  | _ => simp

theorem turn_frame (l : Line) (t : State) (m : Line) : SameExcept [.drivers, .queues] t (turn l t m) := by
  unfold turn
  split
  · exact .ite (followMirror_frame _ _ t) (.refl _ t)
  · exact .refl _ t

theorem turn_spec (l : Line) (t : State) (m : Line) :
    (∀ k, (turn l t m).driver k = match demandFrom t l m with
      | some d => if k = m then
          { t.driver m with mirror := turnedMirror (t.driver m).mirror d (partnerAsserted t m) }
        else t.driver k
      | none => t.driver k) ∧
    Sends t (turn l t m) (toHolder (t.holder (groupOf m)) (match demandFrom t l m with
      | some d => followEvents m (t.driver m).mirror d (partnerAsserted t m)
      | none => [])) := by
  have silent : Sends t t (toHolder (t.holder (groupOf m)) []) :=
    (Sends.nil rfl).of_eq fun y => by simp [toHolder]
  unfold turn demandFrom
  cases h : (t.record m).function with
  | mirror src sense =>
    by_cases e : src = l
    · subst e
      simp only [if_true]
      exact followMirror_spec m (demandOf t src sense) t
    · simp only [if_neg e]
      exact ⟨fun _ => trivial, silent⟩
  | _ => exact ⟨fun _ => rfl, silent⟩

/-- The state in which a line's turn comes. -/
def beforeTurn (l : Line) (s : State) (m : Line) : State :=
  (lines.filter fun k => decide (k < m)).foldl (turn l) s

/-- Whether a line gains demand as a mirror of `l` and finds a partner asserted at its turn. -/
def caughtBy (l : Line) (s : State) (m : Line) : Bool :=
  (match demandFrom s l m with
    | some d => gains (s.driver m).mirror d
    | none => false) && partnerAsserted (beforeTurn l s m) m

theorem demandFrom_congr (f : SameExcept [.drivers, .queues] s t) : demandFrom t l m = demandFrom s l m := by
  unfold demandFrom; simp only [f.record, f.demandOf]

theorem lines_sorted : lines.Pairwise (· < ·) := by decide

/-- What stands before a line in ascending line number. -/
theorem before_of_split {done rest : List Line} (h : lines = done ++ m :: rest) :
    lines.filter (fun k => decide (k < m)) = done := by
  have sorted := lines_sorted
  rw [h, List.pairwise_append, List.pairwise_cons] at sorted
  obtain ⟨_, ⟨above, _⟩, below⟩ := sorted
  rw [h, List.filter_append, List.filter_eq_self.2, List.filter_eq_nil_iff.2, List.append_nil]
  · intro k hk
    rcases List.mem_cons.1 hk with rfl | hk
    · simp
    · simpa using le_of_lt (above k hk)
  · intro k hk
    simpa using below k hk m List.mem_cons_self

theorem turnedMirror_caught (mirror : Option Mirror) (d pa : Bool) :
    turnedMirror mirror d pa = turnedMirror mirror d (gains mirror d && pa) := by
  rcases mirror with _ | ⟨_ | _, _ | _⟩ <;> cases d <;> rfl

theorem followEvents_caught (mirror : Option Mirror) (d pa : Bool) :
    followEvents m mirror d pa = followEvents m mirror d (gains mirror d && pa) := by
  unfold followEvents; cases gains mirror d <;> rfl

/-- The turns of the first lines: what has become of them, and what they have sent. -/
theorem turns_spec (l : Line) (s : State) (done : List Line) :
    ∀ rest, lines = done ++ rest →
      SameExcept [.drivers, .queues] s (done.foldl (turn l) s) ∧
      (∀ m, (done.foldl (turn l) s).driver m = match demandFrom s l m with
        | some d => if m ∈ done then
            { s.driver m with mirror := turnedMirror (s.driver m).mirror d (caughtBy l s m) }
          else s.driver m
        | none => s.driver m) ∧
      Sends s (done.foldl (turn l) s) fun y =>
        (done.filter fun m => s.holder (groupOf m) == some y).flatMap fun m =>
          match demandFrom s l m with
          | some d => followEvents m (s.driver m).mirror d (caughtBy l s m)
          | none => [] := by
  induction done using List.reverseRecOn with
  | nil =>
    intro rest _
    exact ⟨.refl _ s, fun m => by simp; split <;> rfl, (Sends.nil rfl).of_eq fun y => rfl⟩
  | append_singleton done m ih =>
    intro rest h
    have split : lines = done ++ m :: rest := by rw [h]; simp
    obtain ⟨f, dr, sends⟩ := ih _ split
    have before : beforeTurn l s m = done.foldl (turn l) s := by
      unfold beforeTurn; rw [before_of_split split]
    have fresh : m ∉ done := by
      have := lines_nodup
      rw [split] at this
      exact fun hm => (List.nodup_append.1 this).2.2 m hm m List.mem_cons_self rfl
    rw [List.foldl_append]
    simp only [List.foldl_cons, List.foldl_nil]
    have own : (done.foldl (turn l) s).driver m = s.driver m := by
      rw [dr]; split <;> simp [fresh]
    have tf := turn_frame l (done.foldl (turn l) s) m
    obtain ⟨td, ts⟩ := turn_spec l (done.foldl (turn l) s) m
    rw [demandFrom_congr f] at td ts
    rw [own, f.holder] at ts
    have caught : ∀ d, demandFrom s l m = some d → caughtBy l s m =
        (gains (s.driver m).mirror d && partnerAsserted (done.foldl (turn l) s) m) := by
      intro d hd; unfold caughtBy; rw [hd, before]
    refine ⟨f.trans tf, fun k => ?_, (sends.trans ts f).of_eq fun y => ?_⟩
    · rw [td]
      cases hd : demandFrom s l m with
      | none =>
        dsimp only
        rw [dr]
        cases hk : demandFrom s l k with
        | none => rfl
        | some d =>
          have : k ≠ m := fun e => by rw [e, hd] at hk; cases hk
          simp [this]
      | some d =>
        dsimp only
        by_cases e : k = m
        · subst e
          simp only [if_true, hd, own]
          rw [if_pos (by simp), turnedMirror_caught, ← caught d hd]
        · rw [if_neg e, dr]
          simp [e]
    · rw [List.filter_append, List.flatMap_append]
      congr 1
      cases hd : demandFrom s l m with
      | none => by_cases hy : s.holder (groupOf m) = some y <;> simp [toHolder, hy, hd]
      | some d =>
        dsimp only
        rw [followEvents_caught, ← caught d hd]
        by_cases hy : s.holder (groupOf m) = some y <;> simp [toHolder, hy, hd]

end Sys2Proof.Machine
end

