-- ==== Sys2Proof/Laws/Samples.lean ====
section
/-! SUPPORT. A sample instant in which one line changes: the reports of the edge, the mirrors that follow it
and the re-evaluations after them, and the pending commits it meets (R123 to R126, R131, R95 to R97, R140). -/

namespace Sys2Proof.Machine

set_option Elab.async false

variable {s s0 s1 t u : State} {l m : Line} {lv : Level}

/-! ### The reports of the edge (R126, R131) -/

theorem Edges.selects_iff (e : Edges) (lv : Level) : e.selects lv = true ↔
    e = .both ∨ e = .rising ∧ lv = .high ∨ e = .falling ∧ lv = .low := by
  cases e <;> cases lv <;> decide

/-- The holder is told, then the watchers. -/
theorem reportWatchers_spec (l : Line) (lv : Level) (s : State) :
    SameExcept [.queues] s (reportWatchers l lv (reportEdge l lv s)) ∧
      Sends s (reportWatchers l lv (reportEdge l lv s)) (edgeEvents s l lv) := by
  have f1 := reportEdge_frame l lv s
  refine ⟨f1.trans (reportWatchers_frame l lv _), ?_⟩
  have s1 : Sends s (reportEdge l lv s) fun y => if (s.record l).edges.selects lv = true then
      toHolder (s.holder (groupOf l)) [.inputEdge l lv] y else [] := by
    unfold reportEdge
    exact .ite (fun _ => appendHolder_sends _ _ s) fun _ => .nil rfl
  let es : Client → Client → List Event := fun x y => match (s.watch.get (groupOf l)).get x with
    | some e => if e.selects lv = true then toClient x [.watchEdge l lv] y else []
    | none => []
  have s2 : Sends (reportEdge l lv s) (reportWatchers l lv (reportEdge l lv s)) fun y =>
      clients.flatMap fun x => es x y := by
    unfold reportWatchers
    refine Sends.foldl (ps := [.queues]) _ es (fun t x => ?_) (by decide) (by decide)
      (fun t => SameExcept [.queues] s t) (fun t x h => h.trans ?_) (fun t x h => ?_) _ _ f1
    · split
      · exact (append_frame _ _ t).ite (.refl _ t)
      · exact .refl _ t
    · split
      · exact (append_frame _ _ t).ite (.refl _ t)
      · exact .refl _ t
    · rw [h.watch]
      dsimp only [es]
      cases (s.watch.get (groupOf l)).get x with
      | none => exact .nil rfl
      | some e => exact .ite (fun _ => append_sends x _ t) fun _ => .nil rfl
  refine (s1.trans s2 f1).of_eq fun y => ?_
  unfold edgeEvents
  congr 1
  · simp only [Edges.selects_iff]
  · rw [flatMap_clients es y]
    · dsimp only [es]
      cases (s.watch.get (groupOf l)).get y with
      | none => rfl
      | some e => simp only [Edges.selects_iff, toClient, if_true]
    · intro x hx
      dsimp only [es]
      cases (s.watch.get (groupOf l)).get x with
      | none => rfl
      | some e => simp [toClient, Ne.symm hx]

/-! ### No two partners asserted (R91) -/

/-- No line is its own partner, and no two partners are both asserted. -/
def Exclusive (s : State) : Prop :=
  ∀ a b, b ∈ partners s a → b ≠ a ∧ ¬ (asserted s a = true ∧ asserted s b = true)

theorem PairLaw.exclusive (h : PairLaw s) : Exclusive s := by
  intro a b hb
  refine ⟨h.distinct.ne hb, ?_⟩
  obtain ⟨i, p, hp, hm⟩ := mem_partners.1 hb
  have no := (h i p hp).2.2.2
  rintro ⟨ha, ha'⟩
  unfold Pair.partner at hm
  split at hm
  · next e => cases hm; subst e; exact no ⟨ha, ha'⟩
  · split at hm
    · next e => cases hm; subst e; exact no ⟨ha', ha⟩
    · cases hm

/-- One line changed, which asserts only where no partner is asserted. -/
theorem Exclusive.step (h : Exclusive s) (f : SameExcept [.drivers, .queues] s t) (m : Line)
    (others : ∀ k, k ≠ m → t.driver k = s.driver k)
    (free : asserted t m = true → asserted s m = true ∨ partnerAsserted s m = false) :
    Exclusive t := by
  have same : ∀ k, k ≠ m → asserted t k = asserted s k := fun k hk =>
    asserted_of_driver (f.record k) (others k hk)
  -- the changed line and a partner of it
  have one : ∀ b, b ∈ partners s m → ¬ (asserted t m = true ∧ asserted t b = true) := by
    rintro b hb ⟨hm, hb'⟩
    rw [same b (h m b hb).1] at hb'
    rcases free hm with e | e
    · exact (h m b hb).2 ⟨e, hb'⟩
    · rw [Bool.eq_false_iff] at e
      exact e (partnerAsserted_iff.2 ⟨b, hb, hb'⟩)
  intro a b hb
  rw [f.partners] at hb
  refine ⟨(h a b hb).1, ?_⟩
  by_cases ea : a = m
  · subst ea; exact one b hb
  · by_cases eb : b = m
    · subst eb; exact fun hab => one a (partners_symm hb) hab.symm
    · rw [same a ea, same b eb]; exact (h a b hb).2

theorem Exclusive.reevaluateMirror (h : Exclusive s) (m : Line) : Exclusive (reevaluateMirror m s) := by
  unfold Machine.reevaluateMirror
  split
  · split
    · exact h
    · next pa =>
      have f1 := withDriver_frame m (fun d => { d with mirror := some ⟨.following, true⟩ }) s
      have f2 := appendHolder_frame (groupOf m) (.mirrorResumed m true)
        (s.withDriver m fun d => { d with mirror := some ⟨.following, true⟩ })
      exact h.step (f1.mono.trans f2.mono) m (fun k hk => by rw [f2.driver]; simp [hk])
        fun _ => .inr (by simpa using pa)
  · exact h

theorem Exclusive.reportDeassertions (h : Exclusive s) (was : Line → Bool) :
    Exclusive (reportDeassertions was s) := by
  refine foldl_invariant _ Exclusive (fun t k ht => ?_) _ _ h
  split
  · refine foldl_invariant _ Exclusive (fun t m ht => ?_) _ _ ht
    split
    · exact ht.reevaluateMirror m
    · exact ht
  · exact ht

theorem Exclusive.turn (h : Exclusive s) (l m : Line) : Exclusive (Machine.turn l s m) := by
  obtain ⟨dr, -⟩ := turn_spec l s m
  refine h.step (turn_frame l s m) m (fun k hk => ?_) fun ha => ?_
  · rw [dr]; split <;> simp [hk]
  · cases hd : demandFrom s l m with
    | none =>
      rw [hd] at dr
      exact .inl ((asserted_of_driver ((turn_frame l s m).record m) (dr m)).symm.trans ha)
    | some d =>
      rw [hd] at dr
      obtain ⟨sense, fn, -⟩ := demandFrom_eq_some.1 hd
      have dm : (Machine.turn l s m).driver m = _ := (dr m).trans (if_pos rfl)
      unfold asserted at ha ⊢
      rw [(turn_frame l s m).record, fn] at ha
      rw [fn]
      dsimp only at ha ⊢
      rw [dm] at ha
      dsimp only at ha
      revert ha
      cases partnerAsserted s m
      · exact fun _ => .inr rfl
      · rcases (s.driver m).mirror with _ | ⟨_ | _, _ | _⟩ <;> cases d <;> simp [turnedMirror]

/-! ### The mirrors follow (R95 to R97) -/

theorem asserted_mirror {src : Line} {sense : Sense} (h : (s.record m).function = .mirror src sense) :
    asserted s m = true ↔ (s.driver m).mirror = some ⟨.following, true⟩ := by
  unfold asserted; rw [h]; simp

/-- A mirror that has turned follows asserted exactly where it has demand, followed, and is not caught. -/
theorem turnedMirror_asserts (mirror : Option Mirror) (d c : Bool) :
    turnedMirror mirror d (gains mirror d && c) = some ⟨.following, true⟩ ↔
      d = true ∧ mirror.map (·.phase) = some .following ∧ (gains mirror d && c) = false := by
  rcases mirror with _ | ⟨_ | _, _ | _⟩ <;> cases d <;> cases c <;> decide

theorem caughtBy_eq {d : Bool} (h : demandFrom s l m = some d) :
    caughtBy l s m = (gains (s.driver m).mirror d && partnerAsserted (beforeTurn l s m) m) := by
  unfold caughtBy; rw [h]

/-- The state in which a line's turn comes, and the lines asserted in it. -/
theorem beforeTurn_spec (l : Line) (s : State) (m : Line) :
    SameExcept [.drivers, .queues] s (beforeTurn l s m) ∧
      ∀ k, asserted (beforeTurn l s m) k = true ↔
        (k < m ∧ ∃ sense, (s.record k).function = .mirror l sense ∧ demandOf s l sense = true ∧
          (s.driver k).mirror.map (·.phase) = some .following ∧ caughtBy l s k = false) ∨
        ((m ≤ k ∨ ∀ sense, (s.record k).function ≠ .mirror l sense) ∧ asserted s k = true) := by
  obtain ⟨done, rest, split⟩ := List.append_of_mem (mem_lines m)
  have before : beforeTurn l s m = done.foldl (turn l) s := by
    unfold beforeTurn; rw [before_of_split split]
  have mem : ∀ k, k ∈ done ↔ k < m := fun k => by
    rw [← before_of_split split]; simp
  obtain ⟨f, dr, -⟩ := turns_spec l s done _ split
  rw [before]
  refine ⟨f, fun k => ?_⟩
  cases hd : demandFrom s l k with
  | none =>
    have no : ∀ sense, (s.record k).function ≠ .mirror l sense := fun sense h => by
      have := demandFrom_eq_some.2 ⟨sense, h, rfl⟩
      rw [hd] at this; cases this
    have e := dr k
    rw [hd] at e
    rw [asserted_of_driver (f.record k) e]
    exact ⟨fun h => .inr ⟨.inr no, h⟩, fun h => h.elim (fun ⟨_, sense, h, _⟩ => absurd h (no sense))
      fun h => h.2⟩
  | some d =>
    obtain ⟨sense, fn, hdem⟩ := demandFrom_eq_some.1 hd
    have e := dr k
    rw [hd] at e
    dsimp only at e
    by_cases hk : k ∈ done
    · rw [if_pos hk] at e
      rw [asserted_mirror (by rw [f.record]; exact fn), e]
      dsimp only
      rw [caughtBy_eq hd, turnedMirror_asserts, ← caughtBy_eq hd]
      constructor
      · rintro ⟨h1, h2, h3⟩
        exact .inl ⟨(mem k).1 hk, sense, fn, hdem.trans h1, h2, h3⟩
      · rintro (⟨_, sense', h', hd', h2, h3⟩ | ⟨h | h, _⟩)
        · rw [fn] at h'; cases h'
          exact ⟨hdem.symm.trans hd', h2, h3⟩
        · exact absurd ((mem k).1 hk) (not_lt.2 h)
        · exact absurd fn (h sense)
    · rw [if_neg hk] at e
      rw [asserted_of_driver (f.record k) e]
      have ge : m ≤ k := not_lt.1 fun h => hk ((mem k).2 h)
      exact ⟨fun h => .inr ⟨.inl ge, h⟩, fun h => h.elim (fun ⟨h, _⟩ => absurd h (not_lt.2 ge))
        fun h => h.2⟩

/-- The driver states after the turns and the reports of the deassertions among them. -/
theorem followSource_spec (l : Line) (s : State) :
    ∃ T, SameExcept [.drivers, .queues] s T ∧
      (∀ m, T.driver m = match demandFrom s l m with
        | some d => { s.driver m with mirror := turnedMirror (s.driver m).mirror d (caughtBy l s m) }
        | none => s.driver m) ∧
      (Sends s T fun y => (lines.filter fun m => s.holder (groupOf m) == some y).flatMap fun m =>
          match demandFrom s l m with
          | some d => followEvents m (s.driver m).mirror d (caughtBy l s m)
          | none => []) ∧
      Reported T (followSource l s) ∧ (∃ es, Sends T (followSource l s) es ∧
        Resumed (fun _ => false) (asserted s) T (followSource l s) es) ∧
      (Exclusive s → Exclusive (followSource l s)) := by
  obtain ⟨f, dr, sends⟩ := turns_spec l s lines [] (by simp)
  have dr' : ∀ m, (lines.foldl (turn l) s).driver m = match demandFrom s l m with
      | some d => { s.driver m with mirror := turnedMirror (s.driver m).mirror d (caughtBy l s m) }
      | none => s.driver m := fun m => by rw [dr]; cases demandFrom s l m <;> simp
  have rep : Reported (lines.foldl (turn l) s) (followSource l s) :=
    (reportDeassertions_reports (asserted s) _).1
  refine ⟨lines.foldl (turn l) s, f, dr', sends, rep, reportDeassertions_resumed _ _ fun k hk dead => ?_,
    fun h => ?_⟩
  · -- a line that its turn has deasserted is not held
    rw [← dead]
    refine asserted_of_driver (rep.frame.record k) ((rep.driver k).resolve_right fun ⟨held, _⟩ => ?_)
    have e := dr' k
    cases hd : demandFrom s l k with
    | none =>
      rw [hd] at e
      rw [asserted_of_driver (f.record k) e, hk] at dead; cases dead
    | some d =>
      rw [hd] at e
      obtain ⟨sense, fn, _⟩ := demandFrom_eq_some.1 hd
      rw [asserted_mirror fn] at hk
      rw [isHeld, e, hk] at held
      revert held
      cases d <;> simp [turnedMirror]
  · exact (foldl_invariant _ Exclusive (fun t m ht => ht.turn l m) lines _ h).reportDeassertions _

theorem turnEvents_eq (ft : demandOf t l = demandOf s l) (hr : s0.record = s.record)
    (hd : s0.driver = s.driver) :
    turnEvents s0 t l (caughtBy l s) m = match demandFrom s l m with
      | some d => followEvents m (s.driver m).mirror d (caughtBy l s m)
      | none => [] := by
  unfold turnEvents demandFrom
  rw [hr, hd, ft]
  cases fn : (s.record m).function with
  | mirror src sense =>
    by_cases e : src = l
    · subst e
      have hdem : demandFrom s src m = some (demandOf s src sense) :=
        demandFrom_eq_some.2 ⟨sense, fn, rfl⟩
      simp only [ne_eq, not_true_eq_false, if_false, if_true]
      rw [caughtBy_eq hdem]
      unfold followEvents
      cases gains (s.driver m).mirror (demandOf s src sense) <;> simp
    · simp [e]
  | _ => rfl

/-- The laws of driver state that mirrors rest on (R107, R97): a mirror state exactly on MIRROR lines, and a held
mirror has demand. -/
def MirrorLaw (s : State) : Prop :=
  ∀ l, ((s.driver l).mirror.isSome = (s.record l).isMirror) ∧
    ∀ m, (s.driver l).mirror = some m → m.phase = .held → m.demand = true

theorem DriverLaw.mirrors (h : DriverLaw s) : MirrorLaw s := fun l => ⟨(h l).1, (h l).2.2.2⟩

/-- The steps 1 to 4 of a filtered change (R125). -/
theorem follows_spec (excl : Exclusive s) (law : MirrorLaw s) (f0 : SameExcept [.sampler] s s0)
    (hl : s0.level l = lv) (hlo : ∀ m, m ≠ l → s0.level m = s.level m) :
    FollowsSource s (followSource l (reportWatchers l lv (reportEdge l lv s0))) l lv := by
  obtain ⟨f1, sends1⟩ := reportWatchers_spec l lv s0
  generalize reportWatchers l lv (reportEdge l lv s0) = s1 at *
  obtain ⟨T, fT, dr, sendsT, rep, ⟨rs, sendsR, res⟩, ex⟩ := followSource_spec l s1
  generalize followSource l s1 = F at *
  have f01 : SameExcept [.sampler, .queues] s s1 := f0.mono.trans f1.mono
  have fF : SameExcept [.drivers, .queues] s1 F := fT.trans rep.frame
  have hdr : ∀ m, s1.driver m = s.driver m := fun m => f01.driver m
  have hrec : ∀ m, s1.record m = s.record m := fun m => f01.record m
  have hdem : ∀ a b, demandOf F a b = demandOf s1 a b := fun a b => fF.demandOf a b
  have has : asserted s1 = asserted s := funext fun k => f01.asserted k
  have exF : Exclusive F := ex (by
    intro a b hb; rw [f01.partners] at hb; rw [has]; exact excl a b hb)
  have mirrorOf : ∀ m sense, (s.record m).function = .mirror l sense →
      demandFrom s1 l m = some (demandOf F l sense) := fun m sense h =>
    demandFrom_eq_some.2 ⟨sense, by rw [hrec]; exact h, (hdem l sense).symm⟩
  have noMirror : ∀ m, (∀ sense, (s.record m).function ≠ .mirror l sense) →
      demandFrom s1 l m = none := fun m h => by
    cases hd : demandFrom s1 l m with
    | none => rfl
    | some d =>
      obtain ⟨sense, fn, _⟩ := demandFrom_eq_some.1 hd
      rw [hrec] at fn
      exact absurd fn (h sense)
  have others : ∀ m, (∀ sense, (s.record m).function ≠ .mirror l sense) → T.driver m = s.driver m :=
    fun m h => by rw [dr, noMirror m h, hdr]
  have turned : ∀ m sense, (s.record m).function = .mirror l sense → T.driver m =
      { s.driver m with
        mirror := turnedMirror (s.driver m).mirror (demandOf F l sense) (caughtBy l s1 m) } :=
    fun m sense h => by rw [dr, mirrorOf m sense h, hdr]
  have isCaught : ∀ m sense, (s.record m).function = .mirror l sense → caughtBy l s1 m =
      (gains (s.driver m).mirror (demandOf F l sense) &&
        partnerAsserted (beforeTurn l s1 m) m) := fun m sense h => by
    rw [caughtBy_eq (mirrorOf m sense h), hdr]
  -- which mirrors are held after their turns
  have heldT : ∀ m sense, (s.record m).function = .mirror l sense → (isHeld T m ↔
      caughtBy l s1 m = true ∨ ((s.driver m).mirror.map (·.phase) = some .held ∧
        demandOf F l sense = true)) := fun m sense h => by
    unfold isHeld
    rw [turned m sense h, isCaught m sense h]
    dsimp only
    rcases (s.driver m).mirror with _ | ⟨_ | _, _ | _⟩ <;> cases demandOf F l sense <;>
      cases partnerAsserted (beforeTurn l s1 m) m <;> decide
  have catches : Catches s F l (caughtBy l s1) := by
    intro m
    obtain ⟨fb, ab⟩ := beforeTurn_spec l s1 m
    constructor
    · intro hc
      cases hd : demandFrom s1 l m with
      | none => unfold caughtBy at hc; rw [hd] at hc; cases hc
      | some d =>
        obtain ⟨sense, fn, hd'⟩ := demandFrom_eq_some.1 hd
        rw [hrec] at fn
        rw [isCaught m sense fn, Bool.and_eq_true] at hc
        obtain ⟨hg, pa⟩ := hc
        simp only [gains, Bool.and_eq_true, beq_iff_eq] at hg
        obtain ⟨k, hk, ak⟩ := partnerAsserted_iff.1 pa
        rw [fb.partners, f01.partners] at hk
        refine ⟨sense, fn, hg.1, hg.2, k, hk, ?_⟩
        simpa only [hrec, hdr, ← hdem, has] using (ab k).1 ak
    · rintro ⟨sense, fn, hdm, hm, k, hk, hor⟩
      rw [isCaught m sense fn, Bool.and_eq_true]
      refine ⟨by simp [gains, hdm, hm], partnerAsserted_iff.2 ⟨k, ?_, (ab k).2 ?_⟩⟩
      · rw [fb.partners, f01.partners]; exact hk
      · simpa only [hrec, hdr, ← hdem, has] using hor
  refine ⟨f01.mono.trans fF.mono, ?_, fun m hm => by rw [fF.level, f1.level, hlo m hm], ?_, ?_,
    caughtBy l s1, rs, catches, ?_, ?_⟩
  · rw [fF.level, f1.level]; exact hl
  · intro m sense fn
    obtain ⟨mir0, hm0⟩ : ∃ mir, (s.driver m).mirror = some mir := by
      have := (law m).1
      rw [show (s.record m).isMirror = true by unfold Record.isMirror; rw [fn]] at this
      exact Option.isSome_iff_exists.1 this
    have dem0 := (law m).2 mir0 hm0
    have shape : ∃ mir, T.driver m = { s.driver m with mirror := some mir } ∧
        mir.demand = demandOf F l sense ∧ (mir.demand = false → mir.phase = .following) := by
      rw [turned m sense fn, hm0]
      obtain ⟨_ | _, _ | _⟩ := mir0 <;> cases demandOf F l sense <;> cases caughtBy l s1 m <;>
        simp_all [turnedMirror]
    obtain ⟨mir, hT, hmd, hmf⟩ := shape
    have after : ∃ mir, F.driver m = { s.driver m with mirror := some mir } ∧
        mir.demand = demandOf F l sense ∧ (mir.demand = false → mir.phase = .following) := by
      rcases rep.driver m with e | ⟨held, _, e⟩
      · exact ⟨mir, e.trans hT, hmd, hmf⟩
      · refine ⟨⟨.following, true⟩, by rw [e, hT], ?_, fun h => by cases h⟩
        rw [← hmd]
        rw [isHeld, hT] at held
        cases hx : mir.demand with
        | true => rfl
        | false => simp [hmf hx] at held
    obtain ⟨mirF, hF, hFd, hFf⟩ := after
    refine ⟨mirF, hF, hFd, hFf, fun hdt hs => ⟨fun hh => ?_, fun pa => ?_⟩⟩
    · -- held: caught at its turn
      have heldF : isHeld F m := by rw [isHeld, hF]; simp [hh]
      have held : isHeld T m := by
        rcases rep.driver m with e | ⟨held, _, _⟩
        · rw [isHeld, ← e]; exact heldF
        · exact held
      have hc : caughtBy l s1 m = true := by
        rcases (heldT m sense fn).1 held with h | ⟨h, _⟩
        · exact h
        · rw [hs] at h; cases h
      obtain ⟨sense', fn', _, _, k, hk, hor⟩ := (catches m).1 hc
      have hkF : k ∈ partners F m := by rw [fF.partners, f01.partners]; exact hk
      rcases hor with ⟨_, sense'', fn'', hd'', hp, hnc⟩ | ⟨_, ha⟩
      · refine partnerAsserted_iff.2 ⟨k, hkF, rep.asserted ?_⟩
        rw [asserted_mirror (by rw [fT.record, hrec]; exact fn''), turned k sense'' fn'']
        dsimp only
        rw [isCaught k sense'' fn'', turnedMirror_asserts, ← isCaught k sense'' fn'']
        exact ⟨hd'', hp, hnc⟩
      · cases hx : asserted F k with
        | true => exact partnerAsserted_iff.2 ⟨k, hkF, hx⟩
        | false =>
          obtain ⟨p, hp, ap, -⟩ := res.blocked k m hkF (by rw [has]; exact ha) hx heldF
          exact partnerAsserted_iff.2 ⟨p, hp, ap⟩
    · -- a partner asserted: not asserted itself
      obtain ⟨k, hk, ak⟩ := partnerAsserted_iff.1 pa
      obtain ⟨phase, d⟩ := mirF
      cases phase with
      | held => rfl
      | following =>
        refine absurd ⟨?_, ak⟩ (exF m k hk).2
        rw [asserted_mirror (by rw [fF.record, hrec]; exact fn), hF]
        dsimp only at hdt
        rw [hdt]
  · intro m h
    rcases rep.driver m with e | ⟨held, _, e⟩
    · exact .inl (e.trans (others m h))
    · rw [others m h] at e
      rw [isHeld, others m h] at held
      exact .inr ⟨held, e⟩
  · refine ⟨fun y => ⟨(res.events y).1, fun e => ((res.events y).2 e).trans ⟨?_, ?_⟩⟩, fun y m hm => ?_,
      by rw [← has]; exact res.order, ?_⟩
    · rintro ⟨m, rfl, -, hy, held, hF⟩
      refine ⟨m, rfl, by rw [← f01.holder, ← fT.holder]; exact hy, ?_, hF⟩
      by_cases h : ∃ sense, (s.record m).function = .mirror l sense
      · obtain ⟨sense, fn⟩ := h
        exact ((heldT m sense fn).1 held).imp_right (·.1)
      · exact .inr (by rw [← others m (not_exists.1 h)]; exact held)
    · rintro ⟨m, rfl, hy, hc, hF⟩
      refine ⟨m, rfl, rfl, by rw [fT.holder, f01.holder]; exact hy, ?_, hF⟩
      show isHeld T m
      by_cases h : ∃ sense, (s.record m).function = .mirror l sense
      · obtain ⟨sense, fn⟩ := h
        refine (heldT m sense fn).2 (hc.imp_right fun held => ⟨held, ?_⟩)
        by_contra hd
        rw [Bool.not_eq_true] at hd
        have notT : ¬ isHeld T m := by
          rw [heldT m sense fn, hd]
          rintro (h | ⟨_, h⟩)
          · obtain ⟨_, _, _, h, _⟩ := (catches m).1 h
            rw [h] at held; cases held
          · cases h
        rcases rep.driver m with e | ⟨h, _⟩
        · have hT : (T.driver m).mirror = some ⟨.following, true⟩ := by rw [← e]; exact hF
          rw [turned m sense fn, hd] at hT
          revert held hT
          rcases (s.driver m).mirror with _ | ⟨_ | _, _ | _⟩ <;> simp [turnedMirror]
        · exact notT h
      · rw [isHeld, others m (not_exists.1 h)]
        rcases hc with hc | hc
        · obtain ⟨sense, fn, _⟩ := (catches m).1 hc
          exact absurd ⟨sense, fn⟩ h
        · exact hc
    · obtain ⟨k, he, -, -, held, follow⟩ := ((res.events y).2 _).1 hm
      injection he with he
      subst he
      have mirror : (s.record m).isMirror = true := by
        by_cases h : ∃ sense, (s.record m).function = .mirror l sense
        · obtain ⟨sense, fn⟩ := h
          unfold Record.isMirror; rw [fn]
        · rw [others m (not_exists.1 h)] at held
          rw [← (law m).1]
          cases hm : (s.driver m).mirror with
          | none => rw [hm] at held; cases held
          | some _ => rfl
      have alive : asserted F m = true := by
        unfold Record.isMirror at mirror
        cases fn : (s.record m).function with
        | mirror src sense => exact (asserted_mirror (by rw [fF.record, hrec]; exact fn)).2 follow
        | _ => rw [fn] at mirror; cases mirror
      by_contra hc
      rw [Bool.not_eq_false] at hc
      obtain ⟨k, hk, ak⟩ := partnerAsserted_iff.1 hc
      exact (exF m k hk).2 ⟨alive, ak⟩
    · -- a mirror that was held or caught is not asserted after the turns
      rw [← has]
      refine res.blocked.mono fun k _ h => ⟨rfl, ?_⟩
      by_cases hm : ∃ sense, (s.record k).function = .mirror l sense
      · obtain ⟨sense, fn⟩ := hm
        rw [← Bool.not_eq_true, asserted_mirror (by rw [fT.record, hrec]; exact fn)]
        intro follow
        have free : ¬ isHeld T k := by rw [isHeld, follow]; simp
        rw [heldT k sense fn] at free
        have held := h.resolve_left fun c => free (.inl c)
        rw [turned k sense fn] at follow
        cases hd : demandOf F l sense with
        | true => exact free (.inr ⟨held, hd⟩)
        | false =>
          rw [hd] at follow
          revert follow held
          rcases (s.driver k).mirror with _ | ⟨_ | _, _ | _⟩ <;> simp [turnedMirror]
      · have held := h.resolve_left fun c => by
          obtain ⟨sense, fn, -⟩ := (catches k).1 c
          exact hm ⟨sense, fn⟩
        have mirror : (s.record k).isMirror = true := by
          rw [← (law k).1]
          cases hx : (s.driver k).mirror with
          | none => rw [hx] at held; cases held
          | some _ => rfl
        unfold Record.isMirror at mirror
        cases fn : (s.record k).function with
        | mirror src sense =>
          rw [← Bool.not_eq_true, asserted_mirror (by rw [fT.record, hrec]; exact fn),
            others k (not_exists.1 hm)]
          intro follow
          rw [follow] at held; cases held
        | _ => rw [fn] at mirror; cases mirror
  · have fsT : SameExcept [.sampler, .queues, .drivers] s T := f01.mono.trans fT.mono
    have edges : edgeEvents s0 l lv = edgeEvents s l lv := by
      unfold edgeEvents; rw [f0.record, f0.holder, f0.watch]
    refine (((sends1.start f0).trans sendsT f01).trans sendsR fsT).of_eq fun y => ?_
    rw [edges]
    congr 2
    simp only [f01.holder]
    congr 1
    funext m
    exact (turnEvents_eq (funext fun b => hdem l b) (funext hrec).symm (funext hdr).symm).symm

/-! ### One line changing at a sample instant (R123, R124) -/

theorem takingOrder_spec (order : List Line) :
    (takingOrder order).Nodup ∧ ∀ l, l ∈ takingOrder order := by
  let add : List Line → Line → List Line := fun acc l => if l ∈ acc then acc else acc ++ [l]
  have grow : ∀ (L acc : List Line), acc.Nodup →
      (L.foldl add acc).Nodup ∧ ∀ l, l ∈ acc ∨ l ∈ L → l ∈ L.foldl add acc := by
    intro L
    induction L with
    | nil => exact fun acc h => ⟨h, fun l h => h.resolve_right List.not_mem_nil⟩
    | cons k L ih =>
      intro acc h
      rw [List.foldl_cons]
      by_cases hk : k ∈ acc
      · rw [show add acc k = acc from if_pos hk]
        refine ⟨(ih acc h).1, fun l hl => (ih acc h).2 l ?_⟩
        rcases hl with hl | hl
        · exact .inl hl
        · rcases List.mem_cons.1 hl with rfl | hl
          · exact .inl hk
          · exact .inr hl
      · rw [show add acc k = acc ++ [k] from if_neg hk]
        have h' : (acc ++ [k]).Nodup := by
          rw [List.nodup_append]
          exact ⟨h, by simp, fun a ha b hb => by
            rw [List.mem_singleton] at hb; subst hb; exact fun e => hk (e ▸ ha)⟩
        refine ⟨(ih _ h').1, fun l hl => (ih _ h').2 l ?_⟩
        rcases hl with hl | hl
        · exact .inl (List.mem_append_left _ hl)
        · rcases List.mem_cons.1 hl with rfl | hl
          · exact .inl (by simp)
          · exact .inr hl
  exact ⟨(grow _ [] List.nodup_nil).1, fun l => (grow _ [] List.nodup_nil).2 l (.inr (by simp))⟩

/-- A sample instant at which one line's filter is completed and every other line is at its level. -/
theorem takeSample_one (pads : BitVec 32) (order : List Line) (s : State) (l : Line)
    (others : ∀ m, m ≠ l → padLevel pads m = s.level m) (change : padLevel pads l ≠ s.level l)
    (count : (s.record l).filter.val ≤ (s.sampler.get l).candidate.elim 0 (·.count)) :
    ∃ s0, SameExcept [.sampler] s s0 ∧ s0.level l = padLevel pads l ∧
      (∀ m, m ≠ l → s0.level m = s.level m) ∧ takeSample pads order s =
      fireTriggers l (padLevel pads l) (followSource l (reportWatchers l (padLevel pads l)
        (reportEdge l (padLevel pads l) s0))) := by
  have judged : ∀ m, ((judgeSamples pads s).get m).2 = decide (m = l) := by
    intro m
    unfold judgeSamples
    rw [Table.get_tabulate]
    unfold judgeSample
    by_cases e : m = l
    · subst e
      unfold State.level at change
      rw [if_neg change]
      dsimp only
      rw [if_pos]
      · simp
      · cases hc : (s.sampler.get m).candidate with
        | none => rw [hc] at count; simp at count ⊢; omega
        | some c => rw [hc] at count; simp at count ⊢; omega
    · have := others m e
      unfold State.level at this
      rw [if_pos this]
      simp [e]
  let sj : State := { s with sampler := .tabulate fun m => ((judgeSamples pads s).get m).1 }
  refine ⟨{ sj with sampler := sj.sampler.put l { level := padLevel pads l, candidate := none } },
    (withSampler_frame _ s).trans (withSampler_frame _ sj), by simp [State.level], fun m hm => ?_, ?_⟩
  · have := others m hm
    unfold State.level at this ⊢
    simp [sj, hm, judgeSamples, judgeSample, this]
  obtain ⟨nodup, all⟩ := takingOrder_spec order
  unfold takeSample
  dsimp only
  rw [foldl_single _ (fun _ => True) l (fun t b _ hb => by rw [judged]; simp [hb]) _ _ nodup (all l)
    trivial trivial, judged]
  simp only [decide_true, if_true]
  rfl

/-- No pending commit is met. -/
theorem fireTriggers_idle (h : ∀ x d timeout left, s.deferred.get x = some d →
    d.trigger ≠ .line l lv timeout left) : fireTriggers l lv s = s := by
  unfold fireTriggers
  refine foldl_idle _ s (fun x => ?_) clients
  split
  · next l' target timeout left hd =>
    rw [if_neg]
    rintro ⟨rfl, rfl⟩
    exact h x _ timeout left hd rfl
  · rfl

/-- The parts of every pending commit are told apart by their groups, as `DeferredLaw` has them. -/
def PartsDistinct (s : State) : Prop := ∀ x d, s.deferred.get x = some d →
  ∀ part ∈ d.parts, ∀ part' ∈ d.parts, part.1 = part'.1 → part = part'

theorem DeferredLaw.distinct (h : DeferredLaw s) : PartsDistinct s := fun x d hd =>
  snapshot_parts_unique (h x d hd).2.1

/-- The turn of one client in step 5 of R125. -/
def fireTurn (l : Line) (lv : Level) (t : State) (x : Client) : State :=
  match t.deferred.get x with
  | some { trigger := .line l' target _ _, .. } =>
    if l' = l ∧ target = lv then applyDeferred x t else t
  | _ => t

theorem fireTurn_spec (x : Client) (pairs : PairsDistinct s) (parts : PartsDistinct s) :
    MeetsDeferred l lv x s (fireTurn l lv s x) ∧ PairsDistinct (fireTurn l lv s x) ∧
      PartsDistinct (fireTurn l lv s x) := by
  by_cases met : ∃ d timeout left, s.deferred.get x = some d ∧ d.trigger = .line l lv timeout left
  · obtain ⟨d, timeout, left, hd, trigger⟩ := met
    have e : fireTurn l lv s x = applyDeferred x s := by
      unfold fireTurn
      rw [hd]
      obtain ⟨ps, tr⟩ := d
      dsimp only at trigger
      subst trigger
      simp
    have f := applyDeferred_frame x s
    have spec := applyDeferred_spec x d pairs (parts x d hd) hd
    rw [e]
    refine ⟨⟨fun d' w r hd' _ => ?_, fun h => absurd trigger (h d _ _ hd)⟩, ?_, fun y d' hd' => ?_⟩
    · obtain rfl : d' = d := by rw [hd] at hd'; exact (Option.some.inj hd').symm
      exact ⟨spec, f.mono⟩
    · unfold PairsDistinct; rw [f.pairs]; exact pairs
    · by_cases hy : y = x
      · subst hy; rw [spec.1] at hd'; cases hd'
      · rw [spec.2.1 y hy] at hd'; exact parts y d' hd'
  · have idle : ∀ d timeout left, s.deferred.get x = some d → d.trigger ≠ .line l lv timeout left :=
      fun d w r hd h => met ⟨d, w, r, hd, h⟩
    have e : fireTurn l lv s x = s := by
      unfold fireTurn
      split
      · next l' target w r hd =>
        rw [if_neg]
        rintro ⟨rfl, rfl⟩
        exact idle _ w r hd rfl
      · rfl
    rw [e]
    exact ⟨⟨fun d w r hd h => absurd h (idle d w r hd), fun _ => rfl⟩, pairs, parts⟩

/-- Step 5 of R125: the clients in ascending number, each on the state the earlier ones have left. -/
theorem fireTriggers_spec (l : Line) (lv : Level) (pairs : PairsDistinct s) (parts : PartsDistinct s) :
    InTurn (MeetsDeferred l lv) clients s (fireTriggers l lv s) :=
  (InTurn.foldl (fireTurn l lv) (fun u => PairsDistinct u ∧ PartsDistinct u)
    (fun _ x h => fireTurn_spec (l := l) (lv := lv) x h.1 h.2) clients s ⟨pairs, parts⟩).1

theorem followSource_none (no : ∀ m sense, (s.record m).function ≠ .mirror l sense) :
    followSource l s = s := by
  have idle : lines.foldl (turn l) s = s := by
    refine foldl_idle _ s (fun m => ?_) lines
    unfold turn
    split
    · next src sense h =>
      rw [if_neg]
      rintro rfl
      exact no m sense h
    · rfl
  rw [followSource_eq, idle]
  unfold reportDeassertions
  exact foldl_idle _ s (fun k => by cases asserted s k <;> rfl) lines

end Sys2Proof.Machine
end

