-- ==== Sys2Proof/Laws/Instants.lean ====
section
/-! SUPPORT. A sample instant with any number of acceptances: each keeps what the next rests on, and they are
taken in the order of the command (R123 to R125). -/

namespace Sys2Proof.Machine

set_option Elab.async false

variable {s t : State} {l : Line} {lv : Level}

/-! ### What a filtered change keeps -/

theorem Exclusive.frame {ps : List Part} (h : Exclusive s) (f : SameExcept ps s t)
    (ha : Part.active ∉ ps := by decide) (hd : Part.drivers ∉ ps := by decide)
    (hp : Part.pairs ∉ ps := by decide) : Exclusive t := by
  intro a b hb
  rw [f.partners a hp] at hb
  rw [f.asserted a ha hd, f.asserted b ha hd]
  exact h a b hb

theorem Exclusive.startMirror (h : Exclusive s) (m : Line) : Exclusive (startMirror m s) := by
  unfold Machine.startMirror
  split
  · next src sense fn =>
    split
    · split
      · have f1 := withDriver_frame m (fun d => { d with mirror := some ⟨.held, true⟩ }) s
        have f2 := appendHolder_frame (groupOf m) (.mirrorHeld m)
          (s.withDriver m fun d => { d with mirror := some ⟨.held, true⟩ })
        refine h.step (f1.mono.trans f2.mono) m (fun k hk => by rw [f2.driver]; simp [hk]) fun ha => ?_
        rw [f2.asserted, asserted_mirror (by rw [f1.record]; exact fn)] at ha
        simp at ha
      · next pa =>
        have f1 := withDriver_frame m (fun d => { d with mirror := some ⟨.following, true⟩ }) s
        exact h.step f1.mono m (fun k hk => by simp [hk]) fun _ => .inr (by simpa using pa)
    · exact h
  · exact h

/-- An accepted replacement asserts no two partners (R92 to R94). -/
theorem Exclusive.apply (p : Proposal) (distinct : PairsDistinct s) (free : p.conflict s = none) :
    Exclusive (p.apply (asserted s) s) := by
  have cuts := reportCuts_frame p s
  have place := place_frame p (p.reportCuts s)
  have immediate : ∀ l, asserted (p.place (p.reportCuts s)) l = true → p.immediate s l = true := by
    intro l ha
    unfold Proposal.immediate
    by_cases hn : p.named (groupOf l) = true
    · rw [if_pos hn]
      unfold asserted at ha
      rw [place_record, if_pos hn, place_driver, if_pos hn] at ha
      unfold Record.startDriver at ha
      cases fn : (p.result l).function with
      | input => rw [fn] at ha; exact ha
      | static a => rw [fn] at ha; exact ha
      | pulse w =>
        rw [fn] at ha
        dsimp only at ha ⊢
        revert ha; cases p.starts <;> simp
      | mirror src sense => rw [fn] at ha; simp at ha
    · rw [if_neg hn]
      rw [Bool.not_eq_true] at hn
      rw [← ha]
      exact (asserted_of_driver (by simp [hn, cuts.record]) (by simp [hn, cuts.driver])).symm
  have placed : Exclusive (p.place (p.reportCuts s)) := by
    intro a b hb
    rw [place.partners, cuts.partners] at hb
    refine ⟨distinct.ne hb, fun ⟨ha, hb'⟩ => ?_⟩
    obtain ⟨i, q, hq, hm⟩ := mem_partners.1 hb
    have mem : (i, q) ∈ s.pairList := by
      unfold State.pairList
      exact List.mem_filterMap.2 ⟨i, mem_groups i, by rw [hq]; rfl⟩
    unfold Proposal.conflict at free
    rw [Option.map_eq_none_iff, List.find?_eq_none] at free
    refine free _ mem ?_
    unfold Pair.partner at hm
    split at hm
    · next e => cases hm; rw [e, immediate a ha, immediate _ hb']; rfl
    · split at hm
      · next e => cases hm; rw [e, immediate a ha, immediate _ hb']; rfl
      · cases hm
  unfold Proposal.apply
  refine Exclusive.reportDeassertions ?_ _
  unfold Proposal.startMirrors
  refine foldl_invariant _ Exclusive (fun t l ht => ?_) _ _ placed
  split
  · exact ht.startMirror l
  · exact ht

theorem Exclusive.applyDeferred (h : Exclusive s) (distinct : PairsDistinct s) (x : Client) :
    Exclusive (applyDeferred x s) := by
  unfold Machine.applyDeferred
  split
  · exact h
  · next d hd =>
    dsimp only
    have f := withDeferred_frame (s.deferred.put x none) s
    generalize ({ s with deferred := s.deferred.put x none } : State) = u at *
    have fa : ∀ e, SameExcept [.deferred, .queues] s (append x e u) := fun e =>
      f.mono.trans (append_frame x e u).mono
    cases hj : judge (Proposal.of u d.parts true) u with
    | accepted =>
      have same : asserted (append x (.pendingDone d.trigger.line?) u) = asserted u :=
        funext fun l => (append_frame x _ u).asserted l
      dsimp only
      rw [← same]
      refine Exclusive.apply _ (by unfold PairsDistinct; rw [(fa _).pairs]; exact distinct) ?_
      have none : (Proposal.of u d.parts true).conflict u = none := by
        unfold judge at hj
        split at hj
        · cases hj
        · cases hc : (Proposal.of u d.parts true).conflict u with
          | none => rfl
          | some i => rw [hc] at hj; cases hj
      have imm : (Proposal.of u d.parts true).immediate (append x (.pendingDone d.trigger.line?) u) =
          (Proposal.of u d.parts true).immediate u := by
        funext l; unfold Proposal.immediate; rw [same]
      unfold Proposal.conflict State.pairList at none ⊢
      rw [imm, (append_frame x _ u).pairs]
      exact none
    | loop => exact h.frame (fa _)
    | interlock _ => exact h.frame (fa _)

theorem FollowsSource.mirrors (h : FollowsSource s t l lv) (law : MirrorLaw s) : MirrorLaw t := by
  obtain ⟨f, -, -, own, other, -⟩ := h
  intro m
  rw [f.record]
  by_cases hm : ∃ sense, (s.record m).function = .mirror l sense
  · obtain ⟨sense, fn⟩ := hm
    obtain ⟨mir, e, -, rest, -⟩ := own m sense fn
    refine ⟨by rw [e]; unfold Record.isMirror; rw [fn]; rfl, fun m' hm' held => ?_⟩
    rw [e] at hm'
    cases hm'
    by_contra hc
    rw [rest (by simpa using hc)] at held
    cases held
  · rcases other m (not_exists.1 hm) with e | ⟨held, e⟩
    · rw [e]; exact law m
    · rw [e]
      refine ⟨?_, fun m' hm' _ => by cases hm'; rfl⟩
      rw [← (law m).1]
      cases hx : (s.driver m).mirror with
      | none => rw [hx] at held; cases held
      | some _ => rfl

theorem MeetsDeferred.mirrors {x : Client} (h : MeetsDeferred l lv x s t) (law : MirrorLaw s) :
    MirrorLaw t := by
  by_cases met : ∃ d timeout left, s.deferred.get x = some d ∧ d.trigger = .line l lv timeout left
  · obtain ⟨d, timeout, left, hd, trigger⟩ := met
    obtain ⟨⟨-, -, applied⟩, f⟩ := h.1 d timeout left hd trigger
    have unchanged : t.active = s.active → t.drivers = s.drivers → MirrorLaw t := fun ha hdr m => by
      unfold State.driver State.record
      rw [ha, hdr]; exact law m
    split at applied
    · obtain ⟨-, named, outside, -⟩ := applied
      intro m
      by_cases hn : (Proposal.of s d.parts true).named (groupOf m) = true
      · obtain ⟨hr, starts⟩ := named m hn
        rw [hr]
        unfold Starts at starts
        unfold Record.isMirror
        split at starts
        · next fn => rw [fn, starts]; simp
        · next fn => rw [fn, starts]; simp
        · next fn => rw [fn, starts]; simp
        · next fn =>
          obtain ⟨-, mir, hm, -, held, -⟩ := starts
          rw [fn, hm]
          exact ⟨rfl, fun m' hm' hh => by cases hm'; exact (held.1 hh).1⟩
      · rw [Bool.not_eq_true] at hn
        obtain ⟨hr, e | ⟨held, e⟩⟩ := outside m hn
        · rw [hr, e]; exact law m
        · rw [hr, e]
          refine ⟨?_, fun m' hm' _ => by cases hm'; rfl⟩
          rw [← (law m).1]
          cases hx : (s.driver m).mirror with
          | none => rw [hx] at held; cases held
          | some _ => rfl
    · exact unchanged applied.1 applied.2.1
    · exact unchanged applied.1 applied.2.1
  · rw [h.2 fun d w r hd e => met ⟨d, w, r, hd, e⟩]
    exact law

theorem InTurn.invariant {α : Type} {turn : α → State → State → Prop} {as : List α} (P : State → Prop)
    (keeps : ∀ a s t, turn a s t → P s → P t) (h : InTurn turn as s t) (hs : P s) : P t := by
  induction as generalizing s with
  | nil => cases h; exact hs
  | cons a as ih => obtain ⟨u, h, later⟩ := h; exact ih later (keeps a s u h hs)

/-- What the acceptances of a sample instant rest on. -/
structure Settled (s : State) : Prop where
  exclusive : Exclusive s
  mirrors : MirrorLaw s
  pairs : PairsDistinct s
  parts : PartsDistinct s

theorem Inv.settled (inv : Inv s) : Settled s :=
  ⟨inv.pairs.exclusive, inv.drivers.mirrors, inv.pairs.distinct, inv.deferred.distinct⟩

/-- A filtered change, whole (R125), on any state in which it may arrive. -/
theorem filteredChange_spec (l : Line) (lv : Level) (h : Settled s) :
    AcceptsChange s (filteredChange l lv s) l lv ∧ Settled (filteredChange l lv s) := by
  have f0 := withSampler_frame (s.sampler.put l { level := lv, candidate := none }) s
  have follows := follows_spec (l := l) (lv := lv)
    (s0 := { s with sampler := s.sampler.put l { level := lv, candidate := none } })
    h.exclusive h.mirrors f0 (by simp [State.level]) fun m hm => by
      simp [State.level, hm]
  have exclusive : Exclusive (followSource l (reportWatchers l lv (reportEdge l lv
      { s with sampler := s.sampler.put l { level := lv, candidate := none } }))) := by
    obtain ⟨-, -, -, -, -, -, ex⟩ := followSource_spec l (reportWatchers l lv (reportEdge l lv
      { s with sampler := s.sampler.put l { level := lv, candidate := none } }))
    exact ex (h.exclusive.frame (f0.mono.trans (reportWatchers_spec l lv _).1.mono :
      SameExcept [.sampler, .queues] s _))
  have mirrors := follows.mirrors h.mirrors
  have frame := follows.1
  unfold filteredChange
  generalize followSource l (reportWatchers l lv (reportEdge l lv
    { s with sampler := s.sampler.put l { level := lv, candidate := none } })) = F at *
  have pairs : PairsDistinct F := by unfold PairsDistinct; rw [frame.pairs]; exact h.pairs
  have parts : PartsDistinct F := by unfold PartsDistinct; rw [frame.deferred]; exact h.parts
  obtain ⟨turns, settled⟩ := InTurn.foldl (turn := MeetsDeferred l lv) (fireTurn l lv) Settled
    (fun u x h => by
      obtain ⟨meets, pairs, parts⟩ := fireTurn_spec (l := l) (lv := lv) x h.pairs h.parts
      refine ⟨meets, ?_, meets.mirrors h.mirrors, pairs, parts⟩
      unfold fireTurn
      split
      · split
        · exact h.exclusive.applyDeferred h.pairs x
        · exact h.exclusive
      · exact h.exclusive) clients F ⟨exclusive, mirrors, pairs, parts⟩
  exact ⟨⟨F, follows, turns⟩, settled⟩

/-! ### The order of the acceptances (R125, log 8) -/

/-- The order in which a command takes the acceptances: those it lists as it lists them, then the others in
ascending line number. -/
def TakenBefore (order : List Line) (l m : Line) : Prop :=
  order.idxOf l < order.idxOf m ∨ (order.idxOf l = order.idxOf m ∧ l < m)

theorem lines_idxOf : ∀ l : Line, lines.idxOf l = l.val := by decide

theorem takenBefore_of_idxOf {order : List Line} {l m : Line}
    (h : (order ++ lines).idxOf l < (order ++ lines).idxOf m) : TakenBefore order l m := by
  unfold TakenBefore
  by_cases hl : l ∈ order <;> by_cases hm : m ∈ order
  · rw [List.idxOf_append_of_mem hl, List.idxOf_append_of_mem hm] at h
    exact .inl h
  · refine .inl (lt_of_lt_of_le (List.idxOf_lt_length_iff.2 hl) ?_)
    rw [List.idxOf_eq_length hm]
  · rw [List.idxOf_append_of_notMem hl, List.idxOf_append_of_mem hm] at h
    have := List.idxOf_lt_length_iff.2 hm
    omega
  · rw [List.idxOf_append_of_notMem hl, List.idxOf_append_of_notMem hm, lines_idxOf, lines_idxOf] at h
    refine .inr ⟨by rw [List.idxOf_eq_length hl, List.idxOf_eq_length hm], ?_⟩
    exact Fin.lt_def.2 (by omega)

theorem takingOrder_sorted (order : List Line) : (takingOrder order).Pairwise (TakenBefore order) := by
  let add : List Line → Line → List Line := fun acc l => if l ∈ acc then acc else acc ++ [l]
  have grow : ∀ (L P acc : List Line), P ++ L = order ++ lines → (∀ a, a ∈ acc ↔ a ∈ P) →
      acc.Pairwise (fun a b => (order ++ lines).idxOf a < (order ++ lines).idxOf b) →
      (L.foldl add acc).Pairwise (fun a b => (order ++ lines).idxOf a < (order ++ lines).idxOf b) := by
    intro L
    induction L with
    | nil => exact fun _ _ _ _ h => h
    | cons k L ih =>
      intro P acc e mem h
      rw [List.foldl_cons]
      have e' : (P ++ [k]) ++ L = order ++ lines := by rw [← e]; simp
      by_cases hk : k ∈ acc
      · rw [show add acc k = acc from if_pos hk]
        refine ih (P ++ [k]) acc e' (fun a => ?_) h
        rw [mem, List.mem_append, List.mem_singleton]
        exact ⟨.inl, fun h => h.elim id fun e => e ▸ (mem k).1 hk⟩
      · rw [show add acc k = acc ++ [k] from if_neg hk]
        refine ih (P ++ [k]) (acc ++ [k]) e' (fun a => by simp [mem]) ?_
        rw [List.pairwise_append]
        refine ⟨h, List.pairwise_singleton _ _, fun a ha b hb => ?_⟩
        rw [List.mem_singleton] at hb
        subst hb
        have hb : b ∉ P := fun h => hk ((mem b).2 h)
        rw [← e, List.idxOf_append_of_mem ((mem a).1 ha), List.idxOf_append_of_notMem hb]
        exact lt_of_lt_of_le (List.idxOf_lt_length_iff.2 ((mem a).1 ha)) (Nat.le_add_right _ _)
  exact (grow (order ++ lines) [] [] rfl (fun _ => Iff.rfl) List.Pairwise.nil).imp takenBefore_of_idxOf

/-! ### A sample instant (R123 to R125) -/

theorem judgeSamples_accepts (pads : BitVec 32) (s : State) (l : Line) :
    ((judgeSamples pads s).get l).2 = true ↔ padLevel pads l ≠ s.level l ∧
      (s.record l).filter.val ≤ (s.sampler.get l).candidate.elim 0 (·.count) := by
  unfold judgeSamples
  rw [Table.get_tabulate]
  unfold judgeSample State.level
  by_cases e : padLevel pads l = (s.sampler.get l).level
  · rw [if_pos e]; simp [e]
  · rw [if_neg e]
    dsimp only
    cases hc : (s.sampler.get l).candidate with
    | none =>
      simp only [Option.elim_none]
      split
      · next h => simp only [true_iff]; exact ⟨e, by omega⟩
      · next h => simp only [Bool.false_eq_true, false_iff]; rintro ⟨_, h'⟩; omega
    | some c =>
      simp only [Option.elim_some]
      split
      · next h => simp only [true_iff]; exact ⟨e, by omega⟩
      · next h => simp only [Bool.false_eq_true, false_iff]; rintro ⟨_, h'⟩; omega

theorem judgeSamples_level (pads : BitVec 32) (s : State) (l : Line) :
    (((judgeSamples pads s).get l).1).level = s.level l := by
  unfold judgeSamples
  rw [Table.get_tabulate]
  unfold judgeSample State.level
  dsimp only
  repeat' split
  all_goals rfl

/-- A sample instant, whole. -/
theorem takeSample_spec (pads : BitVec 32) (order : List Line) (h : Settled s) :
    ∃ turns s0, (∀ l, l ∈ turns ↔ padLevel pads l ≠ s.level l ∧
        (s.record l).filter.val ≤ (s.sampler.get l).candidate.elim 0 (·.count)) ∧
      turns.Pairwise (TakenBefore order) ∧ SameExcept [.sampler] s s0 ∧
      (∀ l, s0.level l = s.level l) ∧
      InTurn (fun l u v => AcceptsChange u v l (padLevel pads l)) turns s0 (takeSample pads order s) := by
  have f0 := withSampler_frame (.tabulate fun l => ((judgeSamples pads s).get l).1) s
  refine ⟨(takingOrder order).filter fun l => ((judgeSamples pads s).get l).2,
    { s with sampler := .tabulate fun l => ((judgeSamples pads s).get l).1 }, fun l => ?_,
    (takingOrder_sorted order).filter _, f0, fun l => ?_, ?_⟩
  · rw [List.mem_filter, ← judgeSamples_accepts]
    exact and_iff_right ((takingOrder_spec order).2 l)
  · unfold State.level
    rw [Table.get_tabulate]
    exact judgeSamples_level pads s l
  · have settled : Settled { s with sampler := .tabulate fun l => ((judgeSamples pads s).get l).1 } :=
      ⟨h.exclusive.frame f0, h.mirrors, h.pairs, h.parts⟩
    clear f0
    unfold takeSample
    dsimp only
    generalize ({ s with sampler := .tabulate fun l => ((judgeSamples pads s).get l).1 } : State) = u at *
    generalize judgeSamples pads s = judged
    generalize takingOrder order = L
    induction L generalizing u with
    | nil => exact rfl
    | cons l L ih =>
      rw [List.foldl_cons]
      by_cases hl : (judged.get l).2 = true
      · rw [List.filter_cons, if_pos hl, if_pos hl]
        obtain ⟨accepts, settled⟩ := filteredChange_spec l (padLevel pads l) settled
        exact ⟨_, accepts, ih _ settled⟩
      · rw [List.filter_cons, if_neg hl, if_neg hl]
        exact ih _ settled

end Sys2Proof.Machine
end

