-- ==== Sys2Proof/Laws/Miso.lean ====
section
/-! SUPPORT. The record of what MISO returned decides nothing: every operation a request may take commutes with
setting it (R175, log 19). -/

namespace Sys2Proof.Machine

set_option Elab.async false

variable (x : Client) (bs : List Byte) (s : State)

/-! ### Reading the state -/

theorem port_setMiso (y : Client) :
    ((setMiso x bs s).port y).crstLow = (s.port y).crstLow ∧
      ((setMiso x bs s).port y).faultSel = (s.port y).faultSel ∧
      ((setMiso x bs s).port y).reqKind = (s.port y).reqKind ∧
      ((setMiso x bs s).port y).reqParam = (s.port y).reqParam := by
  unfold setMiso
  by_cases h : y = x
  · subst h; simp
  · simp [h]

variable {x bs s}

theorem foldl_setMiso {α : Type} {f : State → α → State}
    (h : ∀ s a, f (setMiso x bs s) a = setMiso x bs (f s a)) (L : List α) (s : State) :
    L.foldl f (setMiso x bs s) = setMiso x bs (L.foldl f s) := by
  induction L generalizing s with
  | nil => rfl
  | cons a L ih => rw [List.foldl_cons, h, ih]; rfl

theorem ite_setMiso {c : Prop} [Decidable c] {f : State → State} (s : State)
    (h : f (setMiso x bs s) = setMiso x bs (f s)) :
    (if c then f (setMiso x bs s) else setMiso x bs s) = setMiso x bs (if c then f s else s) := by
  split
  · exact h
  · rfl

/-! ### Events -/

theorem append_setMiso (y : Client) (e : Event) (s : State) :
    append y e (setMiso x bs s) = setMiso x bs (append y e s) := by
  unfold append
  rw [(port_setMiso x bs s y).1]
  split <;> rfl

theorem appendHolder_setMiso (g : Group) (e : Event) (s : State) :
    appendHolder g e (setMiso x bs s) = setMiso x bs (appendHolder g e s) := by
  unfold appendHolder
  rw [show (setMiso x bs s).holder g = s.holder g from rfl]
  cases s.holder g with
  | none => rfl
  | some y => exact append_setMiso _ _ _

theorem notifyWatchers_setMiso (g : Group) (s : State) :
    notifyWatchers g (setMiso x bs s) = setMiso x bs (notifyWatchers g s) :=
  foldl_setMiso (fun s y => ite_setMiso (c := ((s.watch.get g).get y).isSome)
    (f := fun t => append y (.groupState g (t.entry g).state (t.entry g).holder) t) s
    (append_setMiso _ _ _)) _ _

/-! ### Replacements -/

theorem reevaluateMirror_setMiso (m : Line) (s : State) :
    reevaluateMirror m (setMiso x bs s) = setMiso x bs (reevaluateMirror m s) := by
  unfold reevaluateMirror
  rw [show (setMiso x bs s).driver m = s.driver m from rfl,
    show partnerAsserted (setMiso x bs s) m = partnerAsserted s m from rfl]
  cases (s.driver m).mirror with
  | none => rfl
  | some mir =>
    obtain ⟨_ | _, _⟩ := mir
    · rfl
    · dsimp only
      cases partnerAsserted s m
      · exact appendHolder_setMiso _ _ (s.withDriver m fun d => { d with mirror := some ⟨.following, true⟩ })
      · rfl

theorem reportDeassertion_setMiso (l : Line) (s : State) :
    reportDeassertion l (setMiso x bs s) = setMiso x bs (reportDeassertion l s) :=
  foldl_setMiso (fun t m => ite_setMiso (c := m ∈ partners s l) (f := reevaluateMirror m) t
    (reevaluateMirror_setMiso m t)) _ _

theorem reportDeassertions_setMiso (was : Line → Bool) (s : State) :
    reportDeassertions was (setMiso x bs s) = setMiso x bs (reportDeassertions was s) :=
  foldl_setMiso (fun t l => ite_setMiso (c := was l && !asserted s l) (f := reportDeassertion l) t
    (reportDeassertion_setMiso l t)) _ _

theorem reportCuts_setMiso (p : Proposal) (s : State) :
    p.reportCuts (setMiso x bs s) = setMiso x bs (p.reportCuts s) := by
  refine foldl_setMiso (fun t l => ite_setMiso (c := p.named (groupOf l) && (s.driver l).pulse.isSome)
    (f := fun t => match (p.result l).function with
      | .pulse _ => t
      | _ => appendHolder (groupOf l) (.pulseCut l .overtaken) t) t ?_) _ _
  cases (p.result l).function with
  | pulse w => rfl
  | _ => exact appendHolder_setMiso _ _ _

theorem startMirror_setMiso (l : Line) (s : State) :
    startMirror l (setMiso x bs s) = setMiso x bs (startMirror l s) := by
  unfold startMirror
  rw [show (setMiso x bs s).record l = s.record l from rfl,
    show partnerAsserted (setMiso x bs s) l = partnerAsserted s l from rfl]
  cases (s.record l).function with
  | mirror src sense =>
    dsimp only
    rw [show demandOf (setMiso x bs s) src sense = demandOf s src sense from rfl]
    cases demandOf s src sense
    · rfl
    · cases partnerAsserted s l
      · rfl
      · exact appendHolder_setMiso _ _ (s.withDriver l fun d => { d with mirror := some ⟨.held, true⟩ })
  | _ => rfl

theorem startMirrors_setMiso (p : Proposal) (s : State) :
    p.startMirrors (setMiso x bs s) = setMiso x bs (p.startMirrors s) :=
  foldl_setMiso (fun t l => ite_setMiso (c := p.named (groupOf l)) (f := startMirror l) t
    (startMirror_setMiso l t)) _ _

theorem apply_setMiso (p : Proposal) (was : Line → Bool) (s : State) :
    p.apply was (setMiso x bs s) = setMiso x bs (p.apply was s) := by
  unfold Proposal.apply
  rw [reportCuts_setMiso, show p.place (setMiso x bs (p.reportCuts s)) =
    setMiso x bs (p.place (p.reportCuts s)) from rfl, startMirrors_setMiso, reportDeassertions_setMiso]

theorem replaceGroup_setMiso (g : Group) (cfg : GroupConfig) (was : Line → Bool) (s : State) :
    replaceGroup g cfg was (setMiso x bs s) = setMiso x bs (replaceGroup g cfg was s) :=
  apply_setMiso _ was s

/-! ### Grants and ends of holding -/

theorem grant_setMiso (g : Group) (y : Client) (restore : Bool) (was : Line → Bool) (s : State) :
    grant g y restore was (setMiso x bs s) = setMiso x bs (grant g y restore was s) := by
  have safe := fun s => replaceGroup_setMiso (x := x) (bs := bs) g ((s.policy.get g).safe) was s
  unfold grant
  rw [show (setMiso x bs s).park = s.park from rfl, show (setMiso x bs s).policy = s.policy from rfl]
  cases restore with
  | false => exact safe s
  | true =>
    cases (s.park.get y).get g with
    | none => exact safe s
    | some parked =>
      dsimp only
      rw [show judge (Proposal.of (setMiso x bs s) [(g, parked)] false) (setMiso x bs s) =
        judge (Proposal.of s [(g, parked)] false) s from rfl]
      cases judge (Proposal.of s [(g, parked)] false) s with
      | accepted =>
        exact replaceGroup_setMiso g parked was { s with park := s.park.modify y fun t => t.put g none }
      | loop => dsimp only; rw [append_setMiso]; exact replaceGroup_setMiso _ _ _ _
      | interlock i => dsimp only; rw [append_setMiso]; exact replaceGroup_setMiso _ _ _ _

theorem cutPulse_setMiso (h : Client) (reason : Option CutReason) (l : Line) (s : State) :
    cutPulse h reason l (setMiso x bs s) = setMiso x bs (cutPulse h reason l s) := by
  unfold cutPulse
  rw [show (setMiso x bs s).driver l = s.driver l from rfl]
  split
  · cases reason with
    | none => rfl
    | some r => exact append_setMiso _ _ (s.withDriver l fun d => { d with pulse := none })
  · rfl

theorem cutPulses_setMiso (g : Group) (h : Client) (reason : Option CutReason) (s : State) :
    cutPulses g h reason (setMiso x bs s) = setMiso x bs (cutPulses g h reason s) :=
  foldl_setMiso (fun t l => cutPulse_setMiso h reason l t) _ _

theorem dropDeferred_setMiso (g : Group) (h : Client) (s : State) :
    dropDeferred g h (setMiso x bs s) = setMiso x bs (dropDeferred g h s) := by
  unfold dropDeferred
  rw [show (setMiso x bs s).deferred = s.deferred from rfl]
  cases s.deferred.get h with
  | none => rfl
  | some d =>
    dsimp only
    split
    · exact append_setMiso _ _ { s with deferred := s.deferred.put h none }
    · rfl

theorem fallToSafe_setMiso (g : Group) (st : GroupState) (was : Line → Bool) (s : State) :
    fallToSafe g st was (setMiso x bs s) = setMiso x bs (fallToSafe g st was s) := by
  unfold fallToSafe
  dsimp only
  rw [← notifyWatchers_setMiso, ← replaceGroup_setMiso]
  rfl

theorem handover_setMiso (g : Group) (c : Claim) (rest : List Claim) (was : Line → Bool) (s : State) :
    handover g c rest was (setMiso x bs s) = setMiso x bs (handover g c rest was s) := by
  unfold handover
  dsimp only
  rw [← notifyWatchers_setMiso, ← grant_setMiso, ← append_setMiso]
  rfl

theorem passOn_setMiso (g : Group) (was : Line → Bool) (s : State) :
    passOn g was (setMiso x bs s) = setMiso x bs (passOn g was s) := by
  unfold passOn
  rw [show (setMiso x bs s).entry g = s.entry g from rfl]
  cases (s.entry g).waiting with
  | nil => exact fallToSafe_setMiso _ _ _ _
  | cons c rest => exact handover_setMiso _ _ _ _ _

theorem releaseGroup_setMiso (g : Group) (h : Client) (silent : Bool) (s : State) :
    releaseGroup g h silent (setMiso x bs s) = setMiso x bs (releaseGroup g h silent s) := by
  unfold releaseGroup
  dsimp only
  rw [cutPulses_setMiso, dropDeferred_setMiso]
  exact passOn_setMiso _ _ _

theorem beginLoss_setMiso (g : Group) (h : Client) (reason : LossReason) (s : State) :
    beginLoss g h reason (setMiso x bs s) = setMiso x bs (beginLoss g h reason s) := by
  unfold beginLoss
  dsimp only
  rw [show ({ setMiso x bs s with
        park := (setMiso x bs s).park.modify h fun t => t.put g (some ((setMiso x bs s).groupConfig g)) } : State) =
      setMiso x bs { s with park := s.park.modify h fun t => t.put g (some (s.groupConfig g)) } from rfl,
    append_setMiso]
  generalize append h (.lost g reason) _ = t
  rw [show (setMiso x bs t).audit = t.audit from rfl,
    ite_setMiso (f := auditCopy h .loss (some g)) t (append_setMiso _ _ _), cutPulses_setMiso,
    dropDeferred_setMiso]

theorem refuseClaims_setMiso (g : Group) (s : State) :
    refuseClaims g (setMiso x bs s) = setMiso x bs (refuseClaims g s) :=
  foldl_setMiso (fun t (c : Claim) => append_setMiso c.client (.claimRefused g .withheld) t) _ _

theorem forcedLoss_setMiso (g : Group) (reason : LossReason) (s : State) :
    forcedLoss g reason (setMiso x bs s) = setMiso x bs (forcedLoss g reason s) := by
  unfold forcedLoss
  rw [show (setMiso x bs s).holder g = s.holder g from rfl,
    show asserted (setMiso x bs s) = asserted s from rfl]
  cases s.holder g with
  | none => rfl
  | some h =>
    dsimp only
    rw [beginLoss_setMiso]
    cases reason <;> dsimp only <;>
      first
        | exact passOn_setMiso _ _ _
        | (rw [refuseClaims_setMiso]; exact fallToSafe_setMiso _ _ _ _)

theorem reevaluate_setMiso (g : Group) (s : State) :
    reevaluate g (setMiso x bs s) = setMiso x bs (reevaluate g s) := by
  refine ite_setMiso (c := (s.entry g).state = .revoking ∧ justified (s.policy.get g) (s.entry g) = false) s ?_
  unfold cancelRevocation
  dsimp only
  rw [← notifyWatchers_setMiso, ← appendHolder_setMiso]
  rfl

theorem applyDeferred_setMiso (y : Client) (s : State) :
    applyDeferred y (setMiso x bs s) = setMiso x bs (applyDeferred y s) := by
  unfold applyDeferred
  rw [show (setMiso x bs s).deferred = s.deferred from rfl]
  cases s.deferred.get y with
  | none => rfl
  | some d =>
    dsimp only
    rw [show ({ setMiso x bs s with deferred := s.deferred.put y none } : State) =
      setMiso x bs { s with deferred := s.deferred.put y none } from rfl]
    generalize ({ s with deferred := s.deferred.put y none } : State) = t
    rw [show judge (Proposal.of (setMiso x bs t) d.parts true) (setMiso x bs t) =
      judge (Proposal.of t d.parts true) t from rfl]
    cases judge (Proposal.of t d.parts true) t with
    | accepted => dsimp only; rw [append_setMiso]; exact apply_setMiso _ _ _
    | loop => exact append_setMiso _ _ _
    | interlock i => exact append_setMiso _ _ _

/-! ### Client reset -/

theorem clientReset_setMiso (y : Client) (s : State) :
    clientResetTransaction y (setMiso x bs s) = setMiso x bs (clientResetTransaction y s) := by
  unfold clientResetTransaction
  dsimp only
  rw [show (setMiso x bs s).audit = s.audit from rfl, ite_setMiso (f := auditCopy y .detach none) s
    (append_setMiso _ _ _)]
  generalize (if s.audit.detaches && y != .a then auditCopy y .detach none s else s) = t
  rw [show ({ setMiso x bs t with deferred := (setMiso x bs t).deferred.put y none } : State) =
      setMiso x bs { t with deferred := t.deferred.put y none } from rfl,
    foldl_setMiso (fun t g => ite_setMiso (c := t.holder g = some y) (f := releaseGroup g y true) t
      (releaseGroup_setMiso _ _ _ _) :
        ∀ t g, releaseIfHeld y (setMiso x bs t) g = setMiso x bs (releaseIfHeld y t g)),
    foldl_setMiso (fun t g => ite_setMiso (c := t.waits y g)
      (f := fun t => reevaluate g (dropClaim g y t)) t (reevaluate_setMiso g (dropClaim g y t)) :
        ∀ t g, removeClaim y (setMiso x bs t) g = setMiso x bs (removeClaim y t g))]
  generalize groups.foldl (removeClaim y) _ = u
  exact congrArg (fun p => { p with
    watch := .tabulate fun g => (u.watch.get g).put y none
    staged := u.staged.put y (.fill .reset)
    park := u.park.put y (.fill none)
    queues := u.queues.put y [] }) (withPort_setMiso x bs u y Port.clientReset fun _ => rfl)

/-! ### Requests -/

/-- A request's taking with the record of MISO set in the state it leaves. -/
def Taken.withMiso (x : Client) (bs : List Byte) (t : Taken) : Taken := (setMiso x bs t.1, t.2)

theorem withGroup_setMiso {b : Byte} {body body' : Group → Taken}
    (h : ∀ g, body' g = (body g).withMiso x bs) (s : State) :
    withGroup b (setMiso x bs s) body' = (withGroup b s body).withMiso x bs := by
  unfold withGroup
  cases group? b with
  | none => rfl
  | some g => exact h g

theorem ite_withMiso {c : Prop} [Decidable c] {t u t' u' : Taken} (ht : t' = t.withMiso x bs)
    (hu : u' = u.withMiso x bs) : (if c then t' else u') = (if c then t else u).withMiso x bs := by
  split
  · exact ht
  · exact hu

theorem done_setMiso {s t : State} (h : t = setMiso x bs s) : done t = (done s).withMiso x bs := by
  subst h; rfl

theorem withEntry_setMiso (g : Group) (f : LeaseEntry → LeaseEntry) (s : State) :
    (setMiso x bs s).withEntry g f = setMiso x bs (s.withEntry g f) := rfl

theorem takeClaim_setMiso (g : Group) (y : Client) (prio : Priority) (wait preempt restore : Bool)
    (s : State) : takeClaim g y prio wait preempt restore (setMiso x bs s) =
      (takeClaim g y prio wait preempt restore s).withMiso x bs := by
  have starts : ∀ s, startRevocation g (setMiso x bs s) = setMiso x bs (startRevocation g s) := by
    intro s
    unfold startRevocation
    dsimp only
    rw [show (setMiso x bs s).policy = s.policy from rfl]
    split
    · exact forcedLoss_setMiso _ _ _
    · rw [withEntry_setMiso, appendHolder_setMiso, notifyWatchers_setMiso]
  have grants : grantFromSafe g y prio restore (setMiso x bs s) =
      setMiso x bs (grantFromSafe g y prio restore s) := by
    unfold grantFromSafe
    dsimp only
    rw [withEntry_setMiso, grant_setMiso, notifyWatchers_setMiso]
    rfl
  unfold takeClaim
  dsimp only
  rw [show (setMiso x bs s).entry g = s.entry g from rfl,
    show queueClaim g y prio preempt restore (setMiso x bs s) =
      setMiso x bs (queueClaim g y prio preempt restore s) from rfl, grants, starts,
    show preempts g prio preempt (setMiso x bs s) = preempts g prio preempt s from rfl]
  cases (s.entry g).state with
  | safe => rfl
  | withheld => rfl
  | held =>
    dsimp only
    cases preempts g prio preempt s <;> cases wait <;> rfl
  | revoking => dsimp only; cases wait <;> rfl

theorem claimRequest_setMiso (y : Client) (b f : Byte) (s : State) :
    claimRequest y b f (setMiso x bs s) = (claimRequest y b f s).withMiso x bs := by
  unfold claimRequest
  refine withGroup_setMiso (fun g => ?_) s
  exact ite_withMiso rfl (ite_withMiso rfl (ite_withMiso rfl
    (ite_withMiso rfl (takeClaim_setMiso _ _ _ _ _ _ _))))

theorem releaseRequest_setMiso (y : Client) (b : Byte) (s : State) :
    releaseRequest y b (setMiso x bs s) = (releaseRequest y b s).withMiso x bs := by
  unfold releaseRequest
  refine withGroup_setMiso (fun g => ?_) s
  exact ite_withMiso (done_setMiso (releaseGroup_setMiso _ _ _ _)) rfl

theorem renewRequest_setMiso (y : Client) (b : Byte) (s : State) :
    renewRequest y b (setMiso x bs s) = (renewRequest y b s).withMiso x bs := by
  unfold renewRequest
  refine withGroup_setMiso (fun g => ?_) s
  exact ite_withMiso rfl (ite_withMiso rfl rfl)

theorem withdrawRequest_setMiso (y : Client) (b : Byte) (s : State) :
    withdrawRequest y b (setMiso x bs s) = (withdrawRequest y b s).withMiso x bs := by
  unfold withdrawRequest
  refine withGroup_setMiso (fun g => ?_) s
  exact ite_withMiso (done_setMiso (reevaluate_setMiso g (dropClaim g y s))) rfl

theorem forceReleaseRequest_setMiso (b : Byte) (s : State) :
    forceReleaseRequest b (setMiso x bs s) = (forceReleaseRequest b s).withMiso x bs := by
  unfold forceReleaseRequest
  refine withGroup_setMiso (fun g => ?_) s
  exact done_setMiso (forcedLoss_setMiso _ _ _)

theorem withholdRequest_setMiso (b : Byte) (s : State) :
    withholdRequest b (setMiso x bs s) = (withholdRequest b s).withMiso x bs := by
  refine withGroup_setMiso (fun g => done_setMiso ?_) s
  unfold closeGroup
  rw [show (setMiso x bs s).entry g = s.entry g from rfl]
  cases (s.entry g).state with
  | withheld => rfl
  | safe => exact fallToSafe_setMiso _ _ _ _
  | held => exact forcedLoss_setMiso _ _ _
  | revoking => exact forcedLoss_setMiso _ _ _

theorem openRequest_setMiso (b : Byte) (s : State) :
    openRequest b (setMiso x bs s) = (openRequest b s).withMiso x bs := by
  unfold openRequest
  refine withGroup_setMiso (fun g => ?_) s
  exact ite_withMiso
    (done_setMiso (notifyWatchers_setMiso g (s.withEntry g fun e => { e with state := .safe }))) rfl

theorem stageRequest_setMiso (y : Client) (b : Byte) (r : RecordBytes) (s : State) :
    stageRequest y b r (setMiso x bs s) = (stageRequest y b r s).withMiso x bs := by
  unfold stageRequest
  cases line? b with
  | none => rfl
  | some l =>
    dsimp only
    cases record? l r <;> rfl

theorem stageCopyRequest_setMiso (y : Client) (b : Byte) (s : State) :
    stageCopyRequest y b (setMiso x bs s) = (stageCopyRequest y b s).withMiso x bs := by
  unfold stageCopyRequest
  refine withGroup_setMiso (fun g => ?_) s
  exact rfl

theorem commitRequest_setMiso (y : Client) (set : Byte) (s : State) :
    commitRequest y set (setMiso x bs s) = (commitRequest y set s).withMiso x bs := by
  unfold commitRequest
  refine ite_withMiso rfl (ite_withMiso rfl ?_)
  dsimp only
  rw [show judge (stagedProposal y (groupsOf set) (setMiso x bs s)) (setMiso x bs s) =
    judge (stagedProposal y (groupsOf set) s) s from rfl]
  cases judge (stagedProposal y (groupsOf set) s) s with
  | accepted => exact done_setMiso (apply_setMiso _ _ _)
  | loop => rfl
  | interlock i => rfl

theorem exchangeRequest_setMiso (y : Client) (b : Byte) (s : State) :
    exchangeRequest y b (setMiso x bs s) = (exchangeRequest y b s).withMiso x bs := by
  unfold exchangeRequest
  refine withGroup_setMiso (fun g => ?_) s
  refine ite_withMiso rfl ?_
  dsimp only
  rw [show judge (stagedProposal y [g] (setMiso x bs s)) (setMiso x bs s) =
    judge (stagedProposal y [g] s) s from rfl]
  cases judge (stagedProposal y [g] s) s with
  | accepted =>
    refine done_setMiso ?_
    rw [show stagedProposal y [g] (setMiso x bs s) = stagedProposal y [g] s from rfl, apply_setMiso]
    rfl
  | loop => rfl
  | interlock i => rfl

theorem watchRequest_setMiso (y : Client) (b e : Byte) (s : State) :
    watchRequest y b e (setMiso x bs s) = (watchRequest y b e s).withMiso x bs := by
  unfold watchRequest
  refine withGroup_setMiso (fun g => ?_) s
  cases edges? e <;> rfl

theorem unwatchRequest_setMiso (y : Client) (b : Byte) (s : State) :
    unwatchRequest y b (setMiso x bs s) = (unwatchRequest y b s).withMiso x bs := by
  unfold unwatchRequest
  refine withGroup_setMiso (fun g => ?_) s
  exact ite_withMiso rfl rfl

theorem deferRequest_setMiso (y : Client) (set kind line target : Byte) (timeout delay : Word16)
    (s : State) : deferRequest y set kind line target timeout delay (setMiso x bs s) =
      (deferRequest y set kind line target timeout delay s).withMiso x bs := by
  unfold deferRequest
  refine ite_withMiso rfl (ite_withMiso rfl ?_)
  dsimp only
  cases trigger? kind line target timeout delay with
  | none => rfl
  | some trigger =>
    refine ite_withMiso rfl (done_setMiso ?_)
    exact ite_setMiso (f := applyDeferred y) { s with deferred := s.deferred.put y _ }
      (applyDeferred_setMiso y _)

theorem cancelRequest_setMiso (y : Client) (s : State) :
    cancelRequest y (setMiso x bs s) = (cancelRequest y s).withMiso x bs := by
  unfold cancelRequest
  rw [show (setMiso x bs s).deferred = s.deferred from rfl]
  cases s.deferred.get y <;> rfl

theorem detachSelfRequest_setMiso (y : Client) (s : State) :
    detachSelfRequest y (setMiso x bs s) = (detachSelfRequest y s).withMiso x bs :=
  done_setMiso (clientReset_setMiso y s)

theorem detachRequest_setMiso (b : Byte) (s : State) :
    detachRequest b (setMiso x bs s) = (detachRequest b s).withMiso x bs := by
  unfold detachRequest
  cases client? b with
  | none => rfl
  | some y =>
    refine done_setMiso ?_
    rw [(port_setMiso x bs s y).1]
    split
    · rfl
    · exact clientReset_setMiso y s

theorem setPriorityRequest_setMiso (a b c : Byte) (s : State) :
    setPriorityRequest a b c (setMiso x bs s) = (setPriorityRequest a b c s).withMiso x bs := by
  unfold setPriorityRequest
  cases group? a with
  | none => rfl
  | some g =>
    cases client? b with
    | none => rfl
    | some y =>
      cases inRange 8 c with
      | none => rfl
      | some p =>
        refine done_setMiso (ite_setMiso (f := removeIneligible g y)
          (s.withPolicy g fun q => { q with priority := q.priority.put y p }) ?_)
        generalize s.withPolicy g _ = t
        refine ite_setMiso (c := t.waits y g)
          (f := fun t => reevaluate g (append y (.claimRefused g .ineligible) (dropClaim g y t))) t ?_
        rw [show dropClaim g y (setMiso x bs t) = setMiso x bs (dropClaim g y t) from rfl, append_setMiso,
          reevaluate_setMiso]

theorem setPolicyRequest_setMiso (a b : Byte) (v w : Word16) (s : State) :
    setPolicyRequest a b v w (setMiso x bs s) = (setPolicyRequest a b v w s).withMiso x bs := by
  unfold setPolicyRequest
  cases group? a <;> cases flag? b <;> rfl

theorem safeUpdate_setMiso (l : Line) (r : Record) (s : State) :
    safeUpdate l r (setMiso x bs s) = setMiso x bs (safeUpdate l r s) :=
  reportDeassertions_setMiso (asserted s)
    { s with active := s.active.put l r, drivers := s.drivers.put l (r.startDriver false) }

theorem setSafeRequest_setMiso (b : Byte) (rb : RecordBytes) (s : State) :
    setSafeRequest b rb (setMiso x bs s) = (setSafeRequest b rb s).withMiso x bs := by
  unfold setSafeRequest
  cases line? b with
  | none => rfl
  | some l =>
    dsimp only
    cases record? l rb with
    | none => rfl
    | some r =>
      have stores : ∀ s : State,
          done (if atSafe s (groupOf l) then safeUpdate l r (storeSafe l r (setMiso x bs s))
            else storeSafe l r (setMiso x bs s)) =
          (done (if atSafe s (groupOf l) then safeUpdate l r (storeSafe l r s)
            else storeSafe l r s)).withMiso x bs := fun s =>
        done_setMiso (ite_setMiso (f := safeUpdate l r) (storeSafe l r s)
          (safeUpdate_setMiso l r (storeSafe l r s)))
      dsimp only
      rw [show pairIndexOf (setMiso x bs s) l = pairIndexOf s l from rfl,
        show atSafe (setMiso x bs s) (groupOf l) = atSafe s (groupOf l) from rfl]
      cases r.function with
      | pulse w => rfl
      | mirror src sense => rfl
      | input => dsimp only; exact stores s
      | static a =>
        dsimp only
        cases (if LineFunction.static a = .static true then pairIndexOf s l else none) with
        | none => exact stores s
        | some i => rfl

theorem reevaluatePair_setMiso (p : Pair) (s : State) :
    reevaluatePair p (setMiso x bs s) = setMiso x bs (reevaluatePair p s) := by
  unfold reevaluatePair
  rw [reevaluateMirror_setMiso, reevaluateMirror_setMiso]

theorem setPairRequest_setMiso (i a b : Byte) (s : State) :
    setPairRequest i a b (setMiso x bs s) = (setPairRequest i a b s).withMiso x bs := by
  unfold setPairRequest
  cases inRange 8 i with
  | none => rfl
  | some i =>
    cases line? a with
    | none => rfl
    | some a =>
      cases line? b with
      | none => rfl
      | some b =>
        refine ite_withMiso rfl ?_
        rw [show duplicateIndex (setMiso x bs s) i (Pair.of a b) = duplicateIndex s i (Pair.of a b) from rfl]
        cases duplicateIndex s i (Pair.of a b) with
        | some j => rfl
        | none =>
          refine ite_withMiso rfl (ite_withMiso rfl (done_setMiso ?_))
          unfold writePair
          rw [show (setMiso x bs s).pairs = s.pairs from rfl]
          cases s.pairs.get i with
          | none => rfl
          | some old =>
            dsimp only
            split
            · rfl
            · exact reevaluatePair_setMiso old { s with pairs := s.pairs.put i (some (Pair.of a b)) }

theorem clearPairRequest_setMiso (b : Byte) (s : State) :
    clearPairRequest b (setMiso x bs s) = (clearPairRequest b s).withMiso x bs := by
  unfold clearPairRequest
  cases inRange 8 b with
  | none => rfl
  | some i =>
    dsimp only
    rw [show (setMiso x bs s).pairs = s.pairs from rfl]
    cases s.pairs.get i with
    | none => rfl
    | some old => exact done_setMiso (reevaluatePair_setMiso old { s with pairs := s.pairs.put i none })

theorem setAuditRequest_setMiso (b : Byte) (s : State) :
    setAuditRequest b (setMiso x bs s) = (setAuditRequest b s).withMiso x bs := by
  unfold setAuditRequest
  cases audit? b <;> rfl

/-! ### The issue of a request -/

theorem params_setMiso (page : Page) (s : State) : (setMiso x bs s).params page = s.params page := by
  funext i
  unfold State.params
  cases page with
  | client y => dsimp only; rw [(port_setMiso x bs s y).2.2.2]
  | supervisor => rfl

theorem takeRequest_setMiso (page : Page) (kind : Byte) (s : State) :
    takeRequest page kind (setMiso x bs s) = (takeRequest page kind s).withMiso x bs := by
  unfold takeRequest
  rw [params_setMiso]
  cases kind? kind with
  | none => rfl
  | some k =>
    cases page with
    | client y =>
      cases k with
      | claim => exact claimRequest_setMiso _ _ _ _
      | release => exact releaseRequest_setMiso _ _ _
      | renew => exact renewRequest_setMiso _ _ _
      | withdraw => exact withdrawRequest_setMiso _ _ _
      | stage => exact stageRequest_setMiso _ _ _ _
      | stageCopy => exact stageCopyRequest_setMiso _ _ _
      | commit => exact commitRequest_setMiso _ _ _
      | exchange => exact exchangeRequest_setMiso _ _ _
      | watch => exact watchRequest_setMiso _ _ _ _
      | unwatch => exact unwatchRequest_setMiso _ _ _
      | defer => exact deferRequest_setMiso _ _ _ _ _ _ _ _
      | cancelPending => exact cancelRequest_setMiso _ _
      | detachSelf => exact detachSelfRequest_setMiso _ _
      | _ => rfl
    | supervisor =>
      cases k with
      | forceRelease => exact forceReleaseRequest_setMiso _ _
      | withhold => exact withholdRequest_setMiso _ _
      | openGroup => exact openRequest_setMiso _ _
      | setPriority => exact setPriorityRequest_setMiso _ _ _ _
      | setPolicy => exact setPolicyRequest_setMiso _ _ _ _ _
      | setSafe => exact setSafeRequest_setMiso _ _ _
      | setPair => exact setPairRequest_setMiso _ _ _ _
      | clearPair => exact clearPairRequest_setMiso _ _
      | setAudit => exact setAuditRequest_setMiso _ _
      | detach => exact detachRequest_setMiso _ _
      | _ => rfl

theorem answer_setMiso (y : Client) (kind : Byte) (t : Taken) :
    answer y kind (t.withMiso x bs) = setMiso x bs (answer y kind t) := by
  obtain ⟨s, r⟩ := t
  have reports : reportRefusal y kind r (setMiso x bs s) = setMiso x bs (reportRefusal y kind r s) := by
    unfold reportRefusal
    cases r.code.faultClass with
    | none => rfl
    | some cls =>
      dsimp only
      generalize reportedTo y kind = w
      rw [(port_setMiso x bs s w).2.1, ite_setMiso (f := append w (.fault cls r.code kind)) s
        (append_setMiso _ _ _)]
      generalize (if records (s.port w).faultSel cls = true then append w (.fault cls r.code kind) s else s) = t
      exact ite_setMiso (c := cls = .conflict ∧ t.audit.conflicts = true) (f := auditCopy y .conflict r.group) t
        (append_setMiso _ _ _)
  show writeResult y kind r (reportRefusal y kind r (setMiso x bs s)) = _
  rw [reports]
  exact withPort_setMiso x bs _ y _ fun _ => rfl

/-- A request issued with another record of MISO does the same and leaves that record. -/
theorem issue_setMiso (page : Page) (s : State) :
    issue page (setMiso x bs s) = setMiso x bs (issue page s) := by
  unfold issue
  dsimp only
  rw [takeRequest_setMiso, answer_setMiso]
  cases page with
  | client y => dsimp only; rw [(port_setMiso x bs s y).2.2.1]
  | supervisor => rfl

end Sys2Proof.Machine
end

