-- ==== Sys2Proof/Laws/Reads.lean ====
section
/-! SUPPORT. Frames of several bytes: the addresses they count on to, what each byte of a read frame does, and
how the bytes of a write frame follow one another (R154, R155, R175 to R177). -/

namespace Sys2Proof.Machine

set_option Elab.async false

variable {s : State} {x : Client}

/-! ### Addresses (R175) -/

theorem frameAddress_zero (a : Byte) : frameAddress a 0 = a := by
  revert a; unfold frameAddress; decide +kernel

theorem frameAddress_succ (a : Byte) (k : Nat) :
    nextAddress (frameAddress a k) = frameAddress a (k + 1) := by
  unfold frameAddress
  rw [BitVec.ofNat_add, ← BitVec.add_assoc]
  generalize a + BitVec.ofNat 8 k = c
  have half : a &&& 0x80 = 0 ∨ a &&& 0x80 = 0x80 := by revert a; decide +kernel
  rcases half with h | h <;>
  · rw [h]
    unfold nextAddress
    revert c
    decide +kernel

/-- Every byte of a frame has the address of its number. -/
theorem bufferOf_address (a : Byte) (k : Nat) (vs : List Byte) :
    ∀ w ∈ bufferOf (frameAddress a k) vs, ∃ i, k ≤ i ∧ i < k + vs.length ∧ w.1 = frameAddress a i := by
  induction vs generalizing k with
  | nil => intro w hw; cases hw
  | cons v vs ih =>
    intro w hw
    simp only [bufferOf, List.mem_cons] at hw
    rcases hw with rfl | hw
    · exact ⟨k, le_refl k, by simp, rfl⟩
    · rw [frameAddress_succ] at hw
      obtain ⟨i, h1, h2, h3⟩ := ih (k + 1) w hw
      exact ⟨i, by omega, by rw [List.length_cons]; omega, h3⟩

/-! ### Write frames (R177) -/

/-- A frame that writes no kind register stores its bytes and issues nothing. -/
theorem takeWrites_plain (a : Byte) (k : Nat) (vs : List Byte) (s : State)
    (h : ∀ i, i < k + vs.length → frameAddress a i ≠ 0x04 ∧ (x = .a → frameAddress a i ≠ 0x81)) :
    takeWrites x (bufferOf (frameAddress a k) vs) s =
      (bufferOf (frameAddress a k) vs).foldl (writeRegister x) s := by
  unfold takeWrites
  dsimp only
  rw [if_neg, if_neg]
  · rintro ⟨rfl, hc⟩
    obtain ⟨w, hw, e⟩ := List.any_eq_true.1 hc
    obtain ⟨i, _, h2, h3⟩ := bufferOf_address a k vs w hw
    exact (h i h2).2 rfl (by rw [← h3]; simpa using e)
  · intro hc
    obtain ⟨w, hw, e⟩ := List.any_eq_true.1 hc
    obtain ⟨i, _, h2, h3⟩ := bufferOf_address a k vs w hw
    exact (h i h2).1 (by rw [← h3]; simpa using e)

/-- What MISO returned decides no write. -/
theorem writeRegister_setMiso (x : Client) (bs : List Byte) (s : State) (w : Byte × Byte) :
    writeRegister x (setMiso x bs s) w = setMiso x bs (writeRegister x s w) := by
  unfold writeRegister
  dsimp only
  by_cases c : w.1.toNat = 0x04
  · rw [if_pos c, if_pos c]; exact withPort_setMiso x bs s x _ fun _ => rfl
  rw [if_neg c, if_neg c]; clear c
  by_cases c : 0x05 ≤ w.1.toNat ∧ w.1.toNat ≤ 0x14
  · rw [dif_pos c, dif_pos c]; exact withPort_setMiso x bs s x _ fun _ => rfl
  rw [dif_neg c, dif_neg c]; clear c
  by_cases c : w.1.toNat = 0x1F
  · rw [if_pos c, if_pos c]; exact withPort_setMiso x bs s x _ fun _ => rfl
  rw [if_neg c, if_neg c]; clear c
  by_cases c : w.1.toNat = 0x20
  · rw [if_pos c, if_pos c]; exact withPort_setMiso x bs s x _ fun _ => rfl
  rw [if_neg c, if_neg c]; clear c
  by_cases c : w.1.toNat = 0x3D
  · rw [if_pos c, if_pos c]; exact withPort_setMiso x bs s x _ fun _ => rfl
  rw [if_neg c, if_neg c]; clear c
  by_cases c : w.1.toNat = 0x43
  · rw [if_pos c, if_pos c]; exact withPort_setMiso x bs s x _ fun _ => rfl
  rw [if_neg c, if_neg c]; clear c
  by_cases c : x = .a ∧ w.1.toNat = 0x80
  · rw [if_pos c, if_pos c]; rfl
  rw [if_neg c, if_neg c]; clear c
  by_cases c : x = .a ∧ w.1.toNat = 0x81
  · rw [if_pos c, if_pos c]; rfl
  rw [if_neg c, if_neg c]; clear c
  by_cases c : x = .a ∧ 0x82 ≤ w.1.toNat ∧ w.1.toNat ≤ 0x91
  · rw [dif_pos c, dif_pos c]; rfl
  · rw [dif_neg c, dif_neg c]

theorem writeRegisters_setMiso (x : Client) (bs : List Byte) (s : State) (ws : List (Byte × Byte)) :
    ws.foldl (writeRegister x) (setMiso x bs s) = setMiso x bs (ws.foldl (writeRegister x) s) := by
  induction ws generalizing s with
  | nil => rfl
  | cons w ws ih => rw [List.foldl_cons, writeRegister_setMiso, ih]; rfl

/-! ### Read frames (R154, R176) -/

/-- A byte agrees with what an address shows, in the bits to which the manual gives a value. -/
def Agrees (s : State) (x : Client) (a v : Byte) : Prop :=
  v &&& ~~~(windowByte s x a).hole = (windowByte s x a).value &&& ~~~(windowByte s x a).hole

theorem resolve_agrees (s : State) (x : Client) (a : Byte) (n : Nat) :
    Agrees s x a ((windowByte s x a).resolve n) := by
  unfold Agrees
  generalize windowByte s x a = w
  unfold Shown.resolve
  split
  · rfl
  · generalize Config.openBits n = o
    obtain ⟨v, h⟩ := w
    dsimp only
    apply BitVec.eq_of_getLsbD_eq
    intro i hi
    simp only [BitVec.getLsbD_and, BitVec.getLsbD_or, BitVec.getLsbD_not, hi, decide_true,
      Bool.true_and]
    rcases h.getLsbD i with _ | _ <;> simp

/-- The state with a frame in progress at a port, the bytes MISO has returned and a count of free values. -/
def midFrame (s : State) (x : Client) (f : Option Frame) (miso : List Byte) (draws : Nat) : State :=
  { s.withPort x (fun p => { p with frame := f, miso }) with draws }

/-- No address shows the frame in progress. -/
theorem midFrame_window (s : State) (x : Client) (f : Option Frame) (miso : List Byte) (draws : Nat)
    (a : Byte) : windowByte (midFrame s x f miso draws) x a = windowByte s x a := by
  have crst : ∀ y, ((midFrame s x f miso draws).port y).crstLow = (s.port y).crstLow := by
    intro y
    unfold midFrame
    by_cases h : y = x
    · subst h; simp [State.withPort, State.port]
    · simp [State.withPort, State.port, h]
  unfold windowByte
  split
  · cases x <;> rfl
  · split
    · unfold supervisorByte; simp only [crst]; rfl
    · rfl

/-- A read frame after some of its bytes. -/
structure Reading (s : State) (x : Client) (start : Byte) (k : Nat) (f : Frame) (bs : List Byte) :
    Prop where
  live : f.ignored = false
  read : f.isRead = true
  address : f.address = frameAddress start k
  length : bs.length = k
  shown : ∀ i, i < k → Agrees s x (frameAddress start i) (bs.getD i 0)
  latched : ∀ l ∈ f.latched, Agrees s x l.1 l.2
  taken : (∃ l ∈ f.latched, l.1 = 0x1E) → f.entry = Latch.take (s.queues.get x)
  evt5 : f.evt5Read = true ↔ ∃ i, i < k ∧ frameAddress start i = 0x1E
  entry : f.evt5Read = true → f.entry = Latch.take (s.queues.get x)

/-- One more byte of a read frame. -/
theorem Reading.next {start : Byte} {k : Nat} {f f' : Frame} {bs : List Byte} {b : Byte}
    (h : Reading s x start k f bs) (live : f'.ignored = false) (read : f'.isRead = true)
    (address : f'.address = nextAddress f.address) (shown : Agrees s x f.address b)
    (latched : ∀ l ∈ f'.latched, Agrees s x l.1 l.2)
    (taken : (∃ l ∈ f'.latched, l.1 = 0x1E) → f'.entry = Latch.take (s.queues.get x))
    (evt5 : f'.evt5Read = (f.evt5Read || f.address == 0x1E))
    (entry : f'.evt5Read = true → f'.entry = Latch.take (s.queues.get x)) :
    Reading s x start (k + 1) f' (bs ++ [b]) := by
  refine ⟨live, read, by rw [address, h.address, frameAddress_succ], by simp [h.length], fun i hi => ?_,
    latched, taken, ?_, entry⟩
  · by_cases e : i < k
    · rw [List.getD_append _ _ _ _ (by rw [h.length]; exact e)]; exact h.shown i e
    · have e : i = k := by omega
      subst e
      rw [← h.address]
      simpa [List.getD, h.length] using shown
  · rw [evt5, Bool.or_eq_true, h.evt5, beq_iff_eq, h.address]
    constructor
    · rintro (⟨i, hi, e⟩ | e)
      · exact ⟨i, by omega, e⟩
      · exact ⟨k, by omega, e⟩
    · rintro ⟨i, hi, e⟩
      by_cases c : i < k
      · exact .inl ⟨i, c, e⟩
      · have e' : i = k := by omega
        subst e'; exact .inr e

/-- The values latched with one address (R176): they agree with their addresses, the address is among them,
and EVT5 is so only with the other event bytes. -/
theorem latchNow_spec {t : State} {a : Byte} {g : Nat × Nat} (hg : latchGroup a = some g)
    (window : ∀ b, windowByte t x b = windowByte s x b) :
    (∀ l ∈ latchNow t x g, Agrees s x l.1 l.2) ∧
      ((∃ l ∈ latchNow t x g, l.1 = 0x1E) → g.1 = 0x19) ∧
      ∃ l ∈ latchNow t x g, (latchNow t x g).find? (fun l => l.1 == a) = some l ∧ l.1 = a := by
  have member : g ∈ latchGroups := List.mem_of_find?_eq_some hg
  have range : g.1 ≤ a.toNat ∧ a.toNat < g.1 + g.2 := by simpa using List.find?_some hg
  refine ⟨fun l hl => ?_, ?_, ?_⟩
  · obtain ⟨k, _, rfl⟩ := List.mem_map.1 hl
    dsimp only
    rw [window]
    exact resolve_agrees _ _ _ _
  · rintro ⟨l, hl, e⟩
    obtain ⟨k, hk, rfl⟩ := List.mem_map.1 hl
    rw [List.mem_range] at hk
    dsimp only at e
    unfold latchGroups at member
    simp only [List.mem_cons, List.not_mem_nil, or_false] at member
    clear hl hg range
    rcases member with rfl | rfl | rfl | rfl | rfl | rfl | rfl <;> dsimp only at * <;>
      first
        | rfl
        | (exfalso; revert k; decide)
  · cases hn : (latchNow t x g).find? (fun l => l.1 == a) with
    | some l => exact ⟨l, List.mem_of_find?_eq_some hn, rfl, by simpa using List.find?_some hn⟩
    | none =>
      exfalso
      have place : g.1 + (a.toNat - g.1) = a.toNat := by omega
      refine List.find?_eq_none.1 hn
        (byteOf (g.1 + (a.toNat - g.1)),
          (windowByte t x (byteOf (g.1 + (a.toNat - g.1)))).resolve (t.draws + (a.toNat - g.1)))
        (List.mem_map.2 ⟨a.toNat - g.1, by rw [List.mem_range]; omega, rfl⟩) ?_
      rw [beq_iff_eq]
      show byteOf _ = _
      rw [place]
      simp [byteOf]

/-- All one byte of a read frame does (R154, R176). -/
theorem serveByte_spec {start : Byte} {k : Nat} {f : Frame} {bs : List Byte} (draws : Nat)
    (h : Reading s x start k f bs) :
    ∃ f' b n, serveByte x f (midFrame s x (some f) (0 :: 0 :: bs) draws) =
        midFrame s x (some f') (0 :: 0 :: (bs ++ [b])) n ∧
      Reading s x start (k + 1) f' (bs ++ [b]) := by
  have put : ∀ (f' : Frame) (v : Byte) (n : Nat),
      ({ midFrame s x (some f) (0 :: 0 :: bs) draws with draws := n } : State).withPort x
        (fun p => { p with frame := some f', miso := p.miso ++ [v] }) =
      midFrame s x (some f') (0 :: 0 :: (bs ++ [v])) n := fun f' v n => by cases x <;> rfl
  have window := midFrame_window s x (some f) (0 :: 0 :: bs) draws
  unfold serveByte
  dsimp only
  cases hf : f.latched.find? (fun l => l.1 == f.address) with
  | some l =>
    have e : l.1 = f.address := by simpa using List.find?_some hf
    have member := List.mem_of_find?_eq_some hf
    refine ⟨_, l.2, draws, put _ _ draws,
      h.next h.live h.read rfl (e ▸ h.latched l member) h.latched h.taken rfl fun c => ?_⟩
    rw [Bool.or_eq_true, beq_iff_eq] at c
    rcases c with c | c
    · exact h.entry c
    · exact h.taken ⟨l, member, e.trans c⟩
  | none =>
    dsimp only
    cases hg : latchGroup f.address with
    | none =>
      dsimp only
      rw [window]
      refine ⟨_, _, _, put _ _ _, h.next h.live h.read rfl (resolve_agrees _ _ _ _) h.latched h.taken rfl
        fun c => ?_⟩
      rw [Bool.or_eq_true, beq_iff_eq] at c
      rcases c with c | c
      · exact h.entry c
      · rw [c] at hg; exact absurd hg (by decide)
    | some g =>
      dsimp only
      obtain ⟨agrees, events, l, member, found, e⟩ := latchNow_spec hg window
      have event : f.address = 0x1E → g.1 = 0x19 := fun c => events ⟨l, member, e.trans c⟩
      rw [found]
      have takes : (if g.1 = 0x19 then
            Latch.take ((midFrame s x (some f) (0 :: 0 :: bs) draws).queues.get x) else f.entry) =
          if g.1 = 0x19 then Latch.take (s.queues.get x) else f.entry := rfl
      refine ⟨_, l.2, _, put _ _ _, h.next h.live h.read rfl (e ▸ agrees l member) (fun l hl => ?_) ?_ rfl
        fun c => ?_⟩
      · rcases List.mem_append.1 hl with hl | hl
        · exact h.latched l hl
        · exact agrees l hl
      · rintro ⟨l, hl, e⟩
        dsimp only
        rw [takes]
        by_cases c : g.1 = 0x19
        · rw [if_pos c]
        · rw [if_neg c]
          rcases List.mem_append.1 hl with hl | hl
          · exact h.taken ⟨l, hl, e⟩
          · exact absurd (events ⟨l, hl, e⟩) c
      · rw [Bool.or_eq_true, beq_iff_eq] at c
        dsimp only
        rw [takes]
        by_cases c' : g.1 = 0x19
        · rw [if_pos c']
        · rw [if_neg c']
          rcases c with c | c
          · exact h.entry c
          · exact absurd (event c) c'

/-- The data bytes of a read frame. -/
theorem shiftByte_foldl_read (n : Nat) {start : Byte} {k : Nat} {f : Frame} {bs : List Byte}
    (draws : Nat) (h : Reading s x start k f bs) :
    ∃ f' bs' m, (List.replicate n 0).foldl (shiftByte x)
        (midFrame s x (some f) (0 :: 0 :: bs) draws) = midFrame s x (some f') (0 :: 0 :: bs') m ∧
      Reading s x start (k + n) f' bs' := by
  induction n generalizing k f bs draws with
  | zero => exact ⟨f, bs, draws, rfl, h⟩
  | succ n ih =>
    obtain ⟨f1, b, m1, e1, h1⟩ := serveByte_spec draws h
    obtain ⟨f2, bs2, m2, e2, h2⟩ := ih m1 h1
    refine ⟨f2, bs2, m2, ?_, by rwa [show k + (n + 1) = k + 1 + n by omega]⟩
    rw [List.replicate_succ, List.foldl_cons, ← e2, ← e1]
    congr 1
    unfold shiftByte
    rw [show ((midFrame s x (some f) (0 :: 0 :: bs) draws).port x).frame = some f by
      simp [midFrame, State.withPort, State.port]]
    dsimp only
    rw [if_neg (by simp [h.live]), if_pos h.read]

/-- A read frame that a port takes, before its first data byte. -/
theorem beginFrame_reading (start : Byte) (takes : portTakes s x = true) :
    ∃ f, beginFrame x true 0x40 start s = midFrame s x (some f) [0, 0] s.draws ∧
      Reading s x start 0 f [] := by
  obtain ⟨h1, h2, h3⟩ := (portTakes_iff s x).mp takes
  refine ⟨{ ignored := false, isRead := true, address := start, buffer := [], latched := []
            entry := .untaken, evt5Read := false }, ?_,
    ⟨rfl, rfl, (frameAddress_zero start).symm, rfl, by omega, by simp, by simp, by simp, by simp⟩⟩
  unfold beginFrame
  rw [h3]
  simp only [Option.isSome_none, Bool.false_eq_true, if_false]
  refine Eq.trans (withPort_congr s x _ (fun p => { p with frame := some _, miso := [0, 0] }) ?_) rfl
  simp [h1, h2]

end Sys2Proof.Machine
end

