-- ==== Sys2Proof/Laws/ResetTurns.lean ====
section
/-! SUPPORT. A client reset group by group: the releases in ascending group order, then the removals of claims
(R44, R45, R172). -/

namespace Sys2Proof.Machine

set_option Elab.async false

variable {s t : State} {g : Group}

/-- What step 3 of a client reset rests on. -/
structure Releasing (x : Client) (s : State) : Prop where
  pairs : PairsDistinct s
  safe : SafeConfigLaw s
  deferred : s.deferred.get x = none

theorem Sends.others {x : Client} {a es : Client → List Event} (h : Sends s t a)
    (he : ∀ y, y ≠ x → a y = es y) : SendsOthers x s t es := fun y hy => by rw [← he y hy]; exact h y

/-- One release of a client reset (R44). -/
theorem releaseIfHeld_turn (x : Client) (s : State) (g : Group) (h : Releasing x s) :
    ReleasesSilently x g s (releaseIfHeld x s g) ∧ Releasing x (releaseIfHeld x s g) := by
  have f := releaseIfHeld_frame x s g
  have deferred : (releaseIfHeld x s g).deferred = s.deferred :=
    releaseIfHeld_foldl_deferred x [g] s h.deferred
  refine ⟨⟨fun hn => by unfold releaseIfHeld; rw [if_neg hn], fun hh => ?_⟩,
    by unfold PairsDistinct; rw [f.pairs]; exact h.pairs,
    by unfold SafeConfigLaw; rw [f.policy]; exact h.safe, by rw [deferred]; exact h.deferred⟩
  have e : releaseIfHeld x s g = releaseGroup g x true s := by unfold releaseIfHeld; rw [if_pos hh]
  have drops : dropEvents s g x = [] := by unfold dropEvents; rw [h.deferred]
  have silent : ∀ y, y ≠ x → toClient x
      ((if true = true then [] else cutEvents s g .released) ++ dropEvents s g x) y = [] := fun y hy =>
    if_neg hy
  rw [e] at deferred f ⊢
  refine ⟨fun p hp => ?_, fun k hk => releaseGroup_other x true k hk, (releaseGroup_beyond g x true s).lines,
    fun noRestore => ?_, fun c rest cfg waiting restore parked => ?_⟩
  · by_cases hd : p = .deferred
    · subst hd; exact deferred
    · refine f p fun hm => hp ?_
      clear hp; revert hm hd; cases p <;> decide
  · obtain ⟨passes, -, takes, -, -, park, rs, res, sends⟩ :=
      releaseGroup_spec (g := g) (h := x) true h.pairs h.safe noRestore
    exact ⟨passes, takes, park, rs, res.resumes, sends.others fun y hy => by rw [silent y hy]; simp⟩
  · obtain ⟨hands, -, parks⟩ :=
      releaseGroup_restoring (g := g) (h := x) true h.pairs h.safe waiting restore parked
    exact ⟨hands.transport (.refl _ _) (.refl _ _) fun es es' he sd => sd.others fun y hy => by
      rw [silent y hy, he]; simp, parks⟩

/-- One removal of a claim of a client reset (R45). -/
theorem removeClaim_turn (x : Client) (s : State) (g : Group) : RemovesClaim x g s (removeClaim x s g) := by
  refine ⟨(removeClaim_spec x g s).2.2.2, fun waits => ⟨removeClaim_frame x s g,
    (removeClaim_spec x g s).1, _, rfl, ?_⟩⟩
  have f := dropClaim_frame g x s
  have drop : (dropClaim g x s).entry g =
      { s.entry g with waiting := (s.entry g).waiting.filter fun c => c.client != x } := by
    unfold dropClaim; rw [State.withEntry_entry_self]
  have holder : (dropClaim g x s).holder g = s.holder g := by unfold State.holder; rw [drop]
  have spec := reevaluate_spec g (dropClaim g x s)
  rw [show removeClaim x s g = reevaluate g (dropClaim g x s) by unfold removeClaim; rw [if_pos waits]]
  rw [drop, f.policy] at spec
  split at spec
  · next cancelled =>
    rw [if_pos cancelled]
    refine ⟨spec.1, (spec.2.2.2.start f).of_eq fun y => ?_⟩
    unfold toWatchers
    rw [holder, f.watch]
  · next stays =>
    rw [if_neg stays, spec]
    exact ⟨drop, f.queues⟩

/-- A client reset, whole, up to the client's own registers (R172): the audit copy and the pending commit, the
releases, the removals. -/
theorem clientReset_turns (x : Client) (pairs : PairsDistinct s) (safe : SafeConfigLaw s) :
    ∃ s3 s4, clientResetTransaction x s = resetClientState x s4 ∧
      InTurn (ReleasesSilently x) groups (beginReset x s) s3 ∧ InTurn (RemovesClaim x) groups s3 s4 := by
  obtain ⟨f, -, deferred⟩ := beginReset_spec x s
  exact ⟨_, _, clientReset_begin x s,
    (InTurn.foldl (releaseIfHeld x) (Releasing x) (releaseIfHeld_turn x) groups _
      ⟨by unfold PairsDistinct; rw [f.pairs]; exact pairs, by unfold SafeConfigLaw; rw [f.policy]; exact safe,
        deferred⟩).1,
    (InTurn.foldl (removeClaim x) (fun _ => True) (fun s g _ => ⟨removeClaim_turn x s g, trivial⟩) groups _
      trivial).1⟩

end Sys2Proof.Machine
end

