-- ==== Sys2Proof/Laws/Stores.lean ====
section
/-! SUPPORT. What a write frame of any layout stores, and the request it then issues (R177, R178). -/

namespace Sys2Proof.Machine

set_option Elab.async false

variable {s t u : State} {x : Client}

/-! ### The byte an address receives last -/

theorem lastBuffered_append (ws : List (Byte × Byte)) (p : Byte × Byte) (a : Byte) :
    lastBuffered (ws ++ [p]) a = if p.1 = a then some p.2 else lastBuffered ws a := by
  unfold lastBuffered
  rw [List.reverse_append, List.reverse_singleton, List.singleton_append, List.find?_cons]
  by_cases e : p.1 = a
  · simp [e]
  · have : (p.1 == a) = false := by simpa using e
    rw [if_neg e, this]

theorem lastBuffered_isSome (ws : List (Byte × Byte)) (a : Byte) :
    (ws.any fun w => w.1 == a) = (lastBuffered ws a).isSome := by
  unfold lastBuffered
  rw [Option.isSome_map, List.isSome_find?, List.any_reverse]

/-- The frame assembly buffer holds each data byte at its address. -/
theorem bufferOf_eq (start : Byte) (data : List Byte) :
    bufferOf start data = (List.range data.length).map fun i => (frameAddress start i, data.getD i 0) := by
  have go : ∀ (data : List Byte) (k : Nat), bufferOf (frameAddress start k) data =
      (List.range data.length).map fun i => (frameAddress start (k + i), data.getD i 0) := by
    intro data
    induction data with
    | nil => exact fun _ => rfl
    | cons v vs ih =>
      intro k
      rw [bufferOf, frameAddress_succ, ih (k + 1), List.length_cons, List.range_succ_eq_map]
      simp [Function.comp_def, Nat.add_assoc, Nat.add_comm 1]
  have := go data 0
  rw [frameAddress_zero] at this
  simpa using this

theorem lastBuffered_bufferOf (start : Byte) (data : List Byte) :
    lastBuffered (bufferOf start data) = lastWritten start data := by
  funext a
  unfold lastBuffered lastWritten
  rw [bufferOf_eq, ← List.map_reverse, List.find?_map, Option.map_map]
  rfl

/-! ### What the writes leave in the registers (R177, R179, R180) -/

theorem StoresBytes.refl (s : State) (x : Client) : StoresBytes s s x fun _ => none :=
  ⟨.refl _ s, fun _ _ => rfl, rfl, fun _ => rfl, fun _ => ⟨rfl, rfl, rfl⟩, fun _ => ⟨rfl, rfl, fun _ => rfl⟩⟩

/-- The registers of a port's own half after some bytes have been written, but for its parameters. -/
def portStored (p : Port) (w : Byte → Option Byte) (params : Table 16 Byte) : Port :=
  { p with
    reqKind := (w 0x04).getD p.reqKind
    reqParam := params
    irqSel := (w 0x1F).elim p.irqSel (·.setWidth 6)
    faultSel := (w 0x20).elim p.faultSel (·.setWidth 5)
    leaseSel := (w 0x3D).elim p.leaseSel fun v => Fin.ofNat 8 v.toNat
    lineSel := (w 0x43).elim p.lineSel fun v => Fin.ofNat 32 v.toNat }

/-- One more byte written. -/
theorem StoresBytes.write {w : Byte → Option Byte} (h : StoresBytes s u x w) (a v : Byte) :
    StoresBytes s (writeRegister x u (a, v)) x fun b => if a = b then some v else w b := by
  obtain ⟨f, others, port, params, notA, isA⟩ := h
  have address : ∀ b : Byte, a = b ↔ a.toNat = b.toNat := fun b => BitVec.toNat_inj.symm
  have param : ∀ i : Fin 16, (BitVec.ofNat 8 (0x05 + i.val)).toNat = 0x05 + i.val ∧
      (BitVec.ofNat 8 (0x82 + i.val)).toNat = 0x82 + i.val := by decide
  -- a register of the port's own half
  have ofPort : ∀ g : Port → Port, a.toNat < 0x80 →
      g (u.port x) = portStored (s.port x) (fun b => if a = b then some v else w b)
        (g (u.port x)).reqParam →
      (∀ i : Fin 16, (g (u.port x)).reqParam.get i =
        if a.toNat = 0x05 + i.val then v else (u.port x).reqParam.get i) →
      StoresBytes s (u.withPort x g) x fun b => if a = b then some v else w b := by
    intro g lt stored gparams
    refine ⟨f.trans (withPort_frame x g u).mono,
      fun y hy => (State.withPort_port_ne _ _ hy).trans (others y hy), ?_, fun i => ?_,
      fun hx => notA hx, fun hx => ?_⟩
    · rw [State.withPort_port_self]; exact stored
    · rw [State.withPort_port_self, gparams, params]
      simp only [address, (param _).1]
      split <;> rfl
    · simp only [address, (param _).2, BitVec.reduceToNat]
      rw [if_neg (by omega), if_neg (by omega)]
      exact ⟨(isA hx).1, (isA hx).2.1, fun i => by rw [if_neg (by omega)]; exact (isA hx).2.2 i⟩
  -- an address at which the port's own half has no register
  have own : ∀ t : State, t.ports = u.ports → a.toNat < 0x05 ∨ 0x14 < a.toNat →
      a.toNat ≠ 0x04 → a.toNat ≠ 0x1F → a.toNat ≠ 0x20 → a.toNat ≠ 0x3D → a.toNat ≠ 0x43 →
      t.port x = portStored (s.port x) (fun b => if a = b then some v else w b) (t.port x).reqParam ∧
      ∀ i : Fin 16, (t.port x).reqParam.get i =
        (if a = BitVec.ofNat 8 (0x05 + i.val) then some v
          else w (BitVec.ofNat 8 (0x05 + i.val))).getD ((s.port x).reqParam.get i) := by
    intro t ht lt c4 c1F c20 c3D c43
    rw [show t.port x = u.port x by unfold State.port; rw [ht]]
    simp only [portStored, address, (param _).1, BitVec.reduceToNat]
    refine ⟨?_, fun i => by rw [if_neg (by omega)]; exact params i⟩
    rw [if_neg c4, if_neg c1F, if_neg c20, if_neg c3D, if_neg c43]
    exact port
  unfold writeRegister
  by_cases c4 : a.toNat = 0x04
  · rw [if_pos c4]
    exact ofPort _ (by omega) (by rw [port]; simp [portStored, address, c4])
      fun i => by rw [if_neg (by omega)]
  rw [if_neg c4]
  by_cases c5 : 0x05 ≤ a.toNat ∧ a.toNat ≤ 0x14
  · rw [dif_pos c5]
    refine ofPort _ (by omega) ?_ fun i => ?_
    · have : ∀ k, (k < 0x05 ∨ 0x14 < k) → a.toNat ≠ k := by omega
      rw [port]; simp [portStored, address, this]
    · rw [Table.get_put]
      by_cases e : a.toNat = 0x05 + i.val
      · rw [if_pos e, if_pos (Fin.ext (by simp [e]))]
      · rw [if_neg e, if_neg fun h => e (by have := congrArg Fin.val h; simp at this; omega)]
  rw [dif_neg c5]
  by_cases c1F : a.toNat = 0x1F
  · rw [if_pos c1F]
    exact ofPort _ (by omega) (by rw [port]; simp [portStored, address, c1F])
      fun i => by rw [if_neg (by omega)]
  rw [if_neg c1F]
  by_cases c20 : a.toNat = 0x20
  · rw [if_pos c20]
    exact ofPort _ (by omega) (by rw [port]; simp [portStored, address, c20])
      fun i => by rw [if_neg (by omega)]
  rw [if_neg c20]
  by_cases c3D : a.toNat = 0x3D
  · rw [if_pos c3D]
    exact ofPort _ (by omega) (by rw [port]; simp [portStored, address, c3D])
      fun i => by rw [if_neg (by omega)]
  rw [if_neg c3D]
  by_cases c43 : a.toNat = 0x43
  · rw [if_pos c43]
    exact ofPort _ (by omega) (by rw [port]; simp [portStored, address, c43])
      fun i => by rw [if_neg (by omega)]
  rw [if_neg c43]
  have own := fun t ht => own t ht (by omega) c4 c1F c20 c3D c43
  have supervisor : ∀ t : State, SameExcept [.groupSel, .sreq] u t →
      SameExcept [.ports, .groupSel, .sreq] s t :=
    fun t h => f.trans h.mono
  by_cases c80 : x = .a ∧ a.toNat = 0x80
  · rw [if_pos c80]
    obtain ⟨stored, sparams⟩ := own { u with groupSel := Fin.ofNat 8 v.toNat } rfl
    refine ⟨supervisor _ (fun p hp => by
      cases p <;> first | rfl | exact ⟨rfl, rfl⟩ | exact absurd (by decide) hp), others, stored,
      sparams, fun hx => absurd c80.1 hx, fun hx => ?_⟩
    simp only [address, (param _).2, BitVec.reduceToNat]
    rw [if_pos c80.2, if_neg (by omega)]
    exact ⟨rfl, (isA hx).2.1, fun i => by rw [if_neg (by omega)]; exact (isA hx).2.2 i⟩
  rw [if_neg c80]
  by_cases c81 : x = .a ∧ a.toNat = 0x81
  · rw [if_pos c81]
    obtain ⟨stored, sparams⟩ := own { u with sreqKind := v } rfl
    refine ⟨supervisor _ (fun p hp => by
      cases p <;> first | rfl | exact ⟨rfl, rfl⟩ | exact absurd (by decide) hp), others, stored,
      sparams, fun hx => absurd c81.1 hx, fun hx => ?_⟩
    simp only [address, (param _).2, BitVec.reduceToNat]
    rw [if_neg (by omega), if_pos c81.2]
    exact ⟨(isA hx).1, rfl, fun i => by rw [if_neg (by omega)]; exact (isA hx).2.2 i⟩
  rw [if_neg c81]
  by_cases c82 : x = .a ∧ 0x82 ≤ a.toNat ∧ a.toNat ≤ 0x91
  · rw [dif_pos c82]
    obtain ⟨stored, sparams⟩ := own
      { u with sreqParam := u.sreqParam.put ⟨a.toNat - 0x82, by omega⟩ v } rfl
    refine ⟨supervisor _ (fun p hp => by
      cases p <;> first | rfl | exact ⟨rfl, rfl⟩ | exact absurd (by decide) hp), others, stored,
      sparams, fun hx => absurd c82.1 hx, fun hx => ?_⟩
    simp only [address, (param _).2, BitVec.reduceToNat]
    rw [if_neg (by omega), if_neg (by omega)]
    refine ⟨(isA hx).1, (isA hx).2.1, fun i => ?_⟩
    rw [Table.get_put]
    by_cases e : a.toNat = 0x82 + i.val
    · rw [if_pos e, if_pos (Fin.ext (by simp [e]))]; rfl
    · rw [if_neg e, if_neg fun h => e (by have := congrArg Fin.val h; simp at this; omega)]
      exact (isA hx).2.2 i
  rw [dif_neg c82]
  obtain ⟨stored, sparams⟩ := own u rfl
  refine ⟨f, others, stored, sparams, notA, fun hx => ?_⟩
  simp only [address, (param _).2, BitVec.reduceToNat]
  rw [if_neg fun e => c80 ⟨hx, e⟩, if_neg fun e => c81 ⟨hx, e⟩]
  exact ⟨(isA hx).1, (isA hx).2.1, fun i => by
    rw [if_neg fun e => c82 ⟨hx, by omega⟩]; exact (isA hx).2.2 i⟩

/-- All the writes of a buffer. -/
theorem StoresBytes.writes (s : State) (x : Client) (ws : List (Byte × Byte)) :
    StoresBytes s (ws.foldl (writeRegister x) s) x (lastBuffered ws) := by
  induction ws using List.reverseRecOn with
  | nil => exact .refl s x
  | append_singleton ws p ih =>
    rw [List.foldl_append, show lastBuffered (ws ++ [p]) = fun b => if p.1 = b then some p.2 else lastBuffered ws b from
      funext fun b => lastBuffered_append ws p b]
    exact ih.write p.1 p.2

/-! ### The frame (R177, R178) -/

theorem StoresFrame.takes {start : Byte} {data : List Byte} (h : StoresFrame s u x start data)
    (takes : portTakes s x = true) : portTakes u x = true := by
  rw [portTakes_iff] at *
  obtain ⟨f, -, port, -⟩ := h
  rw [f.resetLow, port]
  exact takes

/-- What MISO returned decides nothing of a write frame's effect, which leaves it. -/
theorem takeWrites_setMiso (bs : List Byte) (ws : List (Byte × Byte)) (s : State) (x : Client) :
    takeWrites x ws (setMiso x bs s) = setMiso x bs (takeWrites x ws s) := by
  unfold takeWrites
  dsimp only
  rw [writeRegisters_setMiso]
  split
  · exact issue_setMiso _ _
  · split
    · exact issue_setMiso _ _
    · rfl

theorem takeWrites_miso (ws : List (Byte × Byte)) (s : State) (x : Client) :
    ((takeWrites x ws s).port x).miso = (s.port x).miso := by
  have := takeWrites_setMiso (s.port x).miso ws s x
  rw [setMiso_self] at this
  rw [this, setMiso_port]

/-- What a frame assembly buffer does (R177, R178): it stores its bytes, and issues the request of the kind it
wrote, if it wrote one. -/
theorem takeWrites_buffer (ws : List (Byte × Byte)) (s : State) (x : Client) :
    ∃ u, StoresBytes s u x (lastBuffered ws) ∧
      takeWrites x ws s =
        if (lastBuffered ws 0x04).isSome then issue (.client x) u
        else if x = .a ∧ (lastBuffered ws 0x81).isSome then issue .supervisor u else u :=
  ⟨_, .writes s x ws, by unfold takeWrites; dsimp only; rw [lastBuffered_isSome, lastBuffered_isSome]⟩

/-- A write frame stores its bytes, and issues the request of the kind it wrote, if it wrote one. -/
theorem takeWrites_spec (start : Byte) (data : List Byte) (n : Nat) (s : State) (x : Client) :
    ∃ u, StoresFrame s u x start data ∧
      takeWrites x (bufferOf start data) (misoZeros x n s) = misoZeros x n
        (if (lastWritten start data 0x04).isSome then issue (.client x) u
          else if x = .a ∧ (lastWritten start data 0x81).isSome then issue .supervisor u else u) := by
  obtain ⟨u, stores, takes⟩ := takeWrites_buffer (bufferOf start data) s x
  rw [lastBuffered_bufferOf] at stores takes
  exact ⟨u, stores, by rw [misoZeros_eq, takeWrites_setMiso, takes]; rfl⟩

/-! ### Write frames in progress (R177) -/

/-- CS rises after a whole byte of a write frame: its buffer takes effect in the state then standing. -/
theorem finishFrame_write {f : Frame} (hf : (s.port x).frame = some f) (hi : f.ignored = false)
    (hr : f.isRead = false) : finishFrame x true s =
      takeWrites x f.buffer (s.withPort x fun p => { p with frame := none }) := by
  unfold finishFrame; rw [hf]; simp [hi, hr]

end Sys2Proof.Machine
end

