-- ==== Sys2Proof/Tests/Slice0.lean ====
section
/-! SUPPORT. Tests: the checks of WellFormed, single steps with results taken from the manual, and for every
statement with hypotheses a state and operands that meet them. -/

namespace Sys2Proof.Tests

open Sys2Proof Sys2Proof.Machine

set_option Elab.async false

/-! ### WellFormed: each check refuses an ill-formed command -/

/-- CLAIM's code 0x01 is known on a client page. -/
theorem test_wf_known_kind : (Instr.unknown (.client .a) 0x01).wf = false := by decide

/-- A client code is unknown through SREQ_KIND (R178). -/
theorem test_wf_client_kind : (Instr.unknown .supervisor 0x01).wf = true := by decide

/-- A frame with the access byte 0x40 is a read frame (R175). -/
theorem test_wf_access : (Instr.registerWrite .a (.begin true 0x40 0x04)).wf = false := by decide

/-- A sample instant takes no line twice. -/
theorem test_wf_order : (Instr.sample 0 [3, 3]).wf = false := by decide

/-! ### Encodings written out from R181 to R183 -/

/-- Byte 1 of R182: bit 0 INVERTED, bit 1 OPEN_DRAIN, bits 3:2 FALLING, bit 4 ASSERTED, bit 5 level carried. -/
theorem test_record_static :
    record? 7 ⟨1, 0b00111011, 4, 0, 0, 0, 0⟩ =
      some ⟨.static true, .inverted, .openDrain, 4, .falling⟩ := by decide

/-- PULSE with the width 0x0102, high byte first (R182). -/
theorem test_record_pulse :
    record? 7 ⟨2, 0b01000100, 15, 1, 2, 0, 0⟩ =
      some ⟨.pulse 0x0102, .normal, .pushPull, 15, .rising⟩ := by decide

/-- MIRROR of L31 OPPOSITE; the same bytes are out of range on L31 itself (R3, R182). -/
theorem test_record_mirror :
    record? 7 ⟨3, 0x80, 0, 0, 0, 31, 1⟩ =
        some ⟨.mirror 31 .opposite, .normal, .pushPull, 0, .none⟩ ∧
      record? 31 ⟨3, 0x80, 0, 0, 0, 31, 1⟩ = none := by decide

/-- What R182 refuses: function 4, filter 16, a carried bit too many, width 0, source 32, sense 2. -/
theorem test_record_refused :
    record? 7 ⟨4, 0, 0, 0, 0, 0, 0⟩ = none ∧ record? 7 ⟨0, 0, 16, 0, 0, 0, 0⟩ = none ∧
      record? 7 ⟨0, 0x20, 0, 0, 0, 0, 0⟩ = none ∧ record? 7 ⟨2, 0x40, 0, 0, 0, 0, 0⟩ = none ∧
      record? 7 ⟨3, 0x80, 0, 0, 0, 32, 0⟩ = none ∧
      record? 7 ⟨3, 0x80, 0, 0, 0, 0, 2⟩ = none := by decide

/-- REVOKE_NOTICE of G5 with a grace period of 0x1234 (R183). -/
theorem test_event_bytes :
    (List.range 6).map (fun i =>
      (eventByte (some ⟨.revokeNotice 5 0x1234, 0xABCD⟩) i).value) =
        [0x03, 0b00001101, 0x12, 0x34, 0xAB, 0xCD] := by decide

/-- FAULT: the class in EVT1, the request kind in EVT2, the result code in EVT3 (R183). -/
theorem test_fault_bytes :
    (List.range 4).map (fun i => (eventByte (some ⟨.fault .conflict .loop 0x07, 0⟩) i).value) =
      [0x41, 4, 0x07, 0x41] := by decide

/-- IDENT, CLIENT_NUM of Port C, and an address without a register (R179). -/
theorem test_window :
    (windowByte State.reset .c 0x00).value = 0x6E ∧ (windowByte State.reset .c 0x01).value = 2 ∧
      (windowByte State.reset .c 0x7F).value = 0 := by decide

/-- The table gives no row any bits, and so nothing is put in front of the queue. -/
theorem test_table_words :
    decodeTableWord 8 1 = none ∧ (State.reset.withFetchWord 8 1).pending = [] := by decide

/-! ### Small states -/

/-- G0 is held by A at priority 1, without expiry. -/
def held : State :=
  State.reset.withEntry 0 fun _ => ⟨.held, some .a, some 1, .noExpiry, none, [], 0⟩

/-- B waits for G0 behind A. -/
def waited : State :=
  State.reset.withEntry 0 fun _ =>
    ⟨.held, some .a, some 1, .noExpiry, none, [⟨.b, 1, false, false, 0⟩], 1⟩

/-- B waits for G0 behind A and asks for a restore. -/
def restoring : State :=
  State.reset.withEntry 0 fun _ =>
    ⟨.held, some .a, some 1, .noExpiry, none, [⟨.b, 1, false, true, 0⟩], 1⟩

/-- A's lease of G0 is being revoked for B. -/
def revoking : State :=
  (State.reset.withEntry 0 fun _ =>
    ⟨.revoking, some .a, some 1, .stopped, some 0, [⟨.b, 2, true, false, 0⟩], 1⟩).withPolicy 0
      fun p => { p with preemptible := true }

/-- G0 is preemptible, with this grace period, and B's priority there is 2. -/
def preemptible (grace : Word16) (s : State) : State :=
  s.withPolicy 0 fun p =>
    { p with preemptible := true, gracePeriod := grace, priority := p.priority.put .b 2 }

/-- G0 is closed. -/
def closed : State := State.reset.withEntry 0 fun e => { e with state := .withheld }

/-- A record with this function and else as after reset. -/
def recordOf (f : LineFunction) : Record := { Record.reset with function := f }

/-- A configuration with these functions on its first two lines. -/
def configOf (f k : LineFunction) : GroupConfig :=
  ((Table.fill Record.reset).put 0 (recordOf f)).put 1 (recordOf k)

/-- A configuration that no check refuses. -/
def plainConfig : GroupConfig := configOf (.static true) .input

/-- L0 and L1 mirror each other. -/
def loopConfig : GroupConfig := configOf (.mirror 1 .same) (.mirror 0 .same)

/-- L0 and L1 both asserted. -/
def clashConfig : GroupConfig := configOf (.static true) (.static true)

/-- L0 and L1 are an interlock pair. -/
def paired (s : State) : State := { s with pairs := s.pairs.put 0 (some ⟨0, 1⟩) }

/-- B has parked this configuration of G0. -/
def parked (cfg : GroupConfig) (s : State) : State :=
  { s with park := s.park.put .b ((s.park.get .b).put 0 (some cfg)) }

/-- A has staged this configuration of G0. -/
def staged (cfg : GroupConfig) (s : State) : State :=
  { s with staged := s.staged.modify .a fun t => (t.put 0 (cfg.get 0)).put 1 (cfg.get 1) }

/-- A has a pending commit of G0. -/
def pendingCommit (cfg : GroupConfig) (trigger : Trigger) (s : State) : State :=
  { s with deferred := s.deferred.put .a (some ⟨[(0, cfg)], trigger⟩) }

/-- A line's active record has this function. -/
def active (f : LineFunction) (l : Line) (s : State) : State :=
  { s with active := s.active.put l (recordOf f) }

/-- L0's active record has this function, and its driver this state. -/
def driving (f : LineFunction) (d : Driver) (s : State) : State :=
  active f 0 (s.withDriver 0 fun _ => d)

/-- L31's candidate has counted 1 of the 4 samples that its filter of 3 asks for. -/
def counting : State :=
  { State.reset with sampler := State.reset.sampler.put 31 ⟨.low, some ⟨.high, 1⟩⟩ }

/-- Something of everything: a pulse on L0 that is about to end, with the mirror on its partner L1 held; a
revocation on G1; G7 closed; a pending commit, a park record, a candidate, a full queue. -/
def busy : State :=
  let s := paired (parked plainConfig (pendingCommit plainConfig (.line 31 .high 5 (some 0)) held))
  let s := (driving (.pulse 1) ⟨some 0, none⟩ s).withDriver 1 fun _ => ⟨none, some ⟨.held, true⟩⟩
  let s := s.withEntry 1 fun _ =>
    ⟨.revoking, some .c, some 1, .stopped, some 1, [⟨.b, 2, true, false, 0⟩], 1⟩
  let s := s.withEntry 7 fun e => { e with state := .withheld }
  { s with
    active := s.active.put 1 (recordOf (.mirror 30 .opposite))
    sampler := s.sampler.put 31 ⟨.low, some ⟨.high, 15⟩⟩
    queues := s.queues.put .d (List.replicate 31 ⟨.granted 0, 0⟩ ++ [⟨.overflow, 0⟩]) }

/-- A line found HIGH at three samples of the four that the reset filter asks for. -/
def candidate (l : Line) (s : State) : State :=
  { s with sampler := s.sampler.put l ⟨.low, some ⟨.high, 3⟩⟩ }

/-- L0 reports rising edges and is about to rise; B watches G0. -/
def reporting : State :=
  { candidate 0 held with
    active := held.active.put 0 { Record.reset with edges := .rising }
    watch := held.watch.put 0 (PerClient.put (.fill none) .b (some .both)) }

/-- The next state of a command. -/
def after (c : Instr) (s : State) : State :=
  match exec c s with
  | .next t => t
  | _ => s

theorem inv_held : Inv held := inv_of_check (by decide +kernel)
theorem inv_waited : Inv waited := inv_of_check (by decide +kernel)
theorem inv_revoking : Inv revoking := inv_of_check (by decide +kernel)
theorem inv_closed : Inv closed := inv_of_check (by decide +kernel)
theorem inv_busy : Inv busy := inv_of_check (by decide +kernel)

/-! ### Single steps -/

/-- A granted CLAIM: RESULT 0x01 (R25, R183), a lease without expiry where the period is 0 (R32). -/
theorem test_claim_granted :
    ((after (.claim .d 7 0) State.reset).port .d).result = 0x01 ∧
      ((after (.claim .d 7 0) State.reset).entry 7).timer = .noExpiry := by decide

/-- A higher priority with PREEMPT on a preemptible group gets QUEUED and a notice (R54). -/
theorem test_claim_preempts :
    let t := after (.claim .b 0 0b010) (preemptible 100 held)
    (t.port .b).result = 0x02 ∧ (t.entry 0).state = .revoking ∧ (t.entry 0).grace = some 100 ∧
      t.queues.get .a = [⟨.revokeNotice 0 100, 0⟩] := by decide +kernel

/-- The next in the list is granted in the releasing transaction (R36). -/
theorem test_release_passes :
    ((after (.release .a 0) waited).entry 0).holder = some .b ∧
      (after (.release .a 0) waited).queues.get .b = [⟨.granted 0, 0⟩] := by decide +kernel

/-- RENEW in REVOKING is refused REVOKING, 0x16 (R31). -/
theorem test_renew_revoking : ((after (.renew .a 0) revoking).port .a).result = 0x16 := by
  decide +kernel

/-- The last claim that justifies it withdraws, and the revocation is cancelled (R60). -/
theorem test_withdraw_cancels :
    ((after (.withdraw .b 0) revoking).entry 0).state = .held ∧
      (after (.withdraw .b 0) revoking).queues.get .a = [⟨.revokeCancelled 0, 0⟩] := by
  decide +kernel

/-- STAGE on L31 changes the caller's record only (R72). -/
theorem test_stage :
    let t := after (.stage .b 31 ⟨1, 0x30, 0, 0, 0, 0, 0⟩) State.reset
    (t.staged.get .b).get 31 = ⟨.static true, .normal, .pushPull, 0, .none⟩ ∧
      (t.staged.get .a).get 31 = Record.reset := by decide +kernel

/-- A commit starts a PULSE of its whole width (R108). -/
theorem test_commit_starts :
    (after (.commit .a 1) (staged (configOf (.pulse 9) .input) held)).driver 0 = ⟨some 9, none⟩ := by
  decide +kernel

/-- Two lines of a pair asserted by one commit: INTERLOCK 0x40 with the pair's index (R93). -/
theorem test_commit_interlock :
    let s := { held with pairs := held.pairs.put 7 (some ⟨0, 1⟩) }
    ((after (.commit .a 1) (staged clashConfig s)).port .a).result = 0x40 ∧
      ((after (.commit .a 1) (staged clashConfig s)).port .a).resultInfo = 7 := by decide +kernel

/-- EXCHANGE leaves the old active record staged (R81). -/
theorem test_exchange :
    ((after (.exchange .a 0) (staged plainConfig held)).staged.get .a).get 0 = Record.reset ∧
      (after (.exchange .a 0) (staged plainConfig held)).record 0 = recordOf (.static true) := by
  decide +kernel

/-- A forced release reports LOST(FORCED) and parks the configuration (R34, R83). -/
theorem test_force_release :
    let t := after (.forceRelease .supervisor 0) held
    t.queues.get .a = [⟨.lost 0 .forced, 0⟩] ∧ ((t.park.get .a).get 0).isSome = true := by
  decide +kernel

/-- A supervisor request through a client page of Port A is refused NOT_SUPERVISOR, 0x50 (R178). -/
theorem test_not_supervisor :
    ((after (.withhold (.client .a) 0) State.reset).port .a).result = 0x50 := by decide +kernel

/-- The same through Port B: the result at Port B, the FAULT entry in client A's queue (R156, R157, R164). -/
theorem test_not_supervisor_fault :
    let t := after (.setAudit (.client .b) 0) State.reset
    (t.port .b).result = 0x50 ∧ t.queues.get .b = [] ∧
      t.queues.get .a = [⟨.fault .authority .notSupervisor 0x28, 0⟩] := by decide +kernel

/-- The pulse ends, is reported, and the held mirror of its partner resumes (R110, R96). -/
theorem test_pulse_end :
    let t := after (.pulseEnd 0) busy
    t.driver 0 = ⟨none, none⟩ ∧ t.driver 1 = ⟨none, some ⟨.following, true⟩⟩ ∧
      t.queues.get .a = [⟨.pulseDone 0, 0⟩, ⟨.mirrorResumed 1 true, 0⟩] := by decide +kernel

/-- The fourth equal sample under filter 3 is accepted (R123); the second is not. -/
theorem test_sample :
    (after (.sample 0x80000000 []) (candidate 31 State.reset)).level 31 = .high ∧
      (after (.sample 0x80000000 []) counting).level 31 = .low := by decide +kernel

/-- A mirror that gains demand while its partner is asserted is held at once (R95). -/
theorem test_sample_holds :
    let s := active (.static true) 0 (active (.mirror 31 .same) 1 (paired (candidate 31 held)))
    let t := after (.sample 0x80000000 []) (s.withDriver 1 fun _ => ⟨none, some ⟨.following, false⟩⟩)
    (t.driver 1).mirror = some ⟨.held, true⟩ ∧ t.queues.get .a = [⟨.mirrorHeld 1, 0⟩] := by
  decide +kernel

/-- The count wraps from 65535 to 0 (R174). -/
theorem test_tick_wraps : (after .timebaseTick { State.reset with ms := 0xFFFF }).ms = 0 := by decide

/-- The 32nd entry of a queue is an OVERFLOW (R152). -/
theorem test_overflow :
    enqueue (List.replicate 31 ⟨.granted 0, 0⟩) (.granted 1) 5 =
      List.replicate 31 ⟨.granted 0, 0⟩ ++ [⟨.overflow, 5⟩] := by decide +kernel

/-- MISO is released while CS is high, and returns zeros from the fall of CS on (R175). -/
theorem test_miso :
    misoCondition State.reset .b = .released ∧
      misoCondition (after (.registerWrite .b (.begin true 0x80 0x04)) State.reset) .b =
        .driven [0, 0] := by decide

/-- A CLAIM written as a frame from REQ_KIND on (R177, R181). -/
theorem test_claim_frame :
    ((after (.registerWrite .d (.frame 0x04 [0x01, 7, 0])) State.reset).entry 7).holder = some .d := by
  decide +kernel

/-! ### Witnesses: every statement's hypotheses are met -/

theorem witness_StepRunsFront :
    { State.reset with pending := [.timebaseTick, .renew .a 0] }.pending =
      Instr.timebaseTick :: [.renew .a 0] := rfl

theorem witness_EmptyQueuePassesUnit :
    busy.pending = [] ∧ (busy.driver 0).pulse = some 0 ∧ (busy.driver 1).pulse = none ∧
      held.pending = [] := by decide +kernel

/-- Every law holds of `busy`, and its step with a release in front answers a next state. -/
theorem witness_StepKeepsLaws :
    Inv { busy with pending := [.release .a 0] } ∧ EveryLaw { busy with pending := [.release .a 0] } ∧
      ∃ t, step { busy with pending := [.release .a 0] } = .next t :=
  ⟨inv_of_check (by decide +kernel), everyLaw_of_check (by decide +kernel), _, rfl⟩

theorem witness_StepKeepsLeases :
    LeaseLaw { busy with pending := [.release .a 0] } ∧
      ∃ t, step { busy with pending := [.release .a 0] } = .next t :=
  ⟨witness_StepKeepsLaws.1.lease, _, rfl⟩

theorem witness_StepKeepsConfigurations :
    ConfigLaw { busy with pending := [.release .a 0] } ∧
      ∃ t, step { busy with pending := [.release .a 0] } = .next t :=
  ⟨witness_StepKeepsLaws.1.config, _, rfl⟩

theorem witness_StepKeepsInterlocks :
    SafeConfigLaw { busy with pending := [.release .a 0] } ∧
      PairLaw { busy with pending := [.release .a 0] } ∧
      ∃ t, step { busy with pending := [.release .a 0] } = .next t :=
  ⟨witness_StepKeepsLaws.1.config.2.1, witness_StepKeepsLaws.1.pairs, _, rfl⟩

theorem witness_StepKeepsCandidates :
    SamplerLaw { busy with pending := [.sample 0x80000000 []] } ∧
      ∃ t, step { busy with pending := [.sample 0x80000000 []] } = .next t :=
  ⟨inv_busy.sampler, _, rfl⟩

/-- A record well-formed for its line at the least width and at the nearest source, and one that is not. -/
theorem witness_RecordsReadBack :
    (recordOf (.pulse 1)).wfFor 0 ∧ (recordOf (.mirror 1 .same)).wfFor 0 ∧
      record? 0 ⟨2, 0x4F, 15, 0, 1, 0, 0⟩ = some ⟨.pulse 1, .inverted, .openDrain, 15, .both⟩ ∧
      record? 0 ⟨0, 0x10, 0, 0xFF, 0xFF, 0xFF, 0xFF⟩ = some ⟨.input, .normal, .pushPull, 0, .none⟩ ∧
      (∀ a, (recordOf (.pulse 1)).function ≠ .static a) ∧
      (∀ w, (recordOf (.mirror 1 .same)).function ≠ .pulse w) ∧
      ∀ src sense, (recordOf (.pulse 1)).function ≠ .mirror src sense := by
  refine ⟨?_, ?_, by decide, by decide, nofun, nofun, nofun⟩
  · show (1 : Word16) ≠ 0; decide
  · show (1 : Line) ≠ 0; decide

theorem witness_RequestsAreWriteFrames :
    ∀ x : Client, Page.client x = .client x ∧ (0x04 : Byte) = 0x04 ∨
      Page.client x = .supervisor ∧ x = .a ∧ (0x04 : Byte) = 0x81 := fun _ => .inl ⟨rfl, rfl⟩

theorem witness_RequestsAreWriteFrames_supervisor :
    Page.supervisor = .supervisor ∧ Client.a = .a ∧ (0x81 : Byte) = 0x81 := ⟨rfl, rfl, rfl⟩

/-- A full queue, an empty one, the longest frame that stops before EVT5, and one that begins there. -/
theorem witness_EventFramesPop :
    portTakes busy .d = true ∧
      busy.queues.get .d = ⟨.granted 0, 0⟩ :: (List.replicate 30 ⟨.granted 0, 0⟩ ++ [⟨.overflow, 0⟩]) ∧
      portTakes held .d = true ∧ held.queues.get .d = [] ∧ 5 < 6 ∧
      (after (.eventPop .d (.frame 0x1E 1)) busy).queues.get .d =
        List.replicate 30 ⟨.granted 0, 0⟩ ++ [⟨.overflow, 0⟩] := by decide +kernel

theorem witness_InterruptSelection :
    held.resetLow = false ∧ (held.port .d).crstLow = false ∧ portTakes held .d = true ∧
      portTakes held .a = true ∧ (3 : Byte).toNat = clientNumber .d := by decide

/-- EVT0 of a queue whose head is a GRANTED, its neighbour IRQ_SEL, the last address; a part with a pulse, a held
mirror, a revocation and a pending commit, read at Port D and at Port A; frames that read EVT5, that stop before
it, and that pass the end of either half. -/
theorem witness_ReadFramesShowRegisters :
    LeaseLaw busy ∧ portTakes busy .d = true ∧ portTakes busy .a = true ∧ (0x19 : Byte) ≠ 0x1E ∧
      (windowByte busy .d 0x19).hole = 0 ∧ (windowByte busy .d 0x1F).hole = 0 ∧
      (windowByte busy .d 0xFF).hole = 0 ∧ busy.holder 1 = some .c ∧ busy.waits .d 1 = false ∧
      (busy.entry 1).waiting[0]? = some ⟨.b, 2, true, false, 0⟩ ∧
      (∃ i, i < 6 ∧ frameAddress 0x19 i = 0x1E) ∧ (∀ i, i < 5 → frameAddress 0x19 i ≠ 0x1E) ∧
      frameAddress 0x7F 1 = 0x00 ∧ frameAddress 0xFF 1 = 0x80 ∧
      ((after (.eventPop .a (.frame 0x7F 2)) busy).port .a).miso = [0, 0, 0, 0x6E] :=
  ⟨inv_busy.lease, by decide +kernel⟩

/-- Frames in progress: EVT5 next, latched before from an empty queue, then from a head; TIMESTAMP next, latched
with nothing before it; a register that is not latched; and a DETACH of the frame's client. -/
theorem witness_ReadFramesShowRegisters_pieces :
    let frame (f : Frame) : State := held.withPort .d fun p => { p with frame := some f }
    let none : Frame := ⟨false, true, 0x1E, [], [(0x1E, 0)], .none, false⟩
    let head : Frame := ⟨false, true, 0x1E, [], [(0x1E, 7)], .head ⟨.granted 0, 7⟩, true⟩
    let fresh : Frame := ⟨false, true, 0x02, [], [], .untaken, false⟩
    (((frame none).port .d).frame = some none ∧ latchedAt none 0x1E = some 0 ∧
        none.evt5Read = false) ∧
      (head.evt5Read = true ∧ head.entry = .head ⟨.granted 0, 7⟩ ∧ portTakes (frame head) .a = true ∧
        (3 : Byte).toNat = clientNumber .d ∧ ((frame head).port .d).crstLow = false) ∧
      (latchedAt fresh 0x02 = .none ∧ LatchedWith 0x02 0x03 ∧ ¬ LatchedWith 0x02 0x04 ∧
        ¬ LatchedWith 0x01 0x01) ∧
      ((after (.eventPop .d .next) (append .d (.granted 0) (frame none))).port .d).miso = [0] := by
  decide +kernel

/-- The ends of every range of addresses without a writable register, frames of two bytes beside the kind
registers and past the end of either half, and a write frame cut inside a byte. -/
theorem witness_RegisterWrites :
    portTakes held .a = true ∧ portTakes held .b = true ∧
      (∀ a ∈ ([0x00, 0x03, 0x15, 0x1E, 0x21, 0x3C, 0x3E, 0x42, 0x44, 0x7F, 0x92, 0xFF] : List Byte),
        a.toNat < 0x04 ∨ 0x15 ≤ a.toNat ∧ a.toNat < 0x1F ∨ 0x21 ≤ a.toNat ∧ a.toNat < 0x3D ∨
          0x3E ≤ a.toNat ∧ a.toNat < 0x43 ∨ 0x44 ≤ a.toNat ∧ a.toNat < 0x80 ∨
          0x80 ≤ a.toNat ∧ (Client.a ≠ .a ∨ 0x92 ≤ a.toNat)) ∧
      (0x80 ≤ (0x80 : Byte).toNat ∧ Client.b ≠ .a) ∧
      (∀ a ∈ ([0x02, 0x05, 0x7F, 0x82, 0xFF] : List Byte), ∀ i, i ≤ ([6] : List Byte).length →
        frameAddress a i ≠ 0x04 ∧ (Client.a = .a → frameAddress a i ≠ 0x81)) ∧
      (after (.registerWrite .a (.frame 0xFF [5, 6])) held).groupSel = 6 ∧
      ((after (.registerWrite .b (.begin true 0x80 0x1F)) held).port .b).frame.map (·.isRead) =
        some false ∧ (held.port .b).frame = none := by decide

/-- A frame with no kind register, one that writes REQ_KIND, one that writes SREQ_KIND, and one that wraps and
writes REQ_KIND twice. -/
theorem witness_RegisterWrites_layouts :
    lastWritten 0x05 [1] 0x04 = none ∧ lastWritten 0x05 [1] 0x81 = none ∧
      lastWritten 0x03 [0, 2] 0x04 = some 2 ∧ lastWritten 0x80 [6, 7] 0x81 = some 7 ∧
      lastWritten 0x04 (0x0D :: List.replicate 127 0 ++ [0x0C]) 0x04 = some 0x0C := by decide +kernel

/-- A port with a write frame in progress whose buffer holds some bytes. -/
def writingFrame (x : Client) (address : Byte) (buffer : List (Byte × Byte)) (s : State) : State :=
  s.withPort x fun p =>
    { p with frame := some ⟨false, false, address, buffer, [], .untaken, false⟩
             miso := List.replicate (buffer.length + 2) 0 }

/-- Write frames in progress: one that has written IRQ_SEL and no kind; one with a COMMIT of G1 by its holder, from
which A may detach it; one on Port A's supervisor page; and one that the port ignores. -/
theorem witness_RegisterWrites_pieces :
    let irq := writingFrame .c 0x20 [(0x1F, 0x05)] busy
    let commit := writingFrame .c 0x06 [(0x04, 0x07), (0x05, 0x02)] busy
    let audit := writingFrame .a 0x83 [(0x81, 0x28), (0x82, 0x07)] held
    (LeaseLaw commit ∧ commit.holder 1 = some .c) ∧
      (portTakes irq .a = true ∧ portTakes commit .a = true ∧ (2 : Byte).toNat = clientNumber .c ∧
        (commit.port .c).crstLow = false ∧ commit.resetLow = false) ∧
      (lastBuffered [(0x1F, 0x05)] 0x04 = none ∧ lastBuffered [(0x1F, 0x05)] 0x1F = some 0x05) ∧
      (lastBuffered [(0x04, 0x07), (0x05, 0x02)] 0x04 = some 0x07 ∧
        (lastBuffered [(0x04, 0x07), (0x05, 0x02)] 0x05).getD 0 ≠ 0) ∧
      (lastBuffered [(0x81, 0x28), (0x82, 0x07)] 0x04 = none ∧
        lastBuffered [(0x81, 0x28), (0x82, 0x07)] 0x81 = some 0x28 ∧ audit.resetLow = false ∧
        (audit.port .a).crstLow = false) ∧
      ((after (.registerWrite .b (.begin false 0x80 0x20)) held).port .b).frame.map
        (fun f => (f.isRead, f.ignored)) = some (false, true) :=
  ⟨⟨inv_busy.lease, by decide +kernel⟩, by decide +kernel⟩

/-- A byte for FAULT_SEL stores nothing when it is shifted, nor when CS then rises inside the next byte; it is stored
when CS rises after it. -/
theorem test_bytes_are_held :
    let s := after (.registerWrite .b (.next 0)) (writingFrame .b 0x20 [] held)
    (s.port .b).faultSel = 0x1F ∧
      ((after (.registerWrite .b (.finish false)) s).port .b).faultSel = 0x1F ∧
      ((after (.registerWrite .b (.finish true)) s).port .b).faultSel = 0 := by decide

/-- A DETACH during a write frame (R171): IRQ_SEL stands after it, and the COMMIT of what was held is refused. -/
theorem test_detach_spares_write :
    let finished (buffer : List (Byte × Byte)) : State :=
      after (.registerWrite .c (.finish true))
        (after (.detach .supervisor 2) (writingFrame .c 0x20 buffer busy))
    ((finished [(0x1F, 0x05)]).port .c).irqSel = 0x05 ∧
      ((finished [(0x04, 0x07), (0x05, 0x02)]).port .c).result = ResultCode.notHolder.byte := by
  decide +kernel

/-- A frame that disables every class and then writes REQ_KIND, wrapping: its refusal makes no FAULT entry. -/
theorem test_selection_in_force :
    let t := after (.registerWrite .b (.frame 0x20 (0 :: List.replicate 99 0 ++ [0x0C]))) held
    (t.port .b).faultSel = 0 ∧ (t.port .b).result = ResultCode.notPending.byte ∧
      t.queues.get .b = [] := by decide +kernel

theorem witness_OverflowInterrupt :
    QueueLaw { busy with pending := [.claim .d 2 0] } ∧
      (∃ t, step { busy with pending := [.claim .d 2 0] } = .next t) ∧
      busy.resetLow = false ∧ (busy.port .d).crstLow = false ∧ (busy.queues.get .d).length = 32 :=
  ⟨inv_busy.queues, ⟨_, rfl⟩, by decide +kernel⟩

theorem witness_OverflowInterrupt_off :
    let s := busy.withPort .d fun p => { p with irqSel := 0 }
    QueueLaw s ∧ s.resetLow = false ∧ (s.port .d).crstLow = false ∧ (s.port .d).irqSel = 0 :=
  ⟨(inv_of_check (by decide +kernel)).queues, by decide +kernel⟩

/-- IRQ_SEL with PENDING alone enabled, bit 3 (R179): FAULT and AUDIT entries do not assert the output, a
PENDING_TIMEOUT does. -/
theorem test_irqSel_pending :
    let s := (State.reset.withPort .b fun p => { p with irqSel := 0x08 })
    let t := append .b (.audit .c .detach none) (append .b (.fault .range .unknown 0x1F) s)
    irqAsserted t .b = false ∧ irqAsserted (append .b (.pendingTimeout 3) t) .b = true := by decide

/-- FAULT_SEL with RANGE alone RECORD, bit 2 (R179): UNKNOWN is reported, NOT_HOLDER is not. -/
theorem test_faultSel_range :
    let s := State.reset.withPort .b fun p => { p with faultSel := 0x04 }
    ((after (.unknown (.client .b) 0x1F) s).queues.get .b).length = 1 ∧
      ((after (.release .b 0) s).queues.get .b).length = 0 := by decide +kernel

/-- The codes next to the kinds of each page. -/
theorem witness_PagesRefuseKinds :
    portTakes held .a = true ∧ portTakes held .d = true ∧
      (∀ k ∈ ([0x00, 0x1F, 0x2A, 0xFF] : List Byte), k.toNat < 0x20 ∨ 0x29 < k.toNat) ∧
      ∀ k ∈ ([0x00, 0x0E, 0x1F, 0x2A, 0xFF] : List Byte),
        k = 0 ∨ 0x0D < k.toNat ∧ k.toNat < 0x20 ∨ 0x29 < k.toNat := by decide

theorem witness_ParametersOutOfRange :
    8 ≤ (8 : Byte).toNat ∧ 8 ≤ (32 : Byte).toNat ∧ 32 ≤ (32 : Byte).toNat ∧
      portTakes held .d = true ∧ portTakes held .a = true := by decide

theorem witness_ClaimTests :
    (portTakes closed .b = true ∧ (closed.entry 0).state = .withheld) ∧
      (let s := waited.withPolicy 0 fun p => { p with priority := .fill 0 }
       portTakes s .b = true ∧ (s.entry 0).state ≠ .withheld ∧
         (s.policy.get 0).priority.get .b = 0) ∧
      (portTakes waited .a = true ∧ (waited.entry 0).state ≠ .withheld ∧
        (waited.policy.get 0).priority.get .a ≠ 0 ∧ waited.holder 0 = some .a) ∧
      portTakes waited .b = true ∧ (waited.policy.get 0).priority.get .b ≠ 0 ∧
        waited.holder 0 ≠ some .b ∧ waited.waits .b 0 = true := by decide +kernel

theorem witness_ClaimGrantedFromSafe :
    Inv held ∧ portTakes held .d = true ∧ (7 : Byte).toNat = (7 : Group).val ∧
      (held.entry 7).state = .safe ∧ (held.policy.get 7).priority.get .d ≠ 0 ∧
      (held.park.get .d).get 7 = none := ⟨inv_held, by decide +kernel⟩

/-- A park configuration that is accepted. -/
theorem witness_ClaimRestoresFromSafe :
    let s := parked plainConfig State.reset
    Inv s ∧ portTakes s .b = true ∧ (0 : Byte).toNat = (0 : Group).val ∧
      (s.entry 0).state = .safe ∧ (s.policy.get 0).priority.get .b ≠ 0 ∧
      (0b100 : Byte).getLsbD 2 = true ∧ (s.park.get .b).get 0 = some plainConfig ∧
      judge (Proposal.of s [(0, plainConfig)] false) s = .accepted :=
  ⟨inv_of_check (by decide +kernel), by decide +kernel⟩

/-- One that is refused LOOP. -/
theorem witness_ClaimRestoresFromSafe_loop :
    let s := parked loopConfig State.reset
    Inv s ∧ (s.park.get .b).get 0 = some loopConfig ∧
      judge (Proposal.of s [(0, loopConfig)] false) s = .loop :=
  ⟨inv_of_check (by decide +kernel), by decide +kernel⟩

/-- One that is refused INTERLOCK. -/
theorem witness_ClaimRestoresFromSafe_interlock :
    let s := paired (parked clashConfig State.reset)
    Inv s ∧ (s.park.get .b).get 0 = some clashConfig ∧
      judge (Proposal.of s [(0, clashConfig)] false) s = .interlock 0 :=
  ⟨inv_of_check (by decide +kernel), by decide +kernel⟩

/-- PREEMPT on a group that is not preemptible, and on a preemptible one at the holder's own priority. -/
theorem witness_ClaimOnHeldWaits :
    LeaseLaw held ∧ portTakes held .b = true ∧ (held.entry 0).state = .held ∧
      (held.policy.get 0).priority.get .b ≠ 0 ∧ held.holder 0 ≠ some .b ∧ held.waits .b 0 = false ∧
      (held.policy.get 0).preemptible = false ∧
      (let s := held.withPolicy 0 fun p => { p with preemptible := true }
       (s.policy.get 0).preemptible = true ∧ (s.entry 0).priority = some 1 ∧
         (s.policy.get 0).priority.get .b = 1) := ⟨inv_held.lease, by decide +kernel⟩

theorem witness_ClaimOnRevoking :
    LeaseLaw revoking ∧ portTakes revoking .c = true ∧ (revoking.entry 0).state = .revoking ∧
      (revoking.policy.get 0).priority.get .c ≠ 0 ∧ revoking.holder 0 ≠ some .c ∧
      revoking.waits .c 0 = false ∧ (0b111 : Byte).getLsbD 0 = true ∧
      (0b110 : Byte).getLsbD 0 = false := ⟨inv_revoking.lease, by decide +kernel⟩

theorem witness_ClaimPreempts :
    let s := preemptible 1 held
    LeaseLaw s ∧ portTakes s .b = true ∧ (s.entry 0).state = .held ∧ s.holder 0 ≠ some .b ∧
      s.waits .b 0 = false ∧ (0b010 : Byte).getLsbD 1 = true ∧
      (s.policy.get 0).preemptible = true ∧ (s.entry 0).priority = some 1 ∧
      (1 : Priority) < (s.policy.get 0).priority.get .b ∧ (s.policy.get 0).gracePeriod ≠ 0 :=
  ⟨inv_held.lease, by decide +kernel⟩

/-- C's claim, which restores nothing, goes ahead of B's, which carries RESTORE and has a valid park record. -/
theorem witness_ClaimPreemptsAtOnce :
    let s := parked plainConfig (restoring.withPolicy 0 fun p =>
      { p with preemptible := true, gracePeriod := 0, priority := p.priority.put .c 2 })
    let w : List Claim := [⟨.c, 2, true, false, 1⟩, ⟨.b, 1, false, true, 0⟩]
    Inv s ∧ (portTakes s .c = true ∧ (s.entry 0).state = .held ∧ s.holder 0 = some .a ∧
      Client.a ≠ .c ∧ s.waits .c 0 = false ∧ (0b010 : Byte).getLsbD 1 = true ∧
      (s.policy.get 0).preemptible = true ∧ (s.entry 0).priority = some 1 ∧
      (1 : Priority) < (s.policy.get 0).priority.get .c ∧ (s.policy.get 0).priority.get .c = 2 ∧
      (s.policy.get 0).gracePeriod = 0 ∧ (s.entry 0).arrivals = 1) ∧
      Inserted ⟨.c, 2, true, false, 1⟩ (s.entry 0).waiting w ∧ NoRestore s 0 w := by
  refine ⟨inv_of_check (by decide +kernel), by decide +kernel,
    ⟨[], [⟨.b, 1, false, true, 0⟩], by decide +kernel, rfl, ?_, ?_⟩, ?_⟩
  · intro d h; cases h
  · intro d h; simp only [List.mem_singleton] at h; subst h; decide
  · intro c h; cases h; exact .inl rfl

theorem witness_ReleaseTests :
    portTakes held .a = true ∧ 8 ≤ (8 : Byte).toNat ∧ held.holder 7 ≠ some .a ∧ LeaseLaw held ∧
      held.holder 0 = some .a := ⟨by decide, by decide, by decide, inv_held.lease, by decide⟩

/-- With a successor, and without one. -/
theorem witness_ReleasePassesOn :
    Inv waited ∧ portTakes waited .a = true ∧ waited.holder 0 = some .a ∧
      NoRestore waited 0 (waited.entry 0).waiting ∧ Inv held ∧ held.holder 0 = some .a ∧
      NoRestore held 0 (held.entry 0).waiting := by
  refine ⟨inv_waited, by decide, by decide, ?_, inv_held, by decide, ?_⟩
  · intro c h; cases h; exact .inl rfl
  · intro c h; cases h

/-- At a release and a forced release, at a lease that has run out and at a grace that has. -/
theorem witness_HandoverRestores :
    let s := parked plainConfig restoring
    let u := s.withEntry 0 fun e => { e with timer := .running 0 }
    let v := parked plainConfig (revoking.withEntry 0 fun e =>
      { e with waiting := [⟨.b, 2, true, true, 0⟩] })
    (Inv s ∧ Inv u ∧ Inv v) ∧ (0 : Byte).toNat = (0 : Group).val ∧ portTakes s .a = true ∧
      s.holder 0 = some .a ∧ (s.entry 0).waiting = ⟨.b, 1, false, true, 0⟩ :: [] ∧
      (s.park.get .b).get 0 = some plainConfig ∧
      judge (Proposal.of s [(0, plainConfig)] false) s = .accepted ∧
      ((u.entry 0).state = .held ∧ (u.entry 0).timer = .running 0) ∧ v.holder 0 = some .a ∧
      (v.entry 0).waiting = ⟨.b, 2, true, true, 0⟩ :: [] ∧ (v.park.get .b).get 0 = some plainConfig ∧
      (v.entry 0).state = .revoking ∧ (v.entry 0).grace = some 0 :=
  ⟨⟨inv_of_check (by decide +kernel), inv_of_check (by decide +kernel),
    inv_of_check (by decide +kernel)⟩, by decide +kernel⟩

/-- At a preemption without a grace period, by the claim that restores. -/
theorem witness_HandoverRestores_preemption :
    let s := parked plainConfig (preemptible 0 held)
    Inv s ∧ Inserted ⟨.b, 2, true, true, 0⟩ (s.entry 0).waiting (⟨.b, 2, true, true, 0⟩ :: []) ∧
      portTakes s .b = true ∧ (s.entry 0).state = .held ∧ s.holder 0 = some .a ∧
      s.waits .b 0 = false ∧ ((0b110 : Byte).getLsbD 1 = true ∧ (0b110 : Byte).getLsbD 2 = true) ∧
      (s.policy.get 0).preemptible = true ∧ (s.entry 0).priority = some 1 ∧
      (1 : Priority) < (s.policy.get 0).priority.get .b ∧ (s.policy.get 0).priority.get .b = 2 ∧
      (s.policy.get 0).gracePeriod = 0 ∧ (s.entry 0).arrivals = 0 ∧
      (s.park.get .b).get 0 = some plainConfig := by
  refine ⟨inv_of_check (by decide +kernel), ⟨[], [], by decide +kernel, rfl, ?_, ?_⟩, by decide +kernel⟩
  · intro d h; cases h
  · intro d h; cases h

theorem witness_HandoverRestores_loop :
    let s := parked loopConfig restoring
    Inv s ∧ (s.park.get .b).get 0 = some loopConfig ∧
      judge (Proposal.of s [(0, loopConfig)] false) s = .loop :=
  ⟨inv_of_check (by decide +kernel), by decide +kernel⟩

theorem witness_HandoverRestores_interlock :
    let s := paired (parked clashConfig restoring)
    Inv s ∧ (s.park.get .b).get 0 = some clashConfig ∧
      judge (Proposal.of s [(0, clashConfig)] false) s = .interlock 0 :=
  ⟨inv_of_check (by decide +kernel), by decide +kernel⟩

theorem witness_RenewRestarts :
    portTakes held .a = true ∧ held.holder 7 ≠ some .a ∧ held.holder 0 = some .a ∧
      (held.entry 0).state ≠ .revoking ∧ portTakes revoking .a = true ∧
      revoking.holder 0 = some .a ∧ (revoking.entry 0).state = .revoking := by decide

/-- Without a claim, with the claim that justifies a revocation, and with one that does not. -/
theorem witness_WithdrawReevaluates :
    portTakes held .b = true ∧ held.waits .b 0 = false ∧ revoking.waits .b 0 = true ∧
      (revoking.entry 0).state = .revoking ∧
      (revoking.entry 0).waiting.filter (fun c => c.client != .b) = [] ∧
      waited.waits .b 0 = true ∧ (waited.entry 0).state ≠ .revoking := by decide

/-- A lease and a grace timer that have run out, and ones that have 1 ms left. -/
theorem witness_ForcedLosses :
    let s := waited.withEntry 0 fun e => { e with timer := .running 0 }
    let u := waited.withEntry 0 fun e => { e with timer := .running 1 }
    (Inv s ∧ s.holder 0 = some .a ∧ NoRestore s 0 (s.entry 0).waiting ∧ portTakes s .a = true ∧
      (s.entry 0).state = .held ∧ (s.entry 0).timer = .running 0) ∧
      (Inv revoking ∧ revoking.holder 0 = some .a ∧ NoRestore revoking 0 (revoking.entry 0).waiting ∧
        (revoking.entry 0).state = .revoking ∧ (revoking.entry 0).grace = some 0) ∧
      held.holder 7 = none ∧ ¬ ((u.entry 0).state = .held ∧ (u.entry 0).timer = .running 0) ∧
      ¬ ((busy.entry 1).state = .revoking ∧ (busy.entry 1).grace = some 0) := by
  refine ⟨⟨inv_of_check (by decide +kernel), by decide, ?_, by decide, by decide, by decide⟩,
    ⟨inv_revoking, by decide, ?_, by decide, by decide⟩, by decide, by decide, by decide +kernel⟩
  · intro c h; cases h; exact .inl rfl
  · intro c h; cases h; exact .inl rfl

theorem witness_WithholdAndOpen :
    Inv waited ∧ portTakes waited .a = true ∧ waited.holder 0 = some .a ∧
      (waited.entry 7).state = .safe ∧ Inv closed ∧ portTakes closed .a = true ∧
      (closed.entry 0).state = .withheld ∧ (closed.entry 7).state ≠ .withheld :=
  ⟨inv_waited, by decide, by decide, by decide, inv_closed, by decide⟩

theorem witness_StageWrites :
    portTakes held .d = true ∧ (31 : Byte).toNat = (31 : Line).val ∧
      record? 31 ⟨3, 0x80, 0, 0, 0, 31, 0⟩ = none ∧
      record? 31 ⟨3, 0x80, 0, 0, 0, 30, 0⟩ =
        some ⟨.mirror 30 .same, .normal, .pushPull, 0, .none⟩ := by decide

theorem witness_StageCopyCopies :
    portTakes held .b = true ∧ 8 ≤ (8 : Byte).toNat ∧ (7 : Byte).toNat = (7 : Group).val := by decide

/-- A replacement of each verdict. -/
theorem witness_JudgesReplacements :
    judge (Proposal.of held [(0, loopConfig)] true) held = .loop ∧
      judge (Proposal.of (paired held) [(0, clashConfig)] true) (paired held) = .interlock 0 ∧
      judge (Proposal.of held [(0, clashConfig)] true) held = .accepted := by decide +kernel

theorem witness_CommitTests :
    let s := staged loopConfig held
    let u := staged clashConfig (paired held)
    portTakes s .a = true ∧ portTakes u .a = true ∧
      ((0x80 : Byte) ≠ 0 ∧ (0x80 : Byte).getLsbD (7 : Group).val = true ∧ s.holder 7 ≠ some .a) ∧
      ((1 : Byte).getLsbD (0 : Group).val = true ∧
        (∀ g : Group, g < 0 → (1 : Byte).getLsbD g.val = false) ∧
        (∀ g : Group, (1 : Byte).getLsbD g.val = true → s.holder g = some .a) ∧
        ∀ g : Group, (1 : Byte).getLsbD g.val = true → u.holder g = some .a) ∧
      judge ⟨names 1, stagedOver s .a (names 1), true⟩ s = .loop ∧
      judge ⟨names 1, stagedOver u .a (names 1), true⟩ u = .interlock 0 := by decide +kernel

theorem witness_CommitReplaces :
    let s := staged plainConfig (paired held)
    PairLaw s ∧ portTakes s .a = true ∧ (1 : Byte) ≠ 0 ∧
      (∀ g : Group, (1 : Byte).getLsbD g.val = true → s.holder g = some .a) ∧
      judge ⟨names 1, stagedOver s .a (names 1), true⟩ s = .accepted :=
  ⟨pairLaw_of_check (by decide +kernel), by decide +kernel⟩

theorem witness_ExchangeSwaps :
    let s := staged loopConfig held
    let u := staged clashConfig (paired held)
    let v := staged plainConfig (paired held)
    PairLaw v ∧ portTakes s .a = true ∧ portTakes u .a = true ∧ portTakes v .a = true ∧
      held.holder 7 ≠ some .a ∧ s.holder 0 = some .a ∧ u.holder 0 = some .a ∧ v.holder 0 = some .a ∧
      judge ⟨only 0, stagedOver s .a (only 0), true⟩ s = .loop ∧
      judge ⟨only 0, stagedOver u .a (only 0), true⟩ u = .interlock 0 ∧
      judge ⟨only 0, stagedOver v .a (only 0), true⟩ v = .accepted :=
  ⟨pairLaw_of_check (by decide +kernel), by decide +kernel⟩

/-- Two exchanges in a row. -/
theorem witness_ExchangeSwaps_twice :
    let s := staged plainConfig held
    let t := after (.exchange .a 0) s
    let u := after (.exchange .a 0) t
    portTakes s .a = true ∧ exec (.exchange .a 0) s = .next t ∧
      (t.port .a).result = ResultCode.done.byte ∧ exec (.exchange .a 0) t = .next u ∧
      (u.port .a).result = ResultCode.done.byte :=
  ⟨by decide +kernel, rfl, by decide +kernel, rfl, by decide +kernel⟩

/-- A pair that stands at another index, one that an asserted pair of lines bars, one that a safe record of
either line bars, an empty index, the same pair, another pair at the index. -/
theorem witness_SetPairWrites :
    let s := paired held
    let u := active (.static true) 4 (active (.static true) 5 held)
    let v := held.withPolicy 7 fun p => { p with safe := p.safe.put 3 (recordOf (.static true)) }
    (PairLaw s ∧ PairLaw v) ∧ portTakes v .a = true ∧ v.pairs.get 7 = none ∧
      safeAsserts v 31 = true ∧ safeAsserts v 30 = false ∧ portTakes s .a = true ∧ (1 : Line) ≠ 0 ∧
      (s.pairs.get 0 = some ⟨min 1 0, max 1 0⟩ ∧ s.pairs.get 7 = none) ∧
      (asserted u 4 = true ∧ asserted u 5 = true ∧ u.pairs.get 7 = none) ∧
      (∀ j, j ≠ 0 → s.pairs.get j ≠ some ⟨min 1 0, max 1 0⟩) ∧
      (∀ j, j ≠ 0 → s.pairs.get j ≠ some ⟨min 31 30, max 31 30⟩) ∧
      s.pairs.get 0 ≠ some ⟨min 31 30, max 31 30⟩ ∧
      ¬ (asserted s 31 = true ∧ asserted s 30 = true) ∧ safeAsserts s 30 = false ∧
      safeAsserts s 31 = false :=
  ⟨⟨pairLaw_of_check (by decide +kernel), pairLaw_of_check (by decide +kernel)⟩, by decide +kernel⟩

theorem witness_ClearPairFrees :
    PairLaw busy ∧ portTakes busy .a = true ∧ busy.pairs.get 0 = some ⟨0, 1⟩ ∧
      busy.pairs.get 7 = none ∧ 8 ≤ (8 : Byte).toNat :=
  ⟨inv_busy.pairs, by decide +kernel⟩

theorem witness_PulseEnds :
    (busy.driver 0).pulse = some 0 ∧ (busy.driver 1).pulse ≠ some 0 ∧ 1 ∈ partners busy 0 := by
  decide +kernel

/-- Two lines that complete their filters at one instant, and an order that puts the higher first. -/
theorem witness_SamplesAreFiltered_order :
    let s := candidate 30 (candidate 2 busy)
    Inv s ∧ s.resetLow = false ∧
      (∀ l ∈ ([2, 30] : List Line), padLevel 0x40000004 l ≠ s.level l ∧
        (s.record l).filter.val ≤ (s.sampler.get l).candidate.elim 0 (·.count)) ∧
      ([30] : List Line).idxOf 30 < ([30] : List Line).idxOf 2 :=
  ⟨inv_of_check (by decide +kernel), by decide +kernel⟩

/-- A level found as it stands, a first deviating sample, and one that completes its filter. -/
theorem witness_SamplesAreFiltered :
    busy.resetLow = false ∧ padLevel 0x80000001 31 ≠ busy.level 31 ∧
      ((busy.sampler.get 31).candidate.elim 0 (·.count)) = 15 ∧
      padLevel 0x80000001 0 ≠ busy.level 0 ∧ (busy.sampler.get 0).candidate = none ∧
      padLevel 0x80000001 1 = busy.level 1 := by decide +kernel

/-- The fourth of the four samples that the reset filter asks for. -/
theorem witness_EdgesAreReported :
    reporting.resetLow = false ∧ (∀ m, m ≠ 0 → padLevel 1 m = reporting.level m) ∧
      .high = padLevel 1 0 ∧ Level.high ≠ reporting.level 0 ∧
      (reporting.record 0).filter.val ≤ (reporting.sampler.get 0).candidate.elim 0 (·.count) ∧
      (∀ m sense, (reporting.record m).function ≠ .mirror 0 sense) ∧
      ∀ x d timeout left, reporting.deferred.get x = some d →
        d.trigger ≠ .line 0 .high timeout left := by
  refine ⟨by decide, by decide +kernel, by decide, by decide, by decide, ?_, ?_⟩
  · intro m sense
    have h : ∀ m : Line, (reporting.record m).function = .input := by decide +kernel
    exact fun e => LineFunction.noConfusion ((h m).symm.trans e)
  · intro x d timeout left h; cases x <;> cases h

/-- L30, the source of L1's held mirror, at the last sample of its filter. -/
theorem witness_MirrorsFollow :
    let s := candidate 30 busy
    Inv s ∧ s.resetLow = false ∧ (∀ m, m ≠ 30 → padLevel 0x40000000 m = s.level m) ∧
      padLevel 0x40000000 30 ≠ s.level 30 ∧
      (s.record 30).filter.val ≤ (s.sampler.get 30).candidate.elim 0 (·.count) ∧
      (s.record 1).function = .mirror 30 .opposite ∧
      ∀ x d timeout left, s.deferred.get x = some d →
        d.trigger ≠ .line 30 (padLevel 0x40000000 30) timeout left := by
  have met : ∀ x d, (candidate 30 busy).deferred.get x = some d → d.trigger.line? ≠ some 30 := by
    intro x d h
    cases x <;> cases h
    decide
  exact ⟨inv_of_check (by decide +kernel), by decide +kernel, by decide +kernel, by decide +kernel,
    by decide +kernel, by decide +kernel, fun x d _ _ h e => met x d h (by rw [e]; rfl)⟩

theorem witness_WatchSets :
    portTakes held .b = true ∧ 4 ≤ (4 : Byte).toNat ∧ (3 : Byte) = Edges.both.code ∧
      (held.watch.get 0).get .b = none ∧
      (let s := { held with watch := held.watch.put 0 (PerClient.put (.fill none) .b (some .none)) }
       portTakes s .b = true ∧ (s.watch.get 0).get .b ≠ none) := by decide

/-- Each refusal and each of the three records. -/
theorem witness_DeferMakesRecords :
    let s := { held with sampler := held.sampler.put 31 ⟨.high, none⟩ }
    portTakes s .a = true ∧ (busy.deferred.get .a).isSome = true ∧ portTakes busy .a = true ∧
      s.deferred.get .a = none ∧ (32 ≤ (32 : Byte).toNat ∧ 2 ≤ (2 : Byte).toNat) ∧
      ((31 : Byte).toNat < 32 ∧ (1 : Byte).toNat < 2 ∧ (0x80 : Byte) ≠ 0 ∧
        (0x80 : Byte).getLsbD (7 : Group).val = true ∧ s.holder 7 ≠ some .a) ∧
      (∀ g : Group, (1 : Byte).getLsbD g.val = true → s.holder g = some .a) ∧
      ((31 : Byte).toNat = (31 : Line).val ∧ s.level 31 = .high) ∧ s.level 0 = .low ∧
      (1 : Word16) ≠ 0 := by decide +kernel

/-- A delay that has run out, with a configuration of each verdict; one that has not. -/
theorem witness_MetCommitsApply :
    let s := pendingCommit plainConfig (.time 5 0) held
    Inv s ∧ s.deferred.get .a = some ⟨[(0, plainConfig)], .time 5 0⟩ ∧
      judge (Proposal.of s [(0, plainConfig)] true) s = .accepted :=
  ⟨inv_of_check (by decide +kernel), rfl, by decide +kernel⟩

theorem witness_MetCommitsApply_loop :
    let s := pendingCommit loopConfig (.time 5 0) held
    Inv s ∧ s.deferred.get .a = some ⟨[(0, loopConfig)], .time 5 0⟩ ∧
      judge (Proposal.of s [(0, loopConfig)] true) s = .loop :=
  ⟨inv_of_check (by decide +kernel), rfl, by decide +kernel⟩

theorem witness_MetCommitsApply_interlock :
    let s := paired (pendingCommit clashConfig (.time 5 0) held)
    Inv s ∧ s.deferred.get .a = some ⟨[(0, clashConfig)], .time 5 0⟩ ∧
      judge (Proposal.of s [(0, clashConfig)] true) s = .interlock 0 :=
  ⟨inv_of_check (by decide +kernel), rfl, by decide +kernel⟩

theorem witness_MetCommitsApply_early :
    let s := pendingCommit plainConfig (.time 5 1) held
    ∀ d delay, s.deferred.get .a = some d → d.trigger ≠ .time delay 0 := by
  intro s d delay h; cases h; intro e; cases e

/-- The pending commits of A and B that one sample meets: A's is applied, and B's is judged against it. -/
theorem witness_MetCommitsApply_sample :
    let other : Deferred := ⟨[(1, plainConfig)], .line 31 .high 0 none⟩
    let s := candidate 31 (pendingCommit plainConfig (.line 31 .high 5 (some 1)) held)
    let s := { s.withEntry 1 (fun _ => ⟨.held, some .b, some 1, .noExpiry, none, [], 0⟩) with
      deferred := s.deferred.put .b (some other), pairs := s.pairs.put 0 (some ⟨0, 4⟩) }
    Inv s ∧ s.resetLow = false ∧ (∀ m, m ≠ 31 → padLevel 0x80000000 m = s.level m) ∧
      padLevel 0x80000000 31 ≠ s.level 31 ∧ padLevel 0x80000000 31 = .high ∧
      (s.record 31).filter.val ≤ (s.sampler.get 31).candidate.elim 0 (·.count) ∧
      s.deferred.get .a = some ⟨[(0, plainConfig)], .line 31 .high 5 (some 1)⟩ ∧
      s.deferred.get .b = some other ∧ s.deferred.get .c = none ∧
      ((after (.sample 0x80000000 []) s).record 0).function = .static true ∧
      ((after (.sample 0x80000000 []) s).record 4).function = .input :=
  ⟨inv_of_check (by decide +kernel), by decide +kernel⟩

theorem witness_MetCommitsApply_defer :
    let d : Deferred := ⟨groups.filter (fun g => (1 : Byte).getLsbD g.val) |>.map (fun g =>
      (g, Table.tabulate fun p => (held.staged.get .a).get (lineOf g p))), .line 31 .low 0 none⟩
    Inv held ∧ portTakes held .a = true ∧ held.deferred.get .a = none ∧ (1 : Byte) ≠ 0 ∧
      (∀ g : Group, (1 : Byte).getLsbD g.val = true → held.holder g = some .a) ∧
      (31 : Byte).toNat = (31 : Line).val ∧ ((0 : Byte) = 0 ∧ held.level 31 = .low) ∧
      d.trigger.line? = some 31 := ⟨inv_held, by decide +kernel⟩

theorem witness_CancelRemoves :
    portTakes held .a = true ∧ held.deferred.get .a = none ∧ portTakes busy .a = true ∧
      busy.deferred.get .a ≠ none := by decide +kernel

theorem witness_TimeoutsRemove :
    busy.deferred.get .a = some ⟨[(0, plainConfig)], .line 31 .high 5 (some 0)⟩ ∧
      ∀ d l target timeout, held.deferred.get .a = some d →
        d.trigger ≠ .line l target timeout (some 0) :=
  ⟨rfl, by intro d l target timeout h; cases h⟩

/-- Client 4, and a waiting claim of client 1 at a priority that falls to 0. -/
theorem witness_SetPriorityStores :
    portTakes revoking .a = true ∧ 4 ≤ (4 : Byte).toNat ∧ (1 : Byte).toNat = clientNumber .b ∧
      (7 : Byte).toNat = (7 : Priority).val ∧ (0 : Byte).toNat = (0 : Priority).val ∧
      revoking.waits .b 0 = true ∧ revoking.waits .c 0 = false := by decide

theorem witness_PolicyAndAuditStore :
    portTakes held .a = true ∧ (7 : Byte).toNat = (7 : Group).val ∧ 2 ≤ (2 : Byte).toNat ∧
      (1 : Byte).toNat < 2 ∧ (7 : Byte).toNat < 8 := by decide

/-- Bytes of no record, a PULSE, STATIC ASSERTED on a paired and on an unpaired line of a SAFE, a HELD and a
WITHHELD group. -/
theorem witness_SetSafeStores :
    Inv busy ∧ portTakes busy .a = true ∧ record? 31 ⟨4, 0, 0, 0, 0, 0, 0⟩ = none ∧
      record? 31 ⟨2, 0x40, 3, 0, 1, 0, 0⟩ = some (recordOf (.pulse 1)) ∧
      record? 0 ⟨1, 0x30, 3, 0, 0, 0, 0⟩ = some (recordOf (.static true)) ∧
      busy.pairs.get 0 = some ⟨0, 1⟩ ∧ partners busy 31 = [] ∧ partners busy 2 = [] ∧
      (busy.entry (groupOf 31)).state = .withheld ∧ (busy.entry (groupOf 27)).state = .safe ∧
      (busy.entry (groupOf 2)).state = .held := ⟨inv_busy, by decide +kernel⟩

/-- Clients that hold nothing, one of them waiting for a group that another holds; the ends of the client numbers. -/
theorem witness_ClientResetClears :
    LeaseLaw busy ∧ portTakes busy .d = true ∧ portTakes busy .a = true ∧ portTakes busy .b = true ∧
      (busy.holder 1 ≠ some .d ∧ busy.waits .d 1 = false) ∧
      (busy.holder 1 ≠ some .b ∧ busy.waits .b 1 = true) ∧
      (3 : Byte).toNat = clientNumber .d ∧ (busy.port .d).crstLow = false ∧ busy.resetLow = false ∧
      4 ≤ (4 : Byte).toNat ∧
      ((after (.clientReset .d true) busy).port .d).crstLow = true :=
  ⟨inv_busy.lease, by decide +kernel⟩

theorem witness_ClientResetAudits :
    busy.resetLow = false ∧ (busy.port .d).crstLow = false ∧
      ∀ g, busy.holder g ≠ some .d ∧ busy.waits .d g = false := by decide +kernel

/-- The holder of one group, by each of the three commands, with a plain head of the list and with one that
restores. -/
theorem witness_ClientResetAudits_holder :
    let s := parked plainConfig restoring
    Inv waited ∧ Inv s ∧ NoRestore waited 0 (waited.entry 0).waiting ∧
      (∀ c ∈ ([.clientReset .a true, .detachSelf .a, .detach .supervisor 0] : List Instr),
        ResetsClient waited .a c ∧ ResetsClient s .a c) ∧
      (waited.holder 0 = some .a ∧ (∀ k, k ≠ 0 → waited.holder k ≠ some .a) ∧
        ∀ k, waited.waits .a k = false) ∧
      (s.holder 0 = some .a ∧ (∀ k, k ≠ 0 → s.holder k ≠ some .a) ∧ ∀ k, s.waits .a k = false) ∧
      (s.entry 0).waiting = ⟨.b, 1, false, true, 0⟩ :: [] ∧
      (s.park.get .b).get 0 = some plainConfig := by
  have all : ∀ s : State, s.resetLow = false → (s.port .a).crstLow = false → portTakes s .a = true →
      ∀ c ∈ ([.clientReset .a true, .detachSelf .a, .detach .supervisor 0] : List Instr),
        ResetsClient s .a c := by
    intro s h1 h2 h3 c hc
    simp only [List.mem_cons, List.not_mem_nil, or_false] at hc
    refine ⟨h1, h2, ?_⟩
    rcases hc with rfl | rfl | rfl
    · exact .inl rfl
    · exact .inr (.inl ⟨rfl, h3⟩)
    · exact .inr (.inr ⟨0, rfl, by decide, h3⟩)
  refine ⟨inv_waited, inv_of_check (by decide +kernel), ?_, fun c hc =>
    ⟨all _ (by decide) (by decide) (by decide) c hc, all _ (by decide) (by decide) (by decide) c hc⟩,
    by decide +kernel⟩
  intro c h; cases h; exact .inl rfl

/-- A client that waits for one group: the only claim that justifies its revocation, and a claim behind a
holder whose lease runs on. -/
theorem witness_ClientResetAudits_waiting :
    (∀ s ∈ [revoking, waited], (∀ k, s.holder k ≠ some .b) ∧ s.waits .b 0 = true ∧
      (∀ k, k ≠ 0 → s.waits .b k = false) ∧ s.resetLow = false ∧ (s.port .b).crstLow = false) ∧
      ResetsClient revoking .b (.clientReset .b true) ∧ ResetsClient waited .b (.clientReset .b true) ∧
      (revoking.entry 0).state = .revoking ∧ (waited.entry 0).state = .held ∧
      (revoking.entry 0).waiting.filter (fun c => c.client != .b) = [] :=
  ⟨by decide +kernel, ⟨by decide, by decide, .inl rfl⟩, ⟨by decide, by decide, .inl rfl⟩, by decide⟩

/-- B holds G0 and G2 and waits for G1: two turns of releases and one of a removal. -/
theorem witness_ClientResetAudits_several :
    let s := (busy.withEntry 0 fun e => { e with holder := some .b }).withEntry 2 fun _ =>
      ⟨.held, some .b, some 1, .noExpiry, none, [⟨.a, 1, false, false, 0⟩], 1⟩
    let t := { s with deferred := s.deferred.put .a none }
    Inv t ∧ ResetsClient t .b (.clientReset .b true) ∧ t.holder 0 = some .b ∧ t.holder 2 = some .b ∧
      t.waits .b 1 = true :=
  ⟨inv_of_check (by decide +kernel), ⟨by decide +kernel, by decide +kernel, .inl rfl⟩,
    by decide +kernel⟩

/-- A port that takes no frame, by either pin and by its own frame in progress, and a frame begun too early. -/
theorem witness_PinEdges_ignored :
    let low := after (.deviceReset true) held
    let cut := after (.registerWrite .b (.begin false 0x80 0x04)) held
    (low.port .b).frame = none ∧ low.resetLow = true ∧
      ((after (.clientReset .b true) held).port .b).frame = none ∧
      frameOf (.forceRelease .supervisor 0) = some (.a, 4) ∧
      (cut.port .b).frame = some ⟨true, false, 0x04, [], [], .untaken, false⟩ ∧
      frameOf (.claim .b 0 0) = some (.b, 5) := by decide +kernel

/-- Either pin low and high, and D's CRST falling while RESETn is low. -/
theorem witness_PinEdges :
    let low := after (.deviceReset true) held
    (held.port .d).crstLow = false ∧ ((after (.clientReset .d true) held).port .d).crstLow = true ∧
      held.resetLow = false ∧ low.resetLow = true ∧ (low.port .d).crstLow = false ∧
      (after (.clientReset .d true) low).resetLow = true ∧
      ((after (.clientReset .d true) low).port .d).crstLow = true := by decide +kernel

theorem witness_DeviceResets : busy.resetLow = false := by decide +kernel

/-- A sample while RESETn is low. -/
theorem witness_DeviceResets_low :
    AtDeviceReset (deviceResetState { busy with pending := [.sample 1 []] }) ∧
      (∃ t, step (deviceResetState { busy with pending := [.sample 1 []] }) = .next t) ∧
      (∀ pads rest, (deviceResetState { busy with pending := [.sample 1 []] }).pending ≠
        .deviceResetRelease pads :: rest) :=
  ⟨deviceResetState_at _, ⟨_, rfl⟩, fun _ _ h => by cases h⟩

theorem witness_TicksCountDown :
    busy.resetLow = false ∧ (after (.deviceReset true) busy).resetLow = true := by decide +kernel

end Sys2Proof.Tests
end

section
/-! PROOF. RELEASE and RENEW: the tests of each, and what an accepted one does (R29, R31). -/

namespace Sys2Proof.Machine

variable {s t : State} {g : Group} {x : Client} {b : Byte}

/-! ### Requests taken one after another -/

/-- A request whose owning block refuses it, with neither RESULT_INFO nor an audit group, is answered so. -/
theorem requestFrame_answersRefused {page : Page} {kind : Byte} {params : List Byte}
    {body : State → Taken} {code : ResultCode} {cls : FaultClass}
    (takes : portTakes s (pagePort page) = true) (refusal : code.faultClass = some cls)
    (hb : body (prepared page kind params s) = refuse code (prepared page kind params s)) :
    AnswersRefused (.next (requestFrame page kind params body s)) s page kind params cls code :=
  ⟨_, rfl, request_refused takes hb refusal⟩

/-- A port that has been served takes the next frame too. -/
theorem Served.portTakes {page : Page} {kind info : Byte} {params : List Byte} {code : ResultCode}
    (served : Served s t page kind params code info) (reset : t.resetLow = s.resetLow)
    (takes : portTakes s (pagePort page) = true) : portTakes t (pagePort page) = true := by
  obtain ⟨-, -, -, ⟨-, -, -, -, frame, crst⟩, -⟩ := served
  rw [portTakes_iff] at takes ⊢
  rwa [reset, frame, crst]

/-! ### RELEASE (R29) -/

theorem exec_release (x : Client) (b : Byte) (s : State) :
    exec (.release x b) s = .next (requestFrame (.client x) 0x02 [b] (releaseRequest x b) s) := rfl

theorem releaseRequest_of_holder (hb : b.toNat = g.val) (holder : s.holder g = some x) :
    releaseRequest x b s = done (releaseGroup g x false s) := by
  unfold releaseRequest
  rw [withGroup_some hb, if_pos holder]

theorem releaseRequest_of_not_holder (hb : b.toNat = g.val) (holder : s.holder g ≠ some x) :
    releaseRequest x b s = refuse .notHolder s := by
  unfold releaseRequest
  rw [withGroup_some hb, if_neg holder]

theorem exec_release_range (takes : portTakes s x = true) (hb : 8 ≤ b.toNat) :
    AnswersRefused (exec (.release x b) s) s (.client x) 0x02 [b] .range .range := by
  rw [exec_release]
  exact requestFrame_answersRefused takes rfl (withGroup_none hb _ _)

theorem exec_release_notHolder (takes : portTakes s x = true) (hb : b.toNat = g.val)
    (holder : s.holder g ≠ some x) :
    AnswersRefused (exec (.release x b) s) s (.client x) 0x02 [b] .ownership .notHolder := by
  rw [exec_release]
  refine requestFrame_answersRefused takes rfl (releaseRequest_of_not_holder hb ?_)
  rwa [(prepared_client x _ _ s).holder]

/-- An accepted RELEASE: DONE, the group in the hands of another or of none, the port ready for the next. -/
theorem exec_release_done (takes : portTakes s x = true) (hb : b.toNat = g.val) (law : LeaseLaw s)
    (holder : s.holder g = some x) :
    ∃ t, exec (.release x b) s = .next t ∧ Served s t (.client x) 0x02 [b] .done 0 ∧
      t.holder g ≠ some x ∧ portTakes t x = true := by
  have before := prepared_client x 0x02 [b] s
  have holder' : (prepared (.client x) 0x02 [b] s).holder g = some x := by rwa [before.holder]
  have release := releaseGroup_frame g x false (prepared (.client x) 0x02 [b] s)
  obtain ⟨served, after⟩ :=
    request_accepted takes (releaseRequest_of_holder hb holder') rfl release
  refine ⟨_, exec_release x b s, served, ?_, served.portTakes ?_ takes⟩
  · rw [after.holder]
    exact (releaseGroup_leaves (by rw [before.entry]; exact law g) x false holder').1
  · rw [after.resetLow, release.resetLow, before.resetLow]

/-! ### RENEW (R31) -/

theorem exec_renew (x : Client) (b : Byte) (s : State) :
    exec (.renew x b) s = .next (requestFrame (.client x) 0x03 [b] (renewRequest x b) s) := rfl

theorem renewRequest_of_not_holder (hb : b.toNat = g.val) (holder : s.holder g ≠ some x) :
    renewRequest x b s = refuse .notHolder s := by
  unfold renewRequest
  rw [withGroup_some hb, if_pos holder]

theorem renewRequest_of_revoking (hb : b.toNat = g.val) (holder : s.holder g = some x)
    (revoking : (s.entry g).state = .revoking) : renewRequest x b s = refuse .revoking s := by
  unfold renewRequest
  rw [withGroup_some hb, if_neg (not_not.2 holder), if_pos revoking]

theorem renewRequest_of_held (hb : b.toNat = g.val) (holder : s.holder g = some x)
    (held : (s.entry g).state ≠ .revoking) :
    renewRequest x b s =
      done (s.withEntry g fun e => { e with timer := (s.policy.get g).startLease }) := by
  unfold renewRequest
  rw [withGroup_some hb, if_neg (not_not.2 holder), if_neg held]

theorem exec_renew_range (takes : portTakes s x = true) (hb : 8 ≤ b.toNat) :
    AnswersRefused (exec (.renew x b) s) s (.client x) 0x03 [b] .range .range := by
  rw [exec_renew]
  exact requestFrame_answersRefused takes rfl (withGroup_none hb _ _)

theorem exec_renew_notHolder (takes : portTakes s x = true) (hb : b.toNat = g.val)
    (holder : s.holder g ≠ some x) :
    AnswersRefused (exec (.renew x b) s) s (.client x) 0x03 [b] .ownership .notHolder := by
  rw [exec_renew]
  refine requestFrame_answersRefused takes rfl (renewRequest_of_not_holder hb ?_)
  rwa [(prepared_client x _ _ s).holder]

theorem exec_renew_revoking (takes : portTakes s x = true) (hb : b.toNat = g.val)
    (holder : s.holder g = some x) (revoking : (s.entry g).state = .revoking) :
    AnswersRefused (exec (.renew x b) s) s (.client x) 0x03 [b] .ownership .revoking := by
  rw [exec_renew]
  refine requestFrame_answersRefused takes rfl (renewRequest_of_revoking hb ?_ ?_)
  · rwa [(prepared_client x _ _ s).holder]
  · rwa [(prepared_client x _ _ s).entry]

/-- An accepted RENEW: DONE, and the lease timer started from the policy record as it stands (R32). -/
theorem exec_renew_done (takes : portTakes s x = true) (hb : b.toNat = g.val)
    (holder : s.holder g = some x) (held : (s.entry g).state ≠ .revoking) :
    ∃ t, exec (.renew x b) s = .next t ∧ Served s t (.client x) 0x03 [b] .done 0 ∧
      t.entry g = { s.entry g with timer := startedTimer (s.policy.get g).leasePeriod } ∧
      OtherEntries g s t ∧ SameExcept [.lease, .ports] s t := by
  have before := prepared_client x 0x03 [b] s
  have taken := renewRequest_of_held (s := prepared (.client x) 0x03 [b] s) hb
    (by rwa [before.holder]) (by rwa [before.entry])
  obtain ⟨served, after⟩ := request_accepted takes taken rfl (withEntry_frame g _ _)
  refine ⟨_, exec_renew x b s, served, ?_, fun k other => ?_,
    (before.mono.trans (withEntry_frame g _ _).mono).trans after.mono⟩
  · rw [after.entry, State.withEntry_entry_self, before.entry, before.policy, startLease_eq]
  · rw [after.entry, State.withEntry_entry_ne _ _ other, before.entry]

end Sys2Proof.Machine

namespace Sys2Proof.Proofs

open Sys2Proof.Machine

/-- Settles O29: the tests case by case; after an accepted RELEASE the caller is not the holder and its port
takes the second one, which is the refused case again. -/
theorem releaseTests : Obligations.ReleaseTests := by
  intro s x b takes
  refine ⟨exec_release_range takes, fun g hb => ⟨exec_release_notHolder takes hb, fun law holder => ?_⟩⟩
  obtain ⟨t, runs, served, gone, takes'⟩ := exec_release_done takes hb law holder
  exact ⟨t, runs, served, gone, exec_release_notHolder takes' hb gone⟩

/-- Settles O32: the tests in their order, then the accepted RENEW. -/
theorem renewRestarts : Obligations.RenewRestarts := fun _ _ _ takes =>
  ⟨exec_renew_range takes, fun _ hb =>
    ⟨exec_renew_notHolder takes hb, exec_renew_revoking takes hb, exec_renew_done takes hb⟩⟩

end Sys2Proof.Proofs
end

section
/-! PROOF. STAGE_COPY: what copying active records into a client's staging changes, and the request's two
answers (R73). -/

namespace Sys2Proof.Machine

variable {s : State} {g : Group} {x y : Client} {b : Byte}

/-! ### Staging a group's active records -/

theorem stageActive_frame (x : Client) (g : Group) (active : Table 32 Record) (s : State) :
    SameExcept [.staged] s (stageActive x g active s) := by
  intro p hp
  cases p with
  | staged => exact absurd (List.mem_singleton_self _) hp
  | sreq => exact ⟨rfl, rfl⟩
  | _ => rfl

@[simp] theorem stageActive_staged_self (x : Client) (g : Group) (active : Table 32 Record) (s : State)
    (l : Line) :
    ((stageActive x g active s).staged.get x).get l =
      if groupOf l = g then active.get l else (s.staged.get x).get l := by
  unfold stageActive
  rw [PerClient.get_modify_self, Table.get_tabulate]

@[simp] theorem stageActive_staged_ne (g : Group) (active : Table 32 Record) (s : State) (other : y ≠ x) :
    (stageActive x g active s).staged.get y = s.staged.get y :=
  PerClient.get_modify_ne _ _ other

/-! ### STAGE_COPY (R73) -/

theorem exec_stageCopy (x : Client) (b : Byte) (s : State) :
    exec (.stageCopy x b) s = .next (requestFrame (.client x) 0x06 [b] (stageCopyRequest x b) s) := rfl

theorem stageCopyRequest_of_group (hb : b.toNat = g.val) :
    stageCopyRequest x b s = done (stageActive x g s.active s) :=
  withGroup_some hb _ _

theorem exec_stageCopy_range (takes : portTakes s x = true) (hb : 8 ≤ b.toNat) :
    AnswersRefused (exec (.stageCopy x b) s) s (.client x) 0x06 [b] .range .range := by
  rw [exec_stageCopy]
  exact requestFrame_answersRefused takes rfl (withGroup_none hb _ _)

/-- An accepted STAGE_COPY: DONE, and the caller's staged records of the group are the active ones; the
group's state and holder are not asked for. -/
theorem exec_stageCopy_done (takes : portTakes s x = true) (hb : b.toNat = g.val) :
    ∃ t, exec (.stageCopy x b) s = .next t ∧ Served s t (.client x) 0x06 [b] .done 0 ∧
      (∀ l, (t.staged.get x).get l =
        if groupOf l = g then s.record l else (s.staged.get x).get l) ∧
      (∀ y, y ≠ x → t.staged.get y = s.staged.get y) ∧ SameExcept [.staged, .ports] s t := by
  have before := prepared_client x 0x06 [b] s
  have copy := stageActive_frame x g (prepared (.client x) 0x06 [b] s).active
    (prepared (.client x) 0x06 [b] s)
  obtain ⟨served, after⟩ := request_accepted takes (stageCopyRequest_of_group hb) rfl copy
  refine ⟨_, exec_stageCopy x b s, served, fun l => ?_, fun y other => ?_,
    (before.mono.trans copy.mono).trans after.mono⟩
  · rw [after.staged, stageActive_staged_self, before.active, before.staged]
    rfl
  · rw [after.staged, stageActive_staged_ne _ _ _ other, before.staged]

end Sys2Proof.Machine

namespace Sys2Proof.Proofs

open Sys2Proof.Machine

/-- Settles O37: the RANGE test, then the accepted STAGE_COPY. -/
theorem stageCopyCopies : Obligations.StageCopyCopies := fun _ _ _ takes =>
  ⟨exec_stageCopy_range takes, fun _ => exec_stageCopy_done takes⟩

end Sys2Proof.Proofs
end

section
/-! PROOF. CANCEL_PENDING: the request's two answers, by whether the caller has a pending commit (R139). -/

namespace Sys2Proof.Machine

variable {s : State} {x : Client}

theorem exec_cancelPending (x : Client) (s : State) :
    exec (.cancelPending x) s = .next (requestFrame (.client x) 0x0C [] (cancelRequest x) s) := rfl

theorem cancelRequest_of_none (absent : s.deferred.get x = none) :
    cancelRequest x s = refuse .notPending s := by
  unfold cancelRequest
  rw [absent]

theorem cancelRequest_of_pending (pending : s.deferred.get x ≠ none) :
    cancelRequest x s = done { s with deferred := s.deferred.put x none } := by
  obtain ⟨d, hd⟩ := Option.ne_none_iff_exists'.1 pending
  unfold cancelRequest
  rw [hd]

theorem exec_cancelPending_notPending (takes : portTakes s x = true)
    (absent : s.deferred.get x = none) :
    AnswersRefused (exec (.cancelPending x) s) s (.client x) 0x0C [] .sequence .notPending := by
  rw [exec_cancelPending]
  refine requestFrame_answersRefused takes rfl (cancelRequest_of_none ?_)
  rwa [(prepared_client x _ _ s).deferred]

/-- An accepted CANCEL_PENDING: DONE, and the caller's record removed.  The queues are among what stays, so
no event is sent; the active records are, so nothing is applied. -/
theorem exec_cancelPending_done (takes : portTakes s x = true) (pending : s.deferred.get x ≠ none) :
    ∃ t, exec (.cancelPending x) s = .next t ∧ Served s t (.client x) 0x0C [] .done 0 ∧
      t.deferred.get x = none ∧ (∀ y, y ≠ x → t.deferred.get y = s.deferred.get y) ∧
      SameExcept [.deferred, .ports] s t := by
  have before := prepared_client x 0x0C [] s
  have removal := withDeferred_frame ((prepared (.client x) 0x0C [] s).deferred.put x none)
    (prepared (.client x) 0x0C [] s)
  have taken := cancelRequest_of_pending (s := prepared (.client x) 0x0C [] s)
    (by rwa [before.deferred])
  obtain ⟨served, after⟩ := request_accepted takes taken rfl removal
  refine ⟨_, exec_cancelPending x s, served, ?_, fun y other => ?_,
    (before.mono.trans removal.mono).trans after.mono⟩
  · rw [after.deferred, PerClient.get_put_self]
  · rw [after.deferred, PerClient.get_put_ne _ _ other, before.deferred]

end Sys2Proof.Machine

namespace Sys2Proof.Proofs

open Sys2Proof.Machine

/-- Settles O51: the refusal without a record, then the accepted CANCEL_PENDING. -/
theorem cancelRemoves : Obligations.CancelRemoves := fun _ _ takes =>
  ⟨exec_cancelPending_notPending takes, exec_cancelPending_done takes⟩

end Sys2Proof.Proofs
end

section
/-! PROOF. What a step is made of: the acts that the laws are checked on, and that every step but a device
reset, its release and a sample is a sequence of them. -/

set_option Elab.async false

namespace Sys2Proof.Machine

/-! ### The registers that a write frame stores -/

theorem writeRegister_frame (x : Client) (s : State) (w : Byte × Byte) :
    SameExcept [.ports, .groupSel, .sreq] s (writeRegister x s w) := by
  unfold writeRegister
  dsimp only
  repeat' split
  all_goals first
    | exact (withPort_frame x _ s).mono
    | (intro p hp; cases p <;> first | rfl | exact ⟨rfl, rfl⟩ | exact absurd (by decide) hp)

/-! ### The acts -/

/-- The entry of a group without a holder (R39). -/
def LeaseEntry.vacated (st : GroupState) (e : LeaseEntry) : LeaseEntry :=
  { e with state := st, holder := none, priority := none, timer := .stopped, grace := none,
           waiting := [] }

/-- No pending commit of the holder of a group names the group (R145). -/
def Unnamed (s : State) (g : Group) : Prop :=
  ∀ h d, s.holder g = some h → s.deferred.get h = some d → (d.parts.any fun p => p.1 == g) = false

/-- The record of a safe update is in the policy table, and on a SAFE or WITHHELD group active (R89, R167). -/
def safeStored (l : Line) (r : Record) (s : State) : State :=
  if atSafe s (groupOf l) then
    { storeSafe l r s with
      active := s.active.put l r
      drivers := s.drivers.put l (r.startDriver false) }
  else storeSafe l r s

/-- The changes that steps are made of, each with the parts it may change and what the tests before it have
made sure of.  Where a law does not hold between two changes, they are one act. -/
inductive Act (s : State) : List Part → State → Prop
  | keeps {t : State}
      (f : SameExcept [.ports, .groupSel, .sreq, .draws, .audit, .watch] s t) :
      Act s [.ports, .groupSel, .sreq, .draws, .audit, .watch] t
  | sends (x : Client) (e : Event) : Act s [.queues] (append x e s)
  | pops (x : Client) : Act s [.queues] { s with queues := s.queues.modify x List.tail }
  | policies {t : State} (f : SameExcept [.policy] s t)
      (safe : ∀ g, (t.policy.get g).safe = (s.policy.get g).safe) : Act s [.policy] t
  | stages {t : State} (f : SameExcept [.staged] s t)
      (records : ∀ x l, (t.staged.get x).get l = (s.staged.get x).get l ∨
        (t.staged.get x).get l = s.record l ∨ ((t.staged.get x).get l).wfFor l) : Act s [.staged] t
  | parks {t : State} (f : SameExcept [.park] s t)
      (configs : ∀ x g cfg, (t.park.get x).get g = some cfg →
        (s.park.get x).get g = some cfg ∨ cfg = s.groupConfig g) : Act s [.park] t
  | forgets (x : Client) : Act s [.deferred] { s with deferred := s.deferred.put x none }
  | applies (x : Client) : Act s [.active, .drivers, .deferred, .queues] (applyDeferred x s)
  | defers (x : Client) (gs : List Group) {d : Deferred}
      (parts : d.parts = gs.map fun g => (g, stagedConfig s x g)) (nonempty : gs ≠ [])
      (sorted : gs.Pairwise (· < ·)) (holds : s.holdsAll x gs = true) :
      Act s [.active, .drivers, .deferred, .queues]
        (if d.lineMet { s with deferred := s.deferred.put x (some d) } then
          applyDeferred x { s with deferred := s.deferred.put x (some d) }
        else { s with deferred := s.deferred.put x (some d) })
  | commits (x : Client) (gs : List Group) {t : State} (holds : s.holdsAll x gs = true)
      (accepted : judge (stagedProposal x gs s) s = .accepted)
      (f : SameExcept [.staged] ((stagedProposal x gs s).apply (asserted s) s) t)
      (staged : ∀ y l, (t.staged.get y).get l = (s.staged.get y).get l ∨
        (t.staged.get y).get l = s.record l) : Act s [.active, .drivers, .staged, .queues] t
  | ticks : Act s [.ms, .lease, .deferred] (passMillisecond s)
  | unit : Act s [.drivers] (passPulseUnit s)
  | waits (g : Group) (x : Client) (prio : Priority) (preempt restore : Bool)
      (state : (s.entry g).state = .held ∨ (s.entry g).state = .revoking) (eligible : prio ≠ 0)
      (holder : s.holder g ≠ some x) (waits : s.waits x g = false) :
      Act s [.lease] (queueClaim g x prio preempt restore s)
  | takes (g : Group) (x : Client) (prio : Priority) (state : (s.entry g).state = .safe)
      (eligible : prio ≠ 0) :
      Act s [.lease] (s.withEntry g fun e =>
        { e with state := .held, holder := some x, priority := some prio,
                 timer := (s.policy.get g).startLease })
  | safes (g : Group) (was : Line → Bool) :
      Act s [.active, .drivers, .queues] (replaceGroup g (s.policy.get g).safe was s)
  | restores (g : Group) (n : Client) (cfg : GroupConfig) (was : Line → Bool)
      (holder : s.holder g = some n) (parked : (s.park.get n).get g = some cfg)
      (accepted : judge (Proposal.of s [(g, cfg)] false) s = .accepted) :
      Act s [.park, .active, .drivers, .queues]
        (replaceGroup g cfg was { s with park := s.park.modify n fun t => t.put g none })
  | starts (g : Group) (period : Word16) (state : (s.entry g).state = .held)
      (waiting : (s.entry g).waiting ≠ []) :
      Act s [.lease] (s.withEntry g fun e =>
        { e with state := .revoking, timer := .stopped, grace := some period })
  | renews (g : Group) (x : Client) (holder : s.holder g = some x)
      (state : (s.entry g).state ≠ .revoking) :
      Act s [.lease] (s.withEntry g fun e => { e with timer := (s.policy.get g).startLease })
  | withdraws (g : Group) (x : Client) : Act s [.lease, .queues] (reevaluate g (dropClaim g x s))
  | bars (g : Group) (x : Client) (e : Event) :
      Act s [.lease, .queues] (reevaluate g (append x e (dropClaim g x s)))
  | hands (g : Group) (h : Client) (c : Claim) (rest : List Claim) (holder : s.holder g = some h)
      (unnamed : Unnamed s g) (waiting : (s.entry g).waiting = c :: rest) :
      Act s [.lease] (s.withEntry g fun e =>
        { e with state := .held, holder := some c.client, priority := some c.priority,
                 timer := (s.policy.get g).startLease, grace := none, waiting := rest })
  | falls (g : Group) (st : GroupState) (was : Line → Bool) (state : st = .safe ∨ st = .withheld)
      (unnamed : Unnamed s g) :
      Act s [.lease, .active, .drivers, .queues]
        (replaceGroup g (s.policy.get g).safe was (s.withEntry g (·.vacated st)))
  | closes (g : Group) (was : Line → Bool) (state : (s.entry g).state = .safe) :
      Act s [.lease, .active, .drivers, .queues]
        (replaceGroup g (s.policy.get g).safe was (s.withEntry g (·.vacated .withheld)))
  | opens (g : Group) (state : (s.entry g).state = .withheld) :
      Act s [.lease] (s.withEntry g fun e => { e with state := .safe })
  | cuts (l : Line) : Act s [.drivers] (s.withDriver l fun d => { d with pulse := none })
  | frees (m : Line) : Act s [.drivers, .queues] (reevaluateMirror m s)
  | pairs (i : Fin 8) (a b : Line) (distinct : a ≠ b) (single : duplicateIndex s i (Pair.of a b) = none)
      (apart : (asserted s a && asserted s b) = false)
      (safe : (safeAsserts s a || safeAsserts s b) = false) :
      Act s [.pairs] { s with pairs := s.pairs.put i (some (Pair.of a b)) }
  | unpairs (i : Fin 8) : Act s [.pairs] { s with pairs := s.pairs.put i none }
  | stores (l : Line) (r : Record) (isSafe : r.isSafe)
      (unpaired : r.function = .static true → pairIndexOf s l = none) :
      Act s [.policy, .active, .drivers] (safeStored l r s)
  | clears (x : Client) : Act s [.watch, .staged, .park, .queues, .ports] (resetClientState x s)

variable {ps : List Part} {s t u : State}

theorem passMillisecond_frame (s : State) :
    SameExcept [.ms, .lease, .deferred] s (passMillisecond s) := by
  intro p hp
  cases p <;> first | rfl | exact ⟨rfl, rfl⟩ | exact absurd (by decide) hp

theorem passPulseUnit_frame (s : State) : SameExcept [.drivers] s (passPulseUnit s) := by
  intro p hp
  cases p <;> first | rfl | exact ⟨rfl, rfl⟩ | exact absurd (by decide) hp

theorem popQueue_frame (x : Client) (s : State) :
    SameExcept [.queues] s { s with queues := s.queues.modify x List.tail } := by
  intro p hp
  cases p <;> first | rfl | exact ⟨rfl, rfl⟩ | exact absurd (by decide) hp

theorem withPairs_frame (pairs : Table 8 (Option Pair)) (s : State) :
    SameExcept [.pairs] s { s with pairs } := by
  intro p hp
  cases p <;> first | rfl | exact ⟨rfl, rfl⟩ | exact absurd (by decide) hp

theorem storeSafe_frame (l : Line) (r : Record) (s : State) :
    SameExcept [.policy] s (storeSafe l r s) :=
  withPolicy_frame _ _ s

theorem safeStored_frame (l : Line) (r : Record) (s : State) :
    SameExcept [.policy, .active, .drivers] s (safeStored l r s) := by
  refine .ite (fun p hp => ?_) (storeSafe_frame l r s).mono
  cases p <;> first | rfl | exact ⟨rfl, rfl⟩ | exact absurd (by decide) hp

theorem withStaged_frame (staged : PerClient (Table 32 Record)) (s : State) :
    SameExcept [.staged] s { s with staged } := by
  intro p hp
  cases p <;> first | rfl | exact ⟨rfl, rfl⟩ | exact absurd (by decide) hp

theorem withAudit_frame (audit : Audit) (s : State) : SameExcept [.audit] s { s with audit } := by
  intro p hp
  cases p <;> first | rfl | exact ⟨rfl, rfl⟩ | exact absurd (by decide) hp

theorem withWatch_frame (watch : Table 8 (PerClient (Option Edges))) (s : State) :
    SameExcept [.watch] s { s with watch } := by
  intro p hp
  cases p <;> first | rfl | exact ⟨rfl, rfl⟩ | exact absurd (by decide) hp

/-- A change of a policy record that spares its safe configuration spares all of them. -/
theorem withPolicy_safe {g : Group} {f : Policy → Policy} (h : ∀ p, (f p).safe = p.safe) (k : Group) :
    ((s.withPolicy g f).policy.get k).safe = (s.policy.get k).safe := by
  unfold State.withPolicy
  rw [Table.get_modify]
  split
  · next e => subst e; exact h _
  · rfl

/-- An act changes no part but those it names. -/
theorem Act.frame (a : Act s ps t) : SameExcept ps s t := by
  cases a with
  | keeps f | policies f _ | stages f _ | parks f _ => exact f
  | sends x e => exact append_frame x e s
  | pops x => exact popQueue_frame x s
  | forgets x => exact withDeferred_frame _ s
  | defers x gs parts nonempty sorted holds =>
    exact (withDeferred_frame _ s).mono.trans (.ite (applyDeferred_frame x _) (.refl _ _))
  | applies x => exact applyDeferred_frame x s
  | commits x gs holds accepted f staged => exact (apply_frame _ _ s).mono.trans f.mono
  | ticks => exact passMillisecond_frame s
  | unit => exact passPulseUnit_frame s
  | waits g => exact withEntry_frame g _ s
  | takes g => exact withEntry_frame g _ s
  | starts g => exact withEntry_frame g _ s
  | renews g => exact withEntry_frame g _ s
  | hands g => exact withEntry_frame g _ s
  | opens g => exact withEntry_frame g _ s
  | safes g was => exact replaceGroup_frame _ _ _ s
  | restores g n cfg was => exact (withPark_frame _ s).mono.trans (replaceGroup_frame _ _ _ _).mono
  | withdraws g x => exact (dropClaim_frame g x s).mono.trans (reevaluate_frame g _)
  | bars g x e =>
    exact ((dropClaim_frame g x s).mono.trans (append_frame x e _).mono).trans (reevaluate_frame g _)
  | falls g st was | closes g was => exact (withEntry_frame g _ s).mono.trans (replaceGroup_frame _ _ _ _).mono
  | cuts l => exact withDriver_frame l _ s
  | frees m => exact reevaluateMirror_frame m s
  | pairs | unpairs => exact withPairs_frame _ s
  | stores l r => exact safeStored_frame l r s
  | clears x => exact resetClientState_frame x s

/-! ### Sequences of acts -/

/-- Some acts, one after the other. -/
def Acts (s t : State) : Prop := Relation.ReflTransGen (fun u v => ∃ ps, Act u ps v) s t

theorem Act.acts (a : Act s ps t) : Acts s t := .single ⟨ps, a⟩

theorem Acts.refl (s : State) : Acts s s := Relation.ReflTransGen.refl

theorem Acts.trans (h1 : Acts s t) (h2 : Acts t u) : Acts s u := Relation.ReflTransGen.trans h1 h2

/-- Housekeeping of the ports: no law speaks of it. -/
theorem Acts.of_frame (f : SameExcept ps s t)
    (sub : ∀ p ∈ ps, p ∈ [Part.ports, .groupSel, .sreq, .draws, .audit, .watch] := by decide) :
    Acts s t :=
  (Act.keeps (f.mono sub)).acts

theorem Acts.ite {c : Prop} [Decidable c] (h1 : c → Acts s t) (h2 : ¬ c → Acts s u) :
    Acts s (if c then t else u) := by
  split
  · next h => exact h1 h
  · next h => exact h2 h

theorem Acts.foldl {α : Type} (f : State → α → State) (h : ∀ t a, Acts t (f t a)) (l : List α)
    (s : State) : Acts s (l.foldl f s) := by
  induction l generalizing s with
  | nil => exact .refl s
  | cons a l ih => exact (h s a).trans (ih _)

/-- What every act keeps, a sequence of acts keeps. -/
theorem Acts.keep (P : State → Prop) (each : ∀ {s ps t}, Act s ps t → P s → P t) (h : Acts s t)
    (hs : P s) : P t := by
  induction h with
  | refl => exact hs
  | tail _ a ih => exact each a.choose_spec ih

/-! ### The shared operations as sequences of acts -/

theorem append_acts (x : Client) (e : Event) (s : State) : Acts s (append x e s) := (Act.sends x e).acts

theorem appendHolder_acts (g : Group) (e : Event) (s : State) : Acts s (appendHolder g e s) := by
  unfold appendHolder
  split
  · exact append_acts _ e s
  · exact .refl s

theorem notifyWatchers_acts (g : Group) (s : State) : Acts s (notifyWatchers g s) :=
  .foldl _ (fun t _ => .ite (fun _ => append_acts _ _ t) fun _ => .refl t) _ s

theorem refuseClaims_acts (g : Group) (s : State) : Acts s (refuseClaims g s) :=
  .foldl _ (fun t (c : Claim) => append_acts c.client _ t) _ s

theorem reportDeassertion_acts (l : Line) (s : State) : Acts s (reportDeassertion l s) :=
  .foldl _ (fun t m => .ite (fun _ => (Act.frees m).acts) fun _ => .refl t) _ s

theorem reportDeassertions_acts (was : Line → Bool) (s : State) :
    Acts s (reportDeassertions was s) :=
  .foldl _ (fun t l => .ite (fun _ => reportDeassertion_acts l t) fun _ => .refl t) _ s

theorem reevaluatePair_acts (p : Pair) (s : State) : Acts s (reevaluatePair p s) :=
  (Act.frees p.lower).acts.trans (Act.frees p.higher).acts

theorem cutPulse_acts (h : Client) (reason : Option CutReason) (l : Line) (s : State) :
    Acts s (cutPulse h reason l s) := by
  unfold cutPulse
  split
  · dsimp only
    split
    · exact (Act.cuts l).acts.trans (append_acts _ _ _)
    · exact (Act.cuts l).acts
  · exact .refl s

theorem cutPulses_acts (g : Group) (h : Client) (reason : Option CutReason) (s : State) :
    Acts s (cutPulses g h reason s) :=
  .foldl _ (fun t l => cutPulse_acts h reason l t) _ s

theorem dropDeferred_acts (g : Group) (h : Client) (s : State) : Acts s (dropDeferred g h s) := by
  unfold dropDeferred
  split
  · exact .ite (fun _ => (Act.forgets h).acts.trans (append_acts _ _ _)) fun _ => .refl s
  · exact .refl s

/-- After a pending commit of a holder that names its group has been dropped, none does. -/
theorem dropDeferred_unnamed {g : Group} {h : Client} (holder : s.holder g = some h) :
    Unnamed (dropDeferred g h s) g := by
  intro h' d holder' record
  rw [(dropDeferred_frame g h s).holder, holder] at holder'
  cases holder'
  have dropped := (dropDeferred_spec g h s).1.1
  rw [record] at dropped
  split at dropped
  · next none =>
    unfold dropEvents at none
    rw [← dropped] at none
    exact Bool.eq_false_iff.2 fun named => by simp [named] at none
  · cases dropped

/-- The grant of a group that the lease entry already names the holder of (R85). -/
theorem grant_acts {g : Group} {n : Client} (restore : Bool) (was : Line → Bool)
    (holder : s.holder g = some n) : Acts s (grant g n restore was s) := by
  unfold grant
  dsimp only
  split
  · next parked =>
    split
    · next accepted =>
      exact (Act.restores g n _ was holder parked accepted).acts
    · exact (append_acts _ _ s).trans (by
        rw [← (append_frame n (.restoreRefused g .loop) s).policy]; exact (Act.safes g was).acts)
    · exact (append_acts _ _ s).trans (by
        rw [← (append_frame n (.restoreRefused g .interlock) s).policy]; exact (Act.safes g was).acts)
  · exact (Act.safes g was).acts

/-- A group whose holder's pending commit does not name it passes on (R35). -/
theorem passOn_acts {g : Group} {h : Client} (was : Line → Bool) (holder : s.holder g = some h)
    (unnamed : Unnamed s g) : Acts s (passOn g was s) := by
  unfold passOn
  split
  · unfold fallToSafe
    dsimp only
    exact (Act.falls g .safe was (.inl rfl) unnamed).acts.trans (notifyWatchers_acts g _)
  · next c rest waiting =>
    unfold handover
    dsimp only
    refine ((Act.hands g h c rest holder unnamed waiting).acts.trans (append_acts _ _ _)).trans
      (.trans (grant_acts _ was ?_) (notifyWatchers_acts g _))
    rw [(append_frame _ _ _).holder]
    unfold State.holder
    rw [State.withEntry_entry_self]

theorem releaseGroup_acts {g : Group} {h : Client} (silent : Bool) (holder : s.holder g = some h) :
    Acts s (releaseGroup g h silent s) := by
  have holder' : (cutPulses g h (if silent then none else some CutReason.released) s).holder g = some h :=
    by rwa [(cutPulses_frame g h _ s).holder]
  refine ((cutPulses_acts g h _ s).trans (dropDeferred_acts g h _)).trans
    (passOn_acts (h := h) _ ?_ (dropDeferred_unnamed holder'))
  rwa [(dropDeferred_frame g h _).holder]

theorem beginLoss_acts (g : Group) (h : Client) (reason : LossReason) (s : State) :
    Acts s (beginLoss g h reason s) := by
  unfold beginLoss
  dsimp only
  refine .trans (.trans (.trans (.trans (Act.parks (withPark_frame _ s) ?_).acts (append_acts _ _ _))
    (.ite (fun _ => append_acts _ _ _) fun _ => .refl _)) (cutPulses_acts g h _ _))
    (dropDeferred_acts g h _)
  intro x k cfg parked
  by_cases hx : x = h
  · subst hx
    rw [PerClient.get_modify_self, Table.get_put] at parked
    split at parked
    · next e => subst e; cases parked; exact .inr rfl
    · exact .inl parked
  · rw [PerClient.get_modify_ne _ _ hx] at parked
    exact .inl parked

theorem beginLoss_unnamed {g : Group} {h : Client} (reason : LossReason) (holder : s.holder g = some h) :
    Unnamed (beginLoss g h reason s) g := by
  unfold beginLoss
  dsimp only
  refine dropDeferred_unnamed ?_
  rw [(cutPulses_frame g h _ _).holder]
  split
  · rwa [(auditCopy_frame _ _ _ _).holder, (append_frame _ _ _).holder]
  · rwa [(append_frame _ _ _).holder]

theorem forcedLoss_acts (g : Group) (reason : LossReason) (s : State) :
    Acts s (forcedLoss g reason s) := by
  unfold forcedLoss
  split
  · exact .refl s
  · next h holder =>
    have begun := beginLoss_acts g h reason s
    have unnamed := beginLoss_unnamed reason holder
    dsimp only
    split
    · refine (begun.trans (refuseClaims_acts g _)).trans ?_
      refine (Act.falls g .withheld _ (.inr rfl) ?_).acts.trans (notifyWatchers_acts g _)
      unfold Unnamed
      rwa [(refuseClaims_frame g _).holder, (refuseClaims_frame g _).deferred]
    · exact begun.trans (passOn_acts (h := h) _ (by rwa [(beginLoss_frame g h reason s).holder]) unnamed)

/-! ### Requests as sequences of acts -/

theorem startRevocation_acts {g : Group} (state : (s.entry g).state = .held)
    (waiting : (s.entry g).waiting ≠ []) : Acts s (startRevocation g s) := by
  unfold startRevocation
  dsimp only
  refine .ite (fun _ => forcedLoss_acts g _ s) fun _ => ?_
  exact ((Act.starts g _ state waiting).acts.trans (appendHolder_acts g _ _)).trans
    (notifyWatchers_acts g _)

theorem insertClaim_ne_nil (c : Claim) (w : List Claim) : insertClaim c w ≠ [] := by
  cases w with
  | nil => exact List.cons_ne_nil _ _
  | cons d rest => unfold insertClaim; split <;> exact List.cons_ne_nil _ _

theorem takeClaim_acts {g : Group} {x : Client} {prio : Priority} (wait preempt restore : Bool)
    (eligible : prio ≠ 0) (holder : s.holder g ≠ some x) (waits : s.waits x g = false) :
    Acts s (takeClaim g x prio wait preempt restore s).1 := by
  have queued : (s.entry g).state = .held ∨ (s.entry g).state = .revoking →
      Acts s (queueClaim g x prio preempt restore s) := fun state =>
    (Act.waits g x prio preempt restore state eligible holder waits).acts
  unfold takeClaim
  dsimp only
  split
  · next state =>
    unfold grantFromSafe
    dsimp only
    refine (Act.takes g x prio state eligible).acts.trans
      ((grant_acts _ _ ?_).trans (notifyWatchers_acts g _))
    unfold State.holder
    rw [State.withEntry_entry_self]
  · next state =>
    split
    · refine (queued (.inl state)).trans (startRevocation_acts ?_ ?_)
      · rw [queueClaim_entry]; exact state
      · rw [queueClaim_entry]; exact insertClaim_ne_nil _ _
    · split
      · exact queued (.inl state)
      · exact .refl s
  · next state =>
    split
    · exact queued (.inr state)
    · exact .refl s
  · exact .refl s

theorem withGroup_acts {b : Byte} {body : Group → Taken} (h : ∀ g, Acts s (body g).1) :
    Acts s (withGroup b s body).1 := by
  unfold withGroup
  split
  · exact h _
  · exact .refl s

theorem claimRequest_acts (x : Client) (b f : Byte) (s : State) : Acts s (claimRequest x b f s).1 := by
  refine withGroup_acts fun g => ?_
  dsimp only
  split
  · exact .refl s
  · split
    · exact .refl s
    · next eligible =>
      split
      · exact .refl s
      · next holder =>
        split
        · exact .refl s
        · next waits => exact takeClaim_acts _ _ _ eligible holder (Bool.not_eq_true _ ▸ waits)

theorem releaseRequest_acts (x : Client) (b : Byte) (s : State) :
    Acts s (releaseRequest x b s).1 := by
  refine withGroup_acts fun g => ?_
  split
  · next holder => exact releaseGroup_acts false holder
  · exact .refl s

theorem renewRequest_acts (x : Client) (b : Byte) (s : State) : Acts s (renewRequest x b s).1 := by
  refine withGroup_acts fun g => ?_
  split
  · exact .refl s
  · next holder =>
    split
    · exact .refl s
    · next state => exact (Act.renews g x (not_not.1 holder) state).acts

theorem withdrawRequest_acts (x : Client) (b : Byte) (s : State) :
    Acts s (withdrawRequest x b s).1 := by
  refine withGroup_acts fun g => ?_
  split
  · exact (Act.withdraws g x).acts
  · exact .refl s

theorem forceReleaseRequest_acts (b : Byte) (s : State) : Acts s (forceReleaseRequest b s).1 :=
  withGroup_acts fun g => forcedLoss_acts g .forced s

theorem withholdRequest_acts (b : Byte) (s : State) : Acts s (withholdRequest b s).1 := by
  refine withGroup_acts fun g => ?_
  change Acts s (closeGroup g s)
  unfold closeGroup
  split
  · exact .refl s
  · next state =>
    exact (Act.closes g _ state).acts.trans (notifyWatchers_acts g _)
  · exact forcedLoss_acts g _ s
  · exact forcedLoss_acts g _ s

theorem openRequest_acts (b : Byte) (s : State) : Acts s (openRequest b s).1 := by
  refine withGroup_acts fun g => ?_
  split
  · next state => exact (Act.opens g state).acts.trans (notifyWatchers_acts g _)
  · exact .refl s

theorem withPolicy_acts (g : Group) (f : Policy → Policy) (h : ∀ p, (f p).safe = p.safe)
    (s : State) : Acts s (s.withPolicy g f) :=
  (Act.policies (withPolicy_frame g f s) (withPolicy_safe h)).acts

theorem setPriorityRequest_acts (a b c : Byte) (s : State) :
    Acts s (setPriorityRequest a b c s).1 := by
  unfold setPriorityRequest
  split
  · next g x p _ _ _ =>
    have stored : Acts s (s.withPolicy g fun q => { q with priority := q.priority.put x p }) :=
      withPolicy_acts g _ (by intro q; rfl) s
    refine .ite (fun _ => stored.trans ?_) fun _ => stored
    unfold removeIneligible
    exact .ite (fun _ => (Act.bars g x _).acts) fun _ => .refl _
  · exact .refl s

theorem setPolicyRequest_acts (a b : Byte) (v w : Word16) (s : State) :
    Acts s (setPolicyRequest a b v w s).1 := by
  unfold setPolicyRequest
  split
  · exact withPolicy_acts _ _ (by intro q; rfl) s
  · exact .refl s

theorem setAuditRequest_acts (b : Byte) (s : State) : Acts s (setAuditRequest b s).1 := by
  unfold setAuditRequest
  split
  · exact .refl s
  · exact .of_frame (withAudit_frame _ s)

/-- A safe update (R89): the record is active, then the deassertion is reported. -/
theorem safeUpdate_acts (l : Line) (r : Record) (isSafe : r.isSafe)
    (unpaired : r.function = .static true → pairIndexOf s l = none) :
    Acts s (if atSafe s (groupOf l) then safeUpdate l r (storeSafe l r s) else storeSafe l r s) := by
  have stored := Act.stores l r isSafe unpaired
  unfold safeStored at stored
  split at stored
  · next h =>
    rw [if_pos h]
    exact stored.acts.trans (reportDeassertions_acts _ _)
  · next h =>
    rw [if_neg h]
    exact stored.acts

theorem setSafeRequest_acts (b : Byte) (rb : RecordBytes) (s : State) :
    Acts s (setSafeRequest b rb s).1 := by
  unfold setSafeRequest
  split
  · exact .refl s
  · next l _ =>
    split
    · exact .refl s
    · next r _ =>
      split
      · exact .refl s
      · exact .refl s
      · next notPulse notMirror =>
        split
        · exact .refl s
        · next unpaired =>
          refine safeUpdate_acts l r ?_ fun static => by rwa [if_pos static] at unpaired
          unfold Record.isSafe
          cases fn : r.function with
          | input => trivial
          | static a => trivial
          | pulse w => exact notPulse w fn
          | mirror src sense => exact notMirror src sense fn

theorem writePair_acts {i : Fin 8} {a b : Line} (distinct : a ≠ b)
    (single : duplicateIndex s i (Pair.of a b) = none)
    (apart : (asserted s a && asserted s b) = false)
    (safe : (safeAsserts s a || safeAsserts s b) = false) : Acts s (writePair i (Pair.of a b) s) := by
  have written := (Act.pairs i a b distinct single apart safe).acts
  unfold writePair
  split
  · exact written
  · exact .ite (fun _ => .refl s) fun _ => written.trans (reevaluatePair_acts _ _)

theorem setPairRequest_acts (i a b : Byte) (s : State) : Acts s (setPairRequest i a b s).1 := by
  unfold setPairRequest
  split
  · next i a b _ _ _ =>
    dsimp only
    split
    · exact .refl s
    · next distinct =>
      split
      · exact .refl s
      · next single =>
        split
        · exact .refl s
        · next apart =>
          split
          · exact .refl s
          · next safe =>
            exact writePair_acts distinct single (Bool.eq_false_iff.2 apart) (Bool.eq_false_iff.2 safe)
  · exact .refl s

theorem clearPairRequest_acts (b : Byte) (s : State) : Acts s (clearPairRequest b s).1 := by
  unfold clearPairRequest
  split
  · exact .refl s
  · split
    · exact .refl s
    · exact (Act.unpairs _).acts.trans (reevaluatePair_acts _ _)

/-- A request's bytes spell well-formed records only (R3, R72). -/
theorem record?_wfFor {l : Line} {rb : RecordBytes} {r : Record} (h : record? l rb = some r) :
    r.wfFor l := by
  unfold record? at h
  dsimp only at h
  split at h
  · next f flt fn _ =>
    cases h
    unfold Record.wfFor
    split at fn
    · cases fn; trivial
    · cases fn; trivial
    · split at fn
      · cases fn
      · next w => cases fn; exact w
    · split at fn
      · split at fn
        · cases fn
        · next src => cases fn; exact src
      · cases fn
    · cases fn
  · cases h

theorem stageRequest_acts (x : Client) (b : Byte) (rb : RecordBytes) (s : State) :
    Acts s (stageRequest x b rb s).1 := by
  unfold stageRequest
  split
  · exact .refl s
  · next l _ =>
    split
    · exact .refl s
    · next r spelled =>
      refine (Act.stages (withStaged_frame _ s) fun y m => ?_).acts
      by_cases hy : y = x
      · subst hy
        rw [PerClient.get_modify_self, Table.get_put]
        split
        · next e => subst e; exact .inr (.inr (record?_wfFor spelled))
        · exact .inl rfl
      · exact .inl (by rw [PerClient.get_modify_ne _ _ hy])

/-- A client's staged records after an active group has been copied into them (R73, R81). -/
theorem stageActive_records (x : Client) (g : Group) (active : Table 32 Record) (s : State)
    (y : Client) (l : Line) :
    ((stageActive x g active s).staged.get y).get l = (s.staged.get y).get l ∨
      ((stageActive x g active s).staged.get y).get l = active.get l := by
  by_cases hy : y = x
  · subst hy
    rw [stageActive_staged_self]
    split
    · exact .inr rfl
    · exact .inl rfl
  · rw [stageActive_staged_ne _ _ _ hy]
    exact .inl rfl

theorem stageCopyRequest_acts (x : Client) (b : Byte) (s : State) :
    Acts s (stageCopyRequest x b s).1 := by
  refine withGroup_acts fun g => ?_
  refine (Act.stages (stageActive_frame x g s.active s) fun y l => ?_).acts
  exact (stageActive_records x g s.active s y l).imp_right .inl

theorem commitRequest_acts (x : Client) (set : Byte) (s : State) :
    Acts s (commitRequest x set s).1 := by
  unfold commitRequest
  dsimp only
  split
  · exact .refl s
  · split
    · exact .refl s
    · next holds =>
      split
      · exact .refl s
      · exact .refl s
      · next accepted =>
        refine (Act.commits x _ (Bool.not_eq_false _ ▸ holds) accepted (.refl _ _) fun y l => .inl ?_).acts
        rw [(apply_frame _ _ s).staged]

theorem exchangeRequest_acts (x : Client) (b : Byte) (s : State) :
    Acts s (exchangeRequest x b s).1 := by
  refine withGroup_acts fun g => ?_
  split
  · exact .refl s
  · next holder =>
    dsimp only
    split
    · exact .refl s
    · exact .refl s
    · next accepted =>
      refine (Act.commits x [g] ?_ accepted (stageActive_frame x g s.active _) fun y l => ?_).acts
      · simpa [State.holdsAll] using holder
      · have := stageActive_records x g s.active ((stagedProposal x [g] s).apply (asserted s) s) y l
        rwa [(apply_frame _ _ s).staged] at this

theorem watchRequest_acts (x : Client) (b e : Byte) (s : State) : Acts s (watchRequest x b e s).1 := by
  refine withGroup_acts fun g => ?_
  split
  · exact .refl s
  · exact .of_frame (withWatch_frame _ s)

theorem unwatchRequest_acts (x : Client) (b : Byte) (s : State) : Acts s (unwatchRequest x b s).1 := by
  refine withGroup_acts fun g => ?_
  split
  · exact .of_frame (withWatch_frame _ s)
  · exact .refl s

theorem groupsOf_sorted (set : Byte) : (groupsOf set).Pairwise (· < ·) :=
  List.Pairwise.filter _ (by decide : groups.Pairwise (· < ·))

theorem deferRequest_acts (x : Client) (set kind line target : Byte) (timeout delay : Word16)
    (s : State) : Acts s (deferRequest x set kind line target timeout delay s).1 := by
  unfold deferRequest
  dsimp only
  split
  · exact .refl s
  · split
    · exact .refl s
    · next nonempty =>
      split
      · exact .refl s
      · split
        · exact .refl s
        · next trigger _ holds =>
          exact (Act.defers x _ rfl nonempty (groupsOf_sorted set) (Bool.not_eq_false _ ▸ holds)).acts

theorem cancelRequest_acts (x : Client) (s : State) : Acts s (cancelRequest x s).1 := by
  unfold cancelRequest
  split
  · exact (Act.forgets x).acts
  · exact .refl s

theorem releaseIfHeld_acts (x : Client) (s : State) (g : Group) : Acts s (releaseIfHeld x s g) :=
  .ite (fun holder => releaseGroup_acts true holder) fun _ => .refl s

theorem removeClaim_acts (x : Client) (s : State) (g : Group) : Acts s (removeClaim x s g) :=
  .ite (fun _ => (Act.withdraws g x).acts) fun _ => .refl s

theorem clientResetTransaction_acts (x : Client) (s : State) :
    Acts s (clientResetTransaction x s) := by
  unfold clientResetTransaction
  dsimp only
  refine .trans (.trans (.trans (.trans ?_ (Act.forgets x).acts)
    (.foldl _ (releaseIfHeld_acts x) _ _)) (.foldl _ (removeClaim_acts x) _ _)) (Act.clears x).acts
  exact .ite (fun _ => append_acts _ _ s) fun _ => .refl s

theorem detachSelfRequest_acts (x : Client) (s : State) : Acts s (detachSelfRequest x s).1 :=
  clientResetTransaction_acts x s

theorem detachRequest_acts (b : Byte) (s : State) : Acts s (detachRequest b s).1 := by
  unfold detachRequest
  split
  · exact .refl s
  · exact .ite (fun _ => .refl s) fun _ => clientResetTransaction_acts _ s

/-- Whatever request is taken, and whatever comes of it, is a sequence of acts. -/
theorem takeRequest_acts (page : Page) (kind : Byte) (s : State) :
    Acts s (takeRequest page kind s).1 := by
  unfold takeRequest
  split
  · exact .refl s
  · next k x _ =>
    unfold takeClientKind
    dsimp only
    split
    · exact claimRequest_acts x _ _ s
    · exact releaseRequest_acts x _ s
    · exact renewRequest_acts x _ s
    · exact withdrawRequest_acts x _ s
    · exact stageRequest_acts x _ _ s
    · exact stageCopyRequest_acts x _ s
    · exact commitRequest_acts x _ s
    · exact exchangeRequest_acts x _ s
    · exact watchRequest_acts x _ _ s
    · exact unwatchRequest_acts x _ s
    · exact deferRequest_acts x _ _ _ _ _ _ s
    · exact cancelRequest_acts x s
    · exact clientResetTransaction_acts x s
    · exact .refl s
  · next k _ =>
    unfold takeSupervisorKind
    dsimp only
    split
    · exact forceReleaseRequest_acts _ s
    · exact withholdRequest_acts _ s
    · exact openRequest_acts _ s
    · exact setPriorityRequest_acts _ _ _ s
    · exact setPolicyRequest_acts _ _ _ _ s
    · exact setSafeRequest_acts _ _ s
    · exact setPairRequest_acts _ _ _ s
    · exact clearPairRequest_acts _ s
    · exact setAuditRequest_acts _ s
    · exact detachRequest_acts _ s
    · exact .refl s

/-! ### Frames as sequences of acts -/

theorem reportRefusal_acts (x : Client) (kind : Byte) (r : Reply) (s : State) :
    Acts s (reportRefusal x kind r s) := by
  unfold reportRefusal
  split
  · exact .refl s
  · dsimp only
    have fault : ∀ {y e} {c : Prop} [Decidable c], Acts s (if c then append y e s else s) :=
      .ite (fun _ => append_acts _ _ s) fun _ => .refl s
    exact .ite (fun _ => fault.trans (append_acts _ _ _)) fun _ => fault

theorem answer_acts (x : Client) (kind : Byte) {r : Taken} (h : Acts s r.1) :
    Acts s (answer x kind r) :=
  (h.trans (reportRefusal_acts x kind r.2 r.1)).trans (.of_frame (writeResult_frame x kind r.2 _))

theorem requestFrame_acts (page : Page) (kind : Byte) (params : List Byte) {body : State → Taken}
    (h : ∀ u, Acts u (body u).1) (s : State) : Acts s (requestFrame page kind params body s) := by
  unfold requestFrame
  dsimp only
  refine .ite (fun _ => .refl s) fun _ => ?_
  have zeros := Acts.of_frame (misoZeros_frame (pagePort page) (params.length + 3) s)
  refine .ite (fun _ => answer_acts _ _ ?_) fun _ => zeros
  exact (zeros.trans (.of_frame (storeRequest_frame page kind params _))).trans (h _)

theorem requestFrame_next {page : Page} {kind : Byte} {params : List Byte} {body : State → Taken}
    (acts : ∀ u, Acts u (body u).1)
    (h : (.next (requestFrame page kind params body s) : Outcome) = .next t) : Acts s t := by
  cases h
  exact requestFrame_acts page kind params acts s

theorem supervised_acts (page : Page) {body : State → Taken} (h : ∀ u, Acts u (body u).1) (u : State) :
    Acts u (supervised page body u).1 := by
  cases page with
  | client x => exact .refl u
  | supervisor => exact h u

theorem issue_acts (page : Page) (s : State) : Acts s (issue page s) :=
  answer_acts _ _ (takeRequest_acts page _ s)

theorem takeWrites_acts (x : Client) (buffer : List (Byte × Byte)) (s : State) :
    Acts s (takeWrites x buffer s) := by
  have stored : Acts s (buffer.foldl (writeRegister x) s) :=
    .foldl _ (fun t w => .of_frame (writeRegister_frame x t w)) _ s
  unfold takeWrites
  dsimp only
  exact .ite (fun _ => stored.trans (issue_acts _ _)) fun _ =>
    .ite (fun _ => stored.trans (issue_acts _ _)) fun _ => stored

theorem popEntry_acts (x : Client) (entry : Latch) (s : State) : Acts s (popEntry x entry s) := by
  unfold popEntry
  split
  · exact (Act.pops x).acts
  · exact .refl s

theorem withPort_acts (x : Client) (f : Port → Port) (s : State) : Acts s (s.withPort x f) :=
  .of_frame (withPort_frame x f s)

theorem finishFrame_acts (x : Client) (whole : Bool) (s : State) : Acts s (finishFrame x whole s) := by
  unfold finishFrame
  split
  · exact .refl s
  · have ended := withPort_acts x (fun p => { p with frame := none }) s
    dsimp only
    exact .ite (fun _ => ended) fun _ =>
      .ite (fun _ => .ite (fun _ => ended.trans (popEntry_acts _ _ _)) fun _ => ended) fun _ =>
        .ite (fun _ => ended.trans (takeWrites_acts _ _ _)) fun _ => ended

theorem withDraws_acts (n : Nat) (s : State) : Acts s { s with draws := n } := by
  refine .of_frame (ps := [.draws]) fun p hp => ?_
  cases p <;> first | rfl | exact ⟨rfl, rfl⟩ | exact absurd (by decide) hp

theorem serveByte_acts (x : Client) (f : Frame) (s : State) : Acts s (serveByte x f s) := by
  unfold serveByte
  dsimp only
  split
  · exact withPort_acts x _ s
  · split
    · exact (withDraws_acts _ s).trans (withPort_acts x _ _)
    · exact (withDraws_acts _ s).trans (withPort_acts x _ _)

theorem shiftByte_acts (x : Client) (s : State) (mosi : Byte) : Acts s (shiftByte x s mosi) := by
  unfold shiftByte
  split
  · exact .refl s
  · exact .ite (fun _ => withPort_acts x _ s) fun _ =>
      .ite (fun _ => serveByte_acts x _ s) fun _ => withPort_acts x _ s

theorem beginFrame_acts (x : Client) (spaced : Bool) (access start : Byte) (s : State) :
    Acts s (beginFrame x spaced access start s) :=
  .ite (fun _ => .refl s) fun _ => withPort_acts x _ s

theorem wholeFrame_acts (x : Client) (access start : Byte) (data : List Byte) (s : State) :
    Acts s (wholeFrame x access start data s) :=
  .ite (fun _ => .refl s) fun _ => ((beginFrame_acts x true access start s).trans
    (.foldl _ (fun t v => shiftByte_acts x t v) _ _)).trans (finishFrame_acts x true _)

/-! ### A step -/

/-- What a command does that is no sequence of acts: a sample, a device reset, its release. -/
inductive Beyonds (s : State) : State → Prop
  | samples (pads : BitVec 32) (order : List Line) (high : s.resetLow = false) :
      Beyonds s (takeSample pads order s)
  | resets (high : s.resetLow = false) : Beyonds s (deviceResetState s)
  | rises (pads : BitVec 32) (low : s.resetLow = true) :
      Beyonds s { s with
        resetLow := false
        sampler := .tabulate fun l => .first (padLevel pads l) }

theorem execEventPop_acts (x : Client) (op : ReadOp) {s t : State}
    (h : execEventPop x op s = .next t) : Acts s t := by
  cases op with
  | frame start count => cases h; exact wholeFrame_acts x _ _ _ s
  | begin spaced start => cases h; exact beginFrame_acts x _ _ _ s
  | next => cases h; exact .ite (fun _ => .refl s) fun _ => shiftByte_acts x s 0
  | finish => cases h; exact .ite (fun _ => .refl s) fun _ => finishFrame_acts x true s

theorem execRegisterWrite_acts (x : Client) (op : WriteOp) {s t : State}
    (h : execRegisterWrite x op s = .next t) : Acts s t := by
  cases op with
  | frame start data => cases h; exact wholeFrame_acts x _ _ _ s
  | runt bytes => cases h; exact .ite (fun _ => .refl s) fun _ => .of_frame (misoZeros_frame _ _ s)
  | begin spaced access start => cases h; exact beginFrame_acts x _ _ _ s
  | next data => cases h; exact shiftByte_acts x s data
  | finish whole => cases h; exact finishFrame_acts x whole s

/-- Every command is a sequence of acts, or a sample, a device reset or its release. -/
theorem exec_cases {c : Instr} (h : exec c s = .next t) : Acts s t ∨ Beyonds s t := by
  cases c with
  | sample pads order =>
    cases h
    split
    · exact .inl (.refl s)
    · next high => exact .inr (.samples pads order (Bool.eq_false_iff.2 high))
  | deviceReset full =>
    cases h
    split
    · exact .inl (.refl s)
    · next high =>
      split
      · exact .inr (.resets (Bool.eq_false_iff.2 high))
      · refine .inl (.of_frame (ps := [.ports]) fun p hp => ?_)
        cases p <;> first | rfl | exact ⟨rfl, rfl⟩ | exact absurd (by decide) hp
  | deviceResetRelease pads =>
    cases h
    split
    · next low => exact .inr (.rises pads low)
    · exact .inl (.refl s)
  | claim x g f => exact .inl (requestFrame_next (claimRequest_acts x g f) h)
  | release x g => exact .inl (requestFrame_next (releaseRequest_acts x g) h)
  | renew x g => exact .inl (requestFrame_next (renewRequest_acts x g) h)
  | withdraw x g => exact .inl (requestFrame_next (withdrawRequest_acts x g) h)
  | stage x l r => exact .inl (requestFrame_next (stageRequest_acts x l r) h)
  | stageCopy x g => exact .inl (requestFrame_next (stageCopyRequest_acts x g) h)
  | commit x set => exact .inl (requestFrame_next (commitRequest_acts x set) h)
  | exchange x g => exact .inl (requestFrame_next (exchangeRequest_acts x g) h)
  | watch x g e => exact .inl (requestFrame_next (watchRequest_acts x g e) h)
  | unwatch x g => exact .inl (requestFrame_next (unwatchRequest_acts x g) h)
  | defer x set k l v timeout delay =>
    exact .inl (requestFrame_next (deferRequest_acts x set k l v timeout delay) h)
  | cancelPending x => exact .inl (requestFrame_next (cancelRequest_acts x) h)
  | detachSelf x => exact .inl (requestFrame_next (detachSelfRequest_acts x) h)
  | forceRelease page g =>
    exact .inl (requestFrame_next (supervised_acts page (forceReleaseRequest_acts g)) h)
  | withhold page g =>
    exact .inl (requestFrame_next (supervised_acts page (withholdRequest_acts g)) h)
  | openGroup page g =>
    exact .inl (requestFrame_next (supervised_acts page (openRequest_acts g)) h)
  | setPriority page g x p =>
    exact .inl (requestFrame_next (supervised_acts page (setPriorityRequest_acts g x p)) h)
  | setPolicy page g p v w =>
    exact .inl (requestFrame_next (supervised_acts page (setPolicyRequest_acts g p v w)) h)
  | setSafe page l r =>
    exact .inl (requestFrame_next (supervised_acts page (setSafeRequest_acts l r)) h)
  | setPair page i a b =>
    exact .inl (requestFrame_next (supervised_acts page (setPairRequest_acts i a b)) h)
  | clearPair page i =>
    exact .inl (requestFrame_next (supervised_acts page (clearPairRequest_acts i)) h)
  | setAudit page b =>
    exact .inl (requestFrame_next (supervised_acts page (setAuditRequest_acts b)) h)
  | detach page x =>
    exact .inl (requestFrame_next (supervised_acts page (detachRequest_acts x)) h)
  | unknown page k => exact .inl (requestFrame_next (takeRequest_acts page k) h)
  | eventPop x op => exact .inl (execEventPop_acts x op h)
  | registerWrite x op => exact .inl (execRegisterWrite_acts x op h)
  | irqSelWrite x v =>
    cases h
    refine .inl (.ite (fun _ => .refl s) fun _ => ?_)
    have zeros := Acts.of_frame (misoZeros_frame x 3 s)
    exact .ite (fun _ => zeros.trans (withPort_acts x _ _)) fun _ => zeros
  | clientReset x full =>
    cases h
    refine .inl (.ite (fun _ => .refl s) fun _ => ?_)
    have fallen := withPort_acts x (Port.crstFall full) s
    exact .ite (fun _ => fallen.trans (clientResetTransaction_acts x _)) fun _ => fallen
  | crstRise x => cases h; exact .inl (withPort_acts x _ s)
  | timebaseTick => cases h; exact .inl (.ite (fun _ => .refl s) fun _ => Act.ticks.acts)
  | leaseExpiry g => cases h; exact .inl (.ite (fun _ => forcedLoss_acts g _ s) fun _ => .refl s)
  | graceExpiry g => cases h; exact .inl (.ite (fun _ => forcedLoss_acts g _ s) fun _ => .refl s)
  | pulseEnd l =>
    cases h
    refine .inl (.ite (fun _ => ?_) fun _ => .refl s)
    exact ((Act.cuts l).acts.trans (appendHolder_acts _ _ _)).trans (reportDeassertion_acts l _)
  | delayExpiry x =>
    cases h
    refine .inl ?_
    split
    · exact (Act.applies x).acts
    · exact .refl s
  | timeoutExpiry x =>
    cases h
    refine .inl ?_
    split
    · exact (Act.forgets x).acts.trans (append_acts _ _ _)
    · exact .refl s

theorem withPending_frame (rest : List Instr) (s : State) :
    SameExcept [.pending] s { s with pending := rest } := by
  intro p hp
  cases p <;> first | rfl | exact ⟨rfl, rfl⟩ | exact absurd (by decide) hp

/-- Every step is, on the state with the command taken from the queue, a sequence of acts, or a command that is
none. -/
theorem step_cases (h : step s = .next t) :
    ∃ rest, Acts { s with pending := rest } t ∨ Beyonds { s with pending := rest } t := by
  unfold step at h
  split at h
  · cases h; exact ⟨s.pending, .inl Act.unit.acts⟩
  · next c rest _ => exact ⟨rest, exec_cases h⟩

/-- A law that acts, samples and device resets keep and that says nothing of the queue of commands is kept by every
step. -/
theorem step_keeps (P : State → Prop) (acts : ∀ {s ps t}, Act s ps t → P s → P t)
    (beyond : ∀ {s t}, Beyonds s t → P s → P t) (h : step s = .next t) (hs : P s)
    (silent : ∀ s rest, P s → P { s with pending := rest } := by exact fun _ _ h => h) : P t := by
  obtain ⟨rest, as | b⟩ := step_cases h
  · exact as.keep P acts (silent s rest hs)
  · exact beyond b (silent s rest hs)

end Sys2Proof.Machine
end

section
/-! PROOF. The sampler: what a sample instant leaves of every line's filter, and that a candidate stays
opposite to the filtered level, its count 1 to 15 (R122 to R124). -/

set_option Elab.async false

namespace Sys2Proof.Machine

variable {ps : List Part} {s t : State} {l m : Line} {lv : Level}

/-! ### The sampler after a sample instant -/

/-- A filtered change leaves the line at its new level, without a candidate, and every other line as it is. -/
theorem filteredChange_sampler (l : Line) (lv : Level) (s : State) :
    (filteredChange l lv s).sampler = s.sampler.put l ⟨lv, none⟩ := by
  unfold filteredChange
  rw [(fireTriggers_frame l lv _).sampler, (followSource_frame l _).sampler,
    (reportWatchers_frame l lv _).sampler, (reportEdge_frame l lv _).sampler]

theorem acceptances_sampler (pads : BitVec 32) (accepts : Line → Bool) (L : List Line) (s : State) (m : Line) :
    (L.foldl (fun t l => if accepts l then filteredChange l (padLevel pads l) t else t) s).sampler.get m =
      if m ∈ L ∧ accepts m = true then ⟨padLevel pads m, none⟩ else s.sampler.get m := by
  induction L generalizing s with
  | nil => simp
  | cons l L ih =>
    rw [List.foldl_cons, ih]
    by_cases done : m ∈ L ∧ accepts m = true
    · rw [if_pos done, if_pos ⟨List.mem_cons_of_mem l done.1, done.2⟩]
    · rw [if_neg done]
      by_cases here : m = l
      · subst here
        by_cases a : accepts m = true
        · rw [if_pos a, filteredChange_sampler, Table.get_put_self, if_pos ⟨List.mem_cons_self, a⟩]
        · rw [if_neg a, if_neg fun h => a h.2]
      · rw [if_neg fun h : m ∈ l :: L ∧ accepts m = true =>
          done ⟨(List.mem_cons.1 h.1).resolve_left here, h.2⟩]
        split
        · rw [filteredChange_sampler, Table.get_put_ne _ _ here]
        · rfl

/-- Every line after a sample instant: at the level found where it is accepted, else as it was judged. -/
theorem takeSample_sampler (pads : BitVec 32) (order : List Line) (s : State) (l : Line) :
    (takeSample pads order s).sampler.get l =
      if ((judgeSamples pads s).get l).2 = true then ⟨padLevel pads l, none⟩
      else ((judgeSamples pads s).get l).1 := by
  unfold takeSample
  dsimp only
  rw [acceptances_sampler]
  simp [(takingOrder_spec order).2 l]

theorem judgeSample_eq (filter : Fin 16) (found : Level) (t : LineSampler) :
    judgeSample filter found t =
      if found = t.level then ({ t with candidate := none }, false)
      else if filter.val + 1 ≤ t.candidate.elim 0 (·.count) + 1 then ({ t with candidate := none }, true)
      else ({ t with candidate := some ⟨found, t.candidate.elim 0 (·.count) + 1⟩ }, false) := by
  obtain ⟨level, candidate⟩ := t
  cases candidate <;> rfl

/-- The same, written out (R123, R124). -/
theorem takeSample_filters (pads : BitVec 32) (order : List Line) (s : State) (l : Line) :
    (takeSample pads order s).sampler.get l =
      if padLevel pads l = s.level l then ⟨padLevel pads l, none⟩
      else if (s.record l).filter.val + 1 ≤ (s.sampler.get l).candidate.elim 0 (·.count) + 1 then
        ⟨padLevel pads l, none⟩
      else ⟨s.level l, some ⟨padLevel pads l, (s.sampler.get l).candidate.elim 0 (·.count) + 1⟩⟩ := by
  rw [takeSample_sampler]
  unfold judgeSamples
  rw [Table.get_tabulate, judgeSample_eq]
  unfold State.level
  split
  · next same => rw [same]; rfl
  · split <;> rfl

/-! ### The law of the sampler (R122) -/

theorem SamplerLaw.of_sampler (law : SamplerLaw s) (h : t.sampler = s.sampler) : SamplerLaw t := by
  unfold SamplerLaw
  rwa [h]

theorem Act.samplerLaw (a : Act s ps t) (law : SamplerLaw s) : SamplerLaw t := by
  have f := a.frame
  cases a <;> exact law.of_sampler f.sampler

theorem SamplerLaw.of_settled (h : ∀ l, (t.sampler.get l).candidate = none) : SamplerLaw t :=
  fun l c hc => by rw [h l] at hc; cases hc

theorem takeSample_samplerLaw (pads : BitVec 32) (order : List Line) (s : State) :
    SamplerLaw (takeSample pads order s) := by
  intro l c hc
  rw [takeSample_filters] at hc ⊢
  split at hc
  · cases hc
  · next differs =>
    split at hc
    · cases hc
    · next short =>
      cases hc
      rw [if_neg differs, if_neg short]
      have := (s.record l).filter.isLt
      exact ⟨differs, by dsimp only; omega, by dsimp only; omega⟩

theorem Beyonds.samplerLaw (b : Beyonds s t) : SamplerLaw t := by
  cases b with
  | samples pads order _ => exact takeSample_samplerLaw pads order s
  | resets _ => exact .of_settled fun l => by simp [deviceResetState, LineSampler.first]
  | rises pads _ => exact .of_settled fun l => by simp [LineSampler.first]

end Sys2Proof.Machine

namespace Sys2Proof.Proofs

open Sys2Proof.Machine

/-- Settles O10: no act touches the sampler; a sample and a device reset leave the law true whatever stood
before them. -/
theorem stepKeepsCandidates : Obligations.StepKeepsCandidates := fun _ _ law h =>
  step_keeps SamplerLaw (fun a => a.samplerLaw) (fun b _ => b.samplerLaw) h law

end Sys2Proof.Proofs
end

section
/-! PROOF. The lease entries: each change of an entry keeps the pairings of its fields and the order of its
waiting list, so every step does (R20, R21, R46 to R48). -/

set_option Elab.async false

namespace Sys2Proof.Machine

variable {ps : List Part} {s t : State} {g : Group} {e : LeaseEntry}

/-- The laws of one entry. -/
def LeaseEntry.Lawful (e : LeaseEntry) : Prop := EntryLaw e ∧ WaitingLaw e

/-! ### One entry -/

theorem startLease_ne_stopped (p : Policy) : p.startLease ≠ .stopped := by
  unfold Policy.startLease
  split <;> simp

theorem LeaseTimer.tick_eq_stopped {timer : LeaseTimer} : timer.tick = .stopped ↔ timer = .stopped := by
  cases timer <;> simp [LeaseTimer.tick]

theorem LeaseEntry.Lawful.tick (law : e.Lawful) : e.tick.Lawful := by
  obtain ⟨⟨holder, priority, idle, revoking, timer, grace⟩, waiting⟩ := law
  exact ⟨⟨holder, priority, idle, revoking, LeaseTimer.tick_eq_stopped.trans timer,
    by simpa [LeaseEntry.tick] using grace⟩, waiting⟩

theorem LeaseEntry.Lawful.taken (law : e.Lawful) (state : e.state = .safe) (x : Client)
    {prio : Priority} (eligible : prio ≠ 0) {timer : LeaseTimer} (started : timer ≠ .stopped) :
    LeaseEntry.Lawful
      { e with state := .held, holder := some x, priority := some prio, timer := timer } := by
  obtain ⟨⟨-, -, idle, -, -, grace⟩, -⟩ := law
  have empty := idle (.inl state)
  refine ⟨⟨by simp, by simpa using eligible, by simp, by simp, by simpa using started, ?_⟩, ?_⟩
  · simpa [state] using grace
  · simp [WaitingLaw, empty]

theorem LeaseEntry.Lawful.handed {c : Claim} {rest : List Claim} (law : e.Lawful)
    (waiting : e.waiting = c :: rest) {timer : LeaseTimer} (started : timer ≠ .stopped) :
    LeaseEntry.Lawful
      { e with state := .held, holder := some c.client, priority := some c.priority, timer := timer,
               grace := none, waiting := rest } := by
  obtain ⟨-, nodup, claims, sorted⟩ := law
  rw [waiting] at nodup claims sorted
  rw [List.map_cons, List.nodup_cons] at nodup
  obtain ⟨-, eligible, -⟩ := claims c List.mem_cons_self
  refine ⟨⟨by simp, by simpa using eligible, by simp, by simp, by simpa using started, by simp⟩,
    nodup.2, fun d hd => ?_, sorted.of_cons⟩
  obtain ⟨-, prio, arrival⟩ := claims d (List.mem_cons_of_mem c hd)
  refine ⟨fun same => nodup.1 ?_, prio, arrival⟩
  rw [Option.some.inj same]
  exact List.mem_map_of_mem hd

theorem LeaseEntry.vacated_lawful {st : GroupState} (state : st = .safe ∨ st = .withheld)
    (e : LeaseEntry) : (e.vacated st).Lawful := by
  refine ⟨?_, by simp [WaitingLaw, vacated]⟩
  rcases state with rfl | rfl <;> simp [EntryLaw, vacated]

theorem LeaseEntry.Lawful.opened (law : e.Lawful) (state : e.state = .withheld) :
    LeaseEntry.Lawful { e with state := .safe } := by
  obtain ⟨⟨holder, priority, idle, -, timer, grace⟩, waiting⟩ := law
  refine ⟨⟨?_, priority, fun _ => idle (.inr state), by simp, ?_, ?_⟩, waiting⟩
  · simpa [state] using holder
  · simpa [state] using timer
  · simpa [state] using grace

theorem LeaseEntry.Lawful.revoking (law : e.Lawful) (state : e.state = .held)
    (claimed : e.waiting ≠ []) (period : Word16) :
    LeaseEntry.Lawful { e with state := .revoking, timer := .stopped, grace := some period } := by
  obtain ⟨⟨holder, priority, -, -, -, -⟩, waiting⟩ := law
  exact ⟨⟨by simpa [state] using holder, priority, by simp, fun _ => claimed, by simp, by simp⟩,
    waiting⟩

theorem LeaseEntry.Lawful.renewed (law : e.Lawful) (holder : e.holder.isSome = true)
    (state : e.state ≠ .revoking) {timer : LeaseTimer} (started : timer ≠ .stopped) :
    LeaseEntry.Lawful { e with timer := timer } := by
  obtain ⟨⟨held, priority, idle, revoking, -, grace⟩, waiting⟩ := law
  have := (held.1 holder).resolve_right state
  exact ⟨⟨held, priority, idle, revoking, by simp [this, started], grace⟩, waiting⟩

/-! ### The waiting list -/

theorem WaitingLaw.filter (law : WaitingLaw e) (keep : Claim → Bool) :
    WaitingLaw { e with waiting := e.waiting.filter keep } := by
  obtain ⟨nodup, claims, sorted⟩ := law
  exact ⟨nodup.sublist (List.filter_sublist.map _),
    fun c hc => claims c (List.mem_of_mem_filter hc), sorted.filter keep⟩

/-- A claim goes behind those of its priority or above, which have arrived before it (R47). -/
theorem WaitingLaw.insert (law : WaitingLaw e) {c : Claim} (client : ∀ d ∈ e.waiting, d.client ≠ c.client)
    (holder : e.holder ≠ some c.client) (eligible : c.priority ≠ 0) (arrival : c.arrival = e.arrivals) :
    WaitingLaw { e with waiting := insertClaim c e.waiting, arrivals := e.arrivals + 1 } := by
  obtain ⟨nodup, claims, sorted⟩ := law
  obtain ⟨front, back, before, after, above, below⟩ := insertClaim_inserted c e.waiting
    (sorted.imp fun h => h.elim le_of_lt fun h => le_of_eq h.1)
  rw [before] at nodup claims sorted client
  have sorted' := List.pairwise_append.1 sorted
  unfold WaitingLaw
  dsimp only
  rw [after]
  refine ⟨?_, fun d hd => ?_, ?_⟩
  · refine (List.perm_middle.map Claim.client).nodup_iff.2 ?_
    rw [List.map_cons, List.nodup_cons]
    refine ⟨fun h => ?_, nodup⟩
    obtain ⟨d, hd, same⟩ := List.mem_map.1 h
    exact client d hd same
  · rcases List.mem_cons.1 (List.perm_middle.mem_iff.1 hd) with rfl | old
    · exact ⟨holder, eligible, by omega⟩
    · obtain ⟨other, prio, arrived⟩ := claims d old
      exact ⟨other, prio, by omega⟩
  · refine List.pairwise_append.2 ⟨sorted'.1, List.pairwise_cons.2
      ⟨fun d hd => .inl (below d hd), sorted'.2.1⟩, fun d hd b hb => ?_⟩
    rcases List.mem_cons.1 hb with rfl | hb
    · rcases lt_or_eq_of_le (above d hd) with lower | same
      · exact .inl lower
      · refine .inr ⟨same, ?_⟩
        rw [arrival]
        exact (claims d (List.mem_append_left _ hd)).2.2
    · exact sorted'.2.2 d hd b hb

/-- A claim has left the list: the entry is lawful but for a revocation that nothing justifies. -/
theorem LeaseEntry.Lawful.filtered (law : e.Lawful) (keep : Claim → Bool)
    (claimed : e.state = .revoking → e.waiting.filter keep ≠ []) :
    LeaseEntry.Lawful { e with waiting := e.waiting.filter keep } := by
  obtain ⟨⟨holder, priority, idle, -, timer, grace⟩, waiting⟩ := law
  exact ⟨⟨holder, priority, fun h => by simp [idle h], claimed, timer, grace⟩, waiting.filter keep⟩

theorem LeaseEntry.Lawful.cancelled (law : e.Lawful) (keep : Claim → Bool) (state : e.state = .revoking)
    {timer : LeaseTimer} (started : timer ≠ .stopped) :
    LeaseEntry.Lawful
      { e with state := .held, timer := timer, grace := none, waiting := e.waiting.filter keep } := by
  obtain ⟨⟨holder, priority, -, -, -, -⟩, waiting⟩ := law
  exact ⟨⟨by simpa [state] using holder, priority, by simp, by simp, by simpa using started, by simp⟩,
    waiting.filter keep⟩

/-! ### Entries of a state -/

theorem LeaseLaw.of_entry (law : LeaseLaw s) (others : OtherEntries g s t) (this : (t.entry g).Lawful) :
    LeaseLaw t := by
  intro k
  by_cases h : k = g
  · rw [h]; exact this
  · rw [others k h]; exact law k

theorem LeaseLaw.at (law : LeaseLaw s) (g : Group) : (s.entry g).Lawful := law g

theorem LeaseLaw.of_lease (law : LeaseLaw s) (h : t.lease = s.lease) : LeaseLaw t := by
  unfold LeaseLaw State.entry
  rwa [h]

theorem LeaseLaw.withEntry (law : LeaseLaw s) (f : LeaseEntry → LeaseEntry) (this : (f (s.entry g)).Lawful) :
    LeaseLaw (s.withEntry g f) :=
  law.of_entry (fun _ ne => State.withEntry_entry_ne s f ne) (by rwa [State.withEntry_entry_self])

/-- After a claim has left a list, with any events, the re-evaluation leaves a lawful entry (R59 to R61). -/
theorem LeaseLaw.reevaluated (law : LeaseLaw s) (x : Client) {u : State}
    (f : SameExcept [.queues] (dropClaim g x s) u) : LeaseLaw (reevaluate g u) := by
  have entry : u.entry g =
      { s.entry g with waiting := (s.entry g).waiting.filter fun c => c.client != x } := by
    rw [f.entry]; exact State.withEntry_entry_self s g _
  have spec := reevaluate_spec g u
  refine law.of_entry (g := g) (fun k ne => ?_) ?_
  · have other : (reevaluate g u).entry k = u.entry k := by
      split at spec
      · obtain ⟨-, -, others, -⟩ := spec
        exact others k ne
      · rw [spec]
    rw [other, f.entry]
    exact State.withEntry_entry_ne s _ ne
  · split at spec
    · next revoking =>
      obtain ⟨cancelled, -⟩ := spec
      rw [cancelled, entry]
      rw [entry] at revoking
      exact (law.at g).cancelled _ revoking.1 (startLease_ne_stopped (u.policy.get g))
    · next justified =>
      rw [spec, entry]
      rw [entry] at justified
      refine (law.at g).filtered _ fun revoking empty => justified ⟨revoking, ?_⟩
      rintro ⟨-, c, hc, -⟩
      dsimp only at hc
      rw [empty] at hc
      cases hc

theorem Act.leaseLaw (a : Act s ps t) (law : LeaseLaw s) : LeaseLaw t := by
  have f := a.frame
  cases a with
  | ticks =>
    intro g
    unfold passMillisecond State.entry
    rw [Table.get_tabulate]
    exact (law.at g).tick
  | waits g x prio preempt restore state eligible holder waits =>
    refine law.withEntry _ ?_
    have others : ∀ d ∈ (s.entry g).waiting, d.client ≠ x := by
      simpa [State.waits] using waits
    obtain ⟨⟨held, priority, idle, revoking, timer, grace⟩, waiting⟩ := law g
    refine ⟨⟨held, priority, fun h => ?_, fun _ => insertClaim_ne_nil _ _, timer, grace⟩,
      waiting.insert others holder eligible rfl⟩
    rcases state with h' | h' <;> rcases h with h | h <;> rw [h'] at h <;> cases h
  | takes g x prio state eligible =>
    exact law.withEntry _ ((law.at g).taken state x eligible (startLease_ne_stopped _))
  | starts g period state waiting => exact law.withEntry _ ((law.at g).revoking state waiting period)
  | renews g x holder state =>
    exact law.withEntry _ ((law.at g).renewed (Option.isSome_of_mem holder) state (startLease_ne_stopped _))
  | withdraws g x => exact law.reevaluated x (.refl _ _)
  | bars g x e => exact law.reevaluated x (append_frame x e _)
  | hands g h c rest holder unnamed waiting =>
    exact law.withEntry _ ((law.at g).handed waiting (startLease_ne_stopped _))
  | falls g st was state unnamed =>
    exact (law.withEntry _ (LeaseEntry.vacated_lawful state _)).of_lease (replaceGroup_frame _ _ _ _).lease
  | closes g was state =>
    exact (law.withEntry _ (LeaseEntry.vacated_lawful (.inr rfl) _)).of_lease
      (replaceGroup_frame _ _ _ _).lease
  | opens g state => exact law.withEntry _ ((law.at g).opened state)
  | _ => exact law.of_lease f.lease

theorem LeaseEntry.reset_lawful : LeaseEntry.reset.Lawful := by
  refine ⟨?_, ?_⟩ <;> simp [EntryLaw, WaitingLaw, LeaseEntry.reset]

theorem Beyonds.leaseLaw (b : Beyonds s t) (law : LeaseLaw s) : LeaseLaw t := by
  cases b with
  | samples pads order _ => exact law.of_lease (takeSample_frame pads order s).lease
  | resets _ =>
    intro g
    have : (deviceResetState s).entry g = .reset := Table.get_fill _ g
    rw [this]
    exact LeaseEntry.reset_lawful
  | rises pads _ => exact law

end Sys2Proof.Machine

namespace Sys2Proof.Proofs

open Sys2Proof.Machine

/-- Settles O7: act by act, each change of an entry keeps its pairings and its list. -/
theorem stepKeepsLeases : Obligations.StepKeepsLeases := fun _ _ law h =>
  step_keeps LeaseLaw (fun a => a.leaseLaw) (fun b => b.leaseLaw) h law

end Sys2Proof.Proofs
end

section
/-! PROOF. Proposals: which record each line would have, when the loop law and the assertion check pass, and
what a replacement leaves in the active records (R76, R92, R93, R98). -/

set_option Elab.async false

namespace Sys2Proof.Machine

variable {s t u : State} {g : Group} {l : Line} {p : Proposal}

/-! ### The resulting records -/

theorem Proposal.of_result_unnamed {parts : List (Group × GroupConfig)} {starts : Bool}
    (h : (Proposal.of s parts starts).named (groupOf l) = false) :
    (Proposal.of s parts starts).result l = s.record l := by
  unfold Proposal.of at h ⊢
  dsimp only at h ⊢
  have none : parts.find? (fun p => p.1 == groupOf l) = none := by
    rw [List.find?_eq_none]
    intro part hp named
    exact Bool.eq_false_iff.1 h (List.any_eq_true.2 ⟨part, hp, named⟩)
  rw [none]

theorem Proposal.of_result_named {parts : List (Group × GroupConfig)} {starts : Bool}
    (h : (Proposal.of s parts starts).named (groupOf l) = true) :
    ∃ part ∈ parts, part.1 = groupOf l ∧
      (Proposal.of s parts starts).result l = part.2.get (positionOf l) := by
  unfold Proposal.of at h ⊢
  dsimp only at h ⊢
  obtain ⟨part, found⟩ := Option.isSome_iff_exists.1 (List.find?_isSome.2 (List.any_eq_true.1 h))
  rw [found]
  exact ⟨part, List.mem_of_find?_eq_some found, by simpa using List.find?_some found, rfl⟩

/-- The configurations of a proposal are well-formed, so its resulting records are (R3). -/
theorem Proposal.of_result_wf {parts : List (Group × GroupConfig)} {starts : Bool}
    (wf : ∀ part ∈ parts, ConfigWf part.1 part.2)
    (h : (Proposal.of s parts starts).named (groupOf l) = true) :
    ((Proposal.of s parts starts).result l).wfFor l := by
  obtain ⟨part, hp, group, result⟩ := of_result_named h
  have := wf part hp (positionOf l)
  rwa [group, lineOf_groupOf, ← result] at this

/-! ### The two tests -/

theorem Record.isMirror_iff {r : Record} : r.isMirror = true ↔ ∃ src sense, r.function = .mirror src sense := by
  unfold Record.isMirror
  cases r.function <;> simp

theorem Proposal.hasLoop_iff : p.hasLoop = true ↔ ∃ l src sense src' sense',
    (p.result l).function = .mirror src sense ∧ (p.result src).function = .mirror src' sense' := by
  unfold Proposal.hasLoop
  rw [List.any_eq_true]
  constructor
  · rintro ⟨l, -, loops⟩
    split at loops
    · next src sense fn =>
      split at loops
      · next src' sense' fn' => exact ⟨l, src, sense, src', sense', fn, fn'⟩
      · cases loops
    · cases loops
  · rintro ⟨l, src, sense, src', sense', fn, fn'⟩
    refine ⟨l, mem_lines l, ?_⟩
    rw [fn]
    dsimp only
    rw [fn']

/-- No resulting MIRROR follows a resulting MIRROR (R118). -/
def Proposal.Loopless (p : Proposal) : Prop :=
  ∀ l src sense, (p.result l).function = .mirror src sense → (p.result src).isMirror = false

theorem judge_accepted_iff : judge p s = .accepted ↔ p.hasLoop = false ∧ p.conflict s = none := by
  unfold judge
  cases p.hasLoop with
  | true => simp
  | false => cases p.conflict s <;> simp

theorem Proposal.loopless_of_accepted (h : judge p s = .accepted) : p.Loopless := by
  intro l src sense fn
  refine Bool.eq_false_iff.2 fun mirror => Bool.eq_false_iff.1 (judge_accepted_iff.1 h).1 ?_
  obtain ⟨src', sense', fn'⟩ := Record.isMirror_iff.1 mirror
  exact hasLoop_iff.2 ⟨l, src, sense, src', sense', fn, fn'⟩

theorem Record.isSafe_cases {r : Record} (h : r.isSafe) :
    r.function = .input ∨ ∃ a, r.function = .static a := by
  unfold Record.isSafe at h
  cases fn : r.function with
  | input => exact .inl rfl
  | static a => exact .inr ⟨a, rfl⟩
  | pulse w => rw [fn] at h; exact h.elim
  | mirror src sense => rw [fn] at h; exact h.elim

theorem Record.isSafe_wfFor {r : Record} (h : r.isSafe) (l : Line) : r.wfFor l := by
  unfold Record.wfFor
  rcases Record.isSafe_cases h with fn | ⟨a, fn⟩ <;> rw [fn] <;> trivial

theorem Record.isSafe_not_mirror {r : Record} (h : r.isSafe) : r.isMirror = false := by
  unfold Record.isMirror
  rcases Record.isSafe_cases h with fn | ⟨a, fn⟩ <;> rw [fn]

/-- What falls back to INPUT and STATIC records starts no loop. -/
theorem Proposal.loopless_of_safe (loop : LoopLaw s)
    (unnamed : ∀ l, p.named (groupOf l) = false → p.result l = s.record l)
    (safe : ∀ l, p.named (groupOf l) = true → (p.result l).isSafe) : p.Loopless := by
  intro l src sense fn
  cases named : p.named (groupOf src) with
  | true => exact Record.isSafe_not_mirror (safe src named)
  | false =>
    rw [unnamed src named]
    cases named' : p.named (groupOf l) with
    | true => rcases Record.isSafe_cases (safe l named') with fn' | ⟨a, fn'⟩ <;> rw [fn'] at fn <;> cases fn
    | false =>
      rw [unnamed l named'] at fn
      exact loop l src sense fn

theorem apply_record (p : Proposal) (was : Line → Bool) (s : State) (l : Line) :
    (p.apply was s).record l = if p.named (groupOf l) then p.result l else s.record l := by
  unfold Proposal.apply
  rw [(reportDeassertions_frame was _).record, (startMirrors_frame p _).record, place_record,
    (reportCuts_frame p s).record]

/-! ### A met pending commit (R142, R143) -/

/-- Applying a pending commit removes it and sends one event; and, where its replacement is accepted, replaces
the records of its groups. -/
theorem applyDeferred_cases {x : Client} {d : Deferred} (record : s.deferred.get x = some d) :
    ∃ e v, v = append x e { s with deferred := s.deferred.put x none } ∧
      (applyDeferred x s = v ∨
        judge (Proposal.of v d.parts true) v = .accepted ∧
          applyDeferred x s = (Proposal.of v d.parts true).apply (asserted v) v) := by
  unfold applyDeferred
  rw [record]
  dsimp only
  split
  · next accepted =>
    have f := append_frame x (.pendingDone d.trigger.line?) { s with deferred := s.deferred.put x none }
    have same : Proposal.of (append x (.pendingDone d.trigger.line?)
        { s with deferred := s.deferred.put x none }) d.parts true =
        Proposal.of { s with deferred := s.deferred.put x none } d.parts true :=
      Proposal.of_congr _ _ _ _ fun l => f.record l
    refine ⟨.pendingDone d.trigger.line?, _, rfl, .inr ⟨?_, ?_⟩⟩
    · rw [same, ← accepted]
      exact judge_congr _ _ _ _ rfl rfl rfl f.pairs fun l _ => f.asserted l
    · rw [same]
      exact congrArg (fun was => (Proposal.of _ d.parts true).apply was _) (funext fun l => (f.asserted l).symm)
  · exact ⟨_, _, rfl, .inl rfl⟩
  · exact ⟨_, _, rfl, .inl rfl⟩

theorem applyDeferred_none {x : Client} (record : s.deferred.get x = none) : applyDeferred x s = s := by
  unfold applyDeferred
  rw [record]

/-- What holds once a pending commit is gone, with any event sent, and is kept by its replacement, holds after
the pending commit has been applied. -/
theorem applyDeferred_keeps (P : State → Prop) {x : Client} (hs : P s)
    (removed : ∀ e, P (append x e { s with deferred := s.deferred.put x none }))
    (replaced : ∀ d v, s.deferred.get x = some d →
      SameExcept [.deferred, .queues] s v → P v → judge (Proposal.of v d.parts true) v = .accepted →
      P ((Proposal.of v d.parts true).apply (asserted v) v)) : P (applyDeferred x s) := by
  cases record : s.deferred.get x with
  | none => rwa [applyDeferred_none record]
  | some d =>
    obtain ⟨e, v, hv, unchanged | ⟨accepted, applied⟩⟩ := applyDeferred_cases record
    · rw [unchanged, hv]
      exact removed e
    · rw [applied]
      refine replaced d v record ?_ (hv ▸ removed e) accepted
      rw [hv]
      exact (withDeferred_frame _ s).mono.trans (append_frame x e _).mono

end Sys2Proof.Machine
end

section
/-! PROOF. Records stay well-formed, safe configurations INPUT and STATIC, and no mirror follows a mirror,
act by act (R3, R16, R118). -/

set_option Elab.async false

namespace Sys2Proof.Machine

variable {ps : List Part} {s t u : State} {g : Group} {l : Line} {p : Proposal}

theorem ConfigLaw.of_frame (law : ConfigLaw s) (f : SameExcept ps s t)
    (policy : Part.policy ∉ ps := by decide) (active : Part.active ∉ ps := by decide)
    (staged : Part.staged ∉ ps := by decide) (park : Part.park ∉ ps := by decide)
    (deferred : Part.deferred ∉ ps := by decide) : ConfigLaw t := by
  unfold ConfigLaw RecordLaw SafeConfigLaw LoopLaw State.record
  rwa [f.policy policy, f.active active, f.staged staged, f.park park, f.deferred deferred]

/-! ### Replacements -/

/-- A replacement by well-formed records without a loop (R98). -/
theorem ConfigLaw.apply (law : ConfigLaw s) (was : Line → Bool)
    (unnamed : ∀ l, p.named (groupOf l) = false → p.result l = s.record l)
    (wf : ∀ l, p.named (groupOf l) = true → (p.result l).wfFor l) (loopless : p.Loopless) :
    ConfigLaw (p.apply was s) := by
  obtain ⟨⟨active, staged, park, deferred⟩, safe, -⟩ := law
  have f := apply_frame p was s
  have record : ∀ l, (p.apply was s).record l = p.result l := by
    intro l
    rw [apply_record]
    cases named : p.named (groupOf l) with
    | true => rfl
    | false => exact (unnamed l named).symm
  refine ⟨⟨fun l => ?_, ?_, ?_, ?_⟩, ?_, fun l src sense fn => ?_⟩
  · rw [apply_record]
    split
    · next named => exact wf l named
    · exact active l
  · rwa [f.staged]
  · rwa [f.park]
  · rwa [f.deferred]
  · unfold SafeConfigLaw
    rwa [f.policy]
  · rw [record] at fn ⊢
    exact loopless l src sense fn

theorem ConfigLaw.replaceSafe (law : ConfigLaw s) (g : Group) (was : Line → Bool) :
    ConfigLaw (replaceGroup g (s.policy.get g).safe was s) := by
  have safe : ∀ l, (Proposal.of s [(g, (s.policy.get g).safe)] false).named (groupOf l) = true →
      ((Proposal.of s [(g, (s.policy.get g).safe)] false).result l).isSafe := by
    intro l named
    obtain ⟨part, hp, -, result⟩ := Proposal.of_result_named named
    rw [result, List.mem_singleton.1 hp]
    exact law.2.1 g _
  exact law.apply was (fun _ => Proposal.of_result_unnamed)
    (fun l named => Record.isSafe_wfFor (safe l named) l)
    (Proposal.loopless_of_safe law.2.2 (fun _ => Proposal.of_result_unnamed) safe)

theorem ConfigLaw.replace (law : ConfigLaw s) {parts : List (Group × GroupConfig)} {starts : Bool}
    (was : Line → Bool) (wf : ∀ part ∈ parts, ConfigWf part.1 part.2)
    (accepted : judge (Proposal.of s parts starts) s = .accepted) :
    ConfigLaw ((Proposal.of s parts starts).apply was s) :=
  law.apply was (fun _ => Proposal.of_result_unnamed) (fun _ => Proposal.of_result_wf wf)
    (Proposal.loopless_of_accepted accepted)

theorem ConfigLaw.stagedConfig (law : ConfigLaw s) (x : Client) (g : Group) :
    ConfigWf g (stagedConfig s x g) := by
  intro p
  unfold Machine.stagedConfig
  rw [Table.get_tabulate]
  exact law.1.2.1 x _

theorem ConfigLaw.stagedParts (law : ConfigLaw s) (x : Client) (gs : List Group) :
    ∀ part ∈ gs.map fun g => (g, Machine.stagedConfig s x g), ConfigWf part.1 part.2 := by
  intro part hp
  obtain ⟨g, -, rfl⟩ := List.mem_map.1 hp
  exact law.stagedConfig x g

/-! ### Staging, park records, pending commits -/

theorem ConfigLaw.withStaged (law : ConfigLaw s) (f : SameExcept [.staged] s t)
    (records : ∀ x l, ((t.staged.get x).get l).wfFor l) : ConfigLaw t := by
  obtain ⟨⟨active, -, park, deferred⟩, safe, loop⟩ := law
  unfold ConfigLaw RecordLaw SafeConfigLaw LoopLaw State.record
  rw [f.policy, f.active, f.park, f.deferred]
  exact ⟨⟨active, records, park, deferred⟩, safe, loop⟩

theorem ConfigLaw.withPark (law : ConfigLaw s) (f : SameExcept [.park] s t)
    (configs : ∀ x g cfg, (t.park.get x).get g = some cfg → ConfigWf g cfg) : ConfigLaw t := by
  obtain ⟨⟨active, staged, -, deferred⟩, safe, loop⟩ := law
  unfold ConfigLaw RecordLaw SafeConfigLaw LoopLaw State.record
  rw [f.policy, f.active, f.staged, f.deferred]
  exact ⟨⟨active, staged, configs, deferred⟩, safe, loop⟩

theorem ConfigLaw.withDeferred (law : ConfigLaw s) (f : SameExcept [.ms, .lease, .deferred] s t)
    (parts : ∀ x d, t.deferred.get x = some d → ∀ part ∈ d.parts, ConfigWf part.1 part.2) :
    ConfigLaw t := by
  obtain ⟨⟨active, staged, park, -⟩, safe, loop⟩ := law
  unfold ConfigLaw RecordLaw SafeConfigLaw LoopLaw State.record
  rw [f.policy, f.active, f.staged, f.park]
  exact ⟨⟨active, staged, park, parts⟩, safe, loop⟩

theorem ConfigLaw.putDeferred (law : ConfigLaw s) (x : Client) (d : Option Deferred)
    (parts : ∀ d', d = some d' → ∀ part ∈ d'.parts, ConfigWf part.1 part.2) :
    ConfigLaw { s with deferred := s.deferred.put x d } := by
  refine law.withDeferred (withDeferred_frame _ s).mono fun y d' record => ?_
  dsimp only at record
  rw [PerClient.get_put] at record
  split at record
  · exact parts d' record
  · exact law.1.2.2.2 y d' record

theorem ConfigLaw.forget (law : ConfigLaw s) (x : Client) :
    ConfigLaw { s with deferred := s.deferred.put x none } :=
  law.putDeferred x none (by simp)

theorem ConfigLaw.applyDeferred (law : ConfigLaw s) (x : Client) : ConfigLaw (applyDeferred x s) :=
  applyDeferred_keeps ConfigLaw law (fun e => (law.forget x).of_frame (append_frame x e _))
    fun d _ record _ law' accepted => law'.replace _ (law.1.2.2.2 x d record) accepted

theorem safeStored_safeConfigLaw {r : Record} (safe : SafeConfigLaw s) (isSafe : r.isSafe) :
    SafeConfigLaw (safeStored l r s) := by
  intro g p
  have policy : (safeStored l r s).policy = (storeSafe l r s).policy := by
    unfold safeStored
    split <;> rfl
  rw [policy]
  unfold storeSafe State.withPolicy
  rw [Table.get_modify]
  split
  · next e =>
    subst e
    rw [Table.get_put]
    split
    · exact isSafe
    · exact safe _ p
  · exact safe g p

/-- A safe record is stored, and on a SAFE or WITHHELD group active at once (R89, R167). -/
theorem ConfigLaw.safeStored (law : ConfigLaw s) {r : Record} (isSafe : r.isSafe) :
    ConfigLaw (safeStored l r s) := by
  obtain ⟨⟨active, staged, park, deferred⟩, safe, loop⟩ := law
  have f := safeStored_frame l r s
  have record : ∀ m, (Machine.safeStored l r s).record m = s.record m ∨
      (Machine.safeStored l r s).record m = r := by
    intro m
    unfold Machine.safeStored
    split
    · unfold State.record
      rw [Table.get_put]
      split
      · exact .inr rfl
      · exact .inl rfl
    · exact .inl rfl
  refine ⟨⟨fun m => ?_, ?_, ?_, ?_⟩, fun g p => ?_, fun m src sense fn => ?_⟩
  · rcases record m with same | new
    · rw [same]; exact active m
    · rw [new]; exact Record.isSafe_wfFor isSafe m
  · rwa [f.staged]
  · rwa [f.park]
  · rwa [f.deferred]
  · exact safeStored_safeConfigLaw safe isSafe g p
  · rcases record src with same | new
    · rw [same]
      rcases record m with same' | new'
      · rw [same'] at fn; exact loop m src sense fn
      · rw [new'] at fn
        rcases Record.isSafe_cases isSafe with fn' | ⟨a, fn'⟩ <;> rw [fn'] at fn <;> cases fn
    · rw [new]; exact Record.isSafe_not_mirror isSafe

theorem ConfigLaw.clear (law : ConfigLaw s) (x : Client) : ConfigLaw (resetClientState x s) := by
  obtain ⟨⟨active, staged, park, deferred⟩, safe, loop⟩ := law
  refine ⟨⟨active, fun y l => ?_, fun y g cfg parked => ?_, deferred⟩, safe, loop⟩
  · unfold resetClientState
    dsimp only
    rw [PerClient.get_put]
    split
    · rw [Table.get_fill]; trivial
    · exact staged y l
  · unfold resetClientState at parked
    dsimp only at parked
    rw [PerClient.get_put] at parked
    split at parked
    · rw [Table.get_fill] at parked; cases parked
    · exact park y g cfg parked

theorem ConfigLaw.tick (law : ConfigLaw s) : ConfigLaw (passMillisecond s) := by
  refine law.withDeferred (passMillisecond_frame s) fun x d record => ?_
  unfold passMillisecond at record
  dsimp only at record
  rw [PerClient.get_tabulate] at record
  obtain ⟨d', record', rfl⟩ := Option.map_eq_some_iff.1 record
  exact law.1.2.2.2 x d' record'

/-- A park record that is used up leaves the others (R86). -/
theorem usedPark_configs (g : Group) (n : Client) (s : State) (x : Client) (k : Group) (cfg : GroupConfig)
    (parked : ((s.park.modify n fun t => t.put g none).get x).get k = some cfg) :
    (s.park.get x).get k = some cfg := by
  rw [PerClient.get_modify] at parked
  split at parked
  · rw [Table.get_put] at parked
    split at parked
    · cases parked
    · exact parked
  · exact parked

theorem Act.configLaw (a : Act s ps t) (law : ConfigLaw s) : ConfigLaw t := by
  have f := a.frame
  cases a with
  | policies f safe =>
    obtain ⟨records, safes, loop⟩ := law
    refine ⟨?_, fun g p => by rw [safe]; exact safes g p, ?_⟩
    · unfold RecordLaw State.record
      rwa [f.active, f.staged, f.park, f.deferred]
    · unfold LoopLaw State.record
      rwa [f.active]
  | stages f records =>
    refine law.withStaged f fun x l => ?_
    rcases records x l with same | active | wf
    · rw [same]; exact law.1.2.1 x l
    · rw [active]; exact law.1.1 l
    · exact wf
  | parks f configs =>
    refine law.withPark f fun x g cfg parked => ?_
    rcases configs x g cfg parked with old | rfl
    · exact law.1.2.2.1 x g cfg old
    · intro p
      unfold State.groupConfig
      rw [Table.get_tabulate]
      exact law.1.1 _
  | forgets x => exact law.forget x
  | applies x => exact law.applyDeferred x
  | @defers x gs d parts nonempty sorted holds =>
    have made := law.putDeferred x (some d) fun d' same => by
      rw [← Option.some.inj same, parts]; exact law.stagedParts x gs
    split
    · exact made.applyDeferred x
    · exact made
  | commits x gs holds accepted f staged =>
    have applied := law.replace (asserted s) (law.stagedParts x gs) accepted
    refine applied.withStaged f fun y l => ?_
    rcases staged y l with same | active
    · rw [same]; exact law.1.2.1 y l
    · rw [active]; exact law.1.1 l
  | ticks => exact law.tick
  | safes g was => exact law.replaceSafe g was
  | restores g n cfg was holder parked accepted =>
    have used := usedPark_configs g n s
    have law' := law.withPark (withPark_frame _ s) fun x k cfg' parked' =>
      law.1.2.2.1 x k cfg' (used x k cfg' parked')
    exact law'.replace was (parts := [(g, cfg)]) (starts := false)
      (fun part hp => List.mem_singleton.1 hp ▸ law.1.2.2.1 n g cfg parked) accepted
  | falls g st was state unnamed => exact (law.of_frame (withEntry_frame g _ s)).replaceSafe g was
  | closes g was state => exact (law.of_frame (withEntry_frame g _ s)).replaceSafe g was
  | stores l r isSafe unpaired => exact law.safeStored isSafe
  | clears x => exact law.clear x
  | _ => exact law.of_frame f

theorem configLaw_reset (safe : ∀ g, (s.policy.get g).safe = .fill .reset) (active : s.active = .fill .reset)
    (staged : s.staged = .fill (.fill .reset)) (park : s.park = .fill (.fill none))
    (deferred : s.deferred = .fill none) : ConfigLaw s := by
  unfold ConfigLaw RecordLaw SafeConfigLaw LoopLaw State.record
  simp [safe, active, staged, park, deferred, Record.reset, Record.wfFor, Record.isSafe]

theorem filteredChange_configLaw (l : Line) (lv : Level) (law : ConfigLaw s) :
    ConfigLaw (filteredChange l lv s) := by
  unfold filteredChange
  have changed : ConfigLaw { s with sampler := s.sampler.put l { level := lv, candidate := none } } := law
  have reported := (changed.of_frame (reportEdge_frame l lv _)).of_frame (reportWatchers_frame l lv _)
  refine foldl_invariant _ ConfigLaw (fun t x law' => ?_) _ _
    (reported.of_frame (followSource_frame l _))
  split
  · split
    · exact law'.applyDeferred x
    · exact law'
  · exact law'

theorem takeSample_configLaw (pads : BitVec 32) (order : List Line) (law : ConfigLaw s) :
    ConfigLaw (takeSample pads order s) := by
  refine foldl_invariant _ ConfigLaw (fun t l law' => ?_) _ _ law
  split
  · exact filteredChange_configLaw l _ law'
  · exact law'

theorem Beyonds.configLaw (b : Beyonds s t) (law : ConfigLaw s) : ConfigLaw t := by
  cases b with
  | samples pads order _ => exact takeSample_configLaw pads order law
  | resets _ => exact configLaw_reset (fun g => by simp [deviceResetState, State.reset, Policy.reset]) rfl rfl rfl rfl
  | rises pads _ => exact law

end Sys2Proof.Machine

namespace Sys2Proof.Proofs

open Sys2Proof.Machine

/-- Settles O8: a replacement is checked for loops or falls back to safe records, and no record is made that is
not well-formed. -/
theorem stepKeepsConfigurations : Obligations.StepKeepsConfigurations := fun _ _ law h =>
  step_keeps ConfigLaw (fun a => a.configLaw) (fun b => b.configLaw) h law

end Sys2Proof.Proofs
end

section
/-! PROOF. No two lines of a pair are ever both asserted, and no line of a pair has a STATIC ASSERTED safe
record, act by act (R91, R99). -/

set_option Elab.async false

namespace Sys2Proof.Machine

variable {ps : List Part} {s t u : State} {g : Group} {l m : Line} {p : Proposal}

/-! ### The table and the lines -/

/-- What the law of the interlock table says of the table alone (R90, R99). -/
def PairsLawful (s : State) : Prop :=
  ∀ i p, s.pairs.get i = some p → p.lower < p.higher ∧ (∀ j, s.pairs.get j = some p → j = i) ∧
    safeAsserts s p.lower = false ∧ safeAsserts s p.higher = false

theorem PairsLawful.distinct (h : PairsLawful s) : PairsDistinct s := fun i p hp => by
  obtain ⟨ordered, -⟩ := h i p hp
  exact ne_of_lt ordered

theorem mem_partners_of_pair {i : Fin 8} {p : Pair} (hp : s.pairs.get i = some p) :
    p.higher ∈ partners s p.lower :=
  mem_partners.2 ⟨i, p, hp, if_pos rfl⟩

theorem pairLaw_iff : PairLaw s ↔ PairsLawful s ∧ Exclusive s := by
  refine ⟨fun law => ⟨fun i p hp => ?_, law.exclusive⟩, fun ⟨table, exclusive⟩ i p hp => ?_⟩
  · obtain ⟨ordered, single, safe, -⟩ := law i p hp
    exact ⟨ordered, single, safe⟩
  · obtain ⟨ordered, single, safe⟩ := table i p hp
    exact ⟨ordered, single, safe, (exclusive _ _ (mem_partners_of_pair hp)).2⟩

theorem safeAsserts_congr (h : ∀ g, (t.policy.get g).safe = (s.policy.get g).safe) (l : Line) :
    safeAsserts t l = safeAsserts s l := by
  unfold safeAsserts
  rw [h]

theorem PairsLawful.of_same (h : PairsLawful s) (pairs : t.pairs = s.pairs)
    (safe : ∀ l, safeAsserts t l = safeAsserts s l) : PairsLawful t := by
  intro i p hp
  rw [safe, safe]
  rw [pairs] at hp ⊢
  exact h i p hp

theorem PairsLawful.of_frame (h : PairsLawful s) (f : SameExcept ps s t)
    (pairs : Part.pairs ∉ ps := by decide) (policy : Part.policy ∉ ps := by decide) : PairsLawful t :=
  h.of_same (f.pairs pairs) (safeAsserts_congr fun g => by rw [f.policy policy])

/-- Where fewer lines are asserted, and no more pairs stand, the lines of pairs still exclude each other. -/
theorem Exclusive.of_fewer (h : Exclusive t) (pairs : ∀ a b, b ∈ partners s a → b ∈ partners t a)
    (fewer : ∀ l, asserted s l = true → asserted t l = true) : Exclusive s := by
  intro a b hb
  obtain ⟨ne, apart⟩ := h a b (pairs a b hb)
  exact ⟨ne, fun ⟨ha, hb⟩ => apart ⟨fewer a ha, fewer b hb⟩⟩

/-! ### Replacements -/

theorem Proposal.conflict_eq_none : p.conflict s = none ↔ ∀ i q, s.pairs.get i = some q →
    ¬ (p.immediate s q.lower = true ∧ p.immediate s q.higher = true) := by
  unfold Proposal.conflict
  rw [(pairList_find s _).2]
  simp

/-- An accepted replacement, reported against any earlier assertion (R92, R98). -/
theorem Exclusive.replaced (was : Line → Bool) (distinct : PairsDistinct s) (free : p.conflict s = none) :
    Exclusive (p.apply was s) := by
  have applied := Exclusive.apply p distinct free
  unfold Proposal.apply at applied ⊢
  obtain ⟨reported, -⟩ := reportDeassertions_reports (asserted s) (p.startMirrors (p.place (p.reportCuts s)))
  refine Exclusive.reportDeassertions (applied.of_fewer (fun a b hb => ?_) fun l on => ?_) was
  · rwa [reported.frame.partners]
  · exact reported.asserted on

/-- A group's safe configuration asserts no line of a pair (R99). -/
theorem safe_conflict_none (table : PairsLawful s) (safe : SafeConfigLaw s) (exclusive : Exclusive s)
    (g : Group) (starts : Bool) :
    (Proposal.of s [(g, (s.policy.get g).safe)] starts).conflict s = none := by
  have outside : ∀ l, safeAsserts s l = false →
      (Proposal.of s [(g, (s.policy.get g).safe)] starts).immediate s l = true → asserted s l = true := by
    intro l quiet on
    unfold Proposal.immediate at on
    split at on
    · next named =>
      obtain ⟨part, hp, group, result⟩ := Proposal.of_result_named named
      rw [List.mem_singleton] at hp
      subst hp
      dsimp only at group result
      rw [result, group] at on
      unfold safeAsserts at quiet
      rcases Record.isSafe_cases (safe (groupOf l) (positionOf l)) with fn | ⟨a, fn⟩
      · rw [fn] at on; cases on
      · rw [fn] at on quiet
        rw [show a = true from on] at quiet
        cases quiet
    · exact on
  rw [Proposal.conflict_eq_none]
  rintro i q hq ⟨lower, higher⟩
  obtain ⟨-, -, quietLower, quietHigher⟩ := table i q hq
  exact (exclusive _ _ (mem_partners_of_pair hq)).2
    ⟨outside _ quietLower lower, outside _ quietHigher higher⟩

theorem Exclusive.replaceSafe (exclusive : Exclusive s) (table : PairsLawful s) (safe : SafeConfigLaw s)
    (g : Group) (was : Line → Bool) : Exclusive (replaceGroup g (s.policy.get g).safe was s) :=
  Exclusive.replaced was table.distinct (safe_conflict_none table safe exclusive g false)

/-- Cutting a pulse asserts nothing. -/
theorem Exclusive.cut (h : Exclusive s) (l : Line) :
    Exclusive (s.withDriver l fun d => { d with pulse := none }) := by
  have f := withDriver_frame l (fun d => { d with pulse := none }) s
  refine h.step f.mono l (fun k ne => State.withDriver_driver_ne s _ ne) fun on => .inl ?_
  unfold asserted at on ⊢
  rw [f.record, State.withDriver_driver_self] at on
  split at on
  · cases on
  · exact on
  · cases on
  · exact on

theorem asserted_passPulseUnit (s : State) (l : Line) : asserted (passPulseUnit s) l = asserted s l := by
  have driver : (passPulseUnit s).driver l =
      { s.driver l with pulse := (s.driver l).pulse.map countDown } := Table.get_tabulate _ l
  unfold asserted
  rw [(passPulseUnit_frame s).record, driver]
  simp only [Option.isSome_map]

/-! ### The interlock table -/

theorem Pair.of_cases {a b : Line} (h : a ≠ b) :
    (Pair.of a b = ⟨a, b⟩ ∧ a < b) ∨ (Pair.of a b = ⟨b, a⟩ ∧ b < a) := by
  unfold Pair.of
  split
  · next le => exact .inl ⟨rfl, lt_of_le_of_ne le h⟩
  · next gt => exact .inr ⟨rfl, not_le.1 gt⟩

theorem PairLaw.put {i : Fin 8} {a b : Line} (law : PairLaw s) (distinct : a ≠ b)
    (single : duplicateIndex s i (Pair.of a b) = none)
    (apart : (asserted s a && asserted s b) = false)
    (safe : (safeAsserts s a || safeAsserts s b) = false) :
    PairLaw { s with pairs := s.pairs.put i (some (Pair.of a b)) } := by
  have others : ∀ j, j ≠ i → s.pairs.get j ≠ some (Pair.of a b) := by
    unfold duplicateIndex at single
    rw [(pairList_find s _).2] at single
    intro j ne same
    exact single j ⟨_, same, by simpa using ne⟩
  intro j p hp
  dsimp only at hp
  rw [Table.get_put] at hp
  dsimp only
  split at hp
  · next here =>
    subst here
    rw [← Option.some.inj hp]
    rw [Bool.or_eq_false_iff] at safe
    refine ⟨?_, fun k hk => ?_, ?_, ?_⟩
    · rcases Pair.of_cases distinct with ⟨e, lt⟩ | ⟨e, lt⟩ <;> rw [e] <;> exact lt
    · rw [Table.get_put] at hk
      by_cases here : i = k
      · exact here.symm
      · rw [if_neg here] at hk
        exact absurd hk (others k (Ne.symm here))
    · rcases Pair.of_cases distinct with ⟨e, -⟩ | ⟨e, -⟩ <;> rw [e]
      · exact safe
      · exact safe.symm
    · rintro ⟨lower, higher⟩
      rcases Pair.of_cases distinct with ⟨e, -⟩ | ⟨e, -⟩ <;> rw [e] at lower higher <;>
        rw [show asserted s a = true by assumption, show asserted s b = true by assumption] at apart <;>
        cases apart
  · next there =>
    obtain ⟨ordered, single', rest⟩ := law j p hp
    refine ⟨ordered, fun k hk => ?_, rest⟩
    rw [Table.get_put] at hk
    split at hk
    · exact absurd (hp.trans hk.symm) (others j (Ne.symm there))
    · exact single' k hk

theorem PairLaw.erase (law : PairLaw s) (i : Fin 8) :
    PairLaw { s with pairs := s.pairs.put i none } := by
  have old : ∀ j p, (s.pairs.put i none).get j = some p → s.pairs.get j = some p := by
    intro j p hp
    rw [Table.get_put] at hp
    split at hp
    · cases hp
    · exact hp
  intro j p hp
  obtain ⟨ordered, single, rest⟩ := law j p (old j p hp)
  exact ⟨ordered, fun k hk => single k (old k p hk), rest⟩

/-! ### Safe records -/

theorem storeSafe_get (l : Line) (r : Record) (s : State) (m : Line) :
    ((storeSafe l r s).policy.get (groupOf m)).safe.get (positionOf m) =
      if m = l then r else (s.policy.get (groupOf m)).safe.get (positionOf m) := by
  unfold storeSafe State.withPolicy
  rw [Table.get_modify]
  by_cases here : m = l
  · subst here
    rw [if_pos rfl, if_pos rfl, Table.get_put_self]
  · rw [if_neg here]
    split
    · next group =>
      rw [← group, Table.get_put_ne _ _ ?_]
      intro position
      exact here (by rw [← lineOf_groupOf m, ← group, position, lineOf_groupOf])
    · rfl

theorem safeAsserts_storeSafe (l : Line) (r : Record) (s : State) (m : Line) :
    safeAsserts (storeSafe l r s) m = if m = l then r.function == .static true else safeAsserts s m := by
  unfold safeAsserts
  rw [storeSafe_get]
  split <;> rfl

theorem partners_of_pairIndexOf_none (h : pairIndexOf s l = none) : partners s l = [] := by
  unfold pairIndexOf at h
  rw [(pairList_find s _).2] at h
  rw [List.eq_nil_iff_forall_not_mem]
  intro m hm
  obtain ⟨i, p, hp, hm⟩ := mem_partners.1 hm
  exact h i ⟨p, hp, by rw [hm]; rfl⟩

theorem PairLaw.safeStored {r : Record} (law : PairLaw s) (isSafe : r.isSafe)
    (unpaired : r.function = .static true → pairIndexOf s l = none) : PairLaw (safeStored l r s) := by
  have free : r.function = .static true → partners s l = [] := fun static =>
    partners_of_pairIndexOf_none (unpaired static)
  have f := safeStored_frame l r s
  have safe : ∀ m, safeAsserts (Machine.safeStored l r s) m =
      if m = l then r.function == .static true else safeAsserts s m := by
    intro m
    rw [← safeAsserts_storeSafe]
    unfold Machine.safeStored
    split <;> rfl
  have on : ∀ m, asserted (Machine.safeStored l r s) m = true →
      asserted s m = true ∨ m = l ∧ r.function = .static true := by
    intro m on
    unfold Machine.safeStored at on
    split at on
    · by_cases here : m = l
      · subst here
        refine .inr ⟨rfl, ?_⟩
        unfold asserted State.record at on
        dsimp only at on
        rw [Table.get_put_self] at on
        rcases Record.isSafe_cases isSafe with fn | ⟨a, fn⟩
        · rw [fn] at on; cases on
        · rw [fn] at on ⊢; rw [show a = true from on]
      · refine .inl (on ▸ (asserted_of_driver ?_ ?_).symm)
        · simp [State.record, here]
        · simp [State.driver, here]
    · exact .inl on
  obtain ⟨table, exclusive⟩ := pairLaw_iff.1 law
  refine pairLaw_iff.2 ⟨fun i p hp => ?_, fun a b hb => ?_⟩
  · rw [f.pairs] at hp ⊢
    obtain ⟨ordered, single, lower, higher⟩ := table i p hp
    have member := mem_partners_of_pair hp
    refine ⟨ordered, single, ?_, ?_⟩
    · rw [safe]
      split
      · next here =>
        refine beq_eq_false_iff_ne.2 fun static => ?_
        rw [here, free static] at member
        cases member
      · exact lower
    · rw [safe]
      split
      · next here =>
        refine beq_eq_false_iff_ne.2 fun static => ?_
        have member := partners_symm member
        rw [here, free static] at member
        cases member
      · exact higher
  · rw [f.partners] at hb
    obtain ⟨ne, apart⟩ := exclusive a b hb
    refine ⟨ne, fun ⟨onA, onB⟩ => ?_⟩
    rcases on a onA with onA | ⟨rfl, static⟩
    · rcases on b onB with onB | ⟨rfl, static⟩
      · exact apart ⟨onA, onB⟩
      · have hb := partners_symm hb
        rw [free static] at hb
        cases hb
    · rw [free static] at hb
      cases hb

/-! ### Every act -/

theorem PairLaw.of_frame (law : PairLaw s) (f : SameExcept ps s t)
    (pairs : Part.pairs ∉ ps := by decide) (policy : Part.policy ∉ ps := by decide)
    (active : Part.active ∉ ps := by decide) (drivers : Part.drivers ∉ ps := by decide) : PairLaw t := by
  obtain ⟨table, exclusive⟩ := pairLaw_iff.1 law
  exact pairLaw_iff.2 ⟨table.of_frame f pairs policy, exclusive.frame f active drivers pairs⟩

theorem SafeConfigLaw.of_frame (law : SafeConfigLaw s) (f : SameExcept ps s t)
    (policy : Part.policy ∉ ps := by decide) : SafeConfigLaw t := by
  unfold SafeConfigLaw
  rwa [f.policy policy]

theorem Act.safeConfigLaw (a : Act s ps t) (law : SafeConfigLaw s) : SafeConfigLaw t := by
  have f := a.frame
  cases a with
  | policies f safe => exact fun g p => by rw [safe]; exact law g p
  | stores l r isSafe unpaired => exact safeStored_safeConfigLaw law isSafe
  | _ => exact law.of_frame f

theorem Act.pairLaw (a : Act s ps t) (safe : SafeConfigLaw s) (law : PairLaw s) : PairLaw t := by
  have f := a.frame
  obtain ⟨table, exclusive⟩ := pairLaw_iff.1 law
  cases a with
  | policies f same =>
    exact pairLaw_iff.2 ⟨table.of_same f.pairs (safeAsserts_congr same), exclusive.frame f⟩
  | applies x =>
    exact pairLaw_iff.2 ⟨table.of_frame f, exclusive.applyDeferred table.distinct x⟩
  | @defers x gs d parts nonempty sorted holds =>
    have made := withDeferred_frame (s.deferred.put x (some d)) s
    refine pairLaw_iff.2 ⟨table.of_frame f, ?_⟩
    split
    · exact (exclusive.frame made).applyDeferred (table.of_frame made).distinct x
    · exact exclusive.frame made
  | commits x gs holds accepted kept staged =>
    have free := (judge_accepted_iff.1 accepted).2
    exact pairLaw_iff.2 ⟨table.of_frame f, (Exclusive.replaced _ table.distinct free).frame kept⟩
  | unit =>
    refine pairLaw_iff.2 ⟨table.of_frame f, exclusive.of_fewer (fun a b hb => ?_) fun l on => ?_⟩
    · rwa [f.partners] at hb
    · rwa [asserted_passPulseUnit] at on
  | safes g was =>
    exact pairLaw_iff.2 ⟨table.of_frame f, exclusive.replaceSafe table safe g was⟩
  | restores g n cfg was holder parked accepted =>
    have used := withPark_frame (s.park.modify n fun t => t.put g none) s
    have free := (judge_accepted_iff.1 accepted).2
    exact pairLaw_iff.2 ⟨table.of_frame f,
      Exclusive.replaced (p := Proposal.of s [(g, cfg)] false) was (table.of_frame used).distinct free⟩
  | falls g st was state unnamed =>
    have entry := withEntry_frame g (·.vacated st) s
    exact pairLaw_iff.2 ⟨table.of_frame f,
      (exclusive.frame entry).replaceSafe (table.of_frame entry) (safe.of_frame entry) g was⟩
  | closes g was state =>
    have entry := withEntry_frame g (·.vacated .withheld) s
    exact pairLaw_iff.2 ⟨table.of_frame f,
      (exclusive.frame entry).replaceSafe (table.of_frame entry) (safe.of_frame entry) g was⟩
  | cuts l => exact pairLaw_iff.2 ⟨table.of_frame f, exclusive.cut l⟩
  | frees m => exact pairLaw_iff.2 ⟨table.of_frame f, exclusive.reevaluateMirror m⟩
  | pairs i a b distinct single apart quiet => exact law.put distinct single apart quiet
  | unpairs i => exact law.erase i
  | stores l r isSafe unpaired => exact law.safeStored isSafe unpaired
  | _ => exact law.of_frame f

/-! ### Samples -/

theorem Exclusive.filteredChange (h : Exclusive s) (distinct : PairsDistinct s) (l : Line) (lv : Level) :
    Exclusive (filteredChange l lv s) := by
  unfold Machine.filteredChange
  have changed := withSampler_frame (s.sampler.put l { level := lv, candidate := none }) s
  have edge := reportEdge_frame l lv { s with sampler := s.sampler.put l { level := lv, candidate := none } }
  have watchers := reportWatchers_frame l lv (reportEdge l lv
    { s with sampler := s.sampler.put l { level := lv, candidate := none } })
  have follows := followSource_frame l (reportWatchers l lv (reportEdge l lv
    { s with sampler := s.sampler.put l { level := lv, candidate := none } }))
  have distinct' : PairsDistinct (followSource l (reportWatchers l lv (reportEdge l lv
      { s with sampler := s.sampler.put l { level := lv, candidate := none } }))) := by
    unfold PairsDistinct
    rwa [follows.pairs, watchers.pairs, edge.pairs]
  have exclusive : Exclusive (followSource l (reportWatchers l lv (reportEdge l lv
      { s with sampler := s.sampler.put l { level := lv, candidate := none } }))) := by
    rw [followSource_eq]
    refine Exclusive.reportDeassertions ?_ _
    exact foldl_invariant _ Exclusive (fun t m h => h.turn l m) _ _
      (((h.frame changed).frame edge).frame watchers)
  refine (foldl_invariant _ (fun u => Exclusive u ∧ PairsDistinct u) (fun t x ⟨h, d⟩ => ?_) _ _
    ⟨exclusive, distinct'⟩).1
  split
  · split
    · refine ⟨h.applyDeferred d x, ?_⟩
      unfold PairsDistinct
      rwa [(applyDeferred_frame x t).pairs]
    · exact ⟨h, d⟩
  · exact ⟨h, d⟩

theorem PairLaw.takeSample (law : PairLaw s) (pads : BitVec 32) (order : List Line) :
    PairLaw (takeSample pads order s) := by
  have filtered : ∀ u l lv, PairLaw u → PairLaw (filteredChange l lv u) := by
    intro u l lv law
    obtain ⟨table, exclusive⟩ := pairLaw_iff.1 law
    exact pairLaw_iff.2 ⟨table.of_frame (filteredChange_frame l lv u),
      exclusive.filteredChange table.distinct l lv⟩
  refine foldl_invariant _ PairLaw (fun t l law => ?_) _ _
    (law.of_frame (withSampler_frame (.tabulate fun l => ((judgeSamples pads s).get l).1) s))
  split
  · exact filtered t l _ law
  · exact law

theorem Beyonds.pairLaw (b : Beyonds s t) (law : PairLaw s) : PairLaw t := by
  cases b with
  | samples pads order _ => exact law.takeSample pads order
  | resets _ =>
    intro i p hp
    have : (deviceResetState s).pairs.get i = none := Table.get_fill _ i
    rw [this] at hp
    cases hp
  | rises pads _ => exact law

theorem Beyonds.safeConfigLaw (b : Beyonds s t) (law : SafeConfigLaw s) : SafeConfigLaw t := by
  cases b with
  | samples pads order _ => exact law.of_frame (takeSample_frame pads order s)
  | resets _ =>
    intro g p
    simp [deviceResetState, State.reset, Policy.reset, Record.reset, Record.isSafe]
  | rises pads _ => exact law

end Sys2Proof.Machine

namespace Sys2Proof.Proofs

open Sys2Proof.Machine

/-- Settles O9: a replacement is checked against the pairs, or is one by safe records, which no line of a pair
asserts; a held mirror resumes only where no partner is asserted. -/
theorem stepKeepsInterlocks : Obligations.StepKeepsInterlocks := fun _ _ safe law h =>
  step_keeps (fun s => SafeConfigLaw s ∧ PairLaw s)
    (fun a laws => ⟨a.safeConfigLaw laws.1, a.pairLaw laws.1 laws.2⟩)
    (fun b laws => ⟨b.safeConfigLaw laws.1, b.pairLaw laws.2⟩) h ⟨safe, law⟩

end Sys2Proof.Proofs
end

section
/-! PROOF. Every queue holds at most 32 entries and a full one ends with OVERFLOW, act by act (R149, R152,
R160). -/

set_option Elab.async false

namespace Sys2Proof.Machine

variable {ps : List Part} {s t : State}

theorem QueueLaw.of_queues (law : QueueLaw s) (h : t.queues = s.queues) : QueueLaw t := by
  unfold QueueLaw
  rwa [h]

theorem QueueLaw.append (law : QueueLaw s) (x : Client) (e : Event) : QueueLaw (append x e s) := by
  unfold Machine.append
  split
  · exact law
  · intro y
    dsimp only
    rw [PerClient.get_modify]
    split
    · exact ⟨enqueue_length_le (law y).1 e s.ms, enqueue_full e s.ms (law y).2⟩
    · exact law y

theorem QueueLaw.appendHolder (law : QueueLaw s) (g : Group) (e : Event) :
    QueueLaw (appendHolder g e s) := by
  unfold Machine.appendHolder
  split
  · exact law.append _ e
  · exact law

theorem QueueLaw.notifyWatchers (law : QueueLaw s) (g : Group) : QueueLaw (notifyWatchers g s) := by
  refine foldl_invariant _ QueueLaw (fun t x law => ?_) _ _ law
  split
  · exact law.append _ _
  · exact law

theorem QueueLaw.withDriver (law : QueueLaw s) (l : Line) (f : Driver → Driver) :
    QueueLaw (s.withDriver l f) := law

theorem QueueLaw.reevaluateMirror (law : QueueLaw s) (m : Line) : QueueLaw (reevaluateMirror m s) := by
  unfold Machine.reevaluateMirror
  split
  · split
    · exact law
    · exact (law.withDriver m _).appendHolder _ _
  · exact law

theorem QueueLaw.reportDeassertions (law : QueueLaw s) (was : Line → Bool) :
    QueueLaw (reportDeassertions was s) := by
  refine foldl_invariant _ QueueLaw (fun t l law => ?_) _ _ law
  split
  · refine foldl_invariant _ QueueLaw (fun t m law => ?_) _ _ law
    split
    · exact law.reevaluateMirror m
    · exact law
  · exact law

theorem QueueLaw.startMirror (law : QueueLaw s) (l : Line) : QueueLaw (startMirror l s) := by
  unfold Machine.startMirror
  split
  · split
    · split
      · exact (law.withDriver l _).appendHolder _ _
      · exact law.withDriver l _
    · exact law
  · exact law

theorem QueueLaw.apply (law : QueueLaw s) (p : Proposal) (was : Line → Bool) :
    QueueLaw (p.apply was s) := by
  have cut : QueueLaw (p.reportCuts s) := by
    refine foldl_invariant _ QueueLaw (fun t l law => ?_) _ _ law
    split
    · split
      · exact law
      · exact law.appendHolder _ _
    · exact law
  refine QueueLaw.reportDeassertions ?_ was
  refine foldl_invariant _ QueueLaw (fun t l law => ?_) _ _ (cut.of_queues (place_frame p _).queues)
  split
  · exact law.startMirror l
  · exact law

theorem QueueLaw.replaceGroup (law : QueueLaw s) (g : Group) (cfg : GroupConfig) (was : Line → Bool) :
    QueueLaw (replaceGroup g cfg was s) := law.apply _ was

theorem QueueLaw.reevaluate (law : QueueLaw s) (g : Group) : QueueLaw (reevaluate g s) := by
  unfold Machine.reevaluate
  split
  · exact QueueLaw.notifyWatchers (QueueLaw.appendHolder (law.of_queues (withEntry_frame g _ s).queues) g _) g
  · exact law

theorem QueueLaw.applyDeferred (law : QueueLaw s) (x : Client) : QueueLaw (applyDeferred x s) :=
  applyDeferred_keeps QueueLaw law
    (fun e => QueueLaw.append (law.of_queues (withDeferred_frame _ s).queues) x e)
    fun _ _ _ _ law' _ => law'.apply _ _

theorem Act.queueLaw (a : Act s ps t) (law : QueueLaw s) : QueueLaw t := by
  have f := a.frame
  cases a with
  | sends x e => exact law.append x e
  | pops x =>
    intro y
    dsimp only
    rw [PerClient.get_modify]
    split
    · have short := (law y).1
      rw [List.length_tail]
      exact ⟨by omega, fun full => by omega⟩
    · exact law y
  | applies x => exact law.applyDeferred x
  | @defers x gs d parts nonempty sorted holds =>
    have made : QueueLaw { s with deferred := s.deferred.put x (some d) } := law
    split
    · exact made.applyDeferred x
    · exact made
  | commits x gs holds accepted kept staged => exact (law.apply _ _).of_queues kept.queues
  | safes g was => exact law.replaceGroup g _ was
  | restores g n cfg was holder parked accepted =>
    exact QueueLaw.replaceGroup (law.of_queues (withPark_frame _ s).queues) g cfg was
  | withdraws g x => exact QueueLaw.reevaluate (law.of_queues (dropClaim_frame g x s).queues) g
  | bars g x e =>
    exact QueueLaw.reevaluate (QueueLaw.append (law.of_queues (dropClaim_frame g x s).queues) x e) g
  | falls g st was state unnamed =>
    exact QueueLaw.replaceGroup (law.of_queues (withEntry_frame g _ s).queues) g _ was
  | closes g was state =>
    exact QueueLaw.replaceGroup (law.of_queues (withEntry_frame g _ s).queues) g _ was
  | frees m => exact law.reevaluateMirror m
  | clears x =>
    intro y
    unfold resetClientState
    dsimp only
    rw [PerClient.get_put]
    split
    · simp
    · exact law y
  | _ => exact law.of_queues f.queues

/-! ### Samples and device reset -/

theorem QueueLaw.turn (law : QueueLaw s) (l m : Line) : QueueLaw (turn l s m) := by
  unfold Machine.turn
  split
  · split
    · unfold followMirror
      split
      · split
        · exact (law.withDriver m _).appendHolder _ _
        · exact law.withDriver m _
      · exact law.withDriver m _
      · exact (law.withDriver m _).appendHolder _ _
      · exact law
    · exact law
  · exact law

theorem QueueLaw.filteredChange (law : QueueLaw s) (l : Line) (lv : Level) :
    QueueLaw (filteredChange l lv s) := by
  unfold Machine.filteredChange
  have changed : QueueLaw { s with sampler := s.sampler.put l { level := lv, candidate := none } } := law
  have edge : QueueLaw (reportEdge l lv
      { s with sampler := s.sampler.put l { level := lv, candidate := none } }) := by
    unfold reportEdge
    split
    · exact changed.appendHolder _ _
    · exact changed
  have watchers : QueueLaw (reportWatchers l lv (reportEdge l lv
      { s with sampler := s.sampler.put l { level := lv, candidate := none } })) := by
    refine foldl_invariant _ QueueLaw (fun t x law => ?_) _ _ edge
    split
    · split
      · exact law.append _ _
      · exact law
    · exact law
  refine foldl_invariant _ QueueLaw (fun t x law => ?_) _ _ ?_
  · split
    · split
      · exact law.applyDeferred x
      · exact law
    · exact law
  · rw [followSource_eq]
    exact QueueLaw.reportDeassertions
      (foldl_invariant _ QueueLaw (fun t m law => law.turn l m) _ _ watchers) _

theorem Beyonds.queueLaw (b : Beyonds s t) (law : QueueLaw s) : QueueLaw t := by
  cases b with
  | samples pads order _ =>
    refine foldl_invariant _ QueueLaw (fun t l law => ?_) _ _ law
    split
    · exact law.filteredChange l _
    · exact law
  | resets _ =>
    intro x
    have : (deviceResetState s).queues.get x = [] := PerClient.get_fill _ x
    simp [this]
  | rises pads _ => exact law

end Sys2Proof.Machine
end

section
/-! PROOF. The holders of the groups: what a re-evaluation and a change of one entry leave of them, and that every
step keeps the pending commits at groups that their clients hold (R134). -/

set_option Elab.async false

namespace Sys2Proof.Machine

variable {ps : List Part} {s t u : State} {g : Group} {l : Line} {x : Client}

/-! ### The lease entries -/

/-- After a claim has left a list, with any events, the re-evaluation leaves every holder, and every group at
its safe configuration or not. -/
theorem reevaluated_spec (x : Client) (f : SameExcept [.queues] (dropClaim g x s) u) (k : Group) :
    (reevaluate g u).holder k = s.holder k ∧ atSafe (reevaluate g u) k = atSafe s k := by
  have entry : (u.entry k).holder = (s.entry k).holder ∧ (u.entry k).state = (s.entry k).state := by
    rw [f.entry]
    unfold dropClaim
    by_cases here : k = g
    · subst here; rw [State.withEntry_entry_self]; exact ⟨rfl, rfl⟩
    · rw [State.withEntry_entry_ne _ _ here]; exact ⟨rfl, rfl⟩
  have spec := reevaluate_spec g u
  unfold State.holder atSafe
  rw [← entry.1, ← entry.2]
  split at spec
  · next revoking =>
    obtain ⟨cancelled, -, others, -⟩ := spec
    by_cases here : k = g
    · subst here
      rw [cancelled, revoking.1]
      exact ⟨rfl, rfl⟩
    · rw [others k here]; exact ⟨rfl, rfl⟩
  · rw [spec]; exact ⟨rfl, rfl⟩

/-- A group with a holder is not at its safe configuration. -/
theorem LeaseLaw.not_atSafe (law : LeaseLaw s) (holder : (s.holder g).isSome = true) :
    atSafe s g = false := by
  have state := (law g).1.1.1 holder
  unfold atSafe
  rcases state with h | h <;> rw [h] <;> rfl

theorem LeaseLaw.no_holder (law : LeaseLaw s) (h : atSafe s g = true) : s.holder g = none := by
  rw [← Option.not_isSome_iff_eq_none]
  intro holder
  rw [law.not_atSafe holder] at h
  cases h

theorem holdsAll_holder {x : Client} {gs : List Group} (holds : s.holdsAll x gs = true) (hg : g ∈ gs) :
    s.holder g = some x := by
  simpa using List.all_eq_true.1 holds g hg

theorem stagedProposal_mem {x : Client} {gs : List Group}
    (hn : (stagedProposal x gs s).named (groupOf l) = true) : groupOf l ∈ gs := by
  unfold stagedProposal at hn
  rw [stagedProposal_named] at hn
  exact of_decide_eq_true hn

/-- Only the entry of one group changes, and it has a holder after. -/
theorem withEntry_holders (f : LeaseEntry → LeaseEntry) (k : Group)
    (this : (s.holder g).isSome = true → (f (s.entry g)).holder.isSome = true)
    (h : (s.holder k).isSome = true) : ((s.withEntry g f).holder k).isSome = true := by
  unfold State.holder at h ⊢
  by_cases here : k = g
  · subst here; rw [State.withEntry_entry_self]; exact this h
  · rwa [State.withEntry_entry_ne _ _ here]

/-! ### Pending commits -/

theorem applyDeferred_deferred (x : Client) (s : State) :
    (applyDeferred x s).deferred = s.deferred.put x none := by
  cases record : s.deferred.get x with
  | none => rw [applyDeferred_none record, ← record, PerClient.put_get_self]
  | some d =>
    obtain ⟨e, v, hv, unchanged | ⟨-, applied⟩⟩ := applyDeferred_cases record
    · rw [unchanged, hv, (append_frame x e _).deferred]
    · rw [applied, (apply_frame _ _ v).deferred, hv, (append_frame x e _).deferred]

theorem forgotten_deferred {y : Client} {d : Deferred} (h : (s.deferred.put x none).get y = some d) :
    s.deferred.get y = some d := by
  rw [PerClient.get_put] at h
  split at h
  · cases h
  · exact h

/-- The pending commits after are some of those before, and their groups keep their holders. -/
theorem DeferredLaw.of_fewer (law : DeferredLaw s)
    (fewer : ∀ x d, t.deferred.get x = some d →
      ∃ d', s.deferred.get x = some d' ∧ d'.parts = d.parts)
    (holders : ∀ x d, t.deferred.get x = some d → ∀ part ∈ d.parts,
      s.holder part.1 = some x → t.holder part.1 = some x) : DeferredLaw t := by
  intro x d record
  obtain ⟨d', record', parts⟩ := fewer x d record
  obtain ⟨nonempty, sorted, holds⟩ := law x d' record'
  rw [parts] at nonempty sorted holds
  exact ⟨nonempty, sorted, fun part hp => holders x d record part hp (holds part hp)⟩

theorem DeferredLaw.of_frame (law : DeferredLaw s) (f : SameExcept ps s t)
    (lease : Part.lease ∉ ps := by decide) (deferred : Part.deferred ∉ ps := by decide) : DeferredLaw t := by
  intro x d record
  rw [f.deferred deferred] at record
  obtain ⟨nonempty, sorted, holds⟩ := law x d record
  exact ⟨nonempty, sorted, fun part hp => by rw [f.holder _ lease]; exact holds part hp⟩

/-- A holder changes only at a group that no pending commit names. -/
theorem DeferredLaw.of_holders (law : DeferredLaw s) (deferred : t.deferred = s.deferred)
    (holders : ∀ k, t.holder k = s.holder k ∨
      ∀ x d, s.deferred.get x = some d → ∀ part ∈ d.parts, part.1 ≠ k) : DeferredLaw t := by
  refine law.of_fewer (fun x d record => ⟨d, deferred ▸ record, rfl⟩) fun x d record part hp holder => ?_
  rcases holders part.1 with same | unnamed
  · rw [same]; exact holder
  · exact absurd rfl (unnamed x d (deferred ▸ record) part hp)

theorem DeferredLaw.withEntry (law : DeferredLaw s) (f : LeaseEntry → LeaseEntry)
    (this : (f (s.entry g)).holder = s.holder g ∨
      ∀ x d, s.deferred.get x = some d → ∀ part ∈ d.parts, part.1 ≠ g) : DeferredLaw (s.withEntry g f) := by
  refine law.of_holders (withEntry_frame g f s).deferred fun k => ?_
  by_cases here : k = g
  · subst here
    unfold State.holder
    rw [State.withEntry_entry_self]
    exact this
  · exact .inl (withEntry_other f s here)

/-- No pending commit names a group without a holder. -/
theorem DeferredLaw.unnamed_of_none (law : DeferredLaw s) (holder : s.holder g = none) :
    ∀ x d, s.deferred.get x = some d → ∀ part ∈ d.parts, part.1 ≠ g := by
  rintro x d record part hp rfl
  rw [(law x d record).2.2 part hp] at holder
  cases holder

theorem DeferredLaw.unnamed (law : DeferredLaw s) (unnamed : Unnamed s g) :
    ∀ x d, s.deferred.get x = some d → ∀ part ∈ d.parts, part.1 ≠ g := by
  rintro x d record part hp rfl
  have := unnamed x d ((law x d record).2.2 part hp) record
  exact Bool.eq_false_iff.1 this (List.any_eq_true.2 ⟨part, hp, beq_self_eq_true _⟩)

theorem DeferredLaw.forget (law : DeferredLaw s) (h : t.deferred = s.deferred.put x none)
    (lease : t.lease = s.lease) : DeferredLaw t :=
  law.of_fewer (fun y d record => ⟨d, forgotten_deferred (h ▸ record), rfl⟩)
    fun _ _ _ part _ holder => by unfold State.holder State.entry at holder ⊢; rwa [lease]

theorem DeferredLaw.applyDeferred (law : DeferredLaw s) (x : Client) : DeferredLaw (applyDeferred x s) :=
  law.forget (applyDeferred_deferred x s) (applyDeferred_frame x s).lease

/-- A new pending commit names groups that its client holds (R136). -/
theorem DeferredLaw.make (law : DeferredLaw s) {gs : List Group} {d : Deferred}
    (parts : d.parts = gs.map fun g => (g, stagedConfig s x g)) (nonempty : gs ≠ [])
    (sorted : gs.Pairwise (· < ·)) (holds : s.holdsAll x gs = true) :
    DeferredLaw { s with deferred := s.deferred.put x (some d) } := by
  intro y d' record
  dsimp only at record
  rw [PerClient.get_put] at record
  split at record
  · next here =>
    subst here
    cases record
    rw [parts]
    refine ⟨by simpa using nonempty, ?_, fun part hp => ?_⟩
    · rwa [List.map_map, show (Prod.fst ∘ fun g => (g, stagedConfig s x g)) = id from rfl, List.map_id]
    · obtain ⟨g, hg, rfl⟩ := List.mem_map.1 hp
      exact holdsAll_holder holds hg
  · exact law y d' record

theorem LeaseLaw.no_holder_of_safe (law : LeaseLaw s) (state : (s.entry g).state = .safe) :
    s.holder g = none :=
  law.no_holder (by unfold atSafe; rw [state]; rfl)

theorem Act.deferredLaw (a : Act s ps t) (lease : LeaseLaw s) (law : DeferredLaw s) : DeferredLaw t := by
  have f := a.frame
  cases a with
  | forgets x => exact law.forget rfl rfl
  | applies x => exact law.applyDeferred x
  | defers x gs parts nonempty sorted holds =>
    have made := law.make parts nonempty sorted holds
    split
    · exact made.applyDeferred x
    · exact made
  | ticks =>
    refine law.of_fewer (fun x d record => ?_) fun x d _ part _ holder => ?_
    · unfold passMillisecond at record
      dsimp only at record
      rw [PerClient.get_tabulate] at record
      obtain ⟨d', record', rfl⟩ := Option.map_eq_some_iff.1 record
      exact ⟨d', record', rfl⟩
    · unfold passMillisecond State.holder State.entry
      rw [Table.get_tabulate]
      exact holder
  | waits g | starts g | renews g | opens g => exact law.withEntry _ (.inl rfl)
  | takes g x prio state => exact law.withEntry _ (.inr (law.unnamed_of_none (lease.no_holder_of_safe state)))
  | hands g h c rest holder unnamed => exact law.withEntry _ (.inr (law.unnamed unnamed))
  | withdraws g x =>
    exact law.of_holders f.deferred fun k => .inl (reevaluated_spec x (.refl _ _) k).1
  | bars g x e =>
    exact law.of_holders f.deferred fun k => .inl (reevaluated_spec x (append_frame x e _) k).1
  | falls g st was state unnamed =>
    exact (law.withEntry _ (.inr (law.unnamed unnamed))).of_frame (replaceGroup_frame _ _ _ _)
  | closes g was state =>
    exact (law.withEntry _ (.inr (law.unnamed_of_none (lease.no_holder_of_safe state)))).of_frame
      (replaceGroup_frame _ _ _ _)
  | _ => exact law.of_frame f

end Sys2Proof.Machine
end

section
/-! PROOF. The driver states: what each change of records, of mirrors and of holders leaves of them, so that
every step keeps their pairing with the active records (R107, R109, R97). -/

set_option Elab.async false

namespace Sys2Proof.Machine

variable {ps : List Part} {s t u : State} {g : Group} {l m : Line} {p : Proposal} {r : Record}
  {d : Driver} {held : Bool}

/-! ### One line -/

/-- The pairing of a driver state with the active record of its line and with its group's being held. -/
def Driver.Fits (r : Record) (held : Bool) (d : Driver) : Prop :=
  d.mirror.isSome = r.isMirror ∧
    (d.pulse.isSome = true → r.isPulse = true ∧ held = true) ∧
    (d.mirror.isSome = true → held = true) ∧
    ∀ m, d.mirror = some m → m.phase = .held → m.demand = true

/-- The driver law at one line. -/
def DriverFits (s : State) (l : Line) : Prop :=
  (s.driver l).Fits (s.record l) (s.holder (groupOf l)).isSome

theorem DriverLaw.at (law : DriverLaw s) (l : Line) : DriverFits s l := law l

theorem Driver.Fits.mono {held' : Bool} (h : d.Fits r held) (le : held = true → held' = true) :
    d.Fits r held' := by
  obtain ⟨mirror, pulse, holds, demand⟩ := h
  exact ⟨mirror, fun hp => ⟨(pulse hp).1, le (pulse hp).2⟩, fun hm => le (holds hm), demand⟩

/-- Another mirror state in the place of a mirror state. -/
theorem Driver.Fits.withMirror (h : d.Fits r held) {mir : Option Mirror} (same : mir.isSome = d.mirror.isSome)
    (demand : ∀ m, mir = some m → m.phase = .held → m.demand = true) :
    Driver.Fits r held { d with mirror := mir } := by
  obtain ⟨mirror, pulse, holds, -⟩ := h
  exact ⟨same.trans mirror, pulse, fun hm => holds (same ▸ hm), demand⟩

theorem Driver.Fits.cut (h : d.Fits r held) : Driver.Fits r held { d with pulse := none } := by
  obtain ⟨mirror, -, holds, demand⟩ := h
  exact ⟨mirror, by simp, holds, demand⟩

theorem Driver.Fits.count (h : d.Fits r held) (f : Word16 → Word16) :
    Driver.Fits r held { d with pulse := d.pulse.map f } := by
  obtain ⟨mirror, pulse, holds, demand⟩ := h
  exact ⟨mirror, fun hp => pulse (by simpa using hp), holds, demand⟩

/-- The driver state that a record starts with fits it where the group is held or the record safe. -/
theorem Record.startDriver_fits (r : Record) (starts : Bool) (h : held = true ∨ r.isSafe) :
    (r.startDriver starts).Fits r held := by
  unfold Driver.Fits Record.startDriver Record.isMirror Record.isPulse
  unfold Record.isSafe at h
  cases fn : r.function with
  | input | static a => simp
  | pulse w => rw [fn] at h; cases starts <;> simp_all
  | mirror src sense => rw [fn] at h; simp_all

theorem turnedMirror_isSome (mirror : Option Mirror) (demand caught : Bool) :
    (turnedMirror mirror demand caught).isSome = mirror.isSome := by
  unfold turnedMirror
  split <;> rfl

theorem turnedMirror_held {mirror : Option Mirror} {demand caught : Bool}
    (law : ∀ m, mirror = some m → m.phase = .held → m.demand = true) :
    ∀ m, turnedMirror mirror demand caught = some m → m.phase = .held → m.demand = true := by
  intro m
  unfold turnedMirror
  split
  · cases caught <;> rintro ⟨⟩ <;> simp
  · rintro ⟨⟩; simp
  · rintro ⟨⟩; simp
  · exact law m

/-! ### All lines -/

theorem DriverFits.of_same (h : DriverFits s l) (record : t.record l = s.record l)
    (driver : t.driver l = s.driver l)
    (holder : (s.holder (groupOf l)).isSome = true → (t.holder (groupOf l)).isSome = true) :
    DriverFits t l := by
  unfold DriverFits
  rw [record, driver]
  exact h.mono holder

theorem DriverLaw.of_frame (law : DriverLaw s) (f : SameExcept ps s t)
    (lease : Part.lease ∉ ps := by decide) (active : Part.active ∉ ps := by decide)
    (drivers : Part.drivers ∉ ps := by decide) : DriverLaw t := fun l =>
  DriverFits.of_same (law l) (f.record l active) (f.driver l drivers)
    fun h => by rwa [f.holder _ lease]

theorem DriverLaw.of_holders (law : DriverLaw s) (f : SameExcept ps s t)
    (holders : ∀ g, (s.holder g).isSome = true → (t.holder g).isSome = true)
    (active : Part.active ∉ ps := by decide) (drivers : Part.drivers ∉ ps := by decide) : DriverLaw t :=
  fun l => DriverFits.of_same (law l) (f.record l active) (f.driver l drivers) (holders _)

/-- The lines keep their records and their groups' holders; each driver state fits again. -/
theorem DriverLaw.of_drivers (law : DriverLaw s) (f : SameExcept [.drivers, .queues] s t)
    (fits : ∀ l, DriverFits s l →
      (t.driver l).Fits (s.record l) (s.holder (groupOf l)).isSome) : DriverLaw t := by
  intro l
  have := fits l (law l)
  rwa [← f.record l, ← f.holder (groupOf l)] at this

theorem Reported.driverLaw (h : Reported s t) (law : DriverLaw s) : DriverLaw t := by
  refine law.of_drivers h.frame fun l fits => ?_
  rcases h.driver l with same | ⟨held, -, resumed⟩
  · rw [same]; exact fits
  · rw [resumed]
    refine fits.withMirror ?_ (by simp)
    obtain ⟨m, hm, -⟩ := Option.map_eq_some_iff.1 held
    rw [hm]
    rfl

theorem DriverLaw.reportDeassertions (law : DriverLaw s) (was : Line → Bool) :
    DriverLaw (reportDeassertions was s) :=
  (reportDeassertions_reports was s).1.driverLaw law

theorem startMirror_driver (l : Line) (s : State) : (startMirror l s).driver l = s.driver l ∨
    ∃ src sense phase, (s.record l).function = .mirror src sense ∧
      (startMirror l s).driver l = { s.driver l with mirror := some ⟨phase, true⟩ } := by
  unfold startMirror
  split
  · next src sense fn =>
    split
    · refine .inr ⟨src, sense, ?_⟩
      split
      · refine ⟨.held, fn, ?_⟩
        rw [(appendHolder_frame _ _ _).driver]
        exact State.withDriver_driver_self s l _
      · exact ⟨.following, fn, State.withDriver_driver_self s l _⟩
    · exact .inl rfl
  · exact .inl rfl

theorem DriverLaw.startMirror (law : DriverLaw s) (l : Line) : DriverLaw (startMirror l s) := by
  refine law.of_drivers (startMirror_frame l s) fun m fits => ?_
  by_cases here : m = l
  · subst here
    rcases startMirror_driver m s with same | ⟨src, sense, phase, fn, new⟩
    · rw [same]; exact fits
    · rw [new]
      refine fits.withMirror ?_ (fun mir hm _ => by cases hm; rfl)
      rw [fits.1, Record.isMirror_iff.2 ⟨src, sense, fn⟩]
      rfl
  · rw [startMirror_other l m s here]; exact fits

theorem DriverLaw.startMirrors (law : DriverLaw s) (p : Proposal) : DriverLaw (p.startMirrors s) :=
  foldl_invariant _ DriverLaw (fun t l law => by split; exacts [law.startMirror l, law]) _ _ law

/-- The records that a replacement places, with the driver states they start with, fit where those of the other
lines did, and where each named line is one of a held group or takes a safe record. -/
theorem DriverLaw.placed (outside : ∀ l, p.named (groupOf l) = false → DriverFits s l)
    (named : ∀ l, p.named (groupOf l) = true →
      (s.holder (groupOf l)).isSome = true ∨ (p.result l).isSafe) :
    DriverLaw (p.place (p.reportCuts s)) := by
  intro l
  have holder : (p.place (p.reportCuts s)).holder (groupOf l) = s.holder (groupOf l) := by
    rw [(place_frame p _).holder, (reportCuts_frame p s).holder]
  have record := place_record p (p.reportCuts s) l
  have driver := place_driver p (p.reportCuts s) l
  rw [(reportCuts_frame p s).record] at record
  rw [(reportCuts_frame p s).driver] at driver
  cases hn : p.named (groupOf l) with
  | false =>
    rw [hn] at record driver
    exact (outside l hn).of_same record driver fun h => by rwa [holder]
  | true =>
    rw [hn] at record driver
    show Driver.Fits _ _ _
    rw [record, driver, holder]
    exact Record.startDriver_fits _ _ (named l hn)

theorem DriverLaw.apply (was : Line → Bool)
    (outside : ∀ l, p.named (groupOf l) = false → DriverFits s l)
    (named : ∀ l, p.named (groupOf l) = true →
      (s.holder (groupOf l)).isSome = true ∨ (p.result l).isSafe) : DriverLaw (p.apply was s) :=
  ((DriverLaw.placed outside named).startMirrors p).reportDeassertions was

theorem named_only_iff {cfg : GroupConfig} {starts : Bool} :
    (Proposal.of s [(g, cfg)] starts).named (groupOf l) = true ↔ groupOf l = g := by
  rw [named_only]
  exact beq_iff_eq

theorem DriverLaw.replaceSafe (safe : SafeConfigLaw s) (was : Line → Bool)
    (outside : ∀ l, groupOf l ≠ g → DriverFits s l) :
    DriverLaw (replaceGroup g (s.policy.get g).safe was s) := by
  refine DriverLaw.apply was (fun l hn => outside l ?_) fun l hn => .inr ?_
  · exact fun here => Bool.eq_false_iff.1 hn (named_only_iff.2 here)
  · rw [result_only s g _ _ (by rwa [named_only] at hn)]
    exact safe g _

theorem DriverLaw.applyDeferred (law : DriverLaw s) (deferred : DeferredLaw s) (x : Client) :
    DriverLaw (applyDeferred x s) := by
  refine applyDeferred_keeps DriverLaw law
    (fun e => (law.of_frame (withDeferred_frame _ s)).of_frame (append_frame x e _))
    fun d v record f law' _ => DriverLaw.apply _ (fun l _ => law' l) fun l hn => .inl ?_
  obtain ⟨part, hp, group, -⟩ := Proposal.of_result_named hn
  rw [f.holder, ← group, (deferred x d record).2.2 part hp]
  rfl

/-! ### Every act -/

theorem DriverLaw.vacate (law : DriverLaw s) (safe : SafeConfigLaw s) (g : Group) (st : GroupState)
    (was : Line → Bool) :
    DriverLaw (replaceGroup g (s.policy.get g).safe was (s.withEntry g (·.vacated st))) := by
  have entry := withEntry_frame g (·.vacated st) s
  have safe' := safe.of_frame entry
  rw [← entry.policy]
  refine DriverLaw.replaceSafe safe' was fun l other => ?_
  refine (law.at l).of_same (entry.record l) (entry.driver l) fun h => ?_
  rwa [withEntry_other _ s other]

theorem DriverLaw.safeStored (law : DriverLaw s) (isSafe : r.isSafe) (l : Line) :
    DriverLaw (safeStored l r s) := by
  unfold Machine.safeStored
  split
  · intro m
    show Driver.Fits ((s.active.put l r).get m) _ ((s.drivers.put l (r.startDriver false)).get m)
    rw [Table.get_put, Table.get_put]
    split
    · exact Record.startDriver_fits r false (.inr isSafe)
    · exact law m
  · exact law.of_frame (storeSafe_frame l r s)

theorem Act.driverLaw (a : Act s ps t) (safe : SafeConfigLaw s) (deferred : DeferredLaw s)
    (law : DriverLaw s) : DriverLaw t := by
  have f := a.frame
  cases a with
  | applies x => exact law.applyDeferred deferred x
  | @defers x gs d parts nonempty sorted holds =>
    have made := law.of_frame (withDeferred_frame (s.deferred.put x (some d)) s)
    split
    · exact made.applyDeferred (deferred.make parts nonempty sorted holds) x
    · exact made
  | commits x gs holds accepted kept staged =>
    refine (DriverLaw.apply _ (fun l _ => law l) fun l hn => .inl ?_).of_frame kept
    rw [holdsAll_holder holds (stagedProposal_mem hn)]
    rfl
  | ticks =>
    refine law.of_holders f fun g h => ?_
    unfold passMillisecond State.holder State.entry
    rw [Table.get_tabulate]
    exact h
  | unit =>
    refine law.of_drivers f.mono fun l fits => ?_
    have driver : (passPulseUnit s).driver l =
        { s.driver l with pulse := (s.driver l).pulse.map countDown } := Table.get_tabulate _ l
    rw [driver]
    exact fits.count _
  | waits g | starts g | renews g | opens g => exact law.of_holders f fun k => withEntry_holders _ k id
  | takes g | hands g => exact law.of_holders f fun k => withEntry_holders _ k fun _ => rfl
  | withdraws g x =>
    exact law.of_holders f fun k h => by rwa [(reevaluated_spec x (.refl _ _) k).1]
  | bars g x e =>
    exact law.of_holders f fun k h => by rwa [(reevaluated_spec x (append_frame x e _) k).1]
  | safes g was => exact DriverLaw.replaceSafe safe was fun l _ => law l
  | restores g n cfg was holder parked accepted =>
    have used := withPark_frame (s.park.modify n fun t => t.put g none) s
    refine DriverLaw.apply (p := Proposal.of _ [(g, cfg)] false) was
      (fun l _ => (law.of_frame used).at l) fun l hn => .inl ?_
    rw [used.holder, named_only_iff.1 hn, holder]
    rfl
  | falls g st was state unnamed => exact law.vacate safe g st was
  | closes g was state => exact law.vacate safe g .withheld was
  | cuts l =>
    refine law.of_drivers f.mono fun m fits => ?_
    by_cases here : m = l
    · subst here; rw [State.withDriver_driver_self]; exact fits.cut
    · rw [State.withDriver_driver_ne _ _ here]; exact fits
  | frees m => exact (reevaluateMirror_reports m s).1.driverLaw law
  | stores l r isSafe unpaired => exact law.safeStored isSafe l
  | _ => exact law.of_frame f

/-! ### Samples and device resets -/

theorem DriverLaw.turn (law : DriverLaw s) (l m : Line) : DriverLaw (turn l s m) := by
  refine law.of_drivers (turn_frame l s m) fun k fits => ?_
  rw [(turn_spec l s m).1 k]
  split
  · split
    · next here =>
      subst here
      exact fits.withMirror (turnedMirror_isSome _ _ _) (turnedMirror_held fits.2.2.2)
    · exact fits
  · exact fits

theorem DriverLaw.followSource (law : DriverLaw s) (l : Line) : DriverLaw (followSource l s) := by
  rw [followSource_eq]
  exact (foldl_invariant _ DriverLaw (fun t m law => law.turn l m) _ _ law).reportDeassertions _

end Sys2Proof.Machine
end

section
/-! PROOF. A SAFE or WITHHELD group keeps its safe configuration active (R17, R21), and the laws that bind
holders, drivers, records and pending commits pass through a sample instant together. -/

set_option Elab.async false

namespace Sys2Proof.Machine

variable {ps : List Part} {s t : State} {g : Group} {l : Line} {p : Proposal} {r : Record} {x : Client}

/-! ### Groups at their safe configuration -/

/-- The groups at their safe configuration are the same, or fewer; their lines and safe records are the same. -/
theorem SafeActiveLaw.of_same (law : SafeActiveLaw s) (record : ∀ l, t.record l = s.record l)
    (safe : ∀ g, (t.policy.get g).safe = (s.policy.get g).safe)
    (fewer : ∀ g, atSafe t g = true → atSafe s g = true) : SafeActiveLaw t := by
  intro l h
  rw [record, safe]
  exact law l (fewer _ h)

theorem atSafe_of_frame (f : SameExcept ps s t) (g : Group) (lease : Part.lease ∉ ps := by decide) :
    atSafe t g = atSafe s g := by
  unfold atSafe
  rw [f.entry g lease]

theorem SafeActiveLaw.of_frame (law : SafeActiveLaw s) (f : SameExcept ps s t)
    (lease : Part.lease ∉ ps := by decide) (policy : Part.policy ∉ ps := by decide)
    (active : Part.active ∉ ps := by decide) : SafeActiveLaw t :=
  law.of_same (fun l => f.record l active) (fun g => by rw [f.policy policy]) fun g h => by
    rwa [atSafe_of_frame f g lease] at h

theorem SafeActiveLaw.withEntry (law : SafeActiveLaw s) (f : LeaseEntry → LeaseEntry)
    (this : ((f (s.entry g)).state = .safe ∨ (f (s.entry g)).state = .withheld) → atSafe s g = true) :
    SafeActiveLaw (s.withEntry g f) := by
  refine law.of_same (fun _ => rfl) (fun _ => rfl) fun k h => ?_
  unfold atSafe at h
  by_cases here : k = g
  · subst here
    rw [State.withEntry_entry_self] at h
    exact this (by simpa using h)
  · rwa [State.withEntry_entry_ne _ _ here] at h

/-- A replacement of groups that are not at their safe configuration, or by their safe configuration. -/
theorem SafeActiveLaw.apply (was : Line → Bool)
    (outside : ∀ l, p.named (groupOf l) = false → atSafe s (groupOf l) = true →
      s.record l = (s.policy.get (groupOf l)).safe.get (positionOf l))
    (named : ∀ l, p.named (groupOf l) = true → atSafe s (groupOf l) = true →
      p.result l = (s.policy.get (groupOf l)).safe.get (positionOf l)) : SafeActiveLaw (p.apply was s) := by
  have f := apply_frame p was s
  intro l h
  rw [atSafe_of_frame f] at h
  rw [apply_record, f.policy]
  split
  · next hn => exact named l hn h
  · next hn => exact outside l (Bool.eq_false_iff.2 hn) h

theorem SafeActiveLaw.replaceSafe (was : Line → Bool)
    (outside : ∀ l, groupOf l ≠ g → atSafe s (groupOf l) = true →
      s.record l = (s.policy.get (groupOf l)).safe.get (positionOf l)) :
    SafeActiveLaw (replaceGroup g (s.policy.get g).safe was s) := by
  refine SafeActiveLaw.apply was (fun l hn => outside l ?_) fun l hn _ => ?_
  · exact fun here => Bool.eq_false_iff.1 hn (named_only_iff.2 here)
  · rw [result_only s g _ _ (by rwa [named_only] at hn), named_only_iff.1 hn]

/-- A replacement of groups that have holders. -/
theorem SafeActiveLaw.replaceHeld (law : SafeActiveLaw s) (lease : LeaseLaw s) (was : Line → Bool)
    (held : ∀ l, p.named (groupOf l) = true → (s.holder (groupOf l)).isSome = true) :
    SafeActiveLaw (p.apply was s) :=
  SafeActiveLaw.apply was (fun l _ => law l) fun l hn h => by
    rw [lease.not_atSafe (held l hn)] at h
    cases h

theorem SafeActiveLaw.applyDeferred (law : SafeActiveLaw s) (lease : LeaseLaw s) (deferred : DeferredLaw s)
    (x : Client) : SafeActiveLaw (applyDeferred x s) := by
  refine applyDeferred_keeps SafeActiveLaw law
    (fun e => (law.of_frame (withDeferred_frame _ s)).of_frame (append_frame x e _))
    fun d v record f law' _ => law'.replaceHeld (lease.of_lease f.lease) _ fun l hn => ?_
  obtain ⟨part, hp, group, -⟩ := Proposal.of_result_named hn
  rw [f.holder, ← group, (deferred x d record).2.2 part hp]
  rfl

theorem SafeActiveLaw.vacate (law : SafeActiveLaw s) (g : Group) (st : GroupState) (was : Line → Bool) :
    SafeActiveLaw (replaceGroup g (s.policy.get g).safe was (s.withEntry g (·.vacated st))) := by
  have entry := withEntry_frame g (·.vacated st) s
  rw [← entry.policy]
  refine SafeActiveLaw.replaceSafe was fun l other h => ?_
  unfold atSafe at h
  rw [State.withEntry_entry_ne _ _ other] at h
  rw [entry.record, entry.policy]
  exact law l h

theorem SafeActiveLaw.safeStored (law : SafeActiveLaw s) (l : Line) (r : Record) :
    SafeActiveLaw (safeStored l r s) := by
  intro m h
  have f := safeStored_frame l r s
  rw [atSafe_of_frame f] at h
  have policy : (Machine.safeStored l r s).policy = (storeSafe l r s).policy := by
    unfold Machine.safeStored
    split <;> rfl
  rw [policy, storeSafe_get]
  unfold Machine.safeStored
  split
  · show (s.active.put l r).get m = _
    rw [Table.get_put]
    by_cases here : m = l
    · rw [if_pos here, if_pos here.symm]
    · rw [if_neg here, if_neg (Ne.symm here)]
      exact law m h
  · next other =>
    rw [if_neg fun here : m = l => other (here ▸ h)]
    exact law m h

theorem Act.safeActiveLaw (a : Act s ps t) (lease : LeaseLaw s) (deferred : DeferredLaw s)
    (law : SafeActiveLaw s) : SafeActiveLaw t := by
  have f := a.frame
  cases a with
  | policies f safe =>
    exact law.of_same (fun l => f.record l) safe fun g h => by rwa [atSafe_of_frame f g] at h
  | applies x => exact law.applyDeferred lease deferred x
  | @defers x gs d parts nonempty sorted holds =>
    have f := withDeferred_frame (s.deferred.put x (some d)) s
    have made := law.of_frame f
    split
    · exact made.applyDeferred (lease.of_lease f.lease) (deferred.make parts nonempty sorted holds) x
    · exact made
  | commits x gs holds accepted kept staged =>
    refine (law.replaceHeld lease _ fun l hn => ?_).of_frame kept
    rw [holdsAll_holder holds (stagedProposal_mem hn)]
    rfl
  | ticks =>
    refine law.of_same (fun l => f.record l) (fun g => by rw [f.policy]) fun g h => ?_
    unfold passMillisecond atSafe State.entry at h
    rwa [Table.get_tabulate] at h
  | waits g | renews g => exact law.withEntry _ fun h => by unfold atSafe; simpa using h
  | takes g | starts g | hands g => exact law.withEntry _ fun h => by simp at h
  | opens g state => exact law.withEntry _ fun _ => by unfold atSafe; rw [state]; rfl
  | withdraws g x =>
    exact law.of_same (fun l => f.record l) (fun g => by rw [f.policy]) fun k h => by
      rwa [(reevaluated_spec x (.refl _ _) k).2] at h
  | bars g x e =>
    exact law.of_same (fun l => f.record l) (fun g => by rw [f.policy]) fun k h => by
      rwa [(reevaluated_spec x (append_frame x e _) k).2] at h
  | safes g was => exact SafeActiveLaw.replaceSafe was fun l _ => law l
  | restores g n cfg was holder parked accepted =>
    have used := withPark_frame (s.park.modify n fun t => t.put g none) s
    refine SafeActiveLaw.replaceHeld (p := Proposal.of _ [(g, cfg)] false) (law.of_frame used)
      (lease.of_lease used.lease) was fun l hn => ?_
    rw [used.holder, named_only_iff.1 hn, holder]
    rfl
  | falls g st was state unnamed => exact law.vacate g st was
  | closes g was state => exact law.vacate g .withheld was
  | stores l r isSafe unpaired => exact law.safeStored l r
  | _ => exact law.of_frame f

/-! ### Samples and device resets -/

/-- What the laws of holders, drivers and safe configurations rest on together. -/
structure Bound (s : State) : Prop where
  lease    : LeaseLaw s
  drivers  : DriverLaw s
  atSafe   : SafeActiveLaw s
  deferred : DeferredLaw s

theorem Inv.bound (inv : Inv s) : Bound s := ⟨inv.lease, inv.drivers, inv.atSafe, inv.deferred⟩

theorem Bound.applyDeferred (b : Bound s) (x : Client) : Bound (applyDeferred x s) :=
  ⟨b.lease.of_lease (applyDeferred_frame x s).lease, b.drivers.applyDeferred b.deferred x,
    b.atSafe.applyDeferred b.lease b.deferred x, b.deferred.applyDeferred x⟩

theorem Bound.of_frame (b : Bound s) (f : SameExcept ps s t) (lease : Part.lease ∉ ps := by decide)
    (policy : Part.policy ∉ ps := by decide) (active : Part.active ∉ ps := by decide)
    (drivers : Part.drivers ∉ ps := by decide) (deferred : Part.deferred ∉ ps := by decide) : Bound t :=
  ⟨b.lease.of_lease (f.lease lease), b.drivers.of_frame f lease active drivers,
    b.atSafe.of_frame f lease policy active, b.deferred.of_frame f lease deferred⟩

theorem Bound.fireTriggers (b : Bound s) (l : Line) (lv : Level) : Bound (fireTriggers l lv s) := by
  refine foldl_invariant _ Bound (fun t x b => ?_) _ _ b
  split
  · split
    · exact b.applyDeferred x
    · exact b
  · exact b

/-- A filtered change up to its mirrors: the steps before any pending commit is met (R125). -/
theorem Bound.followed (b : Bound s) (l : Line) (lv : Level) :
    Bound (followSource l (reportWatchers l lv (reportEdge l lv
      { s with sampler := s.sampler.put l { level := lv, candidate := none } }))) := by
  have reported := ((b.of_frame (withSampler_frame (s.sampler.put l { level := lv, candidate := none }) s)).of_frame
    (reportEdge_frame l lv _)).of_frame (reportWatchers_frame l lv _)
  have f := followSource_frame l (reportWatchers l lv (reportEdge l lv
    { s with sampler := s.sampler.put l { level := lv, candidate := none } }))
  exact ⟨reported.lease.of_lease f.lease, reported.drivers.followSource l, reported.atSafe.of_frame f,
    reported.deferred.of_frame f⟩

theorem Bound.filteredChange (b : Bound s) (l : Line) (lv : Level) : Bound (filteredChange l lv s) :=
  (b.followed l lv).fireTriggers l lv

theorem Bound.takeSample (b : Bound s) (pads : BitVec 32) (order : List Line) :
    Bound (takeSample pads order s) := by
  refine foldl_invariant _ Bound (fun t l b => ?_) _ _
    (b.of_frame (withSampler_frame (.tabulate fun l => ((judgeSamples pads s).get l).1) s))
  split
  · exact b.filteredChange l _
  · exact b

end Sys2Proof.Machine
end

section
/-! PROOF. What binds mirrors and pending commits to the filtered levels: a mirror's demand is what its source
calls for (R13, R116), and the trigger line of a pending commit is not at its target (R140). -/

set_option Elab.async false

namespace Sys2Proof.Machine

variable {ps : List Part} {s t u : State} {g : Group} {l m : Line} {lv : Level} {p : Proposal} {x : Client}

/-! ### Demands -/

/-- A mirror of a line has the demand that its source's level and its sense call for. -/
def DemandAt (s : State) (l : Line) : Prop :=
  ∀ src sense mir, (s.record l).function = .mirror src sense → (s.driver l).mirror = some mir →
    mir.demand = demandOf s src sense

theorem demandOf_iff (s : State) (src : Line) (sense : Sense) : demandOf s src sense = true ↔
    (s.level src = .high ∧ sense = .same ∨ s.level src = .low ∧ sense = .opposite) := by
  unfold demandOf
  cases sense <;> simp

theorem demandLaw_iff : DemandLaw s ↔ ∀ l, DemandAt s l := by
  unfold DemandLaw DemandAt
  simp only [← demandOf_iff, ← Bool.eq_iff_iff]

theorem DemandAt.of_same (h : DemandAt s l) (record : t.record l = s.record l)
    (driver : (t.driver l).mirror = (s.driver l).mirror) (levels : ∀ m, t.level m = s.level m) :
    DemandAt t l := by
  intro src sense mir fn hm
  rw [record] at fn
  rw [driver] at hm
  rw [h src sense mir fn hm]
  unfold demandOf
  rw [levels]

theorem DemandAt.of_frame (h : DemandAt s l) (f : SameExcept ps s t)
    (active : Part.active ∉ ps := by decide) (drivers : Part.drivers ∉ ps := by decide)
    (sampler : Part.sampler ∉ ps := by decide) : DemandAt t l :=
  h.of_same (f.record l active) (by rw [f.driver l drivers]) fun m => f.level m sampler

theorem Reported.demandAt (h : Reported s t) (law : DriverFits s l) (demand : DemandAt s l) :
    DemandAt t l := by
  rcases h.driver l with same | ⟨held, -, resumed⟩
  · exact demand.of_same (h.frame.record l) (by rw [same]) fun m => h.frame.level m
  · intro src sense mir fn hm
    rw [h.frame.record] at fn
    rw [resumed] at hm
    cases hm
    obtain ⟨old, hold, phase⟩ := Option.map_eq_some_iff.1 held
    rw [h.frame.demandOf, ← demand src sense old fn hold, law.2.2.2 old hold phase]

/-- The mirrors that a replacement starts have the demand that their sources call for. -/
theorem startMirrors_demandAt (distinct : PairsDistinct s)
    (fresh : ∀ l, p.named (groupOf l) = true → Fresh s p.starts l)
    (outside : ∀ l, p.named (groupOf l) = false → DemandAt s l) (l : Line) :
    DemandAt (p.startMirrors s) l := by
  have f := startMirrors_frame p s
  obtain ⟨-, others, started, -⟩ := startMirrors_started distinct p.named lines lines_sorted
    (fun l _ => fresh l) fun k _ none => absurd (mem_lines k) none
  cases hn : p.named (groupOf l) with
  | false => exact (outside l hn).of_same (f.record l) (by rw [← others l (.inr hn)]; rfl) fun m => f.level m
  | true =>
    intro src sense mir fn hm
    have starts := started l (mem_lines l) hn
    rw [f.record] at fn
    unfold Starts at starts
    rw [fn] at starts
    obtain ⟨-, mir', hm', demand, -⟩ := starts
    cases hm.symm.trans hm'
    exact demand

theorem DemandAt.apply (was : Line → Bool) (distinct : PairsDistinct s)
    (fits : ∀ l, p.named (groupOf l) = false → DriverFits s l)
    (outside : ∀ l, p.named (groupOf l) = false → DemandAt s l)
    (named : ∀ l, p.named (groupOf l) = true →
      (s.holder (groupOf l)).isSome = true ∨ (p.result l).isSafe) (l : Line) :
    DemandAt (p.apply was s) l := by
  have f := (reportCuts_frame p s).mono.trans (place_frame p (p.reportCuts s)).mono
    (ps := [.active, .drivers, .queues])
  have distinct' : PairsDistinct (p.place (p.reportCuts s)) := by
    unfold PairsDistinct
    rwa [f.pairs]
  have placed := DriverLaw.placed fits named
  have started := startMirrors_demandAt (p := p) distinct'
    (fun l hn => by unfold Fresh; simp [hn])
    (fun l hn => (outside l hn).of_same
      (by simp [hn, (reportCuts_frame p s).record]) (by simp [hn, (reportCuts_frame p s).driver])
      fun m => f.level m) l
  exact (reportDeassertions_reports was _).1.demandAt (placed.startMirrors p l) started

theorem DemandLaw.at (law : DemandLaw s) (l : Line) : DemandAt s l := demandLaw_iff.1 law l

theorem DemandLaw.of_frame (law : DemandLaw s) (f : SameExcept ps s t)
    (active : Part.active ∉ ps := by decide) (drivers : Part.drivers ∉ ps := by decide)
    (sampler : Part.sampler ∉ ps := by decide) : DemandLaw t :=
  demandLaw_iff.2 fun l => (law.at l).of_frame f active drivers sampler

theorem DemandLaw.replaceSafe (law : DemandLaw s) (distinct : PairsDistinct s) (safe : SafeConfigLaw s)
    (was : Line → Bool) (fits : ∀ l, groupOf l ≠ g → DriverFits s l) :
    DemandLaw (replaceGroup g (s.policy.get g).safe was s) := by
  refine demandLaw_iff.2 (DemandAt.apply was distinct (fun l hn => fits l ?_) (fun l _ => law.at l)
    fun l hn => .inr ?_)
  · exact fun here => Bool.eq_false_iff.1 hn (named_only_iff.2 here)
  · rw [result_only s g _ _ (by rwa [named_only] at hn)]
    exact safe g _

theorem DemandLaw.vacate (law : DemandLaw s) (distinct : PairsDistinct s) (safe : SafeConfigLaw s)
    (drivers : DriverLaw s) (g : Group) (st : GroupState) (was : Line → Bool) :
    DemandLaw (replaceGroup g (s.policy.get g).safe was (s.withEntry g (·.vacated st))) := by
  have entry := withEntry_frame g (·.vacated st) s
  rw [← entry.policy]
  refine DemandLaw.replaceSafe (law.of_frame entry) distinct (safe.of_frame entry) was fun l other => ?_
  refine (drivers.at l).of_same (entry.record l) (entry.driver l) fun h => ?_
  rwa [withEntry_other _ s other]

theorem DemandLaw.replaceHeld (law : DemandLaw s) (distinct : PairsDistinct s) (drivers : DriverLaw s)
    (was : Line → Bool)
    (held : ∀ l, p.named (groupOf l) = true → (s.holder (groupOf l)).isSome = true) :
    DemandLaw (p.apply was s) :=
  demandLaw_iff.2 (DemandAt.apply was distinct (fun l _ => drivers.at l) (fun l _ => law.at l)
    fun l hn => .inl (held l hn))

theorem DemandLaw.applyDeferred (law : DemandLaw s) (distinct : PairsDistinct s) (drivers : DriverLaw s)
    (deferred : DeferredLaw s) (x : Client) : DemandLaw (applyDeferred x s) := by
  refine (applyDeferred_keeps (fun u => DemandLaw u ∧ DriverLaw u) ⟨law, drivers⟩
    (fun e => ⟨(law.of_frame (withDeferred_frame _ s)).of_frame (append_frame x e _),
      (drivers.of_frame (withDeferred_frame _ s)).of_frame (append_frame x e _)⟩)
    fun d v record f ⟨law', drivers'⟩ _ => ?_).1
  have held : ∀ l, (Proposal.of v d.parts true).named (groupOf l) = true →
      (v.holder (groupOf l)).isSome = true := by
    intro l hn
    obtain ⟨part, hp, group, -⟩ := Proposal.of_result_named hn
    rw [f.holder, ← group, (deferred x d record).2.2 part hp]
    rfl
  refine ⟨law'.replaceHeld ?_ drivers' _ held,
    DriverLaw.apply _ (fun l _ => drivers'.at l) fun l hn => .inl (held l hn)⟩
  unfold PairsDistinct
  rwa [f.pairs]

theorem DemandLaw.safeStored (law : DemandLaw s) {r : Record} (isSafe : r.isSafe) (l : Line) :
    DemandLaw (safeStored l r s) := by
  unfold Machine.safeStored
  split
  · refine demandLaw_iff.2 fun m => ?_
    by_cases here : m = l
    · subst here
      intro src sense mir fn
      unfold State.record at fn
      dsimp only at fn
      rw [Table.get_put_self] at fn
      rcases Record.isSafe_cases isSafe with fn' | ⟨a, fn'⟩ <;> rw [fn'] at fn <;> cases fn
    · refine (law.at m).of_same ?_ ?_ fun _ => rfl
      · simp [State.record, here]
      · simp [State.driver, here]
  · exact law.of_frame (storeSafe_frame l r s)

theorem Act.demandLaw (a : Act s ps t) (inv : Inv s) (law : DemandLaw s) : DemandLaw t := by
  have f := a.frame
  have distinct := inv.pairs.distinct
  have drivers := inv.drivers
  have safe := inv.config.2.1
  cases a with
  | applies x => exact law.applyDeferred distinct drivers inv.deferred x
  | @defers x gs d parts nonempty sorted holds =>
    have f := withDeferred_frame (s.deferred.put x (some d)) s
    have made := law.of_frame f
    split
    · exact made.applyDeferred distinct (drivers.of_frame f)
        (inv.deferred.make parts nonempty sorted holds) x
    · exact made
  | commits x gs holds accepted kept staged =>
    refine (law.replaceHeld distinct drivers _ fun l hn => ?_).of_frame kept
    rw [holdsAll_holder holds (stagedProposal_mem hn)]
    rfl
  | unit =>
    refine demandLaw_iff.2 fun l => (law.at l).of_same (f.record l) ?_ fun m => f.level m
    unfold passPulseUnit State.driver
    rw [Table.get_tabulate]
  | safes g was => exact law.replaceSafe distinct safe was fun l _ => drivers.at l
  | restores g n cfg was holder parked accepted =>
    have used := withPark_frame (s.park.modify n fun t => t.put g none) s
    refine DemandLaw.replaceHeld (p := Proposal.of _ [(g, cfg)] false) (law.of_frame used) distinct
      (drivers.of_frame used) was fun l hn => ?_
    rw [used.holder, named_only_iff.1 hn, holder]
    rfl
  | falls g st was state unnamed => exact law.vacate distinct safe drivers g st was
  | closes g was state => exact law.vacate distinct safe drivers g .withheld was
  | cuts l =>
    refine demandLaw_iff.2 fun m => (law.at m).of_same (f.record m) ?_ fun m => f.level m
    by_cases here : m = l
    · subst here; rw [State.withDriver_driver_self]
    · rw [State.withDriver_driver_ne _ _ here]
  | frees m =>
    exact demandLaw_iff.2 fun l => (reevaluateMirror_reports m s).1.demandAt (drivers.at l) (law.at l)
  | stores l r isSafe unpaired => exact law.safeStored isSafe l
  | _ => exact law.of_frame f

/-! ### Triggers -/

theorem TriggerLaw.of_fewer (law : TriggerLaw s) (levels : ∀ l, t.level l = s.level l)
    (fewer : ∀ x d, t.deferred.get x = some d → s.deferred.get x = some d) : TriggerLaw t := by
  intro x d l target timeout left record
  rw [levels]
  exact law x d l target timeout left (fewer x d record)

theorem TriggerLaw.of_frame (law : TriggerLaw s) (f : SameExcept ps s t)
    (deferred : Part.deferred ∉ ps := by decide) (sampler : Part.sampler ∉ ps := by decide) :
    TriggerLaw t :=
  law.of_fewer (fun l => f.level l sampler) fun _ _ record => f.deferred deferred ▸ record

theorem applyDeferred_fewer {y : Client} {d : Deferred}
    (h : (applyDeferred x s).deferred.get y = some d) : s.deferred.get y = some d ∧ y ≠ x := by
  rw [applyDeferred_deferred] at h
  refine ⟨forgotten_deferred h, ?_⟩
  rintro rfl
  rw [PerClient.get_put_self] at h
  cases h

theorem Act.triggerLaw (a : Act s ps t) (law : TriggerLaw s) : TriggerLaw t := by
  have f := a.frame
  cases a with
  | forgets x => exact law.of_fewer (fun _ => rfl) fun _ _ => forgotten_deferred
  | applies x => exact law.of_fewer (fun l => f.level l) fun _ _ record => (applyDeferred_fewer record).1
  | @defers x gs d parts nonempty sorted holds =>
    split
    · refine law.of_fewer (fun l => ?_) fun y d' record => ?_
      · rw [(applyDeferred_frame x _).level]; rfl
      · obtain ⟨made, other⟩ := applyDeferred_fewer record
        dsimp only at made
        rwa [PerClient.get_put_ne _ _ other] at made
    · next unmet =>
      intro y d' l target timeout left record trigger
      dsimp only at record
      rw [PerClient.get_put] at record
      split at record
      · cases record
        unfold Deferred.lineMet at unmet
        rw [trigger] at unmet
        simpa using unmet
      · exact law y d' l target timeout left record trigger
  | ticks =>
    intro x d l target timeout left record trigger
    unfold passMillisecond at record
    dsimp only at record
    rw [PerClient.get_tabulate] at record
    obtain ⟨d', record', rfl⟩ := Option.map_eq_some_iff.1 record
    unfold Deferred.tick Trigger.tick at trigger
    dsimp only at trigger
    split at trigger
    · next l' target' timeout' left' trigger' =>
      cases trigger
      exact law x d' l target timeout left' record' trigger'
    · cases trigger
  | _ => exact law.of_frame f

/-! ### A filtered change -/

theorem FollowsSource.demandLaw (h : FollowsSource s t l lv) (mirrors : MirrorLaw s)
    (law : DemandLaw s) : DemandLaw t := by
  obtain ⟨f, -, others, turned, resumed, -⟩ := h
  refine demandLaw_iff.2 fun m src sense mir fn hm => ?_
  rw [f.record] at fn
  by_cases here : src = l
  · subst here
    obtain ⟨mir', driver, demand, -⟩ := turned m sense fn
    rw [driver] at hm
    cases hm
    exact demand
  · have demand : ∀ old, (s.driver m).mirror = some old → old.demand = demandOf t src sense := by
      intro old hold
      rw [law.at m src sense old fn hold]
      unfold demandOf
      rw [others src here]
    have unrelated : ∀ sense', (s.record m).function ≠ .mirror l sense' := by
      intro sense' fn'
      rw [fn] at fn'
      cases fn'
      exact here rfl
    rcases resumed m unrelated with same | ⟨held, driver⟩
    · rw [same] at hm
      exact demand mir hm
    · rw [driver] at hm
      cases hm
      obtain ⟨old, hold, phase⟩ := Option.map_eq_some_iff.1 held
      rw [← demand old hold, (mirrors m).2 old hold phase]

theorem fireTurn_fewer {y : Client} {d : Deferred}
    (h : (fireTurn l lv s x).deferred.get y = some d) : s.deferred.get y = some d ∧
      (y = x → ∀ timeout left, d.trigger ≠ .line l lv timeout left) := by
  unfold fireTurn at h
  split at h
  · next parts l' target timeout' left' record =>
    split at h
    · obtain ⟨old, other⟩ := applyDeferred_fewer h
      exact ⟨old, fun here => absurd here other⟩
    · next unmet =>
      refine ⟨h, ?_⟩
      rintro rfl timeout left trigger
      rw [record] at h
      cases h
      cases trigger
      exact unmet ⟨rfl, rfl⟩
  · next none =>
    refine ⟨h, ?_⟩
    rintro rfl timeout left trigger
    cases d
    dsimp only at trigger
    subst trigger
    exact none _ _ _ _ _ h

theorem fireTurns_fewer {y : Client} {d : Deferred} (L : List Client)
    (h : (L.foldl (fireTurn l lv) s).deferred.get y = some d) : s.deferred.get y = some d ∧
      (y ∈ L → ∀ timeout left, d.trigger ≠ .line l lv timeout left) := by
  induction L generalizing s with
  | nil => exact ⟨h, fun hy => by cases hy⟩
  | cons x L ih =>
    obtain ⟨after, met⟩ := ih h
    obtain ⟨before, here⟩ := fireTurn_fewer after
    refine ⟨before, fun hy => ?_⟩
    rcases List.mem_cons.1 hy with e | hy
    · exact here e
    · exact met hy

theorem fireTriggers_fewer {y : Client} {d : Deferred}
    (h : (fireTriggers l lv s).deferred.get y = some d) : s.deferred.get y = some d ∧
      ∀ timeout left, d.trigger ≠ .line l lv timeout left := by
  obtain ⟨before, met⟩ := fireTurns_fewer clients h
  exact ⟨before, met (mem_clients y)⟩

theorem TriggerLaw.filteredChange (law : TriggerLaw s) (l : Line) (lv : Level) :
    TriggerLaw (filteredChange l lv s) := by
  intro y d l' target timeout left record trigger
  have level : (Machine.filteredChange l lv s).level l' = if l' = l then lv else s.level l' := by
    unfold State.level
    rw [filteredChange_sampler, Table.get_put]
    by_cases here : l' = l
    · rw [if_pos here, if_pos here.symm]
    · rw [if_neg here, if_neg (Ne.symm here)]
  unfold Machine.filteredChange at record
  obtain ⟨before, unmet⟩ := fireTriggers_fewer record
  rw [(followSource_frame l _).deferred, (reportWatchers_frame l lv _).deferred,
    (reportEdge_frame l lv _).deferred] at before
  rw [level]
  split
  · next here =>
    subst here
    rintro rfl
    exact unmet timeout left trigger
  · exact law y d l' target timeout left before trigger

/-! ### A sample instant -/

/-- What a sample instant carries from one acceptance to the next, for the laws that speak of levels. -/
structure Leveled (s : State) : Prop where
  settled : Settled s
  bound   : Bound s
  demand  : DemandLaw s
  trigger : TriggerLaw s

theorem Leveled.filteredChange (h : Leveled s) (l : Line) (lv : Level) : Leveled (filteredChange l lv s) := by
  refine ⟨(filteredChange_spec l lv h.settled).2, h.bound.filteredChange l lv, ?_,
    h.trigger.filteredChange l lv⟩
  have changed := withSampler_frame (s.sampler.put l { level := lv, candidate := none }) s
  have follows := follows_spec h.settled.exclusive h.settled.mirrors changed
    (show State.level _ l = lv from congrArg LineSampler.level (Table.get_put_self _ _ _))
    (fun m ne => congrArg LineSampler.level (Table.get_put_ne _ _ ne))
  have demand := follows.demandLaw h.settled.mirrors h.demand
  unfold Machine.filteredChange
  have bound := h.bound.followed l lv
  have distinct : PairsDistinct (followSource l (reportWatchers l lv (reportEdge l lv
      { s with sampler := s.sampler.put l { level := lv, candidate := none } }))) := by
    unfold PairsDistinct
    rw [follows.1.pairs]
    exact h.settled.pairs
  refine (foldl_invariant _ (fun u => DemandLaw u ∧ Bound u ∧ PairsDistinct u)
    (fun t x ⟨demand, bound, distinct⟩ => ?_) clients _ ⟨demand, bound, distinct⟩).1
  split
  · split
    · refine ⟨demand.applyDeferred distinct bound.drivers bound.deferred x, bound.applyDeferred x, ?_⟩
      unfold PairsDistinct
      rwa [(applyDeferred_frame x t).pairs]
    · exact ⟨demand, bound, distinct⟩
  · exact ⟨demand, bound, distinct⟩

theorem judged_level (pads : BitVec 32) (s : State) (l : Line) :
    State.level { s with sampler := .tabulate fun l => ((judgeSamples pads s).get l).1 } l = s.level l := by
  unfold State.level
  rw [Table.get_tabulate]
  exact judgeSamples_level pads s l

theorem Leveled.takeSample (h : Leveled s) (pads : BitVec 32) (order : List Line) :
    Leveled (takeSample pads order s) := by
  refine foldl_invariant _ Leveled (fun t l h => ?_) _ _ ?_
  · split
    · exact h.filteredChange l _
    · exact h
  · have judged := withSampler_frame (.tabulate fun l => ((judgeSamples pads s).get l).1) s
    obtain ⟨⟨exclusive, mirrors, pairs, parts⟩, bound, demand, trigger⟩ := h
    refine ⟨⟨exclusive.frame judged, mirrors, pairs, parts⟩, bound.of_frame judged, ?_, ?_⟩
    · exact demandLaw_iff.2 fun l => (demand.at l).of_same rfl rfl (judged_level pads s)
    · exact trigger.of_fewer (judged_level pads s) fun _ _ record => record

end Sys2Proof.Machine
end

section
/-! PROOF. While RESETn is low: every command but the release changes only the pins, the frames in progress and
the records of MISO (R173). -/

set_option Elab.async false

namespace Sys2Proof.Machine

variable {s t u : State} {x : Client} {c : Instr}

/-! ### Changes of pins -/

/-- Only the pins, the frames in progress and the records of MISO change; a frame in progress is one that the
port ignores. -/
def PinsOnly (s t : State) : Prop :=
  SameExcept [.ports] s t ∧ ∀ x, t.port x = { s.port x with
      frame := (t.port x).frame, miso := (t.port x).miso, crstLow := (t.port x).crstLow } ∧
    ∀ f, (t.port x).frame = some f → f.ignored = true

theorem AtDeviceReset.pins (h : AtDeviceReset s) (p : PinsOnly s t) : AtDeviceReset t := by
  obtain ⟨low, parts, quiet, ports⟩ := h
  obtain ⟨f, pins⟩ := p
  refine ⟨f.resetLow.trans low, parts.trans f.mono, fun l => ?_, fun x => ⟨?_, (pins x).2⟩⟩
  · rw [f.sampler]; exact quiet l
  · rw [(pins x).1, (ports x).1]

theorem AtDeviceReset.pinsOnly_self (h : AtDeviceReset s) : PinsOnly s s :=
  ⟨.refl _ s, fun x => ⟨rfl, (h.2.2.2 x).2⟩⟩

theorem AtDeviceReset.withPort (h : AtDeviceReset s) (x : Client) (f : Port → Port)
    (pins : f (s.port x) = { s.port x with
      frame := (f (s.port x)).frame, miso := (f (s.port x)).miso, crstLow := (f (s.port x)).crstLow })
    (ignored : ∀ fr, (f (s.port x)).frame = some fr → fr.ignored = true) : PinsOnly s (s.withPort x f) := by
  refine ⟨withPort_frame x f s, fun y => ?_⟩
  by_cases here : y = x
  · subst here
    rw [State.withPort_port_self]
    exact ⟨pins, ignored⟩
  · rw [State.withPort_port_ne _ _ here]
    exact ⟨rfl, (h.2.2.2 y).2⟩

theorem AtDeviceReset.beginFrame (h : AtDeviceReset s) (x : Client) (spaced : Bool) (access start : Byte) :
    PinsOnly s (beginFrame x spaced access start s) := by
  cases frame : (s.port x).frame with
  | some f =>
    unfold Machine.beginFrame
    rw [frame]
    exact h.pinsOnly_self
  | none =>
    rw [beginFrame_ignored x spaced access start s frame (.inr (.inl h.1))]
    refine h.withPort x _ rfl ?_
    rintro fr ⟨⟩
    rfl

theorem AtDeviceReset.shiftByte (h : AtDeviceReset s) (x : Client) (mosi : Byte) :
    PinsOnly s (shiftByte x s mosi) := by
  unfold Machine.shiftByte
  split
  · exact h.pinsOnly_self
  · next f frame =>
    rw [if_pos ((h.2.2.2 x).2 f frame)]
    exact h.withPort x _ rfl (h.2.2.2 x).2

theorem AtDeviceReset.finishFrame (h : AtDeviceReset s) (x : Client) (whole : Bool) :
    PinsOnly s (finishFrame x whole s) := by
  cases frame : (s.port x).frame with
  | none =>
    unfold Machine.finishFrame
    rw [frame]
    exact h.pinsOnly_self
  | some f =>
    rw [finishFrame_ignored x whole s f frame ((h.2.2.2 x).2 f frame)]
    exact h.withPort x _ rfl (by simp)

theorem AtDeviceReset.misoZeros (h : AtDeviceReset s) (x : Client) (n : Nat) :
    PinsOnly s (misoZeros x n s) :=
  h.withPort x _ rfl (h.2.2.2 x).2

theorem AtDeviceReset.portTakes (h : AtDeviceReset s) (x : Client) : portTakes s x = false := by
  unfold Machine.portTakes
  rw [h.1]
  rfl

theorem AtDeviceReset.wholeFrame (h : AtDeviceReset s) {count : Nat} (hc : frameOf c = some (x, count))
    (run : exec c s = .next t) : PinsOnly s t := by
  rw [exec_frame hc (h.portTakes x)] at run
  cases run
  split
  · exact h.pinsOnly_self
  · exact h.misoZeros x count

/-! ### Nothing is due -/

theorem AtDeviceReset.entry (h : AtDeviceReset s) (g) : s.entry g = .reset := by
  rw [h.2.1.entry]
  exact Table.get_fill _ g

theorem AtDeviceReset.driver (h : AtDeviceReset s) (l) : s.driver l = .reset := by
  rw [h.2.1.driver]
  exact Table.get_fill _ l

theorem AtDeviceReset.record (h : AtDeviceReset s) (l) : s.record l = .reset := by
  rw [h.2.1.record]
  exact Table.get_fill _ l

theorem AtDeviceReset.deferred (h : AtDeviceReset s) (x) : s.deferred.get x = none := by
  rw [h.2.1.deferred]
  exact PerClient.get_fill _ x

/-- Every command but the release, while RESETn is low. -/
theorem AtDeviceReset.exec (h : AtDeviceReset s) (other : ∀ pads, c ≠ .deviceResetRelease pads)
    (run : exec c s = .next t) : PinsOnly s t := by
  have idle : PinsOnly s s := h.pinsOnly_self
  cases c with
  | deviceResetRelease pads => exact absurd rfl (other pads)
  | eventPop x op =>
    cases op with
    | frame start count => exact h.wholeFrame rfl run
    | begin spaced start => cases run; exact h.beginFrame x spaced _ start
    | next => cases run; show PinsOnly s (if _ then _ else _); split; exacts [idle, h.shiftByte x 0]
    | finish => cases run; show PinsOnly s (if _ then _ else _); split; exacts [idle, h.finishFrame x true]
  | registerWrite x op =>
    cases op with
    | frame start data => exact h.wholeFrame rfl run
    | runt n => cases run; show PinsOnly s (if _ then _ else _); split; exacts [idle, h.misoZeros x n]
    | begin spaced access start => cases run; exact h.beginFrame x spaced access start
    | next v => cases run; exact h.shiftByte x v
    | finish whole => cases run; exact h.finishFrame x whole
  | clientReset x full =>
    cases run
    rw [h.1]
    split
    · exact idle
    · rw [Bool.not_true, Bool.and_false, if_neg Bool.false_ne_true]
      refine h.withPort x _ rfl fun fr frame => ?_
      unfold Port.crstFall Port.cutFrame at frame
      obtain ⟨fr', -, rfl⟩ := Option.map_eq_some_iff.1 frame
      rfl
  | crstRise x => cases run; exact h.withPort x _ rfl (h.2.2.2 x).2
  | deviceReset full => cases run; rw [if_pos h.1]; exact idle
  | timebaseTick => cases run; rw [if_pos h.1]; exact idle
  | sample pads order => cases run; rw [if_pos h.1]; exact idle
  | leaseExpiry g => cases run; rw [h.entry g, if_neg (by simp [LeaseEntry.reset])]; exact idle
  | graceExpiry g => cases run; rw [h.entry g, if_neg (by simp [LeaseEntry.reset])]; exact idle
  | pulseEnd l => cases run; rw [h.driver l, if_neg (by simp [Driver.reset])]; exact idle
  | delayExpiry x => cases run; rw [h.deferred x]; exact idle
  | timeoutExpiry x => cases run; rw [h.deferred x]; exact idle
  | _ => exact h.wholeFrame rfl run

/-- Every step but the release, while RESETn is low (R173). -/
theorem AtDeviceReset.step (h : AtDeviceReset s) (run : step s = .next t)
    (other : ∀ pads rest, s.pending ≠ .deviceResetRelease pads :: rest) :
    AtDeviceReset t ∧ SameExcept [.ports, .pending] s t := by
  unfold Machine.step at run
  split at run
  · cases run
    have drivers : (passPulseUnit s).drivers = s.drivers := by
      refine Table.ext_get fun l => ?_
      unfold passPulseUnit
      rw [Table.get_tabulate, h.driver l]
      exact (h.driver l).symm
    have same : passPulseUnit s = s :=
      congrArg (fun drivers => { s with drivers }) drivers
    rw [same]
    exact ⟨h, .refl _ s⟩
  · next c rest front =>
    have popped := withPending_frame rest s
    have h' : AtDeviceReset { s with pending := rest } :=
      ⟨h.1, h.2.1.trans popped.mono, h.2.2.1, h.2.2.2⟩
    have pins := h'.exec (fun pads here => other pads rest (here ▸ front)) run
    exact ⟨h'.pins pins, popped.mono.trans pins.1.mono⟩

/-! ### The laws at device reset -/

/-- Where every part is at its device-reset value, but for pins, records of MISO and levels, every law of the part
but the one about RESETn holds. -/
theorem reset_laws (f : SameExcept [.sampler, .ports, .draws, .pending, .resetLow] State.reset s)
    (quiet : ∀ l, (s.sampler.get l).candidate = none) : Inv s ∧ DemandLaw s ∧ TriggerLaw s := by
  have record : ∀ l, s.record l = .reset := fun l => by rw [f.record]; exact Table.get_fill _ l
  have driver : ∀ l, s.driver l = .reset := fun l => by rw [f.driver]; exact Table.get_fill _ l
  have entry : ∀ g, s.entry g = .reset := fun g => by rw [f.entry]; exact Table.get_fill _ g
  have deferred : ∀ x, s.deferred.get x = none := fun x => by
    rw [f.deferred]; exact PerClient.get_fill _ x
  have pairs : ∀ i, s.pairs.get i = none := fun i => by rw [f.pairs]; exact Table.get_fill _ i
  have queues : ∀ x, s.queues.get x = [] := fun x => by rw [f.queues]; exact PerClient.get_fill _ x
  have safe : ∀ g, (s.policy.get g).safe = .fill .reset := fun g => by
    rw [f.policy]
    exact congrArg Policy.safe (Table.get_fill _ g)
  refine ⟨⟨fun x => ?_, fun g => ?_, .of_settled quiet, configLaw_reset safe f.active f.staged f.park f.deferred,
    fun i p hp => ?_, fun l => ?_, fun l _ => ?_, fun x d hd => ?_⟩, fun l src sense m _ hm => ?_,
    fun x d l target timeout left hd => ?_⟩
  · simp [queues x]
  · rw [entry g]; exact LeaseEntry.reset_lawful
  · rw [pairs i] at hp; cases hp
  · simp [driver l, record l, Driver.reset, Record.reset, Record.isMirror]
  · rw [record l, safe, Table.get_fill]
  · rw [deferred x] at hd; cases hd
  · rw [driver l] at hm; cases hm
  · rw [deferred x] at hd; cases hd

theorem AtDeviceReset.everyLaw (h : AtDeviceReset s) : EveryLaw s :=
  have ⟨inv, demand, trigger⟩ := reset_laws h.2.1 h.2.2.1
  ⟨inv, demand, trigger, fun _ => h⟩

end Sys2Proof.Machine
end

section
/-! PROOF. Every law of the part, step by step: those that the statements suppose, and with them the two that
speak of levels and the one about RESETn low. -/

set_option Elab.async false

namespace Sys2Proof.Machine

variable {ps : List Part} {s t : State}

/-- Every act keeps the laws that the statements suppose. -/
theorem Act.inv (a : Act s ps t) (inv : Inv s) : Inv t :=
  ⟨a.queueLaw inv.queues, a.leaseLaw inv.lease, a.samplerLaw inv.sampler, a.configLaw inv.config,
    a.pairLaw inv.config.2.1 inv.pairs, a.driverLaw inv.config.2.1 inv.deferred inv.drivers,
    a.safeActiveLaw inv.lease inv.deferred inv.atSafe, a.deferredLaw inv.lease inv.deferred⟩

theorem Inv.leveled (inv : Inv s) (demand : DemandLaw s) (trigger : TriggerLaw s) : Leveled s :=
  ⟨inv.settled, inv.bound, demand, trigger⟩

/-- The laws say nothing of the queue of waiting commands. -/
theorem Inv.withPending (inv : Inv s) (rest : List Instr) : Inv { s with pending := rest } :=
  ⟨inv.queues, inv.lease, inv.sampler, inv.config, inv.pairs, inv.drivers, inv.atSafe, inv.deferred⟩

theorem Beyonds.bound (b : Beyonds s t) (bound : Bound s) : Bound t := by
  cases b with
  | samples pads order high => exact bound.takeSample pads order
  | resets high =>
    obtain ⟨inv, -⟩ := (deviceResetState_at s).everyLaw
    exact inv.bound
  | rises pads low => exact ⟨bound.lease, bound.drivers, bound.atSafe, bound.deferred⟩

theorem Beyonds.inv (b : Beyonds s t) (inv : Inv s) : Inv t :=
  have bound := b.bound inv.bound
  ⟨b.queueLaw inv.queues, bound.lease, b.samplerLaw, b.configLaw inv.config, b.pairLaw inv.pairs,
    bound.drivers, bound.atSafe, bound.deferred⟩

/-- The laws with the two that speak of levels. -/
def InvLevels (s : State) : Prop := Inv s ∧ DemandLaw s ∧ TriggerLaw s

theorem Act.invLevels (a : Act s ps t) (h : InvLevels s) : InvLevels t :=
  have ⟨inv, demand, trigger⟩ := h
  ⟨a.inv inv, a.demandLaw inv demand, a.triggerLaw trigger⟩

/-- No act moves RESETn. -/
theorem Act.resetLow (a : Act s ps t) : t.resetLow = s.resetLow := by
  have f := a.frame
  cases a <;> exact f.resetLow

theorem Acts.resetLow (as : Acts s t) : t.resetLow = s.resetLow :=
  as.keep (fun u => u.resetLow = s.resetLow) (fun a h => a.resetLow.trans h) rfl

/-- The release of RESETn from a state at device reset. -/
theorem released_everyLaw (h : AtDeviceReset s) (pads : BitVec 32) :
    EveryLaw { s with resetLow := false, sampler := .tabulate fun l => .first (padLevel pads l) } := by
  have f : SameExcept [.sampler, .ports, .draws, .pending, .resetLow] State.reset
      { s with resetLow := false, sampler := .tabulate fun l => .first (padLevel pads l) } := by
    intro p hp
    have := h.2.1 p hp
    cases p <;> first | exact this | exact absurd (by decide) hp
  have ⟨inv, demand, trigger⟩ := reset_laws f fun l => by simp [LineSampler.first]
  exact ⟨inv, demand, trigger, fun low => by cases low⟩

/-- A step while RESETn is high. -/
theorem EveryLaw.step_high (h : EveryLaw s) (high : s.resetLow = false) (run : step s = .next t) :
    EveryLaw t := by
  obtain ⟨rest, as | b⟩ := step_cases run
  · obtain ⟨inv, demand, trigger⟩ := as.keep InvLevels (fun a => a.invLevels)
      ⟨h.inv.withPending rest, h.demand, h.trigger⟩
    refine ⟨inv, demand, trigger, fun low => ?_⟩
    rw [as.resetLow, show State.resetLow { s with pending := rest } = false from high] at low
    cases low
  · have inv := h.inv.withPending rest
    have laws := b.inv inv
    cases b with
    | samples pads order _ =>
      have after := (inv.leveled h.demand h.trigger).takeSample pads order
      refine ⟨laws, after.demand, after.trigger, fun low => ?_⟩
      rw [(takeSample_frame pads order _).resetLow,
        show State.resetLow { s with pending := rest } = false from high] at low
      cases low
    | resets _ => exact (deviceResetState_at _).everyLaw
    | rises pads low =>
      rw [show State.resetLow { s with pending := rest } = false from high] at low
      cases low

/-- A step while RESETn is low. -/
theorem AtDeviceReset.step_everyLaw (h : AtDeviceReset s) (run : Machine.step s = .next t) : EveryLaw t := by
  by_cases release : ∃ pads rest, s.pending = .deviceResetRelease pads :: rest
  · obtain ⟨pads, rest, front⟩ := release
    unfold Machine.step at run
    rw [front] at run
    have run : Host.Outcome.next _ = Host.Outcome.next t := run
    cases run
    rw [if_pos h.1]
    have h' : AtDeviceReset { s with pending := rest } :=
      ⟨h.1, h.2.1.trans (withPending_frame rest s).mono, h.2.2.1, h.2.2.2⟩
    exact released_everyLaw h' pads
  · push Not at release
    exact (h.step run release).1.everyLaw

end Sys2Proof.Machine

namespace Sys2Proof.Proofs

open Sys2Proof.Machine

/-- Settles O6: every act keeps every law of the part; a sample instant keeps them acceptance by acceptance, and
a device reset and its release leave the reset values, where they hold. -/
theorem stepKeepsLaws : Obligations.StepKeepsLaws := by
  refine fun s t run => ⟨fun inv =>
    step_keeps Inv (fun a => a.inv) (fun b => b.inv) run inv fun _ rest h => h.withPending rest, fun laws => ?_⟩
  cases low : s.resetLow with
  | false => exact laws.step_high low run
  | true => exact (laws.low low).step_everyLaw run

end Sys2Proof.Proofs
end

section
/-! PROOF. The refusals that many requests share: kinds that a page does not know or does not take, and
parameters outside their ranges (R2, R43, R156, R178). -/

set_option Elab.async false

namespace Sys2Proof.Machine

variable {s : State} {x : Client} {page : Page} {kind a b c : Byte} {v w : Word16} {r : RecordBytes}

/-! ### Kinds and pages (R43, R178) -/

theorem kind?_eq_some {k : Kind} (h : kind? kind = some k) : k.byte = kind := by
  unfold kind? at h
  simpa using List.find?_some h

theorem Kind.byte_toNat (k : Kind) :
    if k.isSupervisor then 0x20 ≤ k.byte.toNat ∧ k.byte.toNat ≤ 0x29
    else 0x01 ≤ k.byte.toNat ∧ k.byte.toNat ≤ 0x0D := by
  cases k <;> decide

theorem kind?_none (h : kind = 0 ∨ 0x0D < kind.toNat ∧ kind.toNat < 0x20 ∨ 0x29 < kind.toNat) :
    kind? kind = none := by
  rw [Option.eq_none_iff_forall_ne_some]
  intro k hk
  have code := k.byte_toNat
  rw [kind?_eq_some hk] at code
  have range : kind.toNat = 0 ∨ 0x0D < kind.toNat ∧ kind.toNat < 0x20 ∨ 0x29 < kind.toNat :=
    h.imp_left fun zero => by rw [zero]; rfl
  split at code <;> omega

theorem takeSupervisorKind_unknown {k : Kind} (h : k.isSupervisor = false) (p : Nat → Byte) (s : State) :
    takeSupervisorKind k p s = refuse .unknown s := by
  cases k <;> first | rfl | cases h

theorem takeRequest_none (h : kind? kind = none) (page : Page) (s : State) :
    takeRequest page kind s = refuse .unknown s := by
  unfold takeRequest
  rw [h]

/-- A kind that no rule of its page knows (R178). -/
theorem takeRequest_unknown
    (h : (page = .supervisor ∧ (kind.toNat < 0x20 ∨ 0x29 < kind.toNat)) ∨
      (page ≠ .supervisor ∧
        (kind = 0 ∨ 0x0D < kind.toNat ∧ kind.toNat < 0x20 ∨ 0x29 < kind.toNat))) (s : State) :
    takeRequest page kind s = refuse .unknown s := by
  rcases h with ⟨rfl, range⟩ | ⟨-, range⟩
  · cases hk : kind? kind with
    | none => exact takeRequest_none hk _ s
    | some k =>
      have code := k.byte_toNat
      rw [kind?_eq_some hk] at code
      have client : k.isSupervisor = false := by
        by_contra supervisor
        rw [if_pos (Bool.not_eq_false _ ▸ supervisor)] at code
        omega
      unfold takeRequest
      rw [hk]
      exact takeSupervisorKind_unknown client _ s
  · exact takeRequest_none (kind?_none range) page s

/-- A supervisor request written through a client page (R43). -/
theorem supervised_client (takes : portTakes s x = true) (kind : Byte) (params : List Byte)
    (body : State → Taken) :
    AnswersRefused (.next (requestFrame (.client x) kind params (supervised (.client x) body) s)) s
      (.client x) kind params .authority .notSupervisor :=
  requestFrame_answersRefused takes rfl rfl

/-! ### Parameters outside their ranges (R2) -/

theorem inRange_lt {n : Nat} {i : Fin n} (h : inRange n b = some i) : b.toNat < n := by
  unfold inRange at h
  split at h
  · assumption
  · cases h

theorem client?_lt (h : client? b = some x) : b.toNat < 4 := by
  by_contra range
  rw [client?_none (not_lt.1 range)] at h
  cases h

theorem setPriorityRequest_range (h : 8 ≤ a.toNat ∨ 4 ≤ b.toNat ∨ 8 ≤ c.toNat) (s : State) :
    setPriorityRequest a b c s = refuse .range s := by
  unfold setPriorityRequest
  split
  · next g x p hg hx hp =>
    have := inRange_lt hg
    have := client?_lt hx
    have := inRange_lt hp
    omega
  · rfl

theorem setPolicyRequest_range (h : 8 ≤ a.toNat) (s : State) :
    setPolicyRequest a b v w s = refuse .range s := by
  unfold setPolicyRequest
  rw [group?_none h]

theorem setPairRequest_range (h : 8 ≤ a.toNat ∨ 32 ≤ b.toNat ∨ 32 ≤ c.toNat ∨ b = c) (s : State) :
    setPairRequest a b c s = refuse .range s := by
  unfold setPairRequest
  split
  · next i l m hi hl hm =>
    have := inRange_lt hi
    have := inRange_lt hl
    have := inRange_lt hm
    have same : b = c := by
      rcases h with h | h | h | h
      · omega
      · omega
      · omega
      · exact h
    subst same
    exact if_pos (Option.some.inj (hl.symm.trans hm))
  · rfl

theorem clearPairRequest_range (h : 8 ≤ a.toNat) (s : State) :
    clearPairRequest a s = refuse .range s := by
  unfold clearPairRequest
  rw [inRange_none h]

theorem setAuditRequest_range (h : 8 ≤ a.toNat) (s : State) :
    setAuditRequest a s = refuse .range s := by
  unfold setAuditRequest audit?
  rw [if_neg (not_lt.2 h)]

theorem detachRequest_range (h : 4 ≤ a.toNat) (s : State) : detachRequest a s = refuse .range s := by
  unfold detachRequest
  rw [client?_none h]

theorem stageRequest_range (h : 32 ≤ a.toNat) (s : State) : stageRequest x a r s = refuse .range s := by
  unfold stageRequest
  rw [line?_none h]

theorem setSafeRequest_range (h : 32 ≤ a.toNat) (s : State) : setSafeRequest a r s = refuse .range s := by
  unfold setSafeRequest
  rw [line?_none h]

/-! ### The requests refused -/

/-- The outcome of a request through its page, by the answer of the block that takes it. -/
theorem exec_claim (x : Client) (b f : Byte) (s : State) :
    exec (.claim x b f) s = .next (requestFrame (.client x) 0x01 [b, f] (claimRequest x b f) s) := rfl

theorem exec_withdraw (x : Client) (b : Byte) (s : State) :
    exec (.withdraw x b) s = .next (requestFrame (.client x) 0x04 [b] (withdrawRequest x b) s) := rfl

theorem exec_stage (x : Client) (l : Byte) (r : RecordBytes) (s : State) :
    exec (.stage x l r) s =
      .next (requestFrame (.client x) 0x05 (l :: recordList r) (stageRequest x l r) s) := rfl

theorem exec_exchange (x : Client) (b : Byte) (s : State) :
    exec (.exchange x b) s = .next (requestFrame (.client x) 0x08 [b] (exchangeRequest x b) s) := rfl

theorem exec_watch (x : Client) (b e : Byte) (s : State) :
    exec (.watch x b e) s = .next (requestFrame (.client x) 0x09 [b, e] (watchRequest x b e) s) := rfl

theorem exec_unwatch (x : Client) (b : Byte) (s : State) :
    exec (.unwatch x b) s = .next (requestFrame (.client x) 0x0A [b] (unwatchRequest x b) s) := rfl

theorem exec_forceRelease (b : Byte) (s : State) : exec (.forceRelease .supervisor b) s =
    .next (requestFrame .supervisor 0x20 [b] (forceReleaseRequest b) s) := rfl

theorem exec_withhold (b : Byte) (s : State) : exec (.withhold .supervisor b) s =
    .next (requestFrame .supervisor 0x21 [b] (withholdRequest b) s) := rfl

theorem exec_openGroup (b : Byte) (s : State) : exec (.openGroup .supervisor b) s =
    .next (requestFrame .supervisor 0x22 [b] (openRequest b) s) := rfl

theorem exec_setPriority (a b c : Byte) (s : State) : exec (.setPriority .supervisor a b c) s =
    .next (requestFrame .supervisor 0x23 [a, b, c] (setPriorityRequest a b c) s) := rfl

theorem exec_setPolicy (a b : Byte) (v w : Word16) (s : State) :
    exec (.setPolicy .supervisor a b v w) s =
      .next (requestFrame .supervisor 0x24
        [a, b, v.extractLsb' 8 8, v.extractLsb' 0 8, w.extractLsb' 8 8, w.extractLsb' 0 8]
        (setPolicyRequest a b v w) s) := rfl

theorem exec_setSafe (l : Byte) (r : RecordBytes) (s : State) : exec (.setSafe .supervisor l r) s =
    .next (requestFrame .supervisor 0x25 (l :: recordList r) (setSafeRequest l r) s) := rfl

theorem exec_setPair (i a b : Byte) (s : State) : exec (.setPair .supervisor i a b) s =
    .next (requestFrame .supervisor 0x26 [i, a, b] (setPairRequest i a b) s) := rfl

theorem exec_clearPair (i : Byte) (s : State) : exec (.clearPair .supervisor i) s =
    .next (requestFrame .supervisor 0x27 [i] (clearPairRequest i) s) := rfl

theorem exec_setAudit (b : Byte) (s : State) : exec (.setAudit .supervisor b) s =
    .next (requestFrame .supervisor 0x28 [b] (setAuditRequest b) s) := rfl

theorem exec_detach (b : Byte) (s : State) : exec (.detach .supervisor b) s =
    .next (requestFrame .supervisor 0x29 [b] (detachRequest b) s) := rfl

/-- A request refused RANGE at its first test. -/
theorem requestFrame_range {params : List Byte} {body : State → Taken}
    (takes : portTakes s (pagePort page) = true) (h : ∀ t, body t = refuse .range t) :
    AnswersRefused (.next (requestFrame page kind params body s)) s page kind params .range .range :=
  requestFrame_answersRefused takes rfl (h _)

end Sys2Proof.Machine

namespace Sys2Proof.Proofs

open Sys2Proof.Machine

/-- Settles O20: the dispatch by kind and page. -/
theorem pagesRefuseKinds : Obligations.PagesRefuseKinds := by
  refine ⟨fun s page kind takes unknown => ?_, fun s x a b c v w r takes => ?_⟩
  · exact requestFrame_answersRefused takes rfl (takeRequest_unknown unknown _)
  · exact ⟨supervised_client takes 0x20 _ _, supervised_client takes 0x21 _ _,
      supervised_client takes 0x22 _ _, supervised_client takes 0x23 _ _,
      supervised_client takes 0x24 _ _, supervised_client takes 0x25 _ _,
      supervised_client takes 0x26 _ _, supervised_client takes 0x27 _ _,
      supervised_client takes 0x28 _ _, supervised_client takes 0x29 _ _⟩

/-- Settles O21: each request's first test is the range of a parameter. -/
theorem parametersOutOfRange : Obligations.ParametersOutOfRange := by
  refine fun s x a b c v w r range => ⟨fun takes => ?_, fun takes => ?_⟩
  · have group : ∀ {kind params} {body : Group → State → Taken},
        AnswersRefused (.next (requestFrame (.client x) kind params
          (fun t => withGroup a t fun g => body g t) s)) s (.client x) kind params .range .range :=
      requestFrame_range takes fun t => withGroup_none range t _
    exact ⟨group, group, group, group, group, group, group, group,
      fun line => requestFrame_range takes (stageRequest_range line)⟩
  · have group : ∀ {kind params} {body : Group → State → Taken},
        AnswersRefused (.next (requestFrame .supervisor kind params
          (fun t => withGroup a t fun g => body g t) s)) s .supervisor kind params .range .range :=
      requestFrame_range takes fun t => withGroup_none range t _
    exact ⟨group, group, group,
      requestFrame_range takes (setPriorityRequest_range (.inl range)),
      requestFrame_range takes (setPriorityRequest_range (.inr (.inl (by omega)))),
      requestFrame_range takes (setPriorityRequest_range (.inr (.inr range))),
      requestFrame_range takes (setPolicyRequest_range range),
      requestFrame_range takes (setPairRequest_range (.inl range)),
      requestFrame_range takes (setPairRequest_range (.inr (.inr (.inr rfl)))),
      fun line => ⟨requestFrame_range takes (setPairRequest_range (.inr (.inl line))),
        requestFrame_range takes (setPairRequest_range (.inr (.inr (.inl line)))),
        requestFrame_range takes (setSafeRequest_range line)⟩,
      requestFrame_range takes (clearPairRequest_range range),
      requestFrame_range takes (setAuditRequest_range range),
      requestFrame_range takes (detachRequest_range (by omega))⟩

end Sys2Proof.Proofs
end

section
/-! PROOF. CLAIM: its tests, the claim that waits, and the claim that preempts (R24, R26, R27, R46, R47, R53 to
R55). -/

set_option Elab.async false

namespace Sys2Proof.Machine

variable {s t u v : State} {g : Group} {x h : Client} {b f : Byte} {prio : Priority}
  {wait preempt restore : Bool} {c : Claim} {rest w : List Claim} {cfg : GroupConfig}

/-! ### What every law needs of a request that is being taken -/

theorem SameExcept.waits {ps : List Part} (k : SameExcept ps s t) (x : Client) (g : Group)
    (hp : Part.lease ∉ ps := by decide) : t.waits x g = s.waits x g := by
  unfold State.waits
  rw [k.entry g hp]

/-- A frame without a part that is the same too. -/
theorem SameExcept.without {ps qs : List Part} (k : SameExcept ps s t) (p : Part) (same : p.same s t)
    (sub : ∀ q ∈ ps, q ≠ p → q ∈ qs := by decide) : SameExcept qs s t := fun q hq => by
  by_cases e : q = p
  · rw [e]; exact same
  · exact k q fun hp => hq (sub q hp e)

/-- Storing a request keeps every law but those of the ports. -/
theorem Stored.inv (st : Stored s t) (inv : Inv s) : Inv t :=
  (Acts.of_frame st.frame).keep Inv (fun a => a.inv) inv

/-! ### The tests (R24) -/

theorem claimRequest_withheld (hb : b.toNat = g.val) (withheld : (s.entry g).state = .withheld) :
    claimRequest x b f s = refuse .withheld s := by
  unfold claimRequest
  rw [withGroup_some hb, if_pos withheld]

theorem claimRequest_ineligible (hb : b.toNat = g.val) (opened : (s.entry g).state ≠ .withheld)
    (no : (s.policy.get g).priority.get x = 0) : claimRequest x b f s = refuse .ineligible s := by
  unfold claimRequest
  rw [withGroup_some hb, if_neg opened, if_pos no]

theorem claimRequest_alreadyHeld (hb : b.toNat = g.val) (opened : (s.entry g).state ≠ .withheld)
    (yes : (s.policy.get g).priority.get x ≠ 0) (holder : s.holder g = some x) :
    claimRequest x b f s = refuse .alreadyHeld s := by
  unfold claimRequest
  rw [withGroup_some hb, if_neg opened, if_neg yes, if_pos holder]

theorem claimRequest_alreadyWaiting (hb : b.toNat = g.val) (opened : (s.entry g).state ≠ .withheld)
    (yes : (s.policy.get g).priority.get x ≠ 0) (holder : s.holder g ≠ some x)
    (waiting : s.waits x g = true) : claimRequest x b f s = refuse .alreadyWaiting s := by
  unfold claimRequest
  rw [withGroup_some hb, if_neg opened, if_neg yes, if_neg holder, if_pos waiting]

/-- A CLAIM that passes the tests of R24. -/
structure ClaimPasses (s : State) (x : Client) (g : Group) : Prop where
  opened : (s.entry g).state ≠ .withheld
  eligible : (s.policy.get g).priority.get x ≠ 0
  notHolder : s.holder g ≠ some x
  notWaiting : s.waits x g = false

theorem ClaimPasses.frame (p : ClaimPasses s x g) (k : SameExcept [.ports] s u) : ClaimPasses u x g :=
  ⟨by rw [k.entry]; exact p.opened, by rw [k.policy]; exact p.eligible,
    by rw [k.holder]; exact p.notHolder, by rw [k.waits]; exact p.notWaiting⟩

theorem claimRequest_passes (hb : b.toNat = g.val) (p : ClaimPasses s x g) :
    claimRequest x b f s =
      takeClaim g x ((s.policy.get g).priority.get x) (f.getLsbD 0) (f.getLsbD 1) (f.getLsbD 2) s := by
  unfold claimRequest
  rw [withGroup_some hb, if_neg p.opened, if_neg p.eligible, if_neg p.notHolder,
    if_neg (by rw [p.notWaiting]; decide)]

/-! ### What a claim that has passed them does (R25 to R27) -/

theorem preempts_iff : preempts g prio preempt s = true ↔
    preempt = true ∧ (s.policy.get g).preemptible = true ∧
      ∃ q, (s.entry g).priority = some q ∧ q < prio := by
  unfold preempts
  cases (s.entry g).priority <;> simp [and_assoc]

theorem preempts_frame (k : SameExcept [.ports] s u) :
    preempts g prio preempt u = preempts g prio preempt s := by
  unfold preempts
  rw [k.policy, k.entry]

/-- A claim that neither is granted at once nor preempts (R26, R27). -/
def ClaimQueues (g : Group) (prio : Priority) (preempt : Bool) (s : State) : Prop :=
  (s.entry g).state = .revoking ∨ (s.entry g).state = .held ∧ preempts g prio preempt s = false

theorem ClaimQueues.frame (q : ClaimQueues g prio preempt s) (k : SameExcept [.ports] s u) :
    ClaimQueues g prio preempt u := by
  unfold ClaimQueues
  rw [k.entry, preempts_frame k]
  exact q

theorem takeClaim_queued (q : ClaimQueues g prio preempt s) :
    takeClaim g x prio true preempt restore s =
      (queueClaim g x prio preempt restore s, { code := .queued }) := by
  unfold takeClaim
  rcases q with state | ⟨state, stays⟩
  · rw [state]; rfl
  · rw [state, stays]; rfl

theorem takeClaim_busy (q : ClaimQueues g prio preempt s) :
    takeClaim g x prio false preempt restore s = refuse .busy s := by
  unfold takeClaim
  rcases q with state | ⟨state, stays⟩
  · rw [state]; rfl
  · rw [state, stays]; rfl

theorem takeClaim_preempts (state : (s.entry g).state = .held)
    (takes : preempts g prio preempt s = true) :
    takeClaim g x prio wait preempt restore s =
      (startRevocation g (queueClaim g x prio preempt restore s), { code := .queued }) := by
  unfold takeClaim
  rw [state, takes]
  rfl

theorem takeClaim_safe (state : (s.entry g).state = .safe) :
    takeClaim g x prio wait preempt restore s =
      (grantFromSafe g x prio restore s, { code := .granted }) := by
  unfold takeClaim
  rw [state]

/-- A claim queued stands at its place in the list, and nothing else has changed (R46, R47). -/
theorem exec_claim_queued (takes : portTakes s x = true) (hb : b.toNat = g.val) (law : LeaseLaw s)
    (p : ClaimPasses s x g) (wait : f.getLsbD 0 = true)
    (q : ClaimQueues g ((s.policy.get g).priority.get x) (f.getLsbD 1) s) :
    ∃ t w, exec (.claim x b f) s = .next t ∧ Served s t (.client x) 0x01 [b, f] .queued 0 ∧
      Inserted ⟨x, (s.policy.get g).priority.get x, f.getLsbD 1, f.getLsbD 2, (s.entry g).arrivals⟩
        (s.entry g).waiting w ∧
      t.entry g = { s.entry g with waiting := w, arrivals := (s.entry g).arrivals + 1 } ∧
      OtherEntries g s t ∧ SameExcept [.lease, .ports] s t := by
  have before := prepared_client x 0x01 [b, f] s
  have queued := queueClaim_frame g x ((s.policy.get g).priority.get x) (f.getLsbD 1) (f.getLsbD 2)
    (prepared (.client x) 0x01 [b, f] s)
  obtain ⟨served, after⟩ := request_accepted takes
    ((claimRequest_passes hb (p.frame before)).trans
      (by rw [wait, before.policy]; exact takeClaim_queued (q.frame before))) rfl queued
  refine ⟨_, _, exec_claim x b f s, served, insertClaim_inserted _ _ (law.sorted g), ?_,
    fun k hk => ?_, (before.mono.trans queued.mono).trans after.mono⟩
  · rw [after.entry, queueClaim_entry, before.entry]
  · rw [after.entry, queueClaim_other _ _ _ _ _ k hk, before.entry]

theorem exec_claim_busy (takes : portTakes s x = true) (hb : b.toNat = g.val)
    (p : ClaimPasses s x g) (nowait : f.getLsbD 0 = false)
    (q : ClaimQueues g ((s.policy.get g).priority.get x) (f.getLsbD 1) s) :
    AnswersRefused (exec (.claim x b f) s) s (.client x) 0x01 [b, f] .sequence .busy := by
  have before := prepared_client x 0x01 [b, f] s
  rw [exec_claim]
  exact requestFrame_answersRefused takes rfl ((claimRequest_passes hb (p.frame before)).trans
    (by rw [nowait, before.policy]; exact takeClaim_busy (q.frame before)))

/-! ### The start of a revocation (R54, R55) -/

/-- A revocation with a grace period: the entry, the notice and the watchers (R54). -/
theorem startRevocation_spec (period : (s.policy.get g).gracePeriod ≠ 0) :
    (startRevocation g s).entry g = { s.entry g with
        state := .revoking, timer := .stopped, grace := some (s.policy.get g).gracePeriod } ∧
      OtherEntries g s (startRevocation g s) ∧ SameExcept [.lease, .queues] s (startRevocation g s) ∧
      Sends s (startRevocation g s) fun y =>
        toHolder (s.holder g) [.revokeNotice g (s.policy.get g).gracePeriod] y ++
          toWatchers s g .revoking (s.holder g) y := by
  unfold startRevocation
  rw [if_neg period]
  have f1 := withEntry_frame g (fun e : LeaseEntry =>
    { e with state := .revoking, timer := .stopped, grace := some (s.policy.get g).gracePeriod }) s
  have self : (s.withEntry g fun e =>
      { e with state := .revoking, timer := .stopped,
               grace := some (s.policy.get g).gracePeriod }).entry g =
      { s.entry g with state := .revoking, timer := .stopped,
                       grace := some (s.policy.get g).gracePeriod } :=
    State.withEntry_entry_self _ _ _
  have other : OtherEntries g s (s.withEntry g fun e =>
      { e with state := .revoking, timer := .stopped,
               grace := some (s.policy.get g).gracePeriod }) :=
    fun k hk => State.withEntry_entry_ne _ _ hk
  dsimp only
  generalize s.withEntry g (fun e =>
    { e with state := .revoking, timer := .stopped,
             grace := some (s.policy.get g).gracePeriod }) = u at *
  have f2 := appendHolder_frame g (.revokeNotice g (s.policy.get g).gracePeriod) u
  have s2 := appendHolder_sends g (.revokeNotice g (s.policy.get g).gracePeriod) u
  generalize appendHolder g (.revokeNotice g (s.policy.get g).gracePeriod) u = v at *
  have f3 := notifyWatchers_frame g v
  refine ⟨by rw [f3.entry, f2.entry, self], fun k hk => by rw [f3.entry, f2.entry, other k hk],
    (f1.mono.trans f2.mono).trans f3.mono,
    ((s2.trans (notifyWatchers_sends g v) f2).start f1).of_eq fun y => ?_⟩
  have holder : u.holder g = s.holder g := by unfold State.holder; rw [self]
  unfold toWatchers
  rw [f2.entry, f2.watch, f1.watch, holder, self]
  rfl

theorem startRevocation_atOnce (period : (s.policy.get g).gracePeriod = 0) :
    startRevocation g s = forcedLoss g .revoked s := by
  unfold startRevocation
  rw [if_pos period]

/-- A claim that preempts is answered QUEUED after the revocation it starts, of which only the grace period
decides what it is. -/
theorem exec_claim_preempts (takes : portTakes s x = true) (hb : b.toNat = g.val)
    (p : ClaimPasses s x g) (state : (s.entry g).state = .held)
    (passes : preempts g ((s.policy.get g).priority.get x) (f.getLsbD 1) s = true) :
    ∃ t u, exec (.claim x b f) s = .next t ∧ Served s t (.client x) 0x01 [b, f] .queued 0 ∧
      Stored s u ∧ SameExcept [.ports] s u ∧
      SameExcept [.ports] (startRevocation g
        (queueClaim g x ((s.policy.get g).priority.get x) (f.getLsbD 1) (f.getLsbD 2) u)) t := by
  have before := prepared_client x 0x01 [b, f] s
  have frame := (queueClaim_frame g x ((s.policy.get g).priority.get x) (f.getLsbD 1) (f.getLsbD 2)
    (prepared (.client x) 0x01 [b, f] s)).mono.trans (startRevocation_frame g _)
  obtain ⟨served, after⟩ := request_accepted takes
    ((claimRequest_passes hb (p.frame before)).trans (by
      rw [before.policy]
      exact takeClaim_preempts (by rw [before.entry]; exact state)
        ((preempts_frame before).trans passes))) rfl frame
  exact ⟨_, _, exec_claim x b f s, served, prepared_stored _ _ _ s, before, after⟩

/-! ### A preemption with a grace period of 0 (R55) -/

theorem Inserted.mem (i : Inserted c rest w) {d : Claim} (hd : d ∈ w) : d = c ∨ d ∈ rest := by
  obtain ⟨front, back, rfl, rfl, -, -⟩ := i
  simpa [or_left_comm] using hd

/-- What a handover to a restoring claim does, seen from before its claim was queued. -/
theorem HandsOverRestoring.base {sends : (Client → List Event) → Prop}
    (k : SameExcept [.lease] s u) (holders : ∀ k, u.holder k = s.holder k)
    (others : OtherEntries g s u) (ho : HandsOverRestoring u t g c rest cfg sends) :
    HandsOverRestoring s t g c rest cfg sends := by
  obtain ⟨held, entries, outside, rs, ⟨events, free, order, blocked⟩, verdict⟩ := ho
  have same : asserted u = asserted s := funext fun l => k.asserted l
  rw [same] at order blocked
  have r : Resumed (only g) (asserted s) u t rs := ⟨events, free, order, blocked⟩
  have watchers : ∀ st n, toWatchers u g st n = toWatchers s g st n := by
    intro st n; funext y; unfold toWatchers; rw [k.watch]
  have judged : judge (Proposal.of u [(g, cfg)] false) u = judge (Proposal.of s [(g, cfg)] false) s :=
    judge_only cfg (fun l _ => k.record l) (fun l _ => k.driver l) k.pairs
  have takes : ∀ cfg, GroupTakes g cfg u t → GroupTakes g cfg s t :=
    fun cfg tk => Replaced.base tk fun l _ => k.asserted l
  refine ⟨?_, fun m hm => (entries m hm).trans (others m hm), ?_, rs,
    (r.base (fun l _ => by rw [k.driver]) (fun l _ => k.asserted l) fun m _ => holders m).resumes, ?_⟩
  · unfold Held at *; rw [k.policy] at held; exact held
  · exact outside.base (fun l _ => k.record l) fun l _ => k.driver l
  · rw [judged] at verdict
    simp only [watchers] at verdict
    rw [k.policy] at verdict
    split at verdict <;> (obtain ⟨park, tk, sd⟩ := verdict; exact ⟨park, takes _ tk, sd⟩)

theorem LosesToRestore.base {reason : LossReason} (k : SameExcept [.lease] s u)
    (holders : ∀ k, u.holder k = s.holder k) (others : OtherEntries g s u)
    (l : LosesToRestore u t g h reason c rest cfg) : LosesToRestore s t g h reason c rest cfg := by
  obtain ⟨ho, drops, park, parks⟩ := l
  have loss : lossEvents u g h reason = lossEvents s g h reason := by
    funext y; unfold lossEvents cutEvents dropEvents; simp only [k.driver, k.deferred, k.audit]
  refine ⟨?_, ?_, ?_, fun y m hn hn' => by rw [parks y m hn hn', k.park]⟩
  · have ho := ho.base k holders others
    simp only [loss] at ho
    exact ho.transport (.refl _ _) (.refl _ _) fun es es' he sd =>
      (sd.start k).of_eq fun y => by rw [he]
  · unfold DropsDeferred dropEvents at *; rw [k.deferred] at drops; exact drops
  · rw [park]; unfold State.groupConfig; congr 2; funext p; exact k.record _

theorem queueClaim_holder (x : Client) (prio : Priority) (p r : Bool) (s : State) (k : Group) :
    (queueClaim g x prio p r s).holder k = s.holder k := by
  unfold State.holder
  by_cases e : k = g
  · subst e; rw [queueClaim_entry]
  · rw [queueClaim_other x prio p r s k e]

end Sys2Proof.Machine

namespace Sys2Proof.Proofs

open Sys2Proof.Machine

/-- Settles O22: the tests in their order. -/
theorem claimTests : Obligations.ClaimTests := by
  intro s x b f g takes hb
  have before := prepared_client x 0x01 [b, f] s
  rw [exec_claim]
  refine ⟨fun withheld => ?_, fun opened no => ?_, fun opened yes holder => ?_,
    fun opened yes holder waits => ?_⟩
  · exact requestFrame_answersRefused takes rfl
      (claimRequest_withheld hb (by rw [before.entry]; exact withheld))
  · exact requestFrame_answersRefused takes rfl
      (claimRequest_ineligible hb (by rw [before.entry]; exact opened)
        (by rw [before.policy]; exact no))
  · exact requestFrame_answersRefused takes rfl
      (claimRequest_alreadyHeld hb (by rw [before.entry]; exact opened)
        (by rw [before.policy]; exact yes) (by rw [before.holder]; exact holder))
  · exact requestFrame_answersRefused takes rfl
      (claimRequest_alreadyWaiting hb (by rw [before.entry]; exact opened)
        (by rw [before.policy]; exact yes) (by rw [before.holder]; exact holder)
        (by rw [before.waits]; exact waits))

/-- Settles O25: the claim is queued at its place, or refused BUSY. -/
theorem claimOnHeldWaits : Obligations.ClaimOnHeldWaits := by
  intro s x b f g law takes hb state eligible holder waits stays
  have passes : ClaimPasses s x g := ⟨by rw [state]; decide, eligible, holder, waits⟩
  have queues : ClaimQueues g ((s.policy.get g).priority.get x) (f.getLsbD 1) s :=
    .inr ⟨state, by rwa [← Bool.not_eq_true, preempts_iff]⟩
  exact ⟨fun wait => exec_claim_queued takes hb law passes wait queues,
    fun nowait => exec_claim_busy takes hb passes nowait queues⟩

/-- Settles O26: the claim is queued at its place, or refused BUSY, and the revocation goes on. -/
theorem claimOnRevoking : Obligations.ClaimOnRevoking := by
  intro s x b f g law takes hb state eligible holder waits
  have passes : ClaimPasses s x g := ⟨by rw [state]; decide, eligible, holder, waits⟩
  exact ⟨fun wait => exec_claim_queued takes hb law passes wait (.inl state),
    fun nowait => exec_claim_busy takes hb passes nowait (.inl state)⟩

/-- Settles O27: the claim is queued and the revocation starts. -/
theorem claimPreempts : Obligations.ClaimPreempts := by
  intro s x b f g q law takes hb state holder waits preempt preemptible priority above period
  have eligible : (s.policy.get g).priority.get x ≠ 0 := fun e =>
    absurd (e ▸ above) (Fin.not_lt_zero q)
  obtain ⟨t, u, next, served, stored, before, after⟩ := exec_claim_preempts takes hb
    ⟨by rw [state]; decide, eligible, holder, waits⟩ state
    (preempts_iff.2 ⟨preempt, preemptible, q, priority, above⟩)
  have queued := queueClaim_frame g x ((s.policy.get g).priority.get x) (f.getLsbD 1) (f.getLsbD 2) u
  have period' : ((queueClaim g x ((s.policy.get g).priority.get x) (f.getLsbD 1) (f.getLsbD 2)
      u).policy.get g).gracePeriod = (s.policy.get g).gracePeriod := by
    rw [queued.policy, before.policy]
  obtain ⟨entry, others, frame, sends⟩ := startRevocation_spec (g := g) (by rw [period']; exact period)
  rw [period'] at entry sends
  refine ⟨t, _, next, served, insertClaim_inserted ⟨x, _, true, f.getLsbD 2, _⟩ _ (law.sorted g), ?_,
    fun k hk => ?_, ((before.mono.trans queued.mono).trans frame.mono).trans after.mono, ?_⟩
  · rw [after.entry, entry, queueClaim_entry, before.entry, preempt]
  · rw [after.entry, others k hk, queueClaim_other _ _ _ _ _ k hk, before.entry]
  · refine (Sends.answered stored after (sends.start queued)).of_eq fun y => ?_
    unfold toWatchers
    rw [queueClaim_holder, before.holder, queued.watch, before.watch]

/-- A preemption at once, with what the forced loss of the queued claim's state needs. -/
theorem preempts_atOnce {s : State} {x h : Client} {b f : Byte} {g : Group} {q : Priority}
    {w : List Claim} (inv : Inv s) (takes : portTakes s x = true) (hb : b.toNat = g.val)
    (state : (s.entry g).state = .held) (holder : s.holder g = some h) (other : h ≠ x)
    (waits : s.waits x g = false) (preempt : f.getLsbD 1 = true)
    (preemptible : (s.policy.get g).preemptible = true) (priority : (s.entry g).priority = some q)
    (above : q < (s.policy.get g).priority.get x) (period : (s.policy.get g).gracePeriod = 0)
    (inserted : Inserted ⟨x, (s.policy.get g).priority.get x, true, f.getLsbD 2,
      (s.entry g).arrivals⟩ (s.entry g).waiting w) :
    ∃ t u v, exec (.claim x b f) s = .next t ∧ Served s t (.client x) 0x01 [b, f] .queued 0 ∧
      Stored s u ∧ SameExcept [.ports] s u ∧ SameExcept [.lease] u v ∧
      (∀ k, v.holder k = u.holder k) ∧ OtherEntries g u v ∧ (v.entry g).waiting = w ∧
      (∀ c ∈ w, c.client ≠ h) ∧ SameExcept [.ports] (forcedLoss g .revoked v) t := by
  have eligible : (s.policy.get g).priority.get x ≠ 0 := fun e =>
    absurd (e ▸ above) (Fin.not_lt_zero q)
  obtain ⟨t, u, next, served, stored, before, after⟩ := exec_claim_preempts takes hb
    ⟨by rw [state]; decide, eligible, by rw [holder]; simpa using other, waits⟩ state
    (preempts_iff.2 ⟨preempt, preemptible, q, priority, above⟩)
  have queued := queueClaim_frame g x ((s.policy.get g).priority.get x) (f.getLsbD 1) (f.getLsbD 2) u
  rw [startRevocation_atOnce (by rw [queued.policy, before.policy]; exact period)] at after
  refine ⟨t, u, _, next, served, stored, before, queued, queueClaim_holder x _ _ _ u,
    queueClaim_other x _ _ _ u, ?_, fun c hc => ?_, after⟩
  · rw [queueClaim_entry, before.entry, inserted.eq_insertClaim, preempt]
  · rcases inserted.mem hc with rfl | hc
    · exact other.symm
    · exact inv.lease.head_ne holder hc

/-- Settles O28: the forced loss in the claim's own transaction, seen from before it. -/
theorem claimPreemptsAtOnce : Obligations.ClaimPreemptsAtOnce := by
  intro s x h b f g q inv takes hb state holder other waits preempt preemptible priority above period
    w inserted noRestore
  obtain ⟨t, u, v, next, served, stored, before, queued, holders, others, waiting, ne, after⟩ :=
    preempts_atOnce inv takes hb state holder other waits preempt preemptible priority above period
      inserted
  have inv' := stored.inv inv
  have loss := forcedLoss_spec (g := g) (reason := .revoked) (by decide)
    ((holders g).trans ((before.holder g).trans holder)) (by rw [waiting]; exact ne)
    (by unfold PairsDistinct; rw [queued.pairs]; exact inv'.pairs.distinct)
    (by unfold SafeConfigLaw; rw [queued.policy]; exact inv'.config.2.1)
    (by unfold NoRestore; rw [waiting, queued.park, before.park]; exact noRestore)
  rw [waiting] at loss
  exact ⟨t, next, served, (loss.base queued holders others).transport stored after,
    ((before.mono.trans queued.mono).trans (forcedLoss_frame g .revoked v).mono).trans after.mono⟩

end Sys2Proof.Proofs
end

section
/-! PROOF. A claim on a SAFE group: granted at once, with or without a restore (R25, R85 to R87). -/

set_option Elab.async false

namespace Sys2Proof.Machine

variable {s t u v : State} {g : Group} {x : Client} {b f : Byte} {prio : Priority} {restore : Bool}
  {cfg : GroupConfig}

/-- The lines of a group at its safe configuration have no driver state (R107, R109). -/
theorem Inv.resting (inv : Inv s) (state : (s.entry g).state = .safe) {l : Line} (hl : groupOf l = g) :
    s.driver l = ⟨none, none⟩ := by
  have none : s.holder g = none := inv.lease.no_holder_of_safe state
  obtain ⟨-, pulse, mirror, -⟩ := inv.drivers l
  rw [hl, none] at pulse mirror
  cases hd : s.driver l with
  | mk p m =>
    rw [hd] at pulse mirror
    cases p <;> cases m <;> simp_all

/-- The lease entry of a group that a claim has taken from SAFE (R25). -/
def takenFromSafe (g : Group) (x : Client) (prio : Priority) (s : State) : State :=
  s.withEntry g fun e =>
    { e with state := .held, holder := some x, priority := some prio,
             timer := (s.policy.get g).startLease }

theorem grantFromSafe_eq (g : Group) (x : Client) (prio : Priority) (restore : Bool) (s : State) :
    grantFromSafe g x prio restore s =
      notifyWatchers g (grant g x restore (asserted s) (takenFromSafe g x prio s)) := rfl

theorem takenFromSafe_frame (g : Group) (x : Client) (prio : Priority) (s : State) :
    SameExcept [.lease] s (takenFromSafe g x prio s) := withEntry_frame _ _ _

/-- Once the entry is taken, the grant leaves it. -/
theorem takenFromSafe_grant (g : Group) (x : Client) (prio : Priority) (restore : Bool) (s : State) :
    SameExcept [.active, .drivers, .park, .queues] (takenFromSafe g x prio s)
      (grantFromSafe g x prio restore s) := by
  rw [grantFromSafe_eq]
  exact (grant_frame _ _ _ _ _).trans (notifyWatchers_frame g _).mono

theorem takenFromSafe_other (x : Client) (prio : Priority) (s : State) :
    OtherEntries g s (takenFromSafe g x prio s) := fun _ hk => State.withEntry_entry_ne _ _ hk

theorem takenFromSafe_held (law : LeaseLaw s) (state : (s.entry g).state = .safe)
    (same : t.entry g = (takenFromSafe g x prio s).entry g) : Held s t g x prio [] := by
  obtain ⟨⟨-, -, waiting, -, -, grace⟩, -⟩ := law g
  have noGrace : (s.entry g).grace = none := by
    rw [← Option.not_isSome_iff_eq_none, grace, state]
    decide
  unfold takenFromSafe at same
  rw [State.withEntry_entry_self] at same
  unfold Held
  rw [same]
  exact ⟨rfl, rfl, rfl, rfl, noGrace, waiting (.inl state)⟩

/-- The safe configuration stays in place where a SAFE group takes it again (R88). -/
theorem replaceGroup_safe_same (inv : Inv s) (state : (s.entry g).state = .safe)
    (k : SameExcept [.lease, .queues] s u) :
    replaceGroup g (u.policy.get g).safe (asserted s) u = u := by
  have same : asserted s = asserted u := (funext fun l => k.asserted l).symm
  rw [same]
  refine replaceGroup_same g _ u (fun l hl => ?_) (fun p => ?_) fun l hl => ?_
  · subst hl
    rw [k.record, k.policy]
    exact inv.atSafe l (by unfold atSafe; rw [state]; rfl)
  · rw [k.policy]; exact inv.config.2.1 g p
  · rw [k.driver]; exact inv.resting state hl

theorem grant_safe (restore : Bool) (was : Line → Bool) (s : State)
    (no : restore = false ∨ (s.park.get x).get g = none) :
    grant g x restore was s = replaceGroup g (s.policy.get g).safe was s := by
  unfold grant
  rcases no with e | e
  · rw [e]
  · rw [e]; cases restore <;> rfl

/-- A grant that tries no restore tells the watchers and nothing else (R25). -/
theorem grantFromSafe_plain (inv : Inv s) (state : (s.entry g).state = .safe)
    (no : restore = false ∨ (s.park.get x).get g = none) :
    grantFromSafe g x prio restore s = notifyWatchers g (takenFromSafe g x prio s) := by
  have taken := takenFromSafe_frame g x prio s
  rw [grantFromSafe_eq, grant_safe restore _ _ (by rw [taken.park]; exact no),
    replaceGroup_safe_same inv state taken.mono]

/-- The park configuration of a claim with RESTORE is judged in the state before the claim. -/
theorem grantFromSafe_judged (parked : (s.park.get x).get g = some cfg) :
    grantFromSafe g x prio true s = notifyWatchers g
      (match judge (Proposal.of s [(g, cfg)] false) s with
      | .accepted => replaceGroup g cfg (asserted s)
          { takenFromSafe g x prio s with
            park := (takenFromSafe g x prio s).park.modify x fun t => t.put g none }
      | .loop => replaceGroup g ((takenFromSafe g x prio s).policy.get g).safe (asserted s)
          (append x (.restoreRefused g .loop) (takenFromSafe g x prio s))
      | .interlock _ => replaceGroup g ((takenFromSafe g x prio s).policy.get g).safe (asserted s)
          (append x (.restoreRefused g .interlock) (takenFromSafe g x prio s))) := by
  have taken := takenFromSafe_frame g x prio s
  rw [grantFromSafe_eq, grant_restores (c := ⟨x, prio, false, true, 0⟩) _ rfl
    (by rw [taken.park]; exact parked), judge_only (s := s) cfg (fun l _ => taken.record l)
    (fun l _ => taken.driver l) taken.pairs] <;>
    (cases judge (Proposal.of s [(g, cfg)] false) s <;> rfl)

theorem grantFromSafe_refused (reason : CheckReason) (inv : Inv s) (state : (s.entry g).state = .safe)
    (parked : (s.park.get x).get g = some cfg)
    (refused : judge (Proposal.of s [(g, cfg)] false) s = .loop ∧ reason = .loop ∨
      (∃ i, judge (Proposal.of s [(g, cfg)] false) s = .interlock i) ∧ reason = .interlock) :
    grantFromSafe g x prio true s =
      notifyWatchers g (append x (.restoreRefused g reason) (takenFromSafe g x prio s)) := by
  have taken := takenFromSafe_frame g x prio s
  have stays : ∀ e, replaceGroup g ((takenFromSafe g x prio s).policy.get g).safe (asserted s)
      (append x e (takenFromSafe g x prio s)) = append x e (takenFromSafe g x prio s) := fun e => by
    have told := append_frame x e (takenFromSafe g x prio s)
    rw [← told.policy]
    exact replaceGroup_safe_same inv state (taken.mono.trans told.mono)
  rw [grantFromSafe_judged parked]
  rcases refused with ⟨e, rfl⟩ | ⟨⟨i, e⟩, rfl⟩
  · rw [e]; exact congrArg _ (stays _)
  · rw [e]; exact congrArg _ (stays _)

/-- The watchers of a group hear that a claim has taken it from SAFE. -/
theorem takenFromSafe_told {es : Client → List Event} (k : SameExcept [.active, .drivers, .park, .queues]
      (takenFromSafe g x prio s) u) (sends : Sends (takenFromSafe g x prio s) u es) :
    Sends s (notifyWatchers g u) fun y => es y ++ toWatchers s g .held (some x) y := by
  have taken := takenFromSafe_frame g x prio s
  have entry : u.entry g = { s.entry g with
      state := .held, holder := some x, priority := some prio,
      timer := (s.policy.get g).startLease } := by
    rw [k.entry]; exact State.withEntry_entry_self _ _ _
  refine ((sends.trans (notifyWatchers_sends g u) k).start taken).of_eq fun y => ?_
  unfold toWatchers
  rw [k.watch, taken.watch, entry]

theorem grantFromSafe_takes (inv : Inv s) (state : (s.entry g).state = .safe)
    (parked : (s.park.get x).get g = some cfg)
    (accepted : judge (Proposal.of s [(g, cfg)] false) s = .accepted) :
    ((grantFromSafe g x prio true s).park.get x).get g = none ∧
    (∀ y k, ¬ (y = x ∧ k = g) →
      ((grantFromSafe g x prio true s).park.get y).get k = (s.park.get y).get k) ∧
    GroupTakes g cfg s (grantFromSafe g x prio true s) ∧
    LinesOutside (only g) s (grantFromSafe g x prio true s) ∧
    ∃ rs, Resumes (only g) s (grantFromSafe g x prio true s) rs ∧
      Sends s (grantFromSafe g x prio true s) fun y =>
        heldEvents (only g) (grantFromSafe g x prio true s) y ++ rs y ++
          toWatchers s g .held (some x) y := by
  have e := grantFromSafe_judged (prio := prio) parked
  rw [accepted] at e
  dsimp only at e
  have taken := takenFromSafe_frame g x prio s
  have forgot := withPark_frame ((takenFromSafe g x prio s).park.modify x fun t => t.put g none)
    (takenFromSafe g x prio s)
  have base : SameExcept [.lease, .park] s
      { takenFromSafe g x prio s with
        park := (takenFromSafe g x prio s).park.modify x fun t => t.put g none } :=
    taken.mono.trans forgot.mono
  have same : asserted s = asserted { takenFromSafe g x prio s with
      park := (takenFromSafe g x prio s).park.modify x fun t => t.put g none } :=
    (funext fun l => base.asserted l).symm
  have others : ∀ k, only g k = false → (takenFromSafe g x prio s).holder k = s.holder k := by
    intro k hk
    have : k ≠ g := by simpa [only] using hk
    unfold State.holder
    rw [takenFromSafe_other x prio s k this]
  obtain ⟨takes, outside, rs, res, sends⟩ := replaceGroup_spec g cfg (asserted s)
    { takenFromSafe g x prio s with
      park := (takenFromSafe g x prio s).park.modify x fun t => t.put g none }
    (by unfold PairsDistinct; rw [base.pairs]; exact inv.pairs.distinct)
    (fun l _ => congrFun same l)
  have replaced := replaceGroup_frame g cfg (asserted s)
    { takenFromSafe g x prio s with
      park := (takenFromSafe g x prio s).park.modify x fun t => t.put g none }
  have told := takenFromSafe_told (forgot.mono.trans replaced.mono) (sends.start forgot)
  have park : (takenFromSafe g x prio s).park = s.park := taken.park
  generalize replaceGroup g cfg (asserted s)
    { takenFromSafe g x prio s with
      park := (takenFromSafe g x prio s).park.modify x fun t => t.put g none } = w at *
  have last := notifyWatchers_frame g w
  rw [e]
  refine ⟨?_, fun y k hn => ?_, Replaced.frame (takes.base fun l _ => base.asserted l) last, ?_, rs, ?_,
    told.of_eq fun y => ?_⟩
  · rw [last.park, replaced.park]; simp
  · rw [last.park, replaced.park]
    dsimp only
    rw [PerClient.get_modify, park]
    by_cases hy : y = x
    · have hk : k ≠ g := fun e => hn ⟨hy, e⟩
      subst hy; simp [hk]
    · rw [if_neg (Ne.symm hy)]
  · intro l hl
    rw [last.record, last.driver]
    exact outside.base (fun l _ => base.record l) (fun l _ => base.driver l) l hl
  · exact ((res.base (fun l _ => by rw [base.driver]) (fun l _ => base.asserted l) fun k hk =>
      others k hk).frame last).resumes
  · have held : heldEvents (only g) (notifyWatchers g w) y = heldEvents (only g) w y := by
      unfold heldEvents; simp only [last.driver, last.holder]
    rw [held, overtakenEvents_resting _ _ _ fun l hl => by
      rw [base.driver, inv.resting state (by simpa [only] using hl)]]
    simp

/-- A claim that is granted at once, and the state its grant starts from. -/
theorem exec_claim_granted (inv : Inv s) (takes : portTakes s x = true) (hb : b.toNat = g.val)
    (state : (s.entry g).state = .safe) (eligible : (s.policy.get g).priority.get x ≠ 0) :
    ∃ t u, exec (.claim x b f) s = .next t ∧ Served s t (.client x) 0x01 [b, f] .granted 0 ∧
      Stored s u ∧ SameExcept [.ports] s u ∧
      SameExcept [.ports]
        (grantFromSafe g x ((s.policy.get g).priority.get x) (f.getLsbD 2) u) t ∧
      Held s t g x ((s.policy.get g).priority.get x) [] ∧ OtherEntries g s t := by
  have before := prepared_client x 0x01 [b, f] s
  have waiting : (s.entry g).waiting = [] := (inv.lease g).1.2.2.1 (.inl state)
  have passes : ClaimPasses s x g := ⟨by rw [state]; decide, eligible,
    by rw [inv.lease.no_holder_of_safe state]; simp, by unfold State.waits; rw [waiting]; rfl⟩
  have grant := grantFromSafe_frame g x ((s.policy.get g).priority.get x) (f.getLsbD 2)
    (prepared (.client x) 0x01 [b, f] s)
  obtain ⟨served, after⟩ := request_accepted takes
    ((claimRequest_passes hb (passes.frame before)).trans (by
      rw [before.policy]; exact takeClaim_safe (by rw [before.entry]; exact state))) rfl grant
  have taken := takenFromSafe_grant g x ((s.policy.get g).priority.get x) (f.getLsbD 2)
    (prepared (.client x) 0x01 [b, f] s)
  have stored := prepared_stored (.client x) 0x01 [b, f] s
  refine ⟨_, _, exec_claim x b f s, served, stored, before, after, ?_, fun k hk => ?_⟩
  · exact (takenFromSafe_held (stored.inv inv).lease (by rw [before.entry]; exact state)
      (taken.entry g)).transport before.mono after.mono
  · rw [after.entry, taken.entry, takenFromSafe_other _ _ _ k hk, before.entry]

end Sys2Proof.Machine

namespace Sys2Proof.Proofs

open Sys2Proof.Machine

/-- Settles O23: the safe configuration is in place already. -/
theorem claimGrantedFromSafe : Obligations.ClaimGrantedFromSafe := by
  intro s x b f g inv takes hb state eligible no
  obtain ⟨t, u, next, served, stored, before, after, held, others⟩ :=
    exec_claim_granted (f := f) inv takes hb state eligible
  rw [grantFromSafe_plain (stored.inv inv) (by rw [before.entry]; exact state)
    (by rw [before.park]; exact no)] at after
  have told := takenFromSafe_told (prio := (s.policy.get g).priority.get x) (s := u) (x := x) (g := g)
    (.refl _ _) (Sends.nil rfl)
  refine ⟨t, next, served, held, others, ?_, (Sends.answered stored after told).of_eq fun y => ?_⟩
  · exact ((before.mono.trans (takenFromSafe_frame _ _ _ u).mono).trans
      (notifyWatchers_frame g _).mono).trans after.mono
  · rw [toWatchers_transport before.mono]; rfl

/-- Settles O24: the park configuration is judged, and in place where it is accepted. -/
theorem claimRestoresFromSafe : Obligations.ClaimRestoresFromSafe := by
  intro s x b f g cfg inv takes hb state eligible restore parked
  obtain ⟨t, u, next, served, stored, before, after, held, others⟩ :=
    exec_claim_granted (f := f) inv takes hb state eligible
  have inv' := stored.inv inv
  have state' : (u.entry g).state = .safe := by rw [before.entry]; exact state
  have parked' : (u.park.get x).get g = some cfg := by rw [before.park]; exact parked
  have judged : judge (Proposal.of u [(g, cfg)] false) u = judge (Proposal.of s [(g, cfg)] false) s :=
    judge_only cfg (fun l _ => before.record l) (fun l _ => before.driver l) before.pairs
  rw [restore] at after
  -- the two refusals differ in the reason alone
  have refused : ∀ reason, grantFromSafe g x ((s.policy.get g).priority.get x) true u =
      notifyWatchers g (append x (.restoreRefused g reason)
        (takenFromSafe g x ((s.policy.get g).priority.get x) u)) →
      SameExcept [.lease, .queues, .ports] s t ∧ Sends s t fun y =>
        toClient x [.restoreRefused g reason] y ++ toWatchers s g .held (some x) y := by
    intro reason e
    rw [e] at after
    have told := append_frame x (.restoreRefused g reason)
      (takenFromSafe g x ((s.policy.get g).priority.get x) u)
    exact ⟨(((before.mono.trans (takenFromSafe_frame _ _ _ u).mono).trans told.mono).trans
      (notifyWatchers_frame g _).mono).trans after.mono,
      (Sends.answered stored after (takenFromSafe_told told.mono (append_sends _ _ _))).of_eq fun y => by
        rw [toWatchers_transport before.mono]⟩
  refine ⟨t, next, served, held, others, ?_⟩
  cases hj : judge (Proposal.of s [(g, cfg)] false) s with
  | accepted =>
    obtain ⟨park, parks, group, outside, rs, res, sends⟩ :=
      grantFromSafe_takes (prio := (s.policy.get g).priority.get x) inv' state' parked' (judged.trans hj)
    refine ⟨(before.mono.trans (grantFromSafe_frame _ _ _ _ u).mono).trans after.mono,
      by rw [after.park]; exact park, fun y k hn => by rw [after.park, parks y k hn, before.park],
      Replaced.transport before.mono after.mono group, outside.transport before.mono after.mono, rs,
      res.transport before.mono after.mono, (Sends.answered stored after sends).of_eq fun y => ?_⟩
    rw [heldEvents_transport after.mono, toWatchers_transport before.mono]
  | loop =>
    exact refused .loop (grantFromSafe_refused .loop inv' state' parked' (.inl ⟨judged.trans hj, rfl⟩))
  | interlock i =>
    exact refused .interlock
      (grantFromSafe_refused .interlock inv' state' parked' (.inr ⟨⟨i, judged.trans hj⟩, rfl⟩))

end Sys2Proof.Proofs
end

section
/-! PROOF. Releases, withdrawals and forced losses: RELEASE, WITHDRAW, FORCE_RELEASE, WITHHOLD, OPEN and the
expiries (R29, R30, R33 to R42, R50, R58 to R61, R85 to R87). -/

set_option Elab.async false

namespace Sys2Proof.Machine

variable {s t u : State} {g : Group} {x h : Client} {b : Byte} {reason : LossReason} {c : Claim}
  {rest : List Claim} {cfg : GroupConfig}

/-! ### Forced losses under the laws (R34, R35) -/

theorem Stored.sameBesidePorts (st : Stored s u) : SameBesidePorts s u := st.frame

theorem Inv.loses (inv : Inv s) (hr : reason ≠ .withheld) (holder : s.holder g = some h)
    (no : NoRestore s g (s.entry g).waiting) :
    LosesGroup s (forcedLoss g reason s) g h reason (s.entry g).waiting :=
  forcedLoss_spec hr holder (fun _ hc => inv.lease.head_ne holder hc) inv.pairs.distinct
    inv.config.2.1 no

theorem Inv.losesToRestore (inv : Inv s) (hr : reason ≠ .withheld) (holder : s.holder g = some h)
    (waiting : (s.entry g).waiting = c :: rest) (restore : c.restore = true)
    (parked : (s.park.get c.client).get g = some cfg) :
    LosesToRestore s (forcedLoss g reason s) g h reason c rest cfg :=
  forcedLoss_restoring hr holder (inv.lease.head_ne holder (by rw [waiting]; exact List.mem_cons_self))
    inv.pairs.distinct inv.config.2.1 waiting restore parked

/-- A group without a holder is lost by nobody. -/
theorem forcedLoss_none (none : s.holder g = none) : forcedLoss g reason s = s := by
  unfold forcedLoss
  rw [none]

/-! ### RELEASE (R30) -/

/-- An accepted RELEASE is the release step of the state in which it is taken. -/
theorem exec_release_passes (takes : portTakes s x = true) (hb : b.toNat = g.val)
    (holder : s.holder g = some x) :
    ∃ t u, exec (.release x b) s = .next t ∧ Served s t (.client x) 0x02 [b] .done 0 ∧
      Stored s u ∧ SameExcept [.ports] s u ∧ SameExcept [.ports] (releaseGroup g x false u) t := by
  have before := prepared_client x 0x02 [b] s
  obtain ⟨served, after⟩ := request_accepted takes
    (releaseRequest_of_holder hb (by rw [before.holder]; exact holder)) rfl
    (releaseGroup_frame g x false _)
  exact ⟨_, _, exec_release x b s, served, prepared_stored _ _ _ s, before, after⟩

/-! ### FORCE_RELEASE and the expiries (R33, R40, R58) -/

theorem forceReleaseRequest_of (hb : b.toNat = g.val) (s : State) :
    forceReleaseRequest b s = done (forcedLoss g .forced s) := by
  unfold forceReleaseRequest
  rw [withGroup_some hb]

theorem exec_forceRelease_loses (takes : portTakes s .a = true) (hb : b.toNat = g.val) :
    ∃ t u, exec (.forceRelease .supervisor b) s = .next t ∧ Served s t .supervisor 0x20 [b] .done 0 ∧
      Stored s u ∧ SameExcept [.ports] (forcedLoss g .forced u) t := by
  obtain ⟨served, after⟩ := request_accepted takes (forceReleaseRequest_of hb _) rfl
    (forcedLoss_frame g .forced (prepared .supervisor 0x20 [b] s))
  exact ⟨_, _, exec_forceRelease b s, served, prepared_stored _ _ _ s, after⟩

theorem exec_leaseExpiry (g : Group) (s : State) : exec (.leaseExpiry g) s =
    .next (if (s.entry g).state = .held ∧ (s.entry g).timer = .running 0 then
      forcedLoss g .expired s else s) := rfl

theorem exec_graceExpiry (g : Group) (s : State) : exec (.graceExpiry g) s =
    .next (if (s.entry g).state = .revoking ∧ (s.entry g).grace = some 0 then
      forcedLoss g .revoked s else s) := rfl

theorem exec_leaseExpiry_expired (state : (s.entry g).state = .held)
    (timer : (s.entry g).timer = .running 0) :
    exec (.leaseExpiry g) s = .next (forcedLoss g .expired s) := by
  rw [exec_leaseExpiry, if_pos ⟨state, timer⟩]

theorem exec_graceExpiry_expired (state : (s.entry g).state = .revoking)
    (grace : (s.entry g).grace = some 0) :
    exec (.graceExpiry g) s = .next (forcedLoss g .revoked s) := by
  rw [exec_graceExpiry, if_pos ⟨state, grace⟩]

/-! ### WITHDRAW (R50) -/

theorem withdrawRequest_of_waiting (hb : b.toNat = g.val) (waits : s.waits x g = true) :
    withdrawRequest x b s = done (removeClaim x s g) := by
  unfold withdrawRequest removeClaim
  rw [withGroup_some hb, if_pos waits, if_pos waits]

theorem withdrawRequest_of_not_waiting (hb : b.toNat = g.val) (waits : s.waits x g = false) :
    withdrawRequest x b s = refuse .notWaiting s := by
  unfold withdrawRequest
  rw [withGroup_some hb, if_neg (by rw [waits]; decide)]

/-! ### WITHHOLD and OPEN (R41, R42) -/

theorem withholdRequest_of (hb : b.toNat = g.val) (s : State) :
    withholdRequest b s = done (closeGroup g s) := by
  unfold withholdRequest
  rw [withGroup_some hb]

theorem closeGroup_frame (g : Group) (s : State) :
    SameExcept [.lease, .active, .drivers, .park, .deferred, .queues] s (closeGroup g s) := by
  unfold closeGroup
  split
  · exact .refl _ s
  · exact (fallToSafe_frame _ _ _ _).mono
  · exact forcedLoss_frame _ _ _
  · exact forcedLoss_frame _ _ _

/-- A WITHHOLD closes the group in the state in which it is taken. -/
theorem exec_withhold_closes (takes : portTakes s .a = true) (hb : b.toNat = g.val) :
    ∃ t u, exec (.withhold .supervisor b) s = .next t ∧ Served s t .supervisor 0x21 [b] .done 0 ∧
      Stored s u ∧ SameExcept [.ports] (closeGroup g u) t := by
  obtain ⟨served, after⟩ := request_accepted takes (withholdRequest_of hb _) rfl
    (closeGroup_frame g (prepared .supervisor 0x21 [b] s))
  exact ⟨_, _, exec_withhold b s, served, prepared_stored _ _ _ s, after⟩

theorem closeGroup_of_withheld (state : (s.entry g).state = .withheld) : closeGroup g s = s := by
  unfold closeGroup
  rw [state]

theorem closeGroup_of_safe (state : (s.entry g).state = .safe) :
    closeGroup g s = fallToSafe g .withheld (asserted s) s := by
  unfold closeGroup
  rw [state]

theorem LeaseLaw.state_of_holder (law : LeaseLaw s) (holder : s.holder g = some h) :
    (s.entry g).state = .held ∨ (s.entry g).state = .revoking :=
  (law g).1.1.1 (by unfold State.holder at holder; rw [holder]; rfl)

/-- A closed group's holder loses it, then the claims are refused from the head on (R41). -/
theorem closeGroup_of_holder (law : LeaseLaw s) (holder : s.holder g = some h) :
    closeGroup g s =
      fallToSafe g .withheld (asserted s) (refuseClaims g (beginLoss g h .withheld s)) := by
  have loss : forcedLoss g .withheld s =
      fallToSafe g .withheld (asserted s) (refuseClaims g (beginLoss g h .withheld s)) := by
    unfold forcedLoss
    rw [holder]
  unfold closeGroup
  rcases law.state_of_holder holder with state | state <;> rw [state] <;> exact loss

/-- A SAFE group that is closed changes its state, and its watchers are told (R41). -/
theorem fallToSafe_of_safe (inv : Inv s) (state : (s.entry g).state = .safe) :
    Vacant (fallToSafe g .withheld (asserted s) s) g .withheld ∧
      OtherEntries g s (fallToSafe g .withheld (asserted s) s) ∧
      SameExcept [.lease, .queues] s (fallToSafe g .withheld (asserted s) s) ∧
      Sends s (fallToSafe g .withheld (asserted s) s) (toWatchers s g .withheld none) := by
  unfold fallToSafe
  dsimp only
  have vacated := withEntry_frame g (fun e : LeaseEntry =>
    { e with state := .withheld, holder := none, priority := none, timer := .stopped, grace := none,
             waiting := [] }) s
  have self : (s.withEntry g fun e =>
      { e with state := .withheld, holder := none, priority := none, timer := .stopped, grace := none,
               waiting := [] }).entry g =
      { s.entry g with
        state := .withheld, holder := none, priority := none, timer := .stopped, grace := none,
        waiting := [] } := State.withEntry_entry_self _ _ _
  have other : OtherEntries g s (s.withEntry g fun e =>
      { e with state := .withheld, holder := none, priority := none, timer := .stopped, grace := none,
               waiting := [] }) := fun k hk => State.withEntry_entry_ne _ _ hk
  generalize s.withEntry g (fun e =>
    { e with state := .withheld, holder := none, priority := none, timer := .stopped, grace := none,
             waiting := [] }) = u at *
  rw [replaceGroup_safe_same inv state vacated.mono]
  have told := notifyWatchers_frame g u
  refine ⟨?_, fun k hk => by rw [told.entry, other k hk], vacated.mono.trans told.mono,
    ((notifyWatchers_sends g u).start vacated).of_eq fun y => ?_⟩
  · unfold Vacant
    rw [told.entry, self]
    and_intros <;> rfl
  · unfold toWatchers
    rw [vacated.watch, self]

theorem openRequest_of_withheld (hb : b.toNat = g.val) (state : (s.entry g).state = .withheld) :
    openRequest b s =
      done (notifyWatchers g (s.withEntry g fun e => { e with state := .safe })) := by
  unfold openRequest
  rw [withGroup_some hb, if_pos state]

theorem openRequest_of_not_withheld (hb : b.toNat = g.val) (state : (s.entry g).state ≠ .withheld) :
    openRequest b s = done s := by
  unfold openRequest
  rw [withGroup_some hb, if_neg state]

theorem LeaseLaw.vacant_of_withheld (law : LeaseLaw s) (state : (s.entry g).state = .withheld) :
    Vacant s g .withheld := by
  obtain ⟨⟨holder, ⟨priority, -⟩, waiting, -, timer, grace⟩, -⟩ := law g
  rw [state] at holder timer grace
  have noHolder : (s.entry g).holder = none := by
    rw [← Option.not_isSome_iff_eq_none, holder]; decide
  have noPriority : (s.entry g).priority = none := by
    rw [← Option.not_isSome_iff_eq_none, priority, noHolder]; decide
  have noGrace : (s.entry g).grace = none := by
    rw [← Option.not_isSome_iff_eq_none, grace]; decide
  exact ⟨state, noHolder, noPriority, timer.2 (by decide), noGrace, waiting (.inr state)⟩

/-- A WITHHELD group that is opened changes its state, and its watchers are told (R42). -/
theorem opened_spec (law : LeaseLaw s) (state : (s.entry g).state = .withheld) :
    Vacant (notifyWatchers g (s.withEntry g fun e => { e with state := .safe })) g .safe ∧
      OtherEntries g s (notifyWatchers g (s.withEntry g fun e => { e with state := .safe })) ∧
      SameExcept [.lease, .queues] s
        (notifyWatchers g (s.withEntry g fun e => { e with state := .safe })) ∧
      Sends s (notifyWatchers g (s.withEntry g fun e => { e with state := .safe }))
        (toWatchers s g .safe none) := by
  obtain ⟨-, holder, priority, timer, grace, waiting⟩ := law.vacant_of_withheld state
  have opened := withEntry_frame g (fun e : LeaseEntry => { e with state := .safe }) s
  have self : (s.withEntry g fun e => { e with state := .safe }).entry g =
      { s.entry g with state := .safe } := State.withEntry_entry_self _ _ _
  have told := notifyWatchers_frame g (s.withEntry g fun e => { e with state := .safe })
  refine ⟨?_, fun k hk => by rw [told.entry, State.withEntry_entry_ne _ _ hk],
    opened.mono.trans told.mono, ((notifyWatchers_sends g _).start opened).of_eq fun y => ?_⟩
  · unfold Vacant
    rw [told.entry, self]
    exact ⟨rfl, holder, priority, timer, grace, waiting⟩
  · unfold toWatchers
    rw [opened.watch, self]
    dsimp only
    rw [holder]

end Sys2Proof.Machine

namespace Sys2Proof.Proofs

open Sys2Proof.Machine

/-- Settles O30: the release step, seen from before the request. -/
theorem releasePassesOn : Obligations.ReleasePassesOn := by
  intro s x b g inv takes hb holder no
  obtain ⟨t, u, next, served, stored, before, after⟩ := exec_release_passes takes hb holder
  have inv' := stored.inv inv
  obtain ⟨passes, others, group, outside, drops, park, rs, res, sends⟩ :=
    releaseGroup_spec (s := u) (g := g) (h := x) false inv'.pairs.distinct inv'.config.2.1
      (by unfold NoRestore; rw [before.entry, before.park]; exact no)
  rw [before.entry] at passes sends
  refine ⟨t, next, served, passes.transport before.mono after.mono,
    others.transport before.mono after.mono, ?_, outside.transport before.mono after.mono,
    drops.transport before.mono after.mono, ?_, rs, res.resumes.transport before.mono after.mono,
    (Sends.answered stored after sends).of_eq fun y => ?_⟩
  · rw [← before.policy]
    exact Replaced.transport before.mono after.mono group
  · exact ((before.mono.trans (releaseGroup_frame g x false u).mono).trans after.mono :
      SameExcept [.lease, .active, .drivers, .park, .deferred, .queues, .ports] s t).without .park
      ((after.park.trans park).trans before.park)
  · rw [cutEvents_transport before.mono, dropEvents_transport before.mono,
      passedState_transport before.mono]
    rfl

/-- Settles O31: the four ends of a holding, and the preemption at once. -/
theorem handoverRestores : Obligations.HandoverRestores := by
  refine ⟨fun s h b g c rest cfg inv hb holder waiting restore parked =>
    ⟨fun takes => ?_, fun takes => ?_, fun state timer => ?_, fun state grace => ?_⟩,
    fun s x h b f g q c rest cfg inv takes hb state holder other waits preempt preemptible priority
      above period inserted restore parked => ?_⟩
  · obtain ⟨t, u, next, served, stored, before, after⟩ := exec_release_passes takes hb holder
    have inv' := stored.inv inv
    obtain ⟨ho, drops, parks⟩ := releaseGroup_restoring (s := u) (g := g) (h := h) (cfg := cfg) false
      inv'.pairs.distinct inv'.config.2.1 (by rw [before.entry]; exact waiting) restore
      (by rw [before.park]; exact parked)
    refine ⟨t, next, served, ho.transport before.mono after.mono fun es es' he sd =>
      (Sends.answered stored after sd).of_eq fun y => ?_, drops.transport before.mono after.mono,
      fun y k hn => by rw [after.park, parks y k hn, before.park],
      (before.mono.trans (releaseGroup_frame g h false u).mono).trans after.mono⟩
    rw [cutEvents_transport before.mono, dropEvents_transport before.mono, he]
    rfl
  · obtain ⟨t, u, next, served, stored, after⟩ := exec_forceRelease_loses takes hb
    have before := stored.sameBesidePorts
    have loss := (stored.inv inv).losesToRestore (reason := .forced) (by decide)
      (by rw [before.holder]; exact holder) (by rw [before.entry]; exact waiting) restore
      (by rw [before.park]; exact parked)
    exact ⟨t, next, served, loss.transport stored after,
      (before.mono.trans (forcedLoss_frame g .forced u).mono).trans after.mono⟩
  · exact ⟨_, exec_leaseExpiry_expired state timer,
      inv.losesToRestore (by decide) holder waiting restore parked, forcedLoss_frame _ _ _⟩
  · exact ⟨_, exec_graceExpiry_expired state grace,
      inv.losesToRestore (by decide) holder waiting restore parked, forcedLoss_frame _ _ _⟩
  · obtain ⟨t, u, v, next, served, stored, before, queued, holders, others, list, ne, after⟩ :=
      preempts_atOnce inv takes hb state holder other waits preempt preemptible priority above period
        inserted
    have inv' := stored.inv inv
    have loss := forcedLoss_restoring (s := v) (g := g) (reason := .revoked) (by decide)
      ((holders g).trans ((before.holder g).trans holder)) (ne c List.mem_cons_self)
      (by unfold PairsDistinct; rw [queued.pairs]; exact inv'.pairs.distinct)
      (by unfold SafeConfigLaw; rw [queued.policy]; exact inv'.config.2.1) list restore
      (by rw [queued.park, before.park]; exact parked)
    exact ⟨t, next, served, (loss.base queued holders others).transport stored after,
      ((before.mono.trans queued.mono).trans (forcedLoss_frame g .revoked v).mono).trans after.mono⟩

/-- Settles O33: the caller's claim leaves the list, and a revocation is re-evaluated. -/
theorem withdrawReevaluates : Obligations.WithdrawReevaluates := by
  intro s x b g takes hb
  have before := prepared_client x 0x04 [b] s
  refine ⟨fun waits => ?_, fun waits => ?_⟩
  · rw [exec_withdraw]
    exact requestFrame_answersRefused takes rfl
      (withdrawRequest_of_not_waiting hb (by rw [before.waits]; exact waits))
  · have waits' : (prepared (.client x) 0x04 [b] s).waits x g = true := by rw [before.waits]; exact waits
    obtain ⟨served, after⟩ := request_accepted takes (withdrawRequest_of_waiting hb waits') rfl
      (removeClaim_frame x _ g)
    obtain ⟨frame, others, w, hw, verdict⟩ := (removeClaim_turn x _ g).2 waits'
    refine ⟨_, w, exec_withdraw x b s, served, by rw [hw, before.entry],
      others.transport before.mono after.mono, ?_⟩
    rw [before.entry, before.policy] at verdict
    split at verdict
    · next cancels =>
      obtain ⟨entry, sends⟩ := verdict
      rw [if_pos cancels]
      refine ⟨by rw [after.entry, entry], (before.mono.trans frame.mono).trans after.mono,
        (Sends.answered (prepared_stored _ _ _ s) after sends).of_eq fun y => ?_⟩
      rw [before.holder, toWatchers_transport before.mono]
    · next stays =>
      obtain ⟨entry, queues⟩ := verdict
      rw [if_neg stays]
      exact ⟨by rw [after.entry, entry], ((before.mono.trans frame.mono).trans after.mono :
        SameExcept [.lease, .queues, .ports] s _).without .queues
        ((after.queues.trans queues).trans before.queues)⟩

/-- Settles O34: the forced loss by the supervisor and by the two timers. -/
theorem forcedLosses : Obligations.ForcedLosses := by
  refine ⟨fun s h b g inv holder no => ⟨fun takes hb => ?_, fun state timer => ?_,
    fun state grace => ?_⟩, fun s b g => ⟨fun takes hb none => ?_, fun no => ?_, fun no => ?_⟩⟩
  · obtain ⟨t, u, next, served, stored, after⟩ := exec_forceRelease_loses takes hb
    have before := stored.sameBesidePorts
    have loss := (stored.inv inv).loses (reason := .forced) (by decide)
      (by rw [before.holder]; exact holder)
      (by unfold NoRestore; rw [before.entry, before.park]; exact no)
    rw [before.entry] at loss
    exact ⟨t, next, served, loss.transport stored after,
      (before.mono.trans (forcedLoss_frame g .forced u).mono).trans after.mono⟩
  · exact ⟨_, exec_leaseExpiry_expired state timer, inv.loses (by decide) holder no,
      forcedLoss_frame _ _ _⟩
  · exact ⟨_, exec_graceExpiry_expired state grace, inv.loses (by decide) holder no,
      forcedLoss_frame _ _ _⟩
  · obtain ⟨t, u, next, served, stored, after⟩ := exec_forceRelease_loses takes hb
    have before := stored.sameBesidePorts
    rw [forcedLoss_none (by rw [before.holder]; exact none)] at after
    exact ⟨t, next, served, before.trans after.mono⟩
  · rw [exec_leaseExpiry, if_neg no]
  · rw [exec_graceExpiry, if_neg no]

/-- Settles O35: the closing and the opening of a group in each of its states. -/
theorem withholdAndOpen : Obligations.WithholdAndOpen := by
  refine ⟨fun s h b g inv takes hb holder => ?_, fun s b g inv takes hb =>
    ⟨fun state => ?_, fun state => ?_, fun state => ?_, fun state => ?_⟩⟩
  · obtain ⟨t, u, next, served, stored, after⟩ := exec_withhold_closes takes hb
    have before := stored.sameBesidePorts
    have inv' := stored.inv inv
    have holder' : u.holder g = some h := by rw [before.holder]; exact holder
    have frame := closeGroup_frame g u
    have closes := closeGroup_of_holder inv'.lease holder'
    obtain ⟨ready, park, parks, sends⟩ := beginLoss_ready g h .withheld u
    have refuses := refuseClaims_frame g (beginLoss g h .withheld u)
    have refused := refuseClaims_sends g (beginLoss g h .withheld u)
    have ready' : Ready u (refuseClaims g (beginLoss g h .withheld u)) g h :=
      ⟨ready.frame.trans refuses.mono, fun l => by rw [refuses.driver, ready.driver], by
        have := ready.drops
        unfold DropsDeferred at *
        rw [refuses.deferred]
        exact this⟩
    obtain ⟨vacant, others, group, outside, rs, res, told⟩ :=
      fallToSafe_spec .withheld ready' inv'.pairs.distinct inv'.config.2.1
    have falls := fallToSafe_frame g .withheld (asserted u) (refuseClaims g (beginLoss g h .withheld u))
    rw [← closes] at vacant others group outside res told falls
    have drops : DropsDeferred u (closeGroup g u) g h := by
      have := ready'.drops
      unfold DropsDeferred at *
      rw [falls.deferred]
      exact this
    refine ⟨t, next, served, vacant.transport after.mono, others.transport before after.mono, ?_,
      fun y k hn => ?_, ?_, outside.transport before after.mono, drops.transport before after.mono,
      (before.mono.trans frame.mono).trans after.mono, rs, res.resumes.transport before after.mono,
      (Sends.answered stored after ((sends.trans refused ready.frame).trans told
        (ready.frame.trans refuses.mono))).of_eq fun y => ?_⟩
    · rw [after.park, falls.park, refuses.park, park, groupConfig_transport before]
    · rw [after.park, falls.park, refuses.park, parks y k hn, before.park]
    · rw [← before.policy]
      exact Replaced.transport before after.mono group
    · rw [lossEvents_transport before, toWatchers_transport before, ready.frame.entry, before.entry]
      simp only [List.append_assoc]
  · obtain ⟨t, u, next, served, stored, after⟩ := exec_withhold_closes takes hb
    have before := stored.sameBesidePorts
    have state' : (u.entry g).state = .safe := by rw [before.entry]; exact state
    obtain ⟨vacant, others, frame, sends⟩ := fallToSafe_of_safe (stored.inv inv) state'
    rw [← closeGroup_of_safe state'] at vacant others frame sends
    refine ⟨t, next, served, vacant.transport after.mono, others.transport before after.mono,
      (before.mono.trans frame.mono).trans after.mono,
      (Sends.answered stored after sends).of_eq fun y => ?_⟩
    rw [toWatchers_transport before]
  · obtain ⟨t, u, next, served, stored, after⟩ := exec_withhold_closes takes hb
    have before := stored.sameBesidePorts
    rw [closeGroup_of_withheld (by rw [before.entry]; exact state)] at after
    exact ⟨t, next, served, before.trans after.mono⟩
  · have stored := prepared_stored .supervisor 0x22 [b] s
    have before := stored.sameBesidePorts
    have state' : ((prepared .supervisor 0x22 [b] s).entry g).state = .withheld := by
      rw [before.entry]; exact state
    obtain ⟨vacant, others, frame, sends⟩ := opened_spec (stored.inv inv).lease state'
    obtain ⟨served, after⟩ := request_accepted takes (openRequest_of_withheld hb state') rfl frame
    refine ⟨_, exec_openGroup b s, served, vacant.transport after.mono,
      others.transport before after.mono, (before.mono.trans frame.mono).trans after.mono,
      (Sends.answered stored after sends).of_eq fun y => ?_⟩
    rw [toWatchers_transport before]
  · have before := (prepared_stored .supervisor 0x22 [b] s).sameBesidePorts
    obtain ⟨served, after⟩ := request_accepted takes
      (openRequest_of_not_withheld hb (by rw [before.entry]; exact state)) rfl (.refl [] _)
    exact ⟨_, exec_openGroup b s, served, before.trans after.mono⟩

end Sys2Proof.Proofs
end

section
/-! PROOF. Requests that store what they carry: STAGE, WATCH, UNWATCH, SET_PRIORITY, SET_POLICY, SET_AUDIT; and
TIMEOUT_EXPIRY (R51, R72, R129, R130, R144, R165, R166, R168). -/

set_option Elab.async false

namespace Sys2Proof.Machine

variable {s t u : State} {g : Group} {x : Client} {b c : Byte} {l : Line} {rb : RecordBytes} {r : Record}
  {prio : Priority} {lease grace : Word16}

/-! ### STAGE (R72) -/

theorem stageRequest_illFormed (hb : b.toNat = l.val) (no : record? l rb = none) :
    stageRequest x b rb s = refuse .range s := by
  unfold stageRequest
  rw [line?_some hb]
  dsimp only
  rw [no]

theorem stageRequest_of (hb : b.toNat = l.val) (yes : record? l rb = some r) :
    stageRequest x b rb s = done { s with staged := s.staged.modify x fun t => t.put l r } := by
  unfold stageRequest
  rw [line?_some hb]
  dsimp only
  rw [yes]

/-! ### WATCH and UNWATCH (R129, R130) -/

theorem edges?_code (e : Edges) : edges? e.code = some e := by cases e <;> rfl

theorem edges?_none (h : 4 ≤ c.toNat) : edges? c = none := by
  unfold edges?
  rw [inRange_none h]

theorem watchRequest_illFormed (hb : b.toNat = g.val) (no : edges? c = none) :
    watchRequest x b c s = refuse .range s := by
  unfold watchRequest
  rw [withGroup_some hb, no]

theorem watchRequest_of {e : Edges} (hb : b.toNat = g.val) (yes : edges? c = some e) :
    watchRequest x b c s =
      done { s with watch := s.watch.modify g fun w => w.put x (some e) } := by
  unfold watchRequest
  rw [withGroup_some hb, yes]

theorem unwatchRequest_absent (hb : b.toNat = g.val) (no : (s.watch.get g).get x = none) :
    unwatchRequest x b s = refuse .notWaiting s := by
  unfold unwatchRequest
  rw [withGroup_some hb, no]
  rfl

theorem unwatchRequest_of (hb : b.toNat = g.val) (yes : (s.watch.get g).get x ≠ none) :
    unwatchRequest x b s = done { s with watch := s.watch.modify g fun w => w.put x none } := by
  unfold unwatchRequest
  rw [withGroup_some hb, if_pos (Option.isSome_iff_ne_none.2 yes)]

/-- One place of the watch sets set, and every other left. -/
theorem watch_put (w : Table 8 (PerClient (Option Edges))) (e : Option Edges) :
    ((w.modify g fun t => t.put x e).get g).get x = e ∧
      ∀ h y, ¬ (h = g ∧ y = x) → ((w.modify g fun t => t.put x e).get h).get y = (w.get h).get y := by
  refine ⟨by simp, fun h y other => ?_⟩
  rw [Table.get_modify]
  split
  · next same =>
    subst same
    rw [PerClient.get_put_ne _ _ fun e => other ⟨rfl, e⟩]
  · rfl

/-! ### SET_PRIORITY (R51, R165) -/

theorem setPriorityRequest_of (hb : b.toNat = g.val) (hx : c.toNat = clientNumber x) {p : Byte}
    (hp : p.toNat = prio.val) :
    setPriorityRequest b c p s =
      done (if prio = 0 then
          removeIneligible g x (s.withPolicy g fun q => { q with priority := q.priority.put x prio })
        else s.withPolicy g fun q => { q with priority := q.priority.put x prio }) := by
  unfold setPriorityRequest
  rw [group?_some hb, client?_some hx, inRange_some hp]

theorem setPriorityRequest_client {p : Byte} (h : 4 ≤ c.toNat) (s : State) :
    setPriorityRequest b c p s = refuse .range s := by
  unfold setPriorityRequest
  rw [client?_none h]
  cases group? b <;> rfl

theorem removeIneligible_frame (g : Group) (x : Client) (s : State) :
    SameExcept [.lease, .queues] s (removeIneligible g x s) := by
  unfold removeIneligible
  exact (((dropClaim_frame g x s).mono.trans (append_frame x _ _).mono).trans
    (reevaluate_frame g _).mono).ite (.refl _ s)

/-- A claim that has become ineligible leaves the list, and a revocation that no claim justifies any more is
cancelled (R51). -/
theorem removeIneligible_spec (waits : s.waits x g = true) :
    OtherEntries g s (removeIneligible g x s) ∧
    ∃ w, w = (s.entry g).waiting.filter (fun c => c.client != x) ∧
      if (s.entry g).state = .revoking ∧
        ¬ ((s.policy.get g).preemptible = true ∧ ∃ c ∈ w, c.preempt = true ∧
          ∃ q, (s.entry g).priority = some q ∧ q < c.priority) then
        (removeIneligible g x s).entry g = { s.entry g with
          state := .held, timer := startedTimer (s.policy.get g).leasePeriod, grace := none,
          waiting := w } ∧
        Sends s (removeIneligible g x s) fun y =>
          toClient x [.claimRefused g .ineligible] y ++
            toHolder (s.holder g) [.revokeCancelled g] y ++ toWatchers s g .held (s.holder g) y
      else
        (removeIneligible g x s).entry g = { s.entry g with waiting := w } ∧
        Sends s (removeIneligible g x s) (toClient x [.claimRefused g .ineligible]) := by
  have dropped := dropClaim_frame g x s
  have entry : (dropClaim g x s).entry g =
      { s.entry g with waiting := (s.entry g).waiting.filter fun c => c.client != x } := by
    unfold dropClaim; rw [State.withEntry_entry_self]
  have other : OtherEntries g s (dropClaim g x s) := fun k hk => by
    unfold dropClaim; rw [State.withEntry_entry_ne _ _ hk]
  have told := append_frame x (.claimRefused g .ineligible) (dropClaim g x s)
  have first := (append_sends x (.claimRefused g .ineligible) (dropClaim g x s)).start dropped
  have removed : removeIneligible g x s =
      reevaluate g (append x (.claimRefused g .ineligible) (dropClaim g x s)) := by
    unfold removeIneligible; rw [if_pos waits]
  rw [removed]
  have spec := reevaluate_spec g (append x (.claimRefused g .ineligible) (dropClaim g x s))
  rw [told.entry, told.holder, entry, told.policy, dropped.policy] at spec
  have holder : (dropClaim g x s).holder g = s.holder g := by unfold State.holder; rw [entry]
  split at spec
  · next cancels =>
    obtain ⟨entry', -, others, sends⟩ := spec
    refine ⟨fun k hk => by rw [others k hk, told.entry, other k hk], _, rfl, ?_⟩
    rw [if_pos cancels]
    refine ⟨entry', (first.trans sends (dropped.mono.trans told.mono :
      SameExcept [.lease, .queues] s _)).of_eq fun y => ?_⟩
    unfold toWatchers
    rw [told.watch, dropped.watch, holder, List.append_assoc]
  · next stays =>
    rw [spec]
    refine ⟨fun k hk => by rw [told.entry, other k hk], _, rfl, ?_⟩
    rw [if_neg stays]
    exact ⟨by rw [told.entry, entry], first⟩

theorem removeIneligible_absent (waits : s.waits x g = false) : removeIneligible g x s = s := by
  unfold removeIneligible
  rw [if_neg (by rw [waits]; decide)]

theorem withPolicy_self (g : Group) (f : Policy → Policy) (s : State) :
    (s.withPolicy g f).policy.get g = f (s.policy.get g) := Table.get_modify_self _ _ _

theorem withPolicy_other (g : Group) (f : Policy → Policy) (s : State) :
    OtherPolicies g s (s.withPolicy g f) := fun _ hk => Table.get_modify_ne _ _ hk

/-! ### SET_POLICY and SET_AUDIT (R166, R168) -/

theorem setPolicyRequest_flag (h : 2 ≤ c.toNat) (s : State) :
    setPolicyRequest b c lease grace s = refuse .range s := by
  have none : flag? c = none := by
    unfold flag?
    rw [if_neg (by rintro rfl; revert h; decide), if_neg (by rintro rfl; revert h; decide)]
  unfold setPolicyRequest
  rw [none]
  cases group? b <;> rfl

theorem flag?_bit (h : c.toNat < 2) : flag? c = some (c.getLsbD 0) := by
  have cases : c = 0 ∨ c = 1 := by
    rcases Nat.lt_succ_iff_lt_or_eq.1 h with low | high
    · exact .inl (BitVec.eq_of_toNat_eq (by simpa using low))
    · exact .inr (BitVec.eq_of_toNat_eq high)
  rcases cases with rfl | rfl <;> rfl

theorem setPolicyRequest_of (hb : b.toNat = g.val) (h : c.toNat < 2) :
    setPolicyRequest b c lease grace s =
      done (s.withPolicy g fun q =>
        { q with preemptible := c.getLsbD 0, leasePeriod := lease, gracePeriod := grace }) := by
  unfold setPolicyRequest
  rw [group?_some hb, flag?_bit h]

theorem setAuditRequest_of (h : c.toNat < 8) : setAuditRequest c s =
    done { s with audit := ⟨c.getLsbD 0, c.getLsbD 1, c.getLsbD 2⟩ } := by
  unfold setAuditRequest audit?
  rw [if_pos h]

/-! ### TIMEOUT_EXPIRY (R144) -/

theorem exec_timeoutExpiry (x : Client) (s : State) : exec (.timeoutExpiry x) s =
    .next (match s.deferred.get x with
      | some { trigger := .line l _ _ (some 0), .. } =>
        append x (.pendingTimeout l) { s with deferred := s.deferred.put x none }
      | _ => s) := rfl

end Sys2Proof.Machine

namespace Sys2Proof.Proofs

open Sys2Proof.Machine

/-- Settles O36: the seven bytes spell a record or none. -/
theorem stageWrites : Obligations.StageWrites := by
  intro s x b l rb takes hb
  refine ⟨fun no => requestFrame_answersRefused takes rfl (stageRequest_illFormed hb no),
    fun r yes => ?_⟩
  have before := prepared_client x 0x05 (b :: recordList rb) s
  have stores := withStaged_frame
    ((prepared (.client x) 0x05 (b :: recordList rb) s).staged.modify x fun t => t.put l r)
    (prepared (.client x) 0x05 (b :: recordList rb) s)
  obtain ⟨served, after⟩ := request_accepted takes (stageRequest_of hb yes) rfl stores
  refine ⟨_, exec_stage x b rb s, served, ?_, fun y m other => ?_,
    (before.mono.trans stores.mono).trans after.mono⟩
  · rw [after.staged]
    simp
  · rw [after.staged]
    dsimp only
    rw [PerClient.get_modify, before.staged]
    split
    · next same =>
      subst same
      rw [Table.get_put_ne _ _ fun e => other ⟨rfl, e⟩]
    · rfl

/-- Settles O48: one place of a group's watch set. -/
theorem watchSets : Obligations.WatchSets := by
  intro s x b c g takes hb
  refine ⟨fun range => ?_, fun e he => ?_, fun absent => ?_, fun watches => ?_⟩
  · exact requestFrame_answersRefused takes rfl (watchRequest_illFormed hb (edges?_none range))
  · have before := prepared_client x 0x09 [b, c] s
    have stores := withWatch_frame
      ((prepared (.client x) 0x09 [b, c] s).watch.modify g fun w => w.put x (some e))
      (prepared (.client x) 0x09 [b, c] s)
    obtain ⟨served, after⟩ := request_accepted takes
      (watchRequest_of hb (show edges? c = some e from he ▸ edges?_code e)) rfl stores
    refine ⟨_, exec_watch x b c s, served, ?_, fun h y other => ?_,
      (before.mono.trans stores.mono).trans after.mono⟩
    · rw [after.watch]
      exact (watch_put _ _).1
    · rw [after.watch, ← before.watch]
      exact (watch_put _ _).2 h y other
  · have before := prepared_client x 0x0A [b] s
    rw [exec_unwatch]
    exact requestFrame_answersRefused takes rfl
      (unwatchRequest_absent hb (by rw [before.watch]; exact absent))
  · have before := prepared_client x 0x0A [b] s
    have stores := withWatch_frame
      ((prepared (.client x) 0x0A [b] s).watch.modify g fun w => w.put x none)
      (prepared (.client x) 0x0A [b] s)
    obtain ⟨served, after⟩ := request_accepted takes
      (unwatchRequest_of hb (by rw [before.watch]; exact watches)) rfl stores
    refine ⟨_, exec_unwatch x b s, served, ?_, fun h y other => ?_,
      (before.mono.trans stores.mono).trans after.mono⟩
    · rw [after.watch]
      exact (watch_put _ _).1
    · rw [after.watch, ← before.watch]
      exact (watch_put _ _).2 h y other

/-- Settles O52: the timeout timer of a LINE trigger at 0, and any other record. -/
theorem timeoutsRemove : Obligations.TimeoutsRemove := by
  refine fun s x => ⟨fun d l target timeout pending trigger => ?_, fun no => ?_⟩
  · obtain ⟨parts, _⟩ := d
    subst trigger
    have removes := withDeferred_frame (s.deferred.put x none) s
    have told := append_frame x (.pendingTimeout l) { s with deferred := s.deferred.put x none }
    refine ⟨_, (exec_timeoutExpiry x s).trans (by rw [pending]; rfl), ?_, fun y hy => ?_,
      removes.mono.trans told.mono, (append_sends x (.pendingTimeout l) _).start removes⟩
    · rw [told.deferred]; simp
    · rw [told.deferred]; simp [hy]
  · rw [exec_timeoutExpiry]
    split
    · next parts l target timeout pending => exact absurd rfl (no _ l target timeout pending)
    · rfl

/-- Settles O53: the priority is stored, and a claim that has become ineligible is removed. -/
theorem setPriorityStores : Obligations.SetPriorityStores := by
  intro s b c p g prio takes hb hp
  refine ⟨fun range => requestFrame_answersRefused takes rfl (setPriorityRequest_client range _),
    fun x hx => ?_⟩
  have stored := prepared_stored .supervisor 0x23 [b, c, p] s
  have before := stored.sameBesidePorts
  have stores := withPolicy_frame g (fun q => { q with priority := q.priority.put x prio })
    (prepared .supervisor 0x23 [b, c, p] s)
  have self := withPolicy_self g (fun q => { q with priority := q.priority.put x prio })
    (prepared .supervisor 0x23 [b, c, p] s)
  have others := withPolicy_other g (fun q => { q with priority := q.priority.put x prio })
    (prepared .supervisor 0x23 [b, c, p] s)
  have taken := setPriorityRequest_of (s := prepared .supervisor 0x23 [b, c, p] s) hb hx hp
  generalize (prepared .supervisor 0x23 [b, c, p] s).withPolicy g
    (fun q => { q with priority := q.priority.put x prio }) = v at *
  have removes : SameExcept [.lease, .queues] v (if prio = 0 then removeIneligible g x v else v) :=
    (removeIneligible_frame g x v).ite (.refl _ v)
  obtain ⟨served, after⟩ := request_accepted takes taken rfl
    (stores.mono.trans removes.mono :
      SameExcept [.policy, .lease, .queues] (prepared .supervisor 0x23 [b, c, p] s) _)
  have idle : prio ≠ 0 ∨ s.waits x g = false → (if prio = 0 then removeIneligible g x v else v) = v := by
    intro h
    split
    · next zero =>
      refine removeIneligible_absent ?_
      rw [stores.waits, before.waits]
      exact h.resolve_left (not_not.2 zero)
    · rfl
  refine ⟨_, exec_setPriority b c p s, served, fun k hk => ?_, fun k hk => ?_,
    ⟨(s.policy.get g).priority.put x prio, ?_, by simp, fun y hy => by simp [hy]⟩, fun h => ?_,
    fun zero waits => ?_⟩
  · rw [after.policy, removes.policy, others k hk, before.policy]
  · rw [after.entry, ← before.entry, ← stores.entry]
    split
    · by_cases waits : v.waits x g = true
      · exact (removeIneligible_spec waits).1 k hk
      · rw [removeIneligible_absent (Bool.not_eq_true _ ▸ waits)]
    · rfl
  · rw [after.policy, removes.policy, self, before.policy]
  · rw [idle h] at after
    exact (before.mono.trans stores.mono).trans after.mono
  · rw [if_pos zero] at after
    obtain ⟨-, w, hw, verdict⟩ := removeIneligible_spec (s := v) (x := x) (g := g)
      (by rw [stores.waits, before.waits]; exact waits)
    rw [stores.entry, before.entry] at hw
    refine ⟨w, hw, (before.mono.trans (stores.mono.trans (removeIneligible_frame g x v).mono :
      SameExcept [.policy, .lease, .queues] _ _).mono).trans after.mono, ?_⟩
    rw [stores.entry, before.entry, self, before.policy] at verdict
    dsimp only at verdict
    split at verdict
    · next cancels =>
      obtain ⟨entry, sends⟩ := verdict
      rw [if_pos cancels]
      refine ⟨by rw [after.entry, entry],
        (Sends.answered stored after (sends.start stores)).of_eq fun y => ?_⟩
      unfold toWatchers
      rw [stores.holder, before.holder, stores.watch, before.watch]
    · next stays =>
      obtain ⟨entry, sends⟩ := verdict
      rw [if_neg stays]
      exact ⟨by rw [after.entry, entry], Sends.answered stored after (sends.start stores)⟩

/-- Settles O54: the policy record and the audit selection. -/
theorem policyAndAuditStore : Obligations.PolicyAndAuditStore := by
  refine fun s b c lease grace takes => ⟨fun g hb => ⟨fun range => ?_, fun flag => ?_⟩, fun audit => ?_⟩
  · exact requestFrame_answersRefused takes rfl (setPolicyRequest_flag range _)
  · have before := (prepared_stored .supervisor 0x24
      [b, c, lease.extractLsb' 8 8, lease.extractLsb' 0 8, grace.extractLsb' 8 8,
        grace.extractLsb' 0 8] s).sameBesidePorts
    have stores := withPolicy_frame g
      (fun q => { q with preemptible := c.getLsbD 0, leasePeriod := lease, gracePeriod := grace })
      (prepared .supervisor 0x24 [b, c, lease.extractLsb' 8 8, lease.extractLsb' 0 8,
        grace.extractLsb' 8 8, grace.extractLsb' 0 8] s)
    obtain ⟨served, after⟩ := request_accepted takes (setPolicyRequest_of hb flag) rfl stores
    refine ⟨_, exec_setPolicy b c lease grace s, served, ?_, fun k hk => ?_,
      (before.mono.trans stores.mono).trans after.mono⟩
    · rw [after.policy, withPolicy_self, before.policy]
    · rw [after.policy, withPolicy_other _ _ _ k hk, before.policy]
  · have before := (prepared_stored .supervisor 0x28 [c] s).sameBesidePorts
    have stores := withAudit_frame ⟨c.getLsbD 0, c.getLsbD 1, c.getLsbD 2⟩
      (prepared .supervisor 0x28 [c] s)
    obtain ⟨served, after⟩ := request_accepted takes (setAuditRequest_of audit) rfl stores
    exact ⟨_, exec_setAudit c s, served, after.audit, (before.mono.trans stores.mono).trans after.mono⟩

end Sys2Proof.Proofs
end

section
/-! PROOF. What frees held mirrors: a pair that is replaced or removed, a pulse that ends (R96, R100 to R102, R110);
and SET_SAFE, which frees none (R89, R103, R167). -/

set_option Elab.async false

namespace Sys2Proof.Machine

variable {s t u : State} {l m a b : Line} {i : Fin 8} {p old : Pair} {bi ba bb : Byte} {rb : RecordBytes}
  {r : Record}

/-! ### Re-evaluations (R96) -/

/-- A line that no re-evaluation names keeps its driver state. -/
theorem reevaluateAll_driver {P : List (Line × Line)} (h : ∀ p ∈ P, p.2 ≠ m) :
    (reevaluateAll P s).driver m = s.driver m := by
  induction P generalizing s with
  | nil => rfl
  | cons p P ih =>
    refine (ih (s := reevaluateMirror p.2 s) fun q hq => h q (List.mem_cons_of_mem _ hq)).trans ?_
    rcases reevaluateMirror_cases p.2 s with ⟨e, -⟩ | ⟨-, -, dr, -⟩
    · rw [e]
    · rw [dr, if_neg (h p List.mem_cons_self).symm]

theorem Reported.linesOutside (rep : Reported s t) (named : Group → Bool) : LinesOutside named s t :=
  fun l _ => ⟨rep.frame.record l, (rep.driver l).imp_right fun ⟨held, _, e⟩ => ⟨held, e⟩⟩

/-- All that the removal of a pair from the table does to the lines: its held mirrors resume where no partner in
the table as it now stands opposes them (R101, R102). -/
theorem reevaluatePair_spec (ordered : old.lower < old.higher) (s : State) :
    LinesOutside (fun _ => false) s (reevaluatePair old s) ∧
      (∀ l, l ≠ old.lower → l ≠ old.higher → (reevaluatePair old s).driver l = s.driver l) ∧
      (∀ l, l = old.lower ∨ l = old.higher →
        ((reevaluatePair old s).driver l).mirror.map (·.phase) = some .held →
        partnerAsserted (reevaluatePair old s) l = true) ∧
      ∃ rs, Resumes (fun _ => false) s (reevaluatePair old s) rs ∧ Sends s (reevaluatePair old s) rs := by
  have all : reevaluatePair old s = reevaluateAll [(0, old.lower), (0, old.higher)] s := rfl
  obtain ⟨rs, sends, res⟩ := reevaluatePair_resumed old ordered s
  refine ⟨(reevaluatePair_reports old s).1.linesOutside _, fun l lower higher => ?_,
    fun l member held => ?_, rs, res.resumes, sends⟩
  · rw [all]
    refine reevaluateAll_driver fun q hq => ?_
    simp only [List.mem_cons, List.not_mem_nil, or_false] at hq
    rcases hq with rfl | rfl
    · exact lower.symm
    · exact higher.symm
  · rw [all] at held ⊢
    refine reevaluateAll_held (p := (0, l)) ?_ held
    rcases member with rfl | rfl <;> simp

/-! ### SET_PAIR and CLEAR_PAIR (R100 to R102) -/

theorem Pair.of_eq (a b : Line) : Pair.of a b = ⟨min a b, max a b⟩ := by
  unfold Pair.of
  split
  · next le => rw [min_eq_left le, max_eq_right le]
  · next gt => rw [min_eq_right (le_of_not_ge gt), max_eq_left (le_of_not_ge gt)]

theorem duplicateIndex_eq_some {j : Fin 8} : duplicateIndex s i p = some j ↔
    (j ≠ i ∧ s.pairs.get j = some p) ∧ ∀ k, k < j → ¬ (k ≠ i ∧ s.pairs.get k = some p) := by
  unfold duplicateIndex
  rw [(pairList_find s _).1 j]
  have here : ∀ k, (∃ q, s.pairs.get k = some q ∧ (k != i && q == p) = true) ↔
      k ≠ i ∧ s.pairs.get k = some p := by
    intro k
    constructor
    · rintro ⟨q, hq, h⟩
      simp only [Bool.and_eq_true, bne_iff_ne, beq_iff_eq] at h
      exact ⟨h.1, h.2 ▸ hq⟩
    · rintro ⟨ne, hp⟩
      exact ⟨p, hp, by simp [ne]⟩
  simp only [here]

theorem duplicateIndex_eq_none : duplicateIndex s i p = none ↔
    ∀ j, j ≠ i → s.pairs.get j ≠ some p := by
  unfold duplicateIndex
  rw [(pairList_find s _).2]
  constructor
  · intro h j ne hp
    exact h j ⟨p, hp, by simp [ne]⟩
  · rintro h j ⟨q, hq, c⟩
    simp only [Bool.and_eq_true, bne_iff_ne, beq_iff_eq] at c
    exact h j c.1 (c.2 ▸ hq)

theorem setPairRequest_of (hi : bi.toNat = i.val) (ha : ba.toNat = a.val) (hb : bb.toNat = b.val)
    (ne : a ≠ b) : setPairRequest bi ba bb s =
      match duplicateIndex s i (Pair.of a b) with
      | some j => (s, { code := .duplicate, info := byteOf j.val })
      | none =>
        if asserted s a && asserted s b then refuse .interlock s
        else if safeAsserts s a || safeAsserts s b then refuse .interlock s
        else done (writePair i (Pair.of a b) s) := by
  unfold setPairRequest
  rw [inRange_some hi, line?_some ha, line?_some hb]
  dsimp only
  rw [if_neg ne] <;> rfl

theorem setPairRequest_duplicate {j : Fin 8} (hi : bi.toNat = i.val) (ha : ba.toNat = a.val)
    (hb : bb.toNat = b.val) (ne : a ≠ b) (twice : duplicateIndex s i (Pair.of a b) = some j) :
    setPairRequest bi ba bb s = (s, { code := .duplicate, info := byteOf j.val }) := by
  rw [setPairRequest_of hi ha hb ne, twice]

theorem setPairRequest_interlock (hi : bi.toNat = i.val) (ha : ba.toNat = a.val)
    (hb : bb.toNat = b.val) (ne : a ≠ b) (single : duplicateIndex s i (Pair.of a b) = none)
    (clash : (asserted s a = true ∧ asserted s b = true) ∨ safeAsserts s a = true ∨
      safeAsserts s b = true) : setPairRequest bi ba bb s = refuse .interlock s := by
  rw [setPairRequest_of hi ha hb ne, single]
  dsimp only
  split
  · rfl
  · next no =>
    rw [if_pos]
    rw [Bool.or_eq_true]
    exact clash.resolve_left fun both => no (by rw [both.1, both.2]; rfl)

theorem setPairRequest_writes (hi : bi.toNat = i.val) (ha : ba.toNat = a.val)
    (hb : bb.toNat = b.val) (ne : a ≠ b) (single : duplicateIndex s i (Pair.of a b) = none)
    (rests : ¬ (asserted s a = true ∧ asserted s b = true)) (safeA : safeAsserts s a = false)
    (safeB : safeAsserts s b = false) :
    setPairRequest bi ba bb s = done (writePair i (Pair.of a b) s) := by
  rw [setPairRequest_of hi ha hb ne, single]
  dsimp only
  rw [if_neg (by rw [Bool.and_eq_true]; exact rests), if_neg (by rw [safeA, safeB]; decide)]

theorem writePair_frame (i : Fin 8) (p : Pair) (s : State) :
    SameExcept [.pairs, .drivers, .queues] s (writePair i p s) := by
  unfold writePair
  split
  · exact (withPairs_frame _ s).mono
  · exact .ite (.refl _ s) ((withPairs_frame _ s).mono.trans (reevaluatePair_frame _ _).mono)

theorem writePair_pairs (i : Fin 8) (p : Pair) (s : State) :
    (writePair i p s).pairs = s.pairs.put i (some p) := by
  unfold writePair
  split
  · rfl
  · next old there =>
    split
    · next same =>
      rw [← same, ← there, Table.put_get_self]
    · exact (reevaluatePair_frame _ _).pairs

theorem writePair_quiet (quiet : s.pairs.get i = none ∨ s.pairs.get i = some p) :
    SameExcept [.pairs] s (writePair i p s) := by
  unfold writePair
  rcases quiet with e | e
  · rw [e]; exact withPairs_frame _ s
  · rw [e]; dsimp only; rw [if_pos rfl]; exact .refl _ s

theorem writePair_replaces (there : s.pairs.get i = some old) (other : old ≠ p) :
    writePair i p s = reevaluatePair old { s with pairs := s.pairs.put i (some p) } := by
  unfold writePair
  rw [there]
  dsimp only
  rw [if_neg other]

theorem clearPairRequest_of (hi : bi.toNat = i.val) (s : State) : clearPairRequest bi s =
    match s.pairs.get i with
    | none => done s
    | some old => done (reevaluatePair old { s with pairs := s.pairs.put i none }) := by
  unfold clearPairRequest
  rw [inRange_some hi] <;> rfl

/-- What follows a change of the table, seen from before it. -/
theorem Resumes.base {rs : Client → List Event} (k : SameExcept [.pairs] s u)
    (res : Resumes (fun _ => false) u t rs) : Resumes (fun _ => false) s t rs := by
  obtain ⟨events, free, order, blocked⟩ := res
  have same : asserted u = asserted s := funext fun l => k.asserted l
  rw [same] at order blocked
  have r : Resumed (fun _ => false) (asserted s) u t rs := ⟨events, free, order, blocked⟩
  exact (r.base (fun l _ => by rw [k.driver]) (fun l _ => k.asserted l) fun g _ => k.holder g).resumes

/-! ### PULSE_END (R110) -/

theorem exec_pulseEnd (l : Line) (s : State) : exec (.pulseEnd l) s =
    .next (if (s.driver l).pulse = some 0 then
      reportDeassertion l
        (appendHolder (groupOf l) (.pulseDone l) (s.withDriver l fun d => { d with pulse := none }))
      else s) := rfl

/-- The mirrors that the report of a line re-evaluates, in ascending line number. -/
def partnersOf (l : Line) (s : State) : List Line := lines.filter fun m => decide (m ∈ partners s l)

theorem mem_partnersOf : m ∈ partnersOf l s ↔ m ∈ partners s l := by
  unfold partnersOf
  rw [List.mem_filter]
  simp

/-- A report is a list of re-evaluations, whatever line stands for its source. -/
theorem reportDeassertion_as (c l : Line) (s : State) :
    reportDeassertion l s = reevaluateAll ((partnersOf l s).map fun m => (c, m)) s := by
  rw [reportDeassertion_eq]
  unfold reevaluateAll partnersOf
  rw [List.foldl_map, List.foldl_map]

/-- A mirror that a report leaves held has a partner that is asserted, and that was so or was judged before
it. -/
theorem reportDeassertion_blocked (hm : m ∈ partners s l)
    (held : isHeld (reportDeassertion l s) m) :
    ∃ k ∈ partners (reportDeassertion l s) m, asserted (reportDeassertion l s) k = true ∧
      (asserted s k = false → k ∈ partners s l ∧ k < m) := by
  obtain ⟨before, after, split⟩ := List.append_of_mem (mem_partnersOf.2 hm)
  have ascend : (partnersOf l s).Pairwise (· < ·) := lines_ascend.filter _
  rw [reportDeassertion_as l] at held ⊢
  rw [split, List.map_append, List.map_cons] at held ⊢
  obtain ⟨k, hk, ha, first⟩ := reevaluateAll_blocked held
  refine ⟨k, hk, ha, fun rests => ?_⟩
  obtain ⟨q, hq, rfl⟩ := first rests
  obtain ⟨n, hn, rfl⟩ := List.mem_map.1 hq
  rw [split] at ascend
  exact ⟨mem_partnersOf.1 (by rw [split]; simp [hn]),
    (List.pairwise_append.1 ascend).2.2 n hn m List.mem_cons_self⟩

/-- The end of a pulse can deassert its own line alone. -/
theorem pulseEnd_dead {k : Line} (frame : SameExcept [.drivers, .queues] s u)
    (driver : ∀ k, u.driver k = if k = l then { s.driver k with pulse := none } else s.driver k)
    (on : asserted s k = true) (off : asserted u k = false) :
    k = l ∧ ∃ w, (s.record l).function = .pulse w := by
  have here : k = l := by
    by_contra ne
    rw [asserted_of_driver (frame.record k) (by rw [driver, if_neg ne]), on] at off
    cases off
  subst here
  refine ⟨rfl, ?_⟩
  unfold asserted at on off
  rw [frame.record, driver, if_pos rfl] at off
  split at on
  · cases on
  · next e => rw [e] at off; rw [on] at off; cases off
  · next w e => exact ⟨w, e⟩
  · next e => rw [e] at off; rw [on] at off; cases off

/-- What a pulse that ends frees: the held mirrors among its line's partners (R96, R110). -/
theorem pulseEnd_resumes (frame : SameExcept [.drivers, .queues] s u)
    (driver : ∀ k, u.driver k = if k = l then { s.driver k with pulse := none } else s.driver k) :
    ∃ rs, Sends u (reportDeassertion l u) rs ∧
      Resumes (fun _ => false) s (reportDeassertion l u) rs := by
  have rep := (reportDeassertion_reports l u).1
  have stays : ∀ k, asserted s k = true → asserted (reportDeassertion l u) k = false →
      k = l ∧ ∃ w, (s.record l).function = .pulse w := fun k on off =>
    pulseEnd_dead frame driver on (by
      by_contra h
      rw [rep.asserted (Bool.not_eq_false _ ▸ h)] at off
      cases off)
  -- the report of the line is the only one, where the line has deasserted at all
  have report : ∃ c : Line, ∀ m, m ∈ partners u l →
      reportOf (asserted s) (reportDeassertion l u) m = c.val := by
    by_cases dies : asserted s l = true ∧ asserted (reportDeassertion l u) l = false
    · refine ⟨l, fun m hm => ?_⟩
      obtain ⟨r, hr⟩ : ∃ r : Line, reportOf (asserted s) (reportDeassertion l u) m = r.val :=
        ⟨⟨_, lt_of_le_of_lt (reportOf_le dies.1 dies.2
          (rep.frame.partners m ▸ partners_symm hm)) l.isLt⟩, rfl⟩
      obtain ⟨on, off, -⟩ := reportOf_eq hr
        ⟨l, dies.1, dies.2, rep.frame.partners m ▸ partners_symm hm⟩
      rw [hr, (stays r on off).1]
    · refine ⟨0, fun m _ => reportOf_none m fun k on => ?_⟩
      by_contra off
      rw [Bool.not_eq_true] at off
      obtain ⟨rfl, -⟩ := stays k on off
      exact dies ⟨on, off⟩
  obtain ⟨c, report⟩ := report
  have blocked : Reevaluated (asserted s) (fun k => asserted u k = false) (reportDeassertion l u) := by
    intro k m hk on off held
    obtain ⟨rfl, -⟩ := stays k on off
    have hm : m ∈ partners u k := partners_symm (rep.frame.partners m ▸ hk)
    obtain ⟨n, hn, ha, first⟩ := reportDeassertion_blocked hm held
    refine ⟨n, hn, ha, fun rests => .inr ⟨?_, (first rests).2⟩⟩
    rw [report n (first rests).1, report m hm]
  rw [reportDeassertion_as c] at report blocked ⊢
  obtain ⟨rs, sends, events, free, order, blocked⟩ := reevaluateAll_resumed (s := u) (was := asserted s)
    (P := (partnersOf l u).map fun m => (c, m))
    (by
      unfold ReportsAscend
      rw [List.pairwise_map]
      exact (lines_ascend.filter _).imp fun h => .inr ⟨rfl, h⟩)
    (fun p hp _ _ _ => by
      obtain ⟨m, hm, rfl⟩ := List.mem_map.1 hp
      exact report m (mem_partnersOf.1 hm)) blocked
  have mirror : ∀ k, (u.driver k).mirror = (s.driver k).mirror := fun k => by
    rw [driver]
    split <;> rfl
  refine ⟨rs, sends, events.base (fun k _ => mirror k) fun g _ => frame.holder g,
    fun k src sense hn held => free k src sense hn (by rw [mirror]; exact held), order,
    blocked.mono fun k _ h => ⟨rfl, ?_⟩⟩
  by_contra on
  rw [Bool.not_eq_false] at on
  have off := h.2
  by_cases here : k = l
  · subst here
    unfold asserted at on off
    rw [frame.record, driver, if_pos rfl] at on
    split at on
    · cases on
    · next e => rw [e] at off; rw [on] at off; cases off
    · cases on
    · next e => rw [e] at off; rw [on] at off; cases off
  · rw [← asserted_of_driver (frame.record k) (by rw [driver, if_neg here]), on] at off
    cases off

/-! ### SET_SAFE (R89, R103, R167) -/

theorem setSafeRequest_illFormed {bl : Byte} (hl : bl.toNat = l.val) (no : record? l rb = none) :
    setSafeRequest bl rb s = refuse .range s := by
  unfold setSafeRequest
  rw [line?_some hl]
  dsimp only
  rw [no]

theorem setSafeRequest_notSafe {bl : Byte} (hl : bl.toNat = l.val) (yes : record? l rb = some r)
    (no : ¬ r.isSafe) : setSafeRequest bl rb s = refuse .range s := by
  unfold setSafeRequest
  rw [line?_some hl]
  dsimp only
  rw [yes]
  unfold Record.isSafe at no
  dsimp only
  split
  · rfl
  · rfl
  · next pulse mirror =>
    exfalso
    cases e : r.function with
    | input => rw [e] at no; exact no trivial
    | static b => rw [e] at no; exact no trivial
    | pulse w => exact pulse w e
    | mirror src sense => exact mirror src sense e

theorem setSafeRequest_of {bl : Byte} (hl : bl.toNat = l.val) (yes : record? l rb = some r)
    (safe : r.isSafe) : setSafeRequest bl rb s =
      match (if r.function = .static true then pairIndexOf s l else none) with
      | some i => (s, { code := .interlock, info := byteOf i.val })
      | none => done (if atSafe s (groupOf l) then safeUpdate l r (storeSafe l r s)
          else storeSafe l r s) := by
  unfold setSafeRequest
  rw [line?_some hl]
  dsimp only
  rw [yes]
  unfold Record.isSafe at safe
  dsimp only
  split
  · next e => rw [e] at safe; exact safe.elim
  · next e => rw [e] at safe; exact safe.elim
  · rfl

theorem Pair.partner_isSome : (p.partner l).isSome = true ↔ p.lower = l ∨ p.higher = l := by
  unfold Pair.partner
  split
  · next e => simp [e]
  · next ne =>
    split
    · next e => simp [e]
    · next ne' => simp [ne, ne']

theorem pairIndexOf_eq_some : pairIndexOf s l = some i ↔
    (∃ p, s.pairs.get i = some p ∧ (p.lower = l ∨ p.higher = l)) ∧
      ∀ j, j < i → ¬ ∃ q, s.pairs.get j = some q ∧ (q.lower = l ∨ q.higher = l) := by
  unfold pairIndexOf
  rw [(pairList_find s _).1 i]
  simp only [Pair.partner_isSome]

theorem pairIndexOf_of_partners_nil (alone : partners s l = []) : pairIndexOf s l = none := by
  unfold pairIndexOf
  rw [(pairList_find s _).2]
  rintro j ⟨q, hq, isSome⟩
  obtain ⟨m, hm⟩ := Option.isSome_iff_exists.1 isSome
  have : m ∈ partners s l := mem_partners.2 ⟨j, q, hq, hm⟩
  rw [alone] at this
  cases this

theorem storeSafe_safe (l : Line) (r : Record) (s : State) (g : Group) (p : Fin 4) :
    ((storeSafe l r s).policy.get g).safe.get p =
      if lineOf g p = l then r else (s.policy.get g).safe.get p := by
  have := storeSafe_get l r s (lineOf g p)
  simpa using this

theorem storeSafe_settings (l : Line) (r : Record) (s : State) (g : Group) :
    ((storeSafe l r s).policy.get g).priority = (s.policy.get g).priority ∧
      ((storeSafe l r s).policy.get g).preemptible = (s.policy.get g).preemptible ∧
      ((storeSafe l r s).policy.get g).leasePeriod = (s.policy.get g).leasePeriod ∧
      ((storeSafe l r s).policy.get g).gracePeriod = (s.policy.get g).gracePeriod := by
  unfold storeSafe State.withPolicy
  rw [Table.get_modify]
  split <;> exact ⟨rfl, rfl, rfl, rfl⟩

/-- On a group at its safe configuration the line takes the record at once, and no mirror resumes. -/
theorem safeUpdate_stored (inv : Inv s) (l : Line) (r : Record) :
    (if atSafe s (groupOf l) then safeUpdate l r (storeSafe l r s) else storeSafe l r s) =
      safeStored l r s := by
  unfold safeStored
  split
  · next safe =>
    have stores := storeSafe_frame l r s
    refine safeUpdate_eq l r fun on => ?_
    rw [stores.asserted] at on
    rw [stores.partners]
    exact partners_of_safe inv.pairs inv.config.2.1 inv.atSafe safe on
  · rfl

theorem safeStored_policy (l : Line) (r : Record) (s : State) :
    (safeStored l r s).policy = (storeSafe l r s).policy := by
  unfold safeStored
  split <;> rfl

theorem Record.startDriver_safe (safe : r.isSafe) : r.startDriver false = ⟨none, none⟩ := by
  unfold Record.isSafe at safe
  unfold Record.startDriver
  split at safe
  · next e => rw [e]
  · next e => rw [e]
  · exact safe.elim

end Sys2Proof.Machine

namespace Sys2Proof.Proofs

open Sys2Proof.Machine

/-- Settles O42: the tests in their order, and what a replaced pair frees. -/
theorem setPairWrites : Obligations.SetPairWrites := by
  intro s bi ba bb i a b law takes hi ha hb ne
  have stored := prepared_stored .supervisor 0x26 [bi, ba, bb] s
  have before := stored.sameBesidePorts
  rw [exec_setPair, ← Pair.of_eq]
  generalize hu : prepared .supervisor 0x26 [bi, ba, bb] s = u at *
  refine ⟨fun j other there => ?_, fun single => ?_⟩
  · have twice : duplicateIndex u i (Pair.of a b) = some j := by
      rw [duplicateIndex_eq_some, before.pairs]
      exact ⟨⟨other, there⟩, fun k below again =>
        absurd ((law j _ there).2.1 k again.2) (ne_of_lt below)⟩
    exact ⟨_, rfl, request_refused takes (hu ▸ setPairRequest_duplicate hi ha hb ne twice) rfl⟩
  · have single : duplicateIndex u i (Pair.of a b) = none := by
      rw [duplicateIndex_eq_none, before.pairs]
      exact single
    have asserts : ∀ l, asserted u l = asserted s l := fun l => before.asserted l
    have safe : ∀ l, safeAsserts u l = safeAsserts s l := safeAsserts_congr fun g => by rw [before.policy]
    refine ⟨fun clash => ⟨_, rfl, request_refused takes (hu ▸ setPairRequest_interlock hi ha hb ne single
      (by rw [asserts, asserts, safe, safe]; exact clash)) rfl⟩, fun rests safeA safeB => ?_⟩
    have writes := setPairRequest_writes hi ha hb ne single
      (by rw [asserts, asserts]; exact rests) (by rw [safe]; exact safeA) (by rw [safe]; exact safeB)
    have frame := writePair_frame i (Pair.of a b) u
    obtain ⟨served, after⟩ := request_accepted takes (hu.symm ▸ writes) rfl (hu.symm ▸ frame)
    rw [hu] at after
    have pairs := writePair_pairs i (Pair.of a b) u
    refine ⟨_, rfl, served, ?_, fun j other => ?_, fun quiet => ?_, fun old there differs => ?_⟩
    · rw [after.pairs, pairs]; simp
    · rw [after.pairs, pairs, Table.get_put_ne _ _ other, before.pairs]
    · exact (before.mono.trans (writePair_quiet (by rw [before.pairs]; exact quiet)).mono).trans after.mono
    · have puts := withPairs_frame (u.pairs.put i (some (Pair.of a b))) u
      rw [writePair_replaces (by rw [before.pairs]; exact there) differs] at frame after
      obtain ⟨outside, others, blocked, rs, res, sends⟩ :=
        reevaluatePair_spec (law i old there).1 { u with pairs := u.pairs.put i (some (Pair.of a b)) }
      refine ⟨(before.mono.trans frame.mono).trans after.mono,
        LinesOutside.transport before after.mono
          (outside.base (fun l _ => puts.record l) fun l _ => puts.driver l),
        fun l lower higher => ?_, fun l member held => ?_, rs,
        (res.base puts).transport before after.mono, Sends.answered stored after (sends.start puts)⟩
      · rw [after.driver, others l lower higher, puts.driver, before.driver]
      · rw [after.driver] at held
        rw [SameBesidePorts.partnerAsserted_eq after.mono]
        exact blocked l member held

/-- Settles O43: the index is emptied, and what the removed pair frees. -/
theorem clearPairFrees : Obligations.ClearPairFrees := by
  refine fun s b law takes => ⟨fun range => requestFrame_range takes (clearPairRequest_range range),
    fun i hi => ?_⟩
  have stored := prepared_stored .supervisor 0x27 [b] s
  have before := stored.sameBesidePorts
  have clears := clearPairRequest_of hi (prepared .supervisor 0x27 [b] s)
  cases there : s.pairs.get i with
  | none =>
    rw [before.pairs, there] at clears
    obtain ⟨served, after⟩ := request_accepted takes clears rfl (.refl [] _)
    have same : SameExcept [.ports, .sreq] s _ := before.trans after.mono
    refine ⟨_, exec_clearPair b s, served, ?_, fun j _ => by rw [same.pairs], fun _ => same,
      fun old h => by cases h⟩
    rw [same.pairs]
    exact there
  | some old =>
    rw [before.pairs, there, ← before.pairs] at clears
    have puts := withPairs_frame ((prepared .supervisor 0x27 [b] s).pairs.put i none)
      (prepared .supervisor 0x27 [b] s)
    have frees := reevaluatePair_frame old { prepared .supervisor 0x27 [b] s with
      pairs := (prepared .supervisor 0x27 [b] s).pairs.put i none }
    have frame : SameExcept [.pairs, .drivers, .queues] (prepared .supervisor 0x27 [b] s) _ :=
      puts.mono.trans frees.mono
    obtain ⟨served, after⟩ := request_accepted takes clears rfl frame
    obtain ⟨outside, others, blocked, rs, res, sends⟩ :=
      reevaluatePair_spec (law i old there).1 { prepared .supervisor 0x27 [b] s with
        pairs := (prepared .supervisor 0x27 [b] s).pairs.put i none }
    refine ⟨_, exec_clearPair b s, served, ?_, fun j other => ?_, fun h => (by cases h),
      fun old' same => ?_⟩
    · rw [after.pairs, frees.pairs]; simp
    · rw [after.pairs, frees.pairs]
      dsimp only
      rw [Table.get_put_ne _ _ other, before.pairs]
    · cases same
      refine ⟨(before.mono.trans frame.mono).trans after.mono,
        LinesOutside.transport before after.mono
          (outside.base (fun l _ => puts.record l) fun l _ => puts.driver l),
        fun l lower higher => ?_, fun l member held => ?_, rs,
        (res.base puts).transport before after.mono, Sends.answered stored after (sends.start puts)⟩
      · rw [after.driver, others l lower higher, puts.driver, before.driver]
      · rw [after.driver] at held
        rw [SameBesidePorts.partnerAsserted_eq after.mono]
        exact blocked l member held

/-- Settles O44: the pulse is gone, and its line's deassertion is reported. -/
theorem pulseEnds : Obligations.PulseEnds := by
  refine fun s l => ⟨fun running => by rw [exec_pulseEnd, if_neg running], fun out => ?_⟩
  have ends := withDriver_frame l (fun d : Driver => { d with pulse := none }) s
  have told := appendHolder_frame (groupOf l) (.pulseDone l)
    (s.withDriver l fun d => { d with pulse := none })
  have sends := (appendHolder_sends (groupOf l) (.pulseDone l)
    (s.withDriver l fun d => { d with pulse := none })).start ends
  have driver : ∀ k, (appendHolder (groupOf l) (.pulseDone l)
      (s.withDriver l fun d => { d with pulse := none })).driver k =
      if k = l then { s.driver k with pulse := none } else s.driver k := by
    intro k
    rw [told.driver]
    split
    · next e => subst e; exact State.withDriver_driver_self _ _ _
    · next e => exact State.withDriver_driver_ne _ _ e
  have frame : SameExcept [.drivers, .queues] s (appendHolder (groupOf l) (.pulseDone l)
    (s.withDriver l fun d => { d with pulse := none })) := ends.mono.trans told.mono
  rw [ends.holder] at sends
  rw [exec_pulseEnd, if_pos out]
  generalize appendHolder (groupOf l) (.pulseDone l)
    (s.withDriver l fun d => { d with pulse := none }) = u at *
  have rep := (reportDeassertion_reports l u).1
  obtain ⟨rs, resumed, res⟩ := pulseEnd_resumes frame driver
  have here : u.driver l = { s.driver l with pulse := none } := by rw [driver, if_pos rfl]
  have there : ∀ m, m ≠ l → u.driver m = s.driver m := fun m hm => by rw [driver, if_neg hm]
  refine ⟨_, rfl, frame.trans rep.frame, ?_, fun m hm => ?_, ?_, fun m hm other => ?_,
    fun m hm held => ?_, rs, res, sends.trans resumed frame⟩
  · rcases rep.driver l with e | ⟨-, -, e⟩ <;> rw [e, here]
  · refine ⟨by rw [rep.frame.record, frame.record], ?_⟩
    rcases rep.driver m with e | ⟨held, -, e⟩
    · exact .inl (by rw [e, there m hm])
    · unfold isHeld at held
      rw [there m hm] at e held
      exact .inr ⟨held, e⟩
  · rcases rep.driver l with e | ⟨held, -, e⟩
    · exact .inl (by rw [e, here])
    · unfold isHeld at held
      rw [here] at held
      exact .inr ⟨held, by rw [e]⟩
  · rw [reportDeassertion_as l, reevaluateAll_driver fun p hp => ?_, there m hm]
    obtain ⟨n, hn, rfl⟩ := List.mem_map.1 hp
    rintro rfl
    exact other (frame.partners l ▸ mem_partnersOf.1 hn)
  · obtain ⟨k, hk, ha, first⟩ := reportDeassertion_blocked ((frame.partners l).symm ▸ hm) held
    refine ⟨k, hk, ha, fun rests => (first ?_).2⟩
    by_contra on
    rw [Bool.not_eq_false] at on
    have same : k = l := by
      by_contra hk
      rw [asserted_of_driver (frame.record k) (there k hk), rests] at on
      cases on
    subst same
    unfold asserted at on rests
    rw [frame.record, here] at on
    split at on
    · cases on
    · next e => rw [e] at rests; rw [on] at rests; cases rests
    · cases on
    · next e => rw [e] at rests; rw [on] at rests; cases rests

/-- Settles O55: the tests in their order, and the safe update. -/
theorem setSafeStores : Obligations.SetSafeStores := by
  intro s b rb l inv takes hl
  have stored := prepared_stored .supervisor 0x25 (b :: recordList rb) s
  have before := stored.sameBesidePorts
  refine ⟨fun no => requestFrame_answersRefused takes rfl (setSafeRequest_illFormed hl no),
    fun r yes => ⟨fun moving => requestFrame_answersRefused takes rfl
      (setSafeRequest_notSafe hl yes moving), fun i p static there member lowest => ?_,
      fun safe unpaired => ?_⟩⟩
  · have paired : pairIndexOf (prepared .supervisor 0x25 (b :: recordList rb) s) l = some i := by
      rw [pairIndexOf_eq_some, before.pairs]
      refine ⟨⟨p, there, member⟩, fun j below again => ?_⟩
      obtain ⟨q, hq, member⟩ := again
      obtain ⟨lower, higher⟩ := lowest j q below hq
      exact member.elim lower higher
    have request := setSafeRequest_of (s := prepared .supervisor 0x25 (b :: recordList rb) s) hl yes
      (by unfold Record.isSafe; rw [static]; trivial)
    rw [if_pos static, paired] at request
    exact ⟨_, exec_setSafe b rb s, request_refused takes request rfl⟩
  · have request := setSafeRequest_of (s := prepared .supervisor 0x25 (b :: recordList rb) s) hl yes safe
    have unpaired : (if r.function = .static true then
        pairIndexOf (prepared .supervisor 0x25 (b :: recordList rb) s) l else none) = none := by
      split
      · next static =>
        exact pairIndexOf_of_partners_nil (by rw [before.partners]; exact unpaired static)
      · rfl
    rw [unpaired] at request
    dsimp only at request
    rw [safeUpdate_stored (stored.inv inv)] at request
    have frame := safeStored_frame l r (prepared .supervisor 0x25 (b :: recordList rb) s)
    obtain ⟨served, after⟩ := request_accepted takes request rfl frame
    have atSafe' := atSafe_of_frame before (groupOf l)
    refine ⟨_, exec_setSafe b rb s, served, fun g p => ?_, fun g => ?_, fun state => ?_,
      fun state => ?_⟩
    · rw [after.policy, safeStored_policy, storeSafe_safe, before.policy]
    · rw [after.policy, safeStored_policy, ← before.policy]
      exact storeSafe_settings l r _ g
    · have no : atSafe (prepared .supervisor 0x25 (b :: recordList rb) s) (groupOf l) = false := by
        rw [atSafe']
        unfold atSafe
        rcases state with e | e <;> rw [e] <;> rfl
      unfold safeStored at after
      rw [if_neg (by rw [no]; decide)] at after
      exact (before.mono.trans (storeSafe_frame l r _).mono).trans after.mono
    · have yes : atSafe (prepared .supervisor 0x25 (b :: recordList rb) s) (groupOf l) = true := by
        rw [atSafe']
        unfold atSafe
        rcases state with e | e <;> rw [e] <;> rfl
      refine ⟨(before.mono.trans frame.mono).trans after.mono, ?_⟩
      unfold safeStored at after
      rw [if_pos yes] at after
      refine ⟨?_, ?_, fun m hm => ⟨?_, ?_⟩⟩
      · rw [after.record]; simp [State.record]
      · rw [after.driver]; simpa [State.driver] using Record.startDriver_safe safe
      · rw [after.record, ← before.record]; simp [State.record, hm]
      · rw [after.driver, ← before.driver]; simp [State.driver, hm]

end Sys2Proof.Proofs
end

section
/-! PROOF. The judgement of a replacement, COMMIT and EXCHANGE (R75 to R82, R92, R93, R163). -/

set_option Elab.async false

namespace Sys2Proof.Machine

variable {s t u : State} {p : Proposal} {l : Line} {g : Group} {x : Client} {set b : Byte}

/-! ### The judgement (R76, R92, R93) -/

theorem Proposal.immediate_iff : p.immediate s l = true ↔
    (p.named (groupOf l) = true ∧ ((p.result l).function = .static true ∨
      p.starts = true ∧ ∃ w, (p.result l).function = .pulse w)) ∨
    (p.named (groupOf l) = false ∧ asserted s l = true) := by
  unfold Proposal.immediate
  cases p.named (groupOf l) with
  | false => simp
  | true => cases (p.result l).function <;> simp

theorem Proposal.clash_iff (i : Fin 8) :
    (∃ q, s.pairs.get i = some q ∧ (p.immediate s q.lower && p.immediate s q.higher) = true) ↔
      ∃ q, s.pairs.get i = some q ∧ p.immediate s q.lower = true ∧ p.immediate s q.higher = true := by
  simp only [Bool.and_eq_true]

theorem Proposal.conflict_eq_some {i : Fin 8} : p.conflict s = some i ↔
    (∃ q, s.pairs.get i = some q ∧ p.immediate s q.lower = true ∧ p.immediate s q.higher = true) ∧
      ∀ j, j < i →
        ¬ ∃ q, s.pairs.get j = some q ∧ p.immediate s q.lower = true ∧ p.immediate s q.higher = true := by
  unfold Proposal.conflict
  rw [(pairList_find s _).1 i]
  simp only [Proposal.clash_iff]

theorem judge_loop_iff : judge p s = .loop ↔ p.hasLoop = true := by
  unfold judge
  cases p.hasLoop with
  | true => simp
  | false => cases p.conflict s <;> simp

theorem judge_interlock_iff {i : Fin 8} :
    judge p s = .interlock i ↔ p.hasLoop = false ∧ p.conflict s = some i := by
  unfold judge
  cases p.hasLoop with
  | true => simp
  | false => cases p.conflict s <;> simp

/-! ### COMMIT (R75 to R79) -/

theorem exec_commit (x : Client) (set : Byte) (s : State) : exec (.commit x set) s =
    .next (requestFrame (.client x) 0x07 [set] (commitRequest x set) s) := rfl

theorem commitRequest_empty (s : State) : commitRequest x 0 s = refuse .range s := by
  unfold commitRequest
  rw [(groupsOf_nil 0).2 rfl]
  rfl

theorem commitRequest_notHolder (some' : set ≠ 0)
    (no : ∃ g : Group, set.getLsbD g.val = true ∧ s.holder g ≠ some x) :
    commitRequest x set s = refuse .notHolder s := by
  obtain ⟨g, hg, holder⟩ := no
  unfold commitRequest
  dsimp only
  rw [if_neg (mt (groupsOf_nil set).1 some'),
    if_pos (Bool.eq_false_iff.2 fun all => holder ((holdsAll_iff s x set).1 all g hg))]

/-- A COMMIT of groups that the caller holds is judged (R76). -/
theorem commitRequest_judged (some' : set ≠ 0)
    (all : ∀ g : Group, set.getLsbD g.val = true → s.holder g = some x) :
    commitRequest x set s =
      match judge ⟨names set, stagedOver s x (names set), true⟩ s with
      | .loop => (s, { code := .loop, group := (groupsOf set).head? })
      | .interlock i => (s, { code := .interlock, info := byteOf i.val, group := (groupsOf set).head? })
      | .accepted =>
        done ((⟨names set, stagedOver s x (names set), true⟩ : Proposal).apply (asserted s) s) := by
  unfold commitRequest
  dsimp only
  rw [if_neg (mt (groupsOf_nil set).1 some'), if_neg (by rw [(holdsAll_iff s x set).2 all]; decide),
    stagedProposal_groupsOf] <;> rfl

/-- What a replacement of a client's staged records proposes is the same where a request is taken. -/
theorem judge_stagedOver (k : SameBesidePorts s u) (named : Group → Bool) :
    judge ⟨named, stagedOver u x named, true⟩ u = judge ⟨named, stagedOver s x named, true⟩ s := by
  rw [stagedOver_transport k, judge_transport k]

/-! ### What an accepted replacement of staged records does (R78, R94, R98) -/

theorem Replaced.congr {named : Group → Bool} {r r' : Line → Record} {starts : Bool}
    (rep : Replaced named r starts s t) (same : ∀ l, named (groupOf l) = true → r l = r' l) :
    Replaced named r' starts s t := fun l hl => same l hl ▸ rep l hl

theorem heldEvents_frame {named : Group → Bool} {ps : List Part} (k : SameExcept ps t u)
    (drivers : Part.drivers ∉ ps := by decide) (lease : Part.lease ∉ ps := by decide) :
    heldEvents named u = heldEvents named t := by
  funext y
  unfold heldEvents
  simp only [k.driver _ drivers, k.holder _ lease]

theorem stagedOver_named {named : Group → Bool} (hl : named (groupOf l) = true) :
    stagedOver s x named l = (s.staged.get x).get l := if_pos hl

/-- The replacement of the named groups' records by a client's staged ones. -/
theorem applyStaged_spec (named : Group → Bool) (distinct : PairsDistinct s) :
    let after := (⟨named, stagedOver s x named, true⟩ : Proposal).apply (asserted s) s
    Replaced named (s.staged.get x).get true s after ∧ LinesOutside named s after ∧
      ∃ rs, Resumes named s after rs ∧ Sends s after fun y =>
        overtakenEvents named (s.staged.get x).get s y ++ heldEvents named after y ++ rs y := by
  obtain ⟨rep, outside, rs, res, sends⟩ :=
    apply_spec ⟨named, stagedOver s x named, true⟩ (asserted s) s distinct fun _ _ => rfl
  refine ⟨rep.congr fun l hl => stagedOver_named hl, outside, rs, res.resumes,
    sends.of_eq fun y => ?_⟩
  rw [overtakenEvents_congr fun l hl => stagedOver_named hl]

/-! ### EXCHANGE (R81, R82) -/

theorem exchangeRequest_notHolder (hb : b.toNat = g.val) (no : s.holder g ≠ some x) :
    exchangeRequest x b s = refuse .notHolder s := by
  unfold exchangeRequest
  rw [withGroup_some hb, if_pos no]

theorem exchangeRequest_judged (hb : b.toNat = g.val) (holder : s.holder g = some x) :
    exchangeRequest x b s =
      match judge ⟨only g, stagedOver s x (only g), true⟩ s with
      | .loop => (s, { code := .loop, group := some g })
      | .interlock i => (s, { code := .interlock, info := byteOf i.val, group := some g })
      | .accepted => done (stageActive x g s.active
          ((⟨only g, stagedOver s x (only g), true⟩ : Proposal).apply (asserted s) s)) := by
  unfold exchangeRequest
  rw [withGroup_some hb, if_neg (not_not.2 holder), stagedProposal_single] <;> rfl

theorem stageActive_own (x : Client) (g : Group) (active : Table 32 Record) (s : State) (l : Line) :
    ((stageActive x g active s).staged.get x).get l =
      if groupOf l = g then active.get l else (s.staged.get x).get l := by
  unfold stageActive
  simp

theorem stageActive_other (g : Group) (active : Table 32 Record) (s : State) {y : Client}
    (hy : y ≠ x) : (stageActive x g active s).staged.get y = s.staged.get y := by
  unfold stageActive
  simp [hy]

/-- An exchange swaps the active and the staged records of its group. -/
structure Exchanged (s t : State) (x : Client) (g : Group) : Prop where
  active : ∀ l, t.record l = if groupOf l = g then (s.staged.get x).get l else s.record l
  staged : ∀ l, (t.staged.get x).get l = if groupOf l = g then s.record l else (s.staged.get x).get l
  others : ∀ y, y ≠ x → t.staged.get y = s.staged.get y

theorem exchanged (s : State) (x : Client) (g : Group) : Exchanged s (stageActive x g s.active
    ((⟨only g, stagedOver s x (only g), true⟩ : Proposal).apply (asserted s) s)) x g := by
  have applies := apply_frame ⟨only g, stagedOver s x (only g), true⟩ (asserted s) s
  refine ⟨fun l => ?_, fun l => ?_, fun y hy => ?_⟩
  · rw [(stageActive_frame x g _ _).record, apply_record]
    dsimp only
    by_cases here : groupOf l = g
    · have named : only g (groupOf l) = true := by simpa [only] using here
      rw [if_pos named, if_pos here, stagedOver_named named]
    · rw [if_neg (by simpa [only] using here), if_neg here]
  · rw [stageActive_own, applies.staged]
    rfl
  · rw [stageActive_other _ _ _ hy, applies.staged]

theorem Exchanged.transport {s' t' : State} (e : Exchanged s' t' x g) (k : SameBesidePorts s s')
    (after : SameBesidePorts t' t) : Exchanged s t x g := by
  refine ⟨fun l => ?_, fun l => ?_, fun y hy => ?_⟩
  · rw [after.record, e.active, k.staged, k.record]
  · rw [after.staged, e.staged, k.staged, k.record]
  · rw [after.staged, e.others y hy, k.staged]

/-- Two exchanges in a row put everything back (R82). -/
theorem Exchanged.twice (first : Exchanged s t x g) (second : Exchanged t u x g) :
    u.active = s.active ∧ u.staged = s.staged := by
  constructor
  · refine Table.ext_get fun l => (second.active l).trans ?_
    rw [first.staged, first.active]
    split <;> rfl
  · refine PerClient.ext_get fun y => ?_
    by_cases hy : y = x
    · subst hy
      refine Table.ext_get fun l => (second.staged l).trans ?_
      rw [first.staged, first.active]
      split <;> rfl
    · rw [second.others y hy, first.others y hy]

/-- An accepted exchange in the state in which it is taken. -/
theorem exec_exchange_accepted (takes : portTakes s x = true) (hb : b.toNat = g.val)
    (holder : s.holder g = some x)
    (accepted : judge ⟨only g, stagedOver s x (only g), true⟩ s = .accepted) :
    ∃ t u, exec (.exchange x b) s = .next t ∧ Served s t (.client x) 0x08 [b] .done 0 ∧
      Stored s u ∧ SameExcept [.ports] s u ∧
      SameExcept [.ports] (stageActive x g u.active
        ((⟨only g, stagedOver u x (only g), true⟩ : Proposal).apply (asserted u) u)) t := by
  have before := prepared_client x 0x08 [b] s
  have request := exchangeRequest_judged (s := prepared (.client x) 0x08 [b] s) hb
    (by rw [before.holder]; exact holder)
  rw [judge_stagedOver before.mono, accepted] at request
  obtain ⟨served, after⟩ := request_accepted takes request rfl
    ((apply_frame _ _ _).mono.trans (stageActive_frame x g _ _).mono :
      SameExcept [.active, .drivers, .queues, .staged] _ _)
  exact ⟨_, _, exec_exchange x b s, served, prepared_stored _ _ _ s, before, after⟩

theorem exec_exchange_refused (takes : portTakes s x = true) (hb : b.toNat = g.val)
    (holder : s.holder g = some x) {code : ResultCode} {info : Byte}
    (verdict : judge ⟨only g, stagedOver s x (only g), true⟩ s = .loop ∧ code = .loop ∧ info = 0 ∨
      ∃ i, judge ⟨only g, stagedOver s x (only g), true⟩ s = .interlock i ∧ code = .interlock ∧
        info = BitVec.ofNat 8 i.val) :
    ∃ t, exec (.exchange x b) s = .next t ∧
      Refused s t (.client x) 0x08 [b] .conflict code info (some g) := by
  have before := prepared_client x 0x08 [b] s
  have request := exchangeRequest_judged (s := prepared (.client x) 0x08 [b] s) hb
    (by rw [before.holder]; exact holder)
  rw [judge_stagedOver before.mono] at request
  rcases verdict with ⟨e, rfl, rfl⟩ | ⟨i, e, rfl, rfl⟩
  · rw [e] at request
    exact ⟨_, exec_exchange x b s, request_refused takes request rfl⟩
  · rw [e] at request
    exact ⟨_, exec_exchange x b s, request_refused takes request rfl⟩

/-- A refused request does not answer DONE. -/
theorem Refused.not_done {page : Page} {kind info : Byte} {params : List Byte} {cls : FaultClass}
    {code : ResultCode} {group : Option Group} (r : Refused s t page kind params cls code info group)
    (ne : code.byte ≠ ResultCode.done.byte) (done : (t.port (pagePort page)).result = ResultCode.done.byte) :
    False := by
  obtain ⟨⟨⟨result, -⟩, -⟩, -⟩ := r
  exact ne (result.symm.trans done)

/-- An exchange that answers DONE has swapped the records of its group, and the port takes the next frame. -/
theorem exec_exchange_done (takes : portTakes s x = true) (next : exec (.exchange x b) s = .next t)
    (done : (t.port x).result = ResultCode.done.byte) :
    ∃ g : Group, b.toNat = g.val ∧ Exchanged s t x g ∧ portTakes t x = true := by
  by_cases range : 8 ≤ b.toNat
  · obtain ⟨v, e, refused⟩ : AnswersRefused (exec (.exchange x b) s) s (.client x) 0x08 [b] .range .range :=
      requestFrame_range takes fun t => withGroup_none range t _
    cases e.symm.trans next
    exact (refused.not_done (by decide) done).elim
  · obtain ⟨g, hb⟩ : ∃ g : Group, b.toNat = g.val := ⟨⟨b.toNat, by omega⟩, rfl⟩
    by_cases holder : s.holder g = some x
    · cases judged : judge ⟨only g, stagedOver s x (only g), true⟩ s with
      | accepted =>
        obtain ⟨v, u, e, served, -, before, after⟩ := exec_exchange_accepted takes hb holder judged
        cases e.symm.trans next
        have frame : SameExcept [.active, .drivers, .queues, .staged] u _ :=
          (apply_frame ⟨only g, stagedOver u x (only g), true⟩ (asserted u) u).mono.trans
            (stageActive_frame x g u.active _).mono
        exact ⟨g, hb, (exchanged u x g).transport before.mono after.mono, served.portTakes
          (by rw [after.resetLow, frame.resetLow, before.resetLow]) takes⟩
      | loop =>
        obtain ⟨v, e, refused⟩ := exec_exchange_refused takes hb holder (.inl ⟨judged, rfl, rfl⟩)
        cases e.symm.trans next
        exact (refused.not_done (by decide) done).elim
      | interlock i =>
        obtain ⟨v, e, refused⟩ := exec_exchange_refused takes hb holder (.inr ⟨i, judged, rfl, rfl⟩)
        cases e.symm.trans next
        exact (refused.not_done (by decide) done).elim
    · have before := prepared_client x 0x08 [b] s
      obtain ⟨v, e, refused⟩ :
          AnswersRefused (exec (.exchange x b) s) s (.client x) 0x08 [b] .ownership .notHolder := by
        rw [exec_exchange]
        exact requestFrame_answersRefused takes rfl
          (exchangeRequest_notHolder hb (by rw [before.holder]; exact holder))
      cases e.symm.trans next
      exact (refused.not_done (by decide) done).elim

end Sys2Proof.Machine

namespace Sys2Proof.Proofs

open Sys2Proof.Machine

/-- Settles O38: the loop test, then the first pair of the immediate set. -/
theorem judgesReplacements : Obligations.JudgesReplacements := by
  intro p s
  have loops : (∃ l src sense src' sense', (p.result l).function = .mirror src sense ∧
      (p.result src).function = .mirror src' sense') ↔ p.hasLoop = true := Proposal.hasLoop_iff.symm
  refine ⟨?_, fun i => ?_, ?_⟩
  · rw [judge_loop_iff, loops]
  · rw [judge_interlock_iff, loops, Bool.not_eq_true, Proposal.conflict_eq_some]
    simp only [Proposal.immediate_iff]
  · rw [judge_accepted_iff, loops, Bool.not_eq_true, Proposal.conflict_eq_none]
    simp only [Proposal.immediate_iff, not_exists, not_and]

/-- Settles O39: the tests in their order. -/
theorem commitTests : Obligations.CommitTests := by
  intro s x set takes
  have before := prepared_client x 0x07 [set] s
  refine ⟨fun empty => ?_, fun some' no => ?_, fun low hlow least all => ?_⟩
  · subst empty
    exact requestFrame_answersRefused takes rfl (commitRequest_empty _)
  · obtain ⟨g, hg, holder⟩ := no
    exact requestFrame_answersRefused takes rfl
      (commitRequest_notHolder some' ⟨g, hg, fun h => holder ((before.holder g).symm.trans h)⟩)
  · have some' : set ≠ 0 := by
      rintro rfl
      simp at hlow
    have request := commitRequest_judged (s := prepared (.client x) 0x07 [set] s) some'
      fun g hg => (before.holder g).trans (all g hg)
    rw [judge_stagedOver before.mono, groupsOf_head set low hlow least] at request
    refine ⟨fun loops => ?_, fun i clashes => ?_⟩
    · rw [loops] at request
      exact ⟨_, exec_commit x set s, request_refused takes request rfl⟩
    · rw [clashes] at request
      exact ⟨_, exec_commit x set s, request_refused takes request rfl⟩

/-- Settles O40: the replacement of the named groups' records. -/
theorem commitReplaces : Obligations.CommitReplaces := by
  intro s x set law takes some' all accepted
  have stored := prepared_stored (.client x) 0x07 [set] s
  have before := prepared_client x 0x07 [set] s
  have request := commitRequest_judged (s := prepared (.client x) 0x07 [set] s) some'
    fun g hg => (before.holder g).trans (all g hg)
  rw [judge_stagedOver before.mono, accepted] at request
  have frame := apply_frame ⟨names set, stagedOver (prepared (.client x) 0x07 [set] s) x (names set), true⟩
    (asserted (prepared (.client x) 0x07 [set] s)) (prepared (.client x) 0x07 [set] s)
  obtain ⟨served, after⟩ := request_accepted takes request rfl frame
  obtain ⟨rep, outside, rs, res, sends⟩ := applyStaged_spec (s := prepared (.client x) 0x07 [set] s)
    (x := x) (names set) (by unfold PairsDistinct; rw [before.pairs]; exact law.distinct)
  rw [before.staged] at rep sends
  refine ⟨_, exec_commit x set s, served, rep.transport before.mono after.mono,
    outside.transport before.mono after.mono, (before.mono.trans frame.mono).trans after.mono, rs,
    res.transport before.mono after.mono, (Sends.answered stored after sends).of_eq fun y => ?_⟩
  rw [overtakenEvents_transport before.mono, heldEvents_transport after.mono]

/-- Settles O41: the swap of active and staged records, and its inverse. -/
theorem exchangeSwaps : Obligations.ExchangeSwaps := by
  refine ⟨fun s x b g takes hb => ⟨fun no => ?_, fun holder loops => ?_, fun i holder clashes => ?_,
    fun law holder accepted => ?_⟩, fun s t u x b takes first done₁ second done₂ => ?_⟩
  · have before := prepared_client x 0x08 [b] s
    rw [exec_exchange]
    exact requestFrame_answersRefused takes rfl
      (exchangeRequest_notHolder hb (by rw [before.holder]; exact no))
  · exact exec_exchange_refused takes hb holder (.inl ⟨loops, rfl, rfl⟩)
  · exact exec_exchange_refused takes hb holder (.inr ⟨i, clashes, rfl, rfl⟩)
  · obtain ⟨t, u, next, served, stored, before, after⟩ := exec_exchange_accepted takes hb holder accepted
    have swap := (exchanged u x g).transport before.mono after.mono
    have applies := apply_frame ⟨only g, stagedOver u x (only g), true⟩ (asserted u) u
    obtain ⟨rep, outside, rs, res, sends⟩ := applyStaged_spec (s := u) (x := x) (only g)
      (by unfold PairsDistinct; rw [before.pairs]; exact law.distinct)
    have copies := stageActive_frame x g u.active
      ((⟨only g, stagedOver u x (only g), true⟩ : Proposal).apply (asserted u) u)
    have held := heldEvents_frame (named := only g) copies
    rw [before.staged] at rep sends
    have resumed : Resumed (only g) (asserted u) u _ rs := ⟨res.1, res.2.1, res.2.2.1, res.2.2.2⟩
    refine ⟨t, next, served, (rep.frame copies).transport before.mono after.mono,
      LinesOutside.transport before.mono after.mono
        (fun l hl => by rw [copies.record, copies.driver]; exact outside l hl),
      swap.staged, swap.others,
      ((before.mono.trans applies.mono).trans copies.mono).trans after.mono, rs,
      (resumed.frame copies).resumes.transport before.mono after.mono,
      (Sends.answered stored after (sends.ending copies)).of_eq fun y => ?_⟩
    rw [overtakenEvents_transport before.mono, heldEvents_transport after.mono, held]
  · obtain ⟨g, hb, swap₁, takes'⟩ := exec_exchange_done takes first done₁
    obtain ⟨g', hb', swap₂, -⟩ := exec_exchange_done takes' second done₂
    obtain rfl : g = g' := Fin.ext (hb.symm.trans hb')
    exact swap₁.twice swap₂

end Sys2Proof.Proofs
end

section
/-! PROOF. Pending commits and filtered changes: DEFER, DELAY_EXPIRY, SAMPLE (R123 to R126, R131, R136 to R143). -/

set_option Elab.async false

namespace Sys2Proof.Machine

variable {s t t0 u : State} {x : Client} {set kind line target : Byte} {timeout delay : Word16}
  {trigger : Trigger} {d d' : Deferred} {l : Line} {lv : Level}

/-! ### The trigger of a DEFER (R136) -/

theorem trigger?_line (hl : line.toNat = l.val) :
    trigger? 1 line 0 timeout delay =
        some (.line l .low timeout (if timeout = 0 then none else some timeout)) ∧
      trigger? 1 line 1 timeout delay =
        some (.line l .high timeout (if timeout = 0 then none else some timeout)) := by
  unfold trigger?
  rw [line?_some hl]
  exact ⟨rfl, rfl⟩

theorem trigger?_time (zero : timeout = 0) (some' : delay ≠ 0) :
    trigger? 2 line target timeout delay = some (.time delay delay) := by
  unfold trigger?
  rw [if_neg (by decide), if_pos rfl, if_pos ⟨zero, some'⟩]

theorem trigger?_none (h : (kind ≠ 1 ∧ kind ≠ 2) ∨ (kind = 1 ∧ (32 ≤ line.toNat ∨ 2 ≤ target.toNat)) ∨
    (kind = 2 ∧ (timeout ≠ 0 ∨ delay = 0))) : trigger? kind line target timeout delay = none := by
  unfold trigger?
  rcases h with ⟨one, two⟩ | ⟨rfl, range⟩ | ⟨rfl, times⟩
  · rw [if_neg one, if_neg two]
  · rw [if_pos rfl]
    rcases range with range | range
    · rw [line?_none range]
    · have none : flag? target = none := by
        unfold flag?
        rw [if_neg (by rintro rfl; revert range; decide), if_neg (by rintro rfl; revert range; decide)]
      rw [none]
      cases line? line <;> rfl
  · rw [if_neg (by decide), if_pos rfl, if_neg]
    rintro ⟨zero, some'⟩
    exact times.elim (· zero) some'

theorem trigger?_isSome (h : (kind = 1 ∧ line.toNat < 32 ∧ target.toNat < 2) ∨
    (kind = 2 ∧ timeout = 0 ∧ delay ≠ 0)) : ∃ trigger, trigger? kind line target timeout delay = some trigger := by
  rcases h with ⟨rfl, range, flag⟩ | ⟨rfl, zero, some'⟩
  · unfold trigger?
    rw [if_pos rfl, line?_some (l := ⟨line.toNat, range⟩) rfl, flag?_bit flag]
    exact ⟨_, rfl⟩
  · exact ⟨_, trigger?_time zero some'⟩

/-! ### DEFER (R136 to R138) -/

theorem exec_defer (x : Client) (set kind line target : Byte) (timeout delay : Word16) (s : State) :
    exec (.defer x set kind line target timeout delay) s =
      .next (requestFrame (.client x) 0x0B [set, kind, line, target, timeout.extractLsb' 8 8,
        timeout.extractLsb' 0 8, delay.extractLsb' 8 8, delay.extractLsb' 0 8]
        (deferRequest x set kind line target timeout delay) s) := rfl

theorem deferRequest_busy (pending : (s.deferred.get x).isSome = true) :
    deferRequest x set kind line target timeout delay s = refuse .busy s := by
  unfold deferRequest
  dsimp only
  rw [if_pos pending]

theorem deferRequest_range (free : s.deferred.get x = none)
    (h : set = 0 ∨ trigger? kind line target timeout delay = none) :
    deferRequest x set kind line target timeout delay s = refuse .range s := by
  unfold deferRequest
  dsimp only
  rw [if_neg (by rw [free]; decide)]
  split
  · rfl
  · next some' =>
    rw [h.resolve_left fun empty => some' ((groupsOf_nil set).2 empty)]

theorem deferRequest_notHolder (free : s.deferred.get x = none) (some' : set ≠ 0)
    (ht : trigger? kind line target timeout delay = some trigger)
    (no : ∃ g : Group, set.getLsbD g.val = true ∧ s.holder g ≠ some x) :
    deferRequest x set kind line target timeout delay s = refuse .notHolder s := by
  obtain ⟨g, hg, holder⟩ := no
  unfold deferRequest
  dsimp only
  rw [if_neg (by rw [free]; decide), if_neg (mt (groupsOf_nil set).1 some'), ht]
  dsimp only
  rw [if_pos (Bool.eq_false_iff.2 fun all => holder ((holdsAll_iff s x set).1 all g hg))]

/-- The record that an accepted DEFER makes (R136). -/
def deferral (x : Client) (set : Byte) (trigger : Trigger) (s : State) : Deferred :=
  { parts := (groupsOf set).map fun g => (g, stagedConfig s x g), trigger }

/-- The state with a record made. -/
def withRecord (x : Client) (d : Deferred) (s : State) : State :=
  { s with deferred := s.deferred.put x (some d) }

theorem withRecord_frame (x : Client) (d : Deferred) (s : State) :
    SameExcept [.deferred] s (withRecord x d s) := withDeferred_frame _ s

theorem withRecord_self (x : Client) (d : Deferred) (s : State) :
    (withRecord x d s).deferred.get x = some d := PerClient.get_put_self _ _ _

theorem withRecord_other (d : Deferred) (s : State) {y : Client} (hy : y ≠ x) :
    (withRecord x d s).deferred.get y = s.deferred.get y := PerClient.get_put_ne _ _ hy

theorem deferRequest_passes (free : s.deferred.get x = none) (some' : set ≠ 0)
    (ht : trigger? kind line target timeout delay = some trigger)
    (all : ∀ g : Group, set.getLsbD g.val = true → s.holder g = some x) :
    deferRequest x set kind line target timeout delay s =
      done (if (deferral x set trigger s).lineMet (withRecord x (deferral x set trigger s) s) then
          applyDeferred x (withRecord x (deferral x set trigger s) s)
        else withRecord x (deferral x set trigger s) s) := by
  unfold deferRequest
  dsimp only
  rw [if_neg (by rw [free]; decide), if_neg (mt (groupsOf_nil set).1 some'), ht]
  dsimp only
  rw [if_neg (by rw [(holdsAll_iff s x set).2 all]; decide)]
  rfl

/-- A DEFER whose trigger is not met at once makes the record and does nothing else (R136, R137). -/
theorem exec_defer_makes (takes : portTakes s x = true) (free : s.deferred.get x = none)
    (some' : set ≠ 0) (all : ∀ g : Group, set.getLsbD g.val = true → s.holder g = some x)
    (ht : trigger? kind line target timeout delay = some trigger)
    (unmet : ∀ d : Deferred, d.trigger = trigger → ∀ t : State, t.sampler = s.sampler → d.lineMet t = false) :
    ∃ t d, exec (.defer x set kind line target timeout delay) s = .next t ∧
      Served s t (.client x) 0x0B [set, kind, line, target, timeout.extractLsb' 8 8,
        timeout.extractLsb' 0 8, delay.extractLsb' 8 8, delay.extractLsb' 0 8] .done 0 ∧
      t.deferred.get x = some d ∧ d.trigger = trigger ∧
      d.parts.map (·.1) = groups.filter (fun g => set.getLsbD g.val) ∧
      (∀ part ∈ d.parts, ∀ p, part.2.get p = (s.staged.get x).get (lineOf part.1 p)) ∧
      (∀ y, y ≠ x → t.deferred.get y = s.deferred.get y) ∧ SameExcept [.deferred, .ports] s t := by
  have before := prepared_client x 0x0B [set, kind, line, target, timeout.extractLsb' 8 8,
    timeout.extractLsb' 0 8, delay.extractLsb' 8 8, delay.extractLsb' 0 8] s
  have request := deferRequest_passes (s := prepared (.client x) 0x0B [set, kind, line, target,
    timeout.extractLsb' 8 8, timeout.extractLsb' 0 8, delay.extractLsb' 8 8, delay.extractLsb' 0 8] s)
    (by rw [before.deferred]; exact free) some' ht fun g hg => (before.holder g).trans (all g hg)
  generalize hu : prepared (.client x) 0x0B [set, kind, line, target, timeout.extractLsb' 8 8,
    timeout.extractLsb' 0 8, delay.extractLsb' 8 8, delay.extractLsb' 0 8] s = u at *
  have made := withRecord_frame x (deferral x set trigger u) u
  rw [unmet _ rfl _ (made.sampler.trans before.sampler)] at request
  obtain ⟨served, after⟩ := request_accepted takes (hu.symm ▸ request) rfl (hu.symm ▸ made)
  rw [hu, if_neg (by decide)] at after
  refine ⟨_, deferral x set trigger u, exec_defer x set kind line target timeout delay s, served, ?_,
    rfl, ?_, fun part hp p => ?_, fun y hy => ?_, (before.mono.trans made.mono).trans after.mono⟩
  · rw [after.deferred, withRecord_self]
  · unfold deferral
    rw [List.map_map]
    exact List.map_id _
  · unfold deferral at hp
    obtain ⟨g, -, rfl⟩ := List.mem_map.1 hp
    unfold stagedConfig
    rw [Table.get_tabulate, before.staged]
  · rw [after.deferred, withRecord_other _ _ hy, before.deferred]

/-! ### Met pending commits (R138, R140 to R143) -/

theorem judge_of_congr (parts : List (Group × GroupConfig)) (starts : Bool) {ps : List Part}
    (k : SameExcept ps s u) (active : Part.active ∉ ps := by decide)
    (drivers : Part.drivers ∉ ps := by decide) (pairs : Part.pairs ∉ ps := by decide) :
    Proposal.of u parts starts = Proposal.of s parts starts ∧
      judge (Proposal.of u parts starts) u = judge (Proposal.of s parts starts) s := by
  have same := Proposal.of_congr parts starts s u fun l => k.record l active
  refine ⟨same, ?_⟩
  rw [same]
  exact judge_congr _ _ s u rfl rfl rfl (k.pairs pairs) fun l _ => k.asserted l active drivers

/-- The application of a record, seen from before the record was made (R138). -/
theorem AppliesDeferred.base (k : SameExcept [.deferred] s u)
    (others : ∀ y, y ≠ x → u.deferred.get y = s.deferred.get y) (parts : d'.parts = d.parts)
    (trigger : d'.trigger.line? = d.trigger.line?) (a : AppliesDeferred u t x d) :
    AppliesDeferred s t x d' := by
  obtain ⟨gone, rest, verdict⟩ := a
  obtain ⟨same, judged⟩ := judge_of_congr d.parts true k
  rw [judged, same] at verdict
  refine ⟨gone, fun y hy => (rest y hy).trans (others y hy), ?_⟩
  rw [parts, trigger]
  split at verdict
  · obtain ⟨records, rep, outside, rs, ⟨events, free, order, blocked⟩, sends⟩ := verdict
    have assertions : asserted u = asserted s := funext fun l => k.asserted l
    rw [assertions] at order blocked
    have r : Resumed (Proposal.of s d.parts true).named (asserted s) u t rs := ⟨events, free, order, blocked⟩
    refine ⟨records, rep.base fun l _ => k.asserted l,
      outside.base (fun l _ => k.record l) fun l _ => k.driver l, rs,
      (r.base (fun l _ => by rw [k.driver]) (fun l _ => k.asserted l) fun g _ => k.holder g).resumes,
      (sends.start k).of_eq fun y => ?_⟩
    unfold overtakenEvents
    simp only [k.driver, k.holder]
  · exact ⟨verdict.1.trans k.active, verdict.2.1.trans k.drivers, verdict.2.2.start k⟩
  · exact ⟨verdict.1.trans k.active, verdict.2.1.trans k.drivers, verdict.2.2.start k⟩

/-- The same before a request's taking and after its answer. -/
theorem AppliesDeferred.transport (st : Stored s u) (after : SameExcept [.ports] t0 t)
    (a : AppliesDeferred u t0 x d) : AppliesDeferred s t x d := by
  have before := st.sameBesidePorts
  have after' : SameBesidePorts t0 t := after.mono
  obtain ⟨gone, rest, verdict⟩ := a
  obtain ⟨same, judged⟩ := judge_of_congr d.parts true before
  rw [judged, same] at verdict
  refine ⟨by rw [after.deferred]; exact gone,
    fun y hy => by rw [after.deferred, rest y hy, before.deferred], ?_⟩
  split at verdict
  · obtain ⟨records, rep, outside, rs, res, sends⟩ := verdict
    refine ⟨fun part hp p => by rw [after.record]; exact records part hp p, rep.transport before after',
      outside.transport before after', rs, res.transport before after',
      (Sends.answered st after sends).of_eq fun y => ?_⟩
    rw [overtakenEvents_transport before, heldEvents_transport after']
  · exact ⟨by rw [after.active, verdict.1, before.active], by rw [after.drivers, verdict.2.1, before.drivers],
      Sends.answered st after verdict.2.2⟩
  · exact ⟨by rw [after.active, verdict.1, before.active], by rw [after.drivers, verdict.2.1, before.drivers],
      Sends.answered st after verdict.2.2⟩

theorem Inv.applies (inv : Inv s) (pending : s.deferred.get x = some d) :
    AppliesDeferred s (applyDeferred x s) x d :=
  applyDeferred_spec x d inv.pairs.distinct (snapshot_parts_unique (inv.deferred x d pending).2.1) pending

theorem exec_delayExpiry (x : Client) (s : State) : exec (.delayExpiry x) s =
    .next (match s.deferred.get x with
      | some { trigger := .time _ 0, .. } => applyDeferred x s
      | _ => s) := rfl

theorem deferral_groups (x : Client) (set : Byte) (trigger : Trigger) (s : State) :
    ((deferral x set trigger s).parts.map (·.1)).Pairwise (· < ·) := by
  unfold deferral
  rw [List.map_map]
  refine List.Pairwise.imp (fun h => h) (?_ : (groupsOf set).map _ |>.Pairwise (· < ·))
  rw [show ((fun part : Group × GroupConfig => part.1) ∘ fun g => (g, stagedConfig s x g)) = id from rfl,
    List.map_id]
  have : groups.Pairwise (· < ·) := by decide
  exact this.filter _

/-! ### A sample instant (R123 to R126, R131) -/

theorem exec_sample (pads : BitVec 32) (order : List Line) (high : s.resetLow = false) :
    exec (.sample pads order) s = .next (takeSample pads order s) := by
  show Host.Outcome.next (if s.resetLow then s else takeSample pads order s) = _
  rw [high]
  rfl

theorem edgeEvents_frame {ps : List Part} (k : SameExcept ps s u) (l : Line) (lv : Level)
    (active : Part.active ∉ ps := by decide) (lease : Part.lease ∉ ps := by decide)
    (watch : Part.watch ∉ ps := by decide) : edgeEvents u l lv = edgeEvents s l lv := by
  funext y
  unfold edgeEvents
  rw [k.record _ active, k.holder _ lease, k.watch watch]

/-- The steps 1 to 4 of a filtered change that is alone at its instant. -/
theorem takeSample_follows (inv : Inv s) (pads : BitVec 32) (order : List Line)
    (others : ∀ m, m ≠ l → padLevel pads m = s.level m) (change : padLevel pads l ≠ s.level l)
    (count : (s.record l).filter.val ≤ (s.sampler.get l).candidate.elim 0 (·.count)) :
    ∃ m, FollowsSource s m l (padLevel pads l) ∧
      takeSample pads order s = fireTriggers l (padLevel pads l) m := by
  obtain ⟨s0, judged, level, levels, e⟩ := takeSample_one pads order s l others change count
  exact ⟨_, follows_spec inv.pairs.exclusive inv.drivers.mirrors judged level levels, e⟩

end Sys2Proof.Machine

namespace Sys2Proof.Proofs

open Sys2Proof.Machine

/-- Settles O45: the samplers after the instant, and the acceptances in turn. -/
theorem samplesAreFiltered : Obligations.SamplesAreFiltered := by
  refine ⟨fun s pads order high => ⟨_, exec_sample pads order high, (takeSample_frame pads order s).mono,
    fun l => takeSample_filters pads order s l⟩, fun s pads order inv high => ?_⟩
  obtain ⟨turns, s0, members, sorted, frame, level, taken⟩ := takeSample_spec pads order inv.settled
  exact ⟨turns, s0, _, exec_sample pads order high, members, sorted, frame, level, taken⟩

/-- Settles O46: with no mirror and no trigger the reports are all. -/
theorem edgesAreReported : Obligations.EdgesAreReported := by
  rintro s pads order l lv high others rfl change count noMirror noTrigger
  obtain ⟨s0, judged, level, -, e⟩ := takeSample_one pads order s l others change count
  obtain ⟨reports, sends⟩ := reportWatchers_spec l (padLevel pads l) s0
  have frame : SameExcept [.sampler, .queues] s _ := judged.mono.trans reports.mono
  rw [followSource_none (fun m sense => by rw [frame.record]; exact noMirror m sense),
    fireTriggers_idle (fun x d timeout left => by rw [frame.deferred]; exact noTrigger x d timeout left)] at e
  refine ⟨_, exec_sample pads order high, ?_, ?_, ?_⟩
  · rw [e]; exact frame
  · rw [e, reports.level, level]
  · rw [e]
    exact (sends.start judged).of_eq fun y => by rw [edgeEvents_frame judged]

/-- Settles O47: the edges and the mirrors, with no trigger met. -/
theorem mirrorsFollow : Obligations.MirrorsFollow := by
  intro s pads order l inv high others change count noTrigger
  obtain ⟨m, follows, e⟩ := takeSample_follows inv pads order others change count
  rw [fireTriggers_idle fun x d timeout left => by
    rw [follows.1.deferred]; exact noTrigger x d timeout left] at e
  exact ⟨_, exec_sample pads order high, e ▸ follows⟩

/-- Settles O49: the tests in their order, and the record made. -/
theorem deferMakesRecords : Obligations.DeferMakesRecords := by
  intro s x set kind line target timeout delay takes
  have before := prepared_client x Kind.defer.byte [set, kind, line, target, highByte timeout,
    lowByte timeout, highByte delay, lowByte delay] s
  dsimp only
  refine ⟨fun pending => ?_, fun free => ⟨fun range => ?_, fun some' valid no => ?_,
    fun some' all => ⟨fun l line' hl => ⟨fun low level => ?_, fun up level => ?_⟩,
      fun time zero runs => ?_⟩⟩⟩
  · exact requestFrame_answersRefused takes rfl
      (deferRequest_busy (by rw [before.deferred]; exact pending))
  · exact requestFrame_answersRefused takes rfl
      (deferRequest_range (by rw [before.deferred]; exact free) (range.imp_right trigger?_none))
  · obtain ⟨trigger, ht⟩ := trigger?_isSome valid
    obtain ⟨g, hg, holder⟩ := no
    exact requestFrame_answersRefused takes rfl (deferRequest_notHolder
      (by rw [before.deferred]; exact free) some' ht ⟨g, hg, by rw [before.holder]; exact holder⟩)
  · subst line' low
    refine exec_defer_makes takes free some' all (trigger?_line hl).1 fun d hd t sampler => ?_
    unfold Deferred.lineMet
    rw [hd]
    show (t.level l == Level.low) = false
    rw [show t.level l = s.level l by unfold State.level; rw [sampler], level]
    rfl
  · subst line' up
    refine exec_defer_makes takes free some' all (trigger?_line hl).2 fun d hd t sampler => ?_
    unfold Deferred.lineMet
    rw [hd]
    show (t.level l == Level.high) = false
    rw [show t.level l = s.level l by unfold State.level; rw [sampler], level]
    rfl
  · subst time
    refine exec_defer_makes takes free some' all (trigger?_time zero runs) fun d hd t _ => ?_
    unfold Deferred.lineMet
    rw [hd]

/-- Settles O50: the three occasions at which a record is met. -/
theorem metCommitsApply : Obligations.MetCommitsApply := by
  refine ⟨fun s x d delay inv pending trigger => ?_, fun s x no => ?_,
    fun s pads order l inv high others change count => ?_,
    fun s x set line target timeout delay l d inv takes free some' all hl met parts trigger => ?_⟩
  · refine ⟨_, (exec_delayExpiry x s).trans ?_, inv.applies pending, (applyDeferred_frame x s).mono⟩
    obtain ⟨ps, _⟩ := d
    subst trigger
    rw [pending]
    rfl
  · rw [exec_delayExpiry]
    split
    · next ps delay pending => exact absurd rfl (no _ delay pending)
    · rfl
  · obtain ⟨m, follows, e⟩ := takeSample_follows inv pads order others change count
    refine ⟨_, exec_sample pads order high, m, follows, ?_⟩
    rw [e]
    exact fireTriggers_spec l (padLevel pads l)
      (by unfold PairsDistinct; rw [follows.1.pairs]; exact inv.pairs.distinct)
      (by unfold PartsDistinct; rw [follows.1.deferred]; exact inv.deferred.distinct)
  · obtain ⟨lv, ht, level⟩ : ∃ lv, trigger? 1 line target timeout delay =
        some (.line l lv timeout (if timeout = 0 then none else some timeout)) ∧ s.level l = lv := by
      rcases met with ⟨rfl, level⟩ | ⟨rfl, level⟩
      · exact ⟨.low, (trigger?_line hl).1, level⟩
      · exact ⟨.high, (trigger?_line hl).2, level⟩
    have stored := prepared_stored (.client x) 0x0B [set, 1, line, target, timeout.extractLsb' 8 8,
      timeout.extractLsb' 0 8, delay.extractLsb' 8 8, delay.extractLsb' 0 8] s
    have before := prepared_client x 0x0B [set, 1, line, target, timeout.extractLsb' 8 8,
      timeout.extractLsb' 0 8, delay.extractLsb' 8 8, delay.extractLsb' 0 8] s
    have request := deferRequest_passes (s := prepared (.client x) 0x0B [set, 1, line, target,
      timeout.extractLsb' 8 8, timeout.extractLsb' 0 8, delay.extractLsb' 8 8, delay.extractLsb' 0 8] s)
      (by rw [before.deferred]; exact free) some' ht fun g hg => (before.holder g).trans (all g hg)
    generalize hu : prepared (.client x) 0x0B [set, 1, line, target, timeout.extractLsb' 8 8,
      timeout.extractLsb' 0 8, delay.extractLsb' 8 8, delay.extractLsb' 0 8] s = u at *
    generalize hd : deferral x set (.line l lv timeout (if timeout = 0 then none else some timeout)) u = d'
      at request
    have made := withRecord_frame x d' u
    have isMet : d'.lineMet (withRecord x d' u) = true := by
      rw [← hd]
      show ((withRecord x _ u).level l == lv) = true
      rw [(withRecord_frame x _ u).level, before.level, level]
      exact beq_self_eq_true lv
    rw [isMet, if_pos rfl] at request
    have frame : SameExcept [.active, .drivers, .deferred, .queues] u (applyDeferred x (withRecord x d' u)) :=
      made.mono.trans (applyDeferred_frame x _)
    obtain ⟨served, after⟩ := request_accepted takes (hu.symm ▸ request) rfl (hu.symm ▸ frame)
    rw [hu] at after
    have applied := applyDeferred_spec x d' (s := withRecord x d' u)
      (by unfold PairsDistinct; rw [made.pairs, before.pairs]; exact inv.pairs.distinct)
      (snapshot_parts_unique (hd ▸ deferral_groups x set _ u)) (withRecord_self x d' u)
    refine ⟨_, exec_defer x set 1 line target timeout delay s, served,
      (applied.base made (fun y hy => withRecord_other d' u hy) ?_ ?_).transport stored after,
      (before.mono.trans frame.mono).trans after.mono⟩
    · rw [parts, ← hd]
      unfold deferral stagedConfig
      rw [before.staged]
      rfl
    · rw [trigger, ← hd]
      rfl

end Sys2Proof.Proofs
end

section
/-! PROOF. The step, the values after device reset, the append rule, pads, millisecond boundaries (R8 to R10, R18,
R107, R152, R173, R174). -/

set_option Elab.async false

namespace Sys2Proof.Machine

variable {s t : State} {ps : List Part}

/-! ### The queue of waiting commands (log 21) -/

theorem Act.pending (a : Act s ps t) : t.pending = s.pending := by
  have f := a.frame
  cases a <;> exact f.pending

/-- No command touches the queue that it was taken from. -/
theorem exec_pending {c : Instr} (h : exec c s = .next t) : t.pending = s.pending := by
  obtain acts | beyond := exec_cases h
  · exact acts.keep (fun u => u.pending = s.pending) (fun a h => a.pending.trans h) rfl
  · cases beyond with
    | samples pads order _ => exact (takeSample_frame pads order s).pending
    | resets _ => rfl
    | rises _ _ => rfl

theorem exec_answers (c : Instr) (s : State) : ∃ t, exec c s = .next t := by
  cases c <;> exact ⟨_, rfl⟩

/-! ### Counting down (R107, R174) -/

theorem countDown_eq (w : Word16) : countDown w = BitVec.ofNat 16 (w.toNat - 1) := by
  unfold countDown
  split
  · next zero => rw [zero]; rfl
  · next some' => bv_omega

theorem passPulseUnit_driver (s : State) (l : Line) :
    (passPulseUnit s).driver l = { s.driver l with pulse := (s.driver l).pulse.map countDown } :=
  Table.get_tabulate _ l

theorem exec_timebaseTick (s : State) :
    exec .timebaseTick s = .next (if s.resetLow then s else passMillisecond s) := rfl

theorem passMillisecond_entry (s : State) (g : Group) : (passMillisecond s).entry g = (s.entry g).tick :=
  Table.get_tabulate _ g

theorem passMillisecond_deferred (s : State) (x : Client) :
    (passMillisecond s).deferred.get x = (s.deferred.get x).map Deferred.tick := PerClient.get_tabulate _ x

theorem LeaseTimer.tick_eq (timer : LeaseTimer) : timer.tick = match timer with
    | .running w => .running (BitVec.ofNat 16 (w.toNat - 1))
    | other => other := by
  cases timer with
  | running w => exact congrArg _ (countDown_eq w)
  | stopped => rfl
  | noExpiry => rfl

theorem Trigger.tick_eq (trigger : Trigger) : trigger.tick = match trigger with
    | .line l target timeout left =>
      .line l target timeout (left.map fun w => BitVec.ofNat 16 (w.toNat - 1))
    | .time delay left => .time delay (BitVec.ofNat 16 (left.toNat - 1)) := by
  cases trigger with
  | line l target timeout left => simp only [Trigger.tick, funext countDown_eq]
  | time delay left => exact congrArg _ (countDown_eq left)

/-! ### Assertion and pads (R8 to R10, R18) -/

theorem asserted_iff (s : State) (l : Line) : asserted s l = true ↔
    (s.record l).function = .static true ∨
      (∃ w, (s.record l).function = .pulse w ∧ (s.driver l).pulse ≠ none) ∨
      ∃ src sense, (s.record l).function = .mirror src sense ∧
        (s.driver l).mirror = some ⟨.following, true⟩ := by
  unfold asserted
  cases (s.record l).function with
  | input => simp
  | static a => simp
  | pulse w => simp [Option.isSome_iff_ne_none]
  | mirror src sense => simp

theorem Record.pad_eq (r : Record) (a : Bool) : r.pad a =
    if r.polarity = .normal then
      if a = true then if r.drive = .pushPull then .drivenHigh else .released else .drivenLow
    else if a = true then .drivenLow
    else if r.drive = .pushPull then .drivenHigh else .released := by
  unfold Record.pad
  cases r.polarity <;> cases r.drive <;> cases a <;> rfl

theorem padCondition_eq (s : State) (l : Line) : padCondition s l =
    if s.resetLow = true ∨ (s.record l).function = .input then .released
    else (s.record l).pad (asserted s l) := by
  unfold padCondition
  by_cases low : s.resetLow = true
  · rw [if_pos low, if_pos (.inl low)]
  · rw [if_neg low]
    exact if_congr (by simp [low]) rfl rfl

/-! ### The pins (R18, R159, R175) -/

theorem irqAsserted_low (low : s.resetLow = true) (x : Client) : irqAsserted s x = false := by
  unfold irqAsserted
  rw [low]
  rfl

theorem portTakes_low (low : s.resetLow = true) (x : Client) : portTakes s x = false := by
  unfold portTakes
  rw [low]
  rfl

theorem padCondition_low (low : s.resetLow = true) (l : Line) : padCondition s l = .released := by
  rw [padCondition_eq, if_pos (.inl low)]

/-! ### Device reset (R173) -/

theorem exec_deviceReset (s : State) (high : s.resetLow = false) :
    exec (.deviceReset true) s = .next (deviceResetState s) := by
  show Host.Outcome.next (if s.resetLow then s else deviceResetState s) = _
  rw [high]
  rfl

/-- RESETn rises: the first sample of every pad sets its filtered level (R122, R173). -/
def resetReleased (pads : BitVec 32) (s : State) : State :=
  { s with resetLow := false, sampler := .tabulate fun l => .first (padLevel pads l) }

theorem exec_deviceResetRelease (pads : BitVec 32) (s : State) (low : s.resetLow = true) :
    exec (.deviceResetRelease pads) s = .next (resetReleased pads s) := by
  show Host.Outcome.next (if s.resetLow then resetReleased pads s else s) = _
  rw [low]
  rfl

theorem resetReleased_frame (pads : BitVec 32) (s : State) :
    SameExcept [.sampler, .resetLow] s (resetReleased pads s) := by
  intro p hp
  cases p <;> first | rfl | exact ⟨rfl, rfl⟩ | exact absurd (by decide) hp

theorem AtDeviceReset.released (h : AtDeviceReset s) (pads : BitVec 32) :
    SameExcept [.sampler, .ports, .draws, .pending] State.reset (resetReleased pads s) := by
  have rest : SameExcept [.sampler, .ports, .draws, .pending, .resetLow] State.reset (resetReleased pads s) :=
    h.2.1.trans (resetReleased_frame pads s).mono
  intro p hp
  by_cases here : p = .resetLow
  · subst here; rfl
  · exact rest p (by simpa [here] using hp)

theorem deviceResetState_port (s : State) (x : Client) : (deviceResetState s).port x =
    { State.reset.port x with
      frame := (s.port x).frame.map fun f => { f with ignored := true }
      miso := (s.port x).miso, crstLow := (s.port x).crstLow } := by
  simp [deviceResetState, State.port, State.reset, Port.deviceReset, Port.cutFrame]

end Sys2Proof.Machine

namespace Sys2Proof.Proofs

open Sys2Proof.Machine

/-- Settles O1: the step's own equation. -/
theorem stepRunsFront : Obligations.StepRunsFront := by
  intro c rest s front
  unfold step
  rw [front]

/-- Settles O2: every pulse counts down, cell by cell. -/
theorem emptyQueuePassesUnit : Obligations.EmptyQueuePassesUnit := by
  intro s empty
  refine ⟨passPulseUnit s, by unfold step; rw [empty], passPulseUnit_frame s, fun l => ?_⟩
  rw [passPulseUnit_driver]
  refine ⟨rfl, fun idle => ?_, fun w flight => ?_⟩
  · show (s.driver l).pulse.map countDown = none
    rw [idle]
    rfl
  · show (s.driver l).pulse.map countDown = _
    rw [flight, ← countDown_eq]
    rfl

/-- Settles O3: every arm answers, and no act touches the queue. -/
theorem everyCommandAnswers : Obligations.EveryCommandAnswers := fun c s =>
  have ⟨t, run⟩ := exec_answers c s
  ⟨t, run, exec_pending run⟩

/-- Settles O4: the reset state, block by block. -/
theorem resetValues : Obligations.ResetValues := by
  refine ⟨fun g => ?_, fun g => ?_, rfl, fun l => ?_, fun x l => ?_, fun x g => ?_, fun i => ?_, fun x => ?_,
    rfl, rfl, fun i => ?_, rfl⟩
  · simp [Vacant, State.reset, State.entry, LeaseEntry.reset]
  · simp [State.reset, Policy.reset, Record.reset]
  · simp [State.reset, State.record, State.driver, Record.reset, Driver.reset, LineSampler.first]
  · simp [State.reset, Record.reset]
  · simp [State.reset]
  · simp [State.reset]
  · simp [State.reset, State.port, Port.reset]
  · simp [State.reset]

/-- Settles O5: the reset state differs from itself in nothing. -/
theorem resetMeetsLaws : Obligations.ResetMeetsLaws := by
  obtain ⟨inv, demand, trigger⟩ := reset_laws (s := State.reset) (.refl _ _) fun l => by
    simp [State.reset, LineSampler.first]
  exact ⟨inv, demand, trigger, fun low => by cases low⟩

/-- Settles O17: the named queue by the rule, and no other. -/
theorem appendRule : Obligations.AppendRule := by
  intro s x e
  unfold append
  split
  · exact ⟨.refl _ s, fun _ _ => rfl, rfl⟩
  · next high =>
    have frame := append_frame x e s
    unfold append at frame
    rw [if_neg high] at frame
    exact ⟨frame, fun y hy => PerClient.get_modify_ne _ _ hy, PerClient.get_modify_self _ _ _⟩

/-- Settles O19: assertion by function, the pad by polarity and drive. -/
theorem padConditions : Obligations.PadConditions := fun s l =>
  ⟨asserted_iff s l, by rw [padCondition_eq, Record.pad_eq]⟩

/-- Settles O59: nothing is due while RESETn is low, and the release sets the levels. -/
theorem deviceResets : Obligations.DeviceResets := by
  refine ⟨fun s t h run other => h.step run other, fun s low => ⟨padCondition_low low, fun x =>
    ⟨irqAsserted_low low x, portTakes_low low x⟩⟩, fun s pads high => ?_⟩
  have reset := deviceResetState_at s
  refine ⟨_, _, exec_deviceReset s high, exec_deviceResetRelease pads _ rfl, reset, padCondition_low rfl,
    fun x => ⟨irqAsserted_low rfl x, portTakes_low rfl x⟩, reset.released pads, fun l => Table.get_tabulate _ l,
    deviceResetState_port s, rfl, rfl⟩

/-- Settles O60: the count and every timer, cell by cell. -/
theorem ticksCountDown : Obligations.TicksCountDown := by
  refine fun s => ⟨fun low => by rw [exec_timebaseTick, if_pos low], fun high =>
    ⟨passMillisecond s, by rw [exec_timebaseTick, high]; rfl, passMillisecond_frame s, ?_, fun g => ?_,
      fun x => ?_⟩⟩
  · exact BitVec.toNat_add _ _
  · rw [passMillisecond_entry, ← funext countDown_eq]
    exact congrArg (fun timer => LeaseEntry.mk _ _ _ timer _ _ _) (LeaseTimer.tick_eq _)
  · rw [passMillisecond_deferred]
    exact congrArg (Option.map · _) (funext fun d => congrArg (Deferred.mk d.parts) (Trigger.tick_eq _))

end Sys2Proof.Proofs
end

section
/-! PROOF. Client resets: what DETACH_SELF, DETACH and CRSTx leave of the client, and what they send to the others
(R44, R45, R163, R170 to R172). -/

set_option Elab.async false

namespace Sys2Proof.Machine

variable {s t u v : State} {x : Client} {g : Group} {b : Byte} {c : Instr} {a es : Client → List Event}

/-! ### The three commands -/

theorem exec_clientReset (high : s.resetLow = false) (up : (s.port x).crstLow = false) :
    exec (.clientReset x true) s =
      .next (clientResetTransaction x (s.withPort x (Port.crstFall true))) := by
  show Host.Outcome.next (if (s.port x).crstLow then s
    else if true && !s.resetLow then clientResetTransaction x (s.withPort x (Port.crstFall true))
      else s.withPort x (Port.crstFall true)) = _
  rw [up, high]
  rfl

/-- The state after a transaction has been answered DONE. -/
def answeredDone (x : Client) (kind : Byte) (t : State) : State := writeResult x kind { code := .done } t

theorem answeredDone_frame (x : Client) (kind : Byte) (t : State) :
    SameExcept [.ports] t (answeredDone x kind t) := writeResult_frame _ _ _ _

theorem answeredDone_port (x : Client) (kind : Byte) (t : State) : (answeredDone x kind t).port x =
    { t.port x with result := ResultCode.done.byte, resultKind := kind, resultInfo := 0 } :=
  State.withPort_port_self _ _ _

theorem answeredDone_other (x : Client) (kind : Byte) (t : State) :
    OtherPorts x t (answeredDone x kind t) := fun _ hy => State.withPort_port_ne _ _ hy

theorem exec_detachSelf (takes : portTakes s x = true) : exec (.detachSelf x) s =
    .next (answeredDone x 0x0D (clientResetTransaction x (prepared (.client x) 0x0D [] s))) :=
  congrArg Host.Outcome.next (requestFrame_takes (page := .client x) takes _)

theorem exec_detach_resets (takes : portTakes s .a = true) (hb : b.toNat = clientNumber x)
    (up : (s.port x).crstLow = false) : exec (.detach .supervisor b) s =
      .next (answeredDone .a 0x29 (clientResetTransaction x (prepared .supervisor 0x29 [b] s))) := by
  rw [exec_detach, requestFrame_takes (page := .supervisor) takes]
  have request : detachRequest b (prepared .supervisor 0x29 [b] s) =
      done (clientResetTransaction x (prepared .supervisor 0x29 [b] s)) := by
    unfold detachRequest
    rw [client?_some hb]
    dsimp only
    rw [(prepared_stored .supervisor 0x29 [b] s).crst, up]
    rfl
  rw [request]
  rfl

theorem exec_detach_held (takes : portTakes s .a = true) (hb : b.toNat = clientNumber x)
    (low : (s.port x).crstLow = true) :
    ∃ t, exec (.detach .supervisor b) s = .next t ∧
      Served s t .supervisor 0x29 [b] .done 0 ∧ SameExcept [.ports, .sreq] s t := by
  have stored := prepared_stored .supervisor 0x29 [b] s
  have request : detachRequest b (prepared .supervisor 0x29 [b] s) =
      done (prepared .supervisor 0x29 [b] s) := by
    unfold detachRequest
    rw [client?_some hb]
    dsimp only
    rw [stored.crst, low]
    rfl
  obtain ⟨served, after⟩ := request_accepted (page := .supervisor) takes request rfl (.refl [] _)
  exact ⟨_, exec_detach b s, served, stored.frame.trans after.mono⟩

/-- A client reset of `x` is its transaction on a state that differs from `s` in pins and registers, and, where it
is a request, its answer. -/
theorem ResetsClient.runs (r : ResetsClient s x c) : ∃ u t, exec c s = .next t ∧
    SameExcept [.ports, .sreq] s u ∧ (∀ y, y ≠ x → (u.port y).crstLow = (s.port y).crstLow) ∧
    SameExcept [.ports] (clientResetTransaction x u) t := by
  obtain ⟨high, up, rfl | ⟨rfl, takes⟩ | ⟨b, rfl, hb, takes⟩⟩ := r
  · exact ⟨_, _, exec_clientReset high up, (withPort_frame x _ s).mono,
      fun y hy => by rw [State.withPort_port_ne _ _ hy], .refl _ _⟩
  · have stored := prepared_stored (.client x) 0x0D [] s
    exact ⟨_, _, exec_detachSelf takes, stored.frame, fun y _ => stored.crst y, answeredDone_frame _ _ _⟩
  · have stored := prepared_stored .supervisor 0x29 [b] s
    exact ⟨_, _, exec_detach_resets takes hb up, stored.frame, fun y _ => stored.crst y,
      answeredDone_frame _ _ _⟩

/-! ### What a client reset leaves (R172) -/

theorem ClientResets.cleared (before : SameExcept [.ports, .sreq] s u) (r : ClientResets x u v)
    (after : SameExcept [.ports] v t)
    (port : t.port x = { (u.port x).clientReset with
      result := (t.port x).result, resultKind := (t.port x).resultKind
      resultInfo := (t.port x).resultInfo }) :
    ClearedClient s t x := by
  obtain ⟨none, deferred, queue, staged, -, -, others, groups, outside, frame⟩ := r
  have waits : ∀ g, t.waits x g = v.waits x g := fun g => by unfold State.waits; rw [after.entry]
  have waited : ∀ g, u.waits x g = s.waits x g := fun g => by unfold State.waits; rw [before.entry]
  refine ⟨fun g => ?_, by rw [after.deferred]; exact deferred, by rw [after.queues]; exact queue,
    fun l => by rw [after.staged]; exact staged l, ?_, fun y hy => ?_, fun g hg => ?_, fun l hl => ?_,
    (before.mono.trans frame.mono).trans after.mono⟩
  · rw [after.holder, waits, after.watch, after.park]
    exact none g
  · rw [port]
    exact ⟨rfl, rfl, rfl, rfl, rfl, fun i => Table.get_fill 0 i⟩
  · rw [after.staged, after.deferred, after.watch, ← before.staged, ← before.deferred, ← before.watch]
    exact others y hy
  · rw [after.holder, after.entry, after.park, ← before.holder, ← before.entry, ← before.park, ← waited]
    exact groups g (by rw [before.holder]; exact hg)
  · rw [after.record, after.driver, ← before.record, ← before.driver]
    exact outside l (by dsimp only; rw [before.holder]; exact hl)

theorem LeaseLaw.stored (law : LeaseLaw s) (before : SameExcept [.ports, .sreq] s u) : LeaseLaw u :=
  fun g => by rw [before.entry]; exact law g

theorem detachSelf_clears (law : LeaseLaw s) (takes : portTakes s x = true) :
    ∃ t, exec (.detachSelf x) s = .next t ∧ ClearedClient s t x ∧ OtherPorts x s t ∧
      t.sreqKind = s.sreqKind ∧ t.sreqParam = s.sreqParam ∧ Answers t x .done 0x0D 0 ∧
      portTakes t x = true := by
  have before := prepared_client x 0x0D [] s
  have stored := (prepared_stored (.client x) 0x0D [] s).frame
  obtain ⟨-, -, ⟨-, -, -, -, noFrame, up⟩, others⟩ := prepared_ports (.client x) 0x0D [] s
  have resets := clientResetTransaction_spec x _ (law.stored stored)
  have frame := clientResetTransaction_frame x (prepared (.client x) 0x0D [] s)
  have after := answeredDone_frame x 0x0D (clientResetTransaction x (prepared (.client x) 0x0D [] s))
  have port := answeredDone_port x 0x0D (clientResetTransaction x (prepared (.client x) 0x0D [] s))
  have sreq := after.sreq
  rw [clientReset_port] at port
  refine ⟨_, exec_detachSelf takes, resets.cleared stored after (by rw [port]),
    fun y hy => ?_, ?_, ?_, ?_, ?_⟩
  · obtain ⟨-, -, -, -, -, kept, -⟩ := resets
    rw [answeredDone_other _ _ _ y hy, kept y hy, others y hy]
  · rw [sreq.1, frame.sreq.1, before.sreq.1]
  · rw [sreq.2, frame.sreq.2, before.sreq.2]
  · unfold Answers
    rw [port]
    exact ⟨rfl, rfl, rfl⟩
  · rw [portTakes_iff] at takes ⊢
    obtain ⟨high, up', free⟩ := takes
    rw [port, after.resetLow, frame.resetLow, before.resetLow]
    refine ⟨high, up.trans up', ?_⟩
    show Option.map _ ((prepared (.client x) 0x0D [] s).port x).frame = none
    rw [show ((prepared (.client x) 0x0D [] s).port x).frame = none from noFrame.trans free]
    rfl

theorem detach_clears (law : LeaseLaw s) (takes : portTakes s .a = true) (hb : b.toNat = clientNumber x)
    (up : (s.port x).crstLow = false) :
    ∃ t, exec (.detach .supervisor b) s = .next t ∧ ClearedClient s t x ∧
      Answers t .a .done 0x29 0 ∧ t.sreqKind = 0x29 ∧
      (∀ i, t.sreqParam.get i = [b].getD i.val (s.sreqParam.get i)) ∧
      (x ≠ .a → NoResult t x ∧ PortSettings s t .a ∧ HoldsRequest s t .supervisor 0x29 [b]) ∧
      ∀ y, y ≠ x → y ≠ .a → t.port y = s.port y := by
  have stored := (prepared_stored .supervisor 0x29 [b] s).frame
  obtain ⟨⟨kind, params, reqKind, reqParam⟩, -, settings, others⟩ := prepared_ports .supervisor 0x29 [b] s
  have resets := clientResetTransaction_spec x _ (law.stored stored)
  have frame := clientResetTransaction_frame x (prepared .supervisor 0x29 [b] s)
  have after := answeredDone_frame .a 0x29 (clientResetTransaction x (prepared .supervisor 0x29 [b] s))
  have portA := answeredDone_port .a 0x29 (clientResetTransaction x (prepared .supervisor 0x29 [b] s))
  have port := clientReset_port x (prepared .supervisor 0x29 [b] s)
  have kept : OtherPorts x _ _ := resets.2.2.2.2.2.1
  have asked : (answeredDone .a 0x29 (clientResetTransaction x (prepared .supervisor 0x29 [b] s))).sreqKind =
      0x29 ∧ ∀ i, (answeredDone .a 0x29 (clientResetTransaction x
        (prepared .supervisor 0x29 [b] s))).sreqParam.get i = [b].getD i.val (s.sreqParam.get i) :=
    ⟨by rw [after.sreq.1, frame.sreq.1, kind], fun i => by rw [after.sreq.2, frame.sreq.2, params]⟩
  refine ⟨_, exec_detach_resets takes hb up, resets.cleared stored after ?_, ?_, asked.1, asked.2,
    fun other => ⟨?_, ?_, asked.1, asked.2, ?_, ?_⟩, fun y hx ha => ?_⟩
  · by_cases self : x = .a
    · subst self
      rw [portA, port]
    · rw [answeredDone_other _ _ _ x self, port]
  · unfold Answers
    rw [portA]
    exact ⟨rfl, rfl, rfl⟩
  · unfold NoResult
    rw [answeredDone_other _ _ _ x other, port]
    exact ⟨rfl, rfl, rfl⟩
  · unfold PortSettings
    rw [portA, kept _ other.symm]
    exact settings
  · rw [portA, kept _ other.symm]
    exact reqKind
  · rw [portA, kept _ other.symm]
    exact reqParam
  · rw [answeredDone_other _ _ _ y ha, kept y hx, others y ha]

theorem clientReset_clears (law : LeaseLaw s) (high : s.resetLow = false) (up : (s.port x).crstLow = false) :
    ∃ t, exec (.clientReset x true) s = .next t ∧ ClearedClient s t x ∧ OtherPorts x s t ∧
      t.sreqKind = s.sreqKind ∧ t.sreqParam = s.sreqParam ∧ NoResult t x ∧
      (t.port x).crstLow = true ∧ portTakes t x = false ∧ irqAsserted t x = false := by
  have before := withPort_frame x (Port.crstFall true) s
  have resets := clientResetTransaction_spec x _ (law.stored before.mono)
  have frame := clientResetTransaction_frame x (s.withPort x (Port.crstFall true))
  have port := clientReset_port x (s.withPort x (Port.crstFall true))
  have held : ((clientResetTransaction x (s.withPort x (Port.crstFall true))).port x).crstLow = true := by
    rw [port, State.withPort_port_self]
    rfl
  refine ⟨_, exec_clientReset high up, resets.cleared before.mono (.refl _ _) (by rw [port]),
    fun y hy => ?_, by rw [frame.sreq.1]; rfl,
    by rw [frame.sreq.2]; rfl, ?_, held, ?_, ?_⟩
  · obtain ⟨-, -, -, -, -, kept, -⟩ := resets
    rw [kept y hy, State.withPort_port_ne _ _ hy]
  · unfold NoResult
    rw [port]
    exact ⟨rfl, rfl, rfl⟩
  · unfold portTakes
    rw [held, Bool.not_true, Bool.and_false, Bool.false_and]
  · unfold irqAsserted
    rw [show ((clientResetTransaction x (s.withPort x (Port.crstFall true))).ports.get x).crstLow = true from
      held, Bool.not_true, Bool.and_false, Bool.false_and]

/-! ### What the others are sent (R44, R45, R163) -/

theorem SendsOthers.trans (h1 : SendsOthers x s u a) (h2 : SendsOthers x u t es)
    (crst : ∀ y, y ≠ x → (u.port y).crstLow = (s.port y).crstLow) (ms : u.ms = s.ms) :
    SendsOthers x s t fun y => a y ++ es y := by
  intro y hy
  rw [h2 y hy]
  unfold delivered
  rw [h1 y hy, crst y hy, ms]
  unfold delivered
  split
  · rfl
  · exact List.foldl_append.symm

theorem SendsOthers.of_eq (h : SendsOthers x s t a) (e : ∀ y, a y = es y) : SendsOthers x s t es :=
  fun y hy => e y ▸ h y hy

theorem SendsOthers.ending (h : SendsOthers x s u a) (same : OtherQueues x u t) : SendsOthers x s t a :=
  fun y hy => (same y hy).trans (h y hy)

theorem beginReset_others (x : Client) (s : State) {y : Client} (hy : y ≠ x) :
    (beginReset x s).deferred.get y = s.deferred.get y := by
  unfold beginReset
  dsimp only
  rw [PerClient.get_put_ne _ _ hy]
  split
  · rw [(auditCopy_frame _ _ _ s).deferred]
  · rfl

theorem resetClientState_queues (x : Client) (s : State) : OtherQueues x s (resetClientState x s) :=
  fun _ hy => PerClient.get_put_ne _ _ hy

theorem resetClientState_park (x : Client) (s : State) {y : Client} (hy : y ≠ x) :
    (resetClientState x s).park.get y = s.park.get y := PerClient.get_put_ne _ _ hy

/-- What a client reset changes before its releases and removals. -/
abbrev SameBeforeTurns (s u : State) := SameExcept [.deferred, .queues, .ports, .sreq] s u

/-- What a client reset changes after its releases and removals. -/
abbrev SameAfterTurns (s u : State) := SameExcept [.watch, .staged, .park, .queues, .ports, .sreq] s u

/-- A client reset: the audit copy, the turns, the client's own registers (R172). -/
theorem ResetsClient.turns (r : ResetsClient s x c) : ∃ u t s2, exec c s = .next t ∧ s2 = beginReset x u ∧
    SameExcept [.ports, .sreq] s u ∧ SameBeforeTurns s s2 ∧ s2.deferred.get x = none ∧
    (∀ y, y ≠ x → s2.deferred.get y = s.deferred.get y ∧ (s2.port y).crstLow = (s.port y).crstLow) ∧
    SendsOthers x s s2 (detachAudit s x) ∧
    ∀ s4, clientResetTransaction x u = resetClientState x s4 → SameAfterTurns s4 t ∧ OtherQueues x s4 t ∧
      ∀ y, y ≠ x → t.park.get y = s4.park.get y := by
  obtain ⟨u, t, run, before, crst, after⟩ := r.runs
  obtain ⟨frame, sends, gone⟩ := beginReset_spec x u
  refine ⟨u, t, _, run, rfl, before, before.mono.trans frame.mono, gone, fun y hy =>
    ⟨by rw [beginReset_others x u hy, before.deferred], by rw [frame.port, crst y hy]⟩, fun y hy => ?_,
    fun s4 e => ?_⟩
  · rw [sends y]
    unfold delivered detachAudit
    rw [crst y hy, before.ms, before.queues, before.audit]
  · rw [e] at after
    exact ⟨(resetClientState_frame x s4).mono.trans after.mono,
      fun y hy => by rw [after.queues, resetClientState_queues x s4 y hy],
      fun y hy => by rw [after.park, resetClientState_park x s4 hy]⟩

/-! ### A turn, seen from before the client reset and after it -/

section Turns

variable {s2 s4 : State} {w rest : List Claim} {named : Group → Bool} {claim : Claim} {cfg : GroupConfig}

theorem PassesOn.turned (f0 : SameBeforeTurns s s2) (f : SameAfterTurns s4 t) (h : PassesOn s2 s4 g w) :
    PassesOn s t g w := by
  cases w with
  | nil =>
    show Vacant t g .safe
    unfold Vacant
    rw [f.entry]
    exact h
  | cons claim rest =>
    show Held s t g claim.client claim.priority rest
    unfold Held
    rw [f.entry, ← f0.policy]
    exact h

theorem OtherEntries.turned (f0 : SameBeforeTurns s s2) (f : SameAfterTurns s4 t)
    (h : OtherEntries g s2 s4) : OtherEntries g s t := fun k hk => by
  rw [f.entry, h k hk, f0.entry]

theorem LinesOutside.turned (f0 : SameBeforeTurns s s2) (f : SameAfterTurns s4 t)
    (h : LinesOutside named s2 s4) : LinesOutside named s t := by
  refine LinesOutside.base (u := s2) (fun l hl => ?_) (fun l _ => f0.record l) fun l _ => f0.driver l
  rw [f.record, f.driver]
  exact h l hl

theorem GroupTakes.turned (f0 : SameBeforeTurns s s2) (f : SameAfterTurns s4 t)
    (h : GroupTakes g cfg s2 s4) : GroupTakes g cfg s t :=
  (Replaced.base h fun l _ => f0.asserted l).frame f

theorem Resumes.turned (f0 : SameBeforeTurns s s2) (f : SameAfterTurns s4 t)
    (h : Resumes named s2 s4 es) : Resumes named s t es := by
  obtain ⟨events, free, order, blocked⟩ := h
  have same : asserted s2 = asserted s := funext fun l => f0.asserted l
  rw [same] at order blocked
  have r : Resumed named (asserted s) s2 s4 es := ⟨events, free, order, blocked⟩
  exact ((r.base (fun l _ => by rw [f0.driver]) (fun l _ => f0.asserted l) fun k _ =>
    f0.holder k).frame f).resumes

theorem toWatchers_turned (f0 : SameBeforeTurns s s2) (g : Group) (st : GroupState) (h : Option Client) :
    toWatchers s2 g st h = toWatchers s g st h := by
  funext y
  unfold toWatchers
  rw [f0.watch]

theorem passedState_turned (f0 : SameBeforeTurns s s2) (g : Group) (w : List Claim) :
    passedState s2 g w = passedState s g w := by
  funext y
  unfold passedState
  simp only [toWatchers_turned f0]

/-- A handover with a restore; `sends` says what is sent from before the reset, where `es` is sent by the turn. -/
theorem HandsOverRestoring.turned {sends : (Client → List Event) → Prop} (f0 : SameBeforeTurns s s2)
    (f : SameAfterTurns s4 t) (park : t.park.get claim.client = s4.park.get claim.client)
    (hs : ∀ es, SendsOthers x s2 s4 es → sends es)
    (h : HandsOverRestoring s2 s4 g claim rest cfg (SendsOthers x s2 s4)) :
    HandsOverRestoring s t g claim rest cfg sends := by
  obtain ⟨held, entries, outside, rs, resumes, verdict⟩ := h
  have judged : judge (Proposal.of s2 [(g, cfg)] false) s2 = judge (Proposal.of s [(g, cfg)] false) s :=
    judge_only cfg (fun l _ => f0.record l) (fun l _ => f0.driver l) f0.pairs
  have marks : heldEvents (only g) t = heldEvents (only g) s4 := by
    funext y
    unfold heldEvents
    simp only [f.driver, f.holder]
  refine ⟨PassesOn.turned (w := claim :: rest) f0 f held, entries.turned f0 f, outside.turned f0 f, rs,
    resumes.turned f0 f, ?_⟩
  rw [judged] at verdict
  simp only [toWatchers_turned f0] at verdict
  rw [marks, park, ← f0.policy]
  split at verdict <;>
    (obtain ⟨parked, takes, sent⟩ := verdict; exact ⟨parked, takes.turned f0 f, hs _ sent⟩)

end Turns

/-! ### The groups of a client that is reset (R44, R45) -/

/-- A client that neither holds nor waits. -/
theorem clientReset_idle (idle : ∀ k, s.holder k ≠ some x ∧ s.waits x k = false) :
    clientResetTransaction x s = resetClientState x (beginReset x s) := by
  rw [clientReset_waiting (g := 0) x (fun k => (idle k).1) fun k _ => (idle k).2,
    (removeClaim_spec x 0 _).2.2.2]
  obtain ⟨f, -, -⟩ := beginReset_spec x s
  unfold State.waits
  rw [f.entry]
  exact (idle 0).2

theorem State.waits_congr (f : s.lease = u.lease) : s.waits x g = u.waits x g := by
  unfold State.waits State.entry
  rw [f]

end Sys2Proof.Machine

namespace Sys2Proof.Proofs

open Sys2Proof.Machine

/-- Settles O56: the three commands, then the DETACH that is refused and the one that does nothing. -/
theorem clientResetClears : Obligations.ClientResetClears :=
  ⟨fun _ _ law => ⟨detachSelf_clears law, fun _ => detach_clears law, clientReset_clears law⟩,
    fun _ _ takes => ⟨fun range => requestFrame_range takes (fun _ => detachRequest_range range _),
      fun _ => exec_detach_held takes⟩⟩

/-- Settles O57: the audit copy, then the turns of the groups held and waited for. -/
theorem clientResetAudits : Obligations.ClientResetAudits := by
  refine ⟨fun s x high up idle => ?_, fun s x c g inv r holder others waits => ?_, fun s x c inv r => ?_,
    fun s x c g r holds waits others => ?_⟩
  · have r : ResetsClient s x (.clientReset x true) := ⟨high, up, .inl rfl⟩
    obtain ⟨u, t, s2, run, rfl, before, -, -, -, sends, after⟩ := r.turns
    have e := clientReset_idle (x := x) (s := u) fun k => by
      rw [before.holder, State.waits_congr before.lease]
      exact idle k
    obtain ⟨-, queues, -⟩ := after _ e
    have frame : SameExcept [.watch, .deferred, .park, .staged, .queues, .ports] s t := by
      have same : t = clientResetTransaction x (s.withPort x (Port.crstFall true)) :=
        Host.Outcome.next.inj (run.symm.trans (exec_clientReset high up))
      rw [same, clientReset_idle (s := s.withPort x _) fun k => idle k]
      exact ((withPort_frame x _ s).mono.trans (beginReset_spec x _).1.mono).trans
        (resetClientState_frame x _).mono
    exact ⟨t, run, frame, sends.ending queues⟩
  · obtain ⟨u, t, s2, run, rfl, before, f0, gone, deferred, sends, after⟩ := r.turns
    have e := clientReset_holding (inv.lease.stored before) x ((before.holder g).trans holder)
      (fun k hk => by rw [before.holder]; exact others k hk) fun k => by
        rw [State.waits_congr before.lease]; exact waits k
    obtain ⟨f, queues, parks⟩ := after _ e
    have releasing : Releasing x (beginReset x u) :=
      ⟨by unfold PairsDistinct; rw [f0.pairs]; exact inv.pairs.distinct,
        by unfold SafeConfigLaw; rw [f0.policy]; exact inv.config.2.1, gone⟩
    have holds : (beginReset x u).holder g = some x := (f0.holder g).trans holder
    obtain ⟨-, turn⟩ := (releaseIfHeld_turn x _ g releasing).1
    unfold releaseIfHeld at turn
    rw [if_pos holds] at turn
    obtain ⟨frame, entries, outside, plain, restoring⟩ := turn holds
    rw [f0.entry] at plain restoring
    have both : ∀ es, SendsOthers x (beginReset x u) _ es → SendsOthers x s t fun y => detachAudit s x y ++ es y :=
      fun es sent => (sends.trans sent (fun y hy => (deferred y hy).2) f0.ms).ending queues
    refine ⟨t, run, (f0.mono.trans frame.mono).trans f.mono, fun noRestore => ?_,
      fun claim rest cfg waiting restore parked => ?_⟩
    · obtain ⟨passes, takes, park, rs, resumes, sent⟩ := plain (by
        unfold NoRestore; rw [f0.park]; exact noRestore)
      rw [f0.policy] at takes
      rw [passedState_turned f0] at sent
      exact ⟨passes.turned f0 f, entries.turned f0 f, takes.turned f0 f, outside.turned f0 f,
        fun y hy => by rw [parks y hy, park, f0.park], rs, resumes.turned f0 f,
        (both _ sent).of_eq fun y => by simp only [List.append_assoc]⟩
    · obtain ⟨hands, kept⟩ := restoring claim rest cfg waiting restore (by rw [f0.park]; exact parked)
      have other : claim.client ≠ x := fun same => by
        have := waits g
        unfold State.waits at this
        rw [waiting, List.any_cons, same, beq_self_eq_true] at this
        cases this
      exact ⟨hands.turned f0 f (parks _ other) both, fun y k hy hk => by
        rw [parks y hy, kept y k hk, f0.park]⟩
  · obtain ⟨u, t, s2, run, rfl, before, f0, gone, deferred, sends, after⟩ := r.turns
    obtain ⟨s3, s4, e, releases, removals⟩ := clientReset_turns (s := u) x
      (by unfold PairsDistinct; rw [before.pairs]; exact inv.pairs.distinct)
      (by unfold SafeConfigLaw; rw [before.policy]; exact inv.config.2.1)
    exact ⟨t, _, s3, s4, run, f0, gone, deferred, sends, releases, removals, after s4 e⟩
  · obtain ⟨u, t, s2, run, rfl, before, f0, -, deferred, sends, after⟩ := r.turns
    have e := clientReset_waiting (g := g) (s := u) x (fun k => by rw [before.holder]; exact holds k)
      fun k hk => by rw [State.waits_congr before.lease]; exact others k hk
    obtain ⟨f, queues, parks⟩ := after _ e
    obtain ⟨-, turn⟩ := removeClaim_turn x (beginReset x u) g
    obtain ⟨frame, entries, w, hw, turned⟩ := turn (by rw [State.waits_congr f0.lease]; exact waits)
    rw [f0.entry] at hw turned
    rw [f0.policy, f0.holder, toWatchers_turned f0] at turned
    refine ⟨t, w, run, hw, (f0.mono.trans frame.mono).trans f.mono, entries.turned f0 f,
      fun y hy => by rw [parks y hy, frame.park, f0.park], ?_⟩
    rw [f.entry]
    split at turned
    · next cancelled =>
      obtain ⟨entry, sent⟩ := turned
      rw [if_pos cancelled]
      exact ⟨entry, ((sends.trans (sent.others fun _ _ => rfl) (fun y hy => (deferred y hy).2) f0.ms).ending
        queues).of_eq fun y => by simp only [List.append_assoc]⟩
    · next stays =>
      obtain ⟨entry, quiet⟩ := turned
      rw [if_neg stays]
      exact ⟨entry, sends.ending fun y hy => by rw [queues y hy, quiet]⟩

end Sys2Proof.Proofs
end

section
/-! PROOF. The edges of CRSTx and RESETn, and the frames that a port ignores (R170, R173, R175). -/

set_option Elab.async false

namespace Sys2Proof.Machine

variable {s t : State} {x : Client} {f : Frame} {c : Instr} {count : Nat}

/-! ### Frames that a port ignores -/

theorem portTakes_false_of_low (low : s.resetLow = true ∨ (s.port x).crstLow = true) :
    portTakes s x = false := by
  rw [← Bool.not_eq_true, portTakes_iff]
  rintro ⟨high, up, -⟩
  rw [high, up] at low
  simp at low

theorem portTakes_false_of_frame (frame : (s.port x).frame = some f) : portTakes s x = false := by
  rw [← Bool.not_eq_true, portTakes_iff]
  rintro ⟨-, -, free⟩
  rw [frame] at free
  cases free

theorem misoZeros_same (x : Client) (n : Nat) (s : State) : SameButMiso s (misoZeros x n s) x n :=
  ⟨misoZeros_frame _ _ _, fun _ hy => State.withPort_port_ne _ _ hy, State.withPort_port_self _ _ _⟩

theorem ignoresWholeFrame (free : (s.port x).frame = none)
    (low : s.resetLow = true ∨ (s.port x).crstLow = true) (hc : frameOf c = some (x, count)) :
    ∃ t, exec c s = .next t ∧ SameButMiso s t x count :=
  ⟨_, by rw [exec_frame hc (portTakes_false_of_low low), if_neg (by rw [free]; decide)],
    misoZeros_same x count s⟩

theorem ignoresBegin {spaced : Bool} {access start : Byte} (free : (s.port x).frame = none)
    (ignored : spaced = false ∨ s.resetLow = true ∨ (s.port x).crstLow = true ∨
      (access ≠ 0x40 ∧ access ≠ 0x80)) :
    ∃ t f, exec (.registerWrite x (.begin spaced access start)) s = .next t ∧
      (access = 0x40 → exec (.eventPop x (.begin spaced start)) s = .next t) ∧
      SameExcept [.ports] s t ∧ OtherPorts x s t ∧ f.ignored = true ∧
      t.port x = { s.port x with frame := some f, miso := [0, 0] } := by
  have e := beginFrame_ignored x spaced access start s free ignored
  refine ⟨_, _, congrArg Host.Outcome.next e, ?_, withPort_frame x _ s, fun y hy =>
    State.withPort_port_ne _ _ hy, rfl, State.withPort_port_self _ _ _⟩
  rintro rfl
  exact congrArg Host.Outcome.next e

theorem writing_ignored (frame : (s.port x).frame = some f) (ignored : f.ignored = true) :
    writing s x = false := by
  unfold writing
  rw [frame]
  dsimp only
  rw [ignored, Bool.not_true, Bool.and_false]

theorem exec_nextByte (mosi : Byte) (s : State) :
    exec (.registerWrite x (.next mosi)) s = .next (shiftByte x s mosi) := rfl

theorem exec_nextRead (s : State) :
    exec (.eventPop x .next) s = .next (if writing s x then s else shiftByte x s 0) := rfl

theorem exec_finishWrite (whole : Bool) (s : State) :
    exec (.registerWrite x (.finish whole)) s = .next (finishFrame x whole s) := rfl

theorem exec_finishRead (s : State) :
    exec (.eventPop x .finish) s = .next (if writing s x then s else finishFrame x true s) := rfl

theorem ignoresByte (frame : (s.port x).frame = some f) (ignored : f.ignored = true) (mosi : Byte) :
    ∃ t, exec (.registerWrite x (.next mosi)) s = .next t ∧ exec (.eventPop x .next) s = .next t ∧
      SameExcept [.ports] s t ∧ OtherPorts x s t ∧
      t.port x = { s.port x with miso := (s.port x).miso ++ [0] } := by
  have shift : ∀ mosi, shiftByte x s mosi = s.withPort x fun p => { p with miso := p.miso ++ [0] } := by
    intro mosi
    unfold shiftByte
    rw [frame]
    dsimp only
    rw [if_pos ignored]
  refine ⟨_, (exec_nextByte mosi s).trans (congrArg _ (shift mosi)), ?_, withPort_frame x _ s,
    fun y hy => State.withPort_port_ne _ _ hy, State.withPort_port_self _ _ _⟩
  rw [exec_nextRead, writing_ignored frame ignored, if_neg Bool.false_ne_true, shift]

theorem ignoresEnd (frame : (s.port x).frame = some f) (ignored : f.ignored = true) (whole : Bool) :
    ∃ t, exec (.registerWrite x (.finish whole)) s = .next t ∧ exec (.eventPop x .finish) s = .next t ∧
      SameExcept [.ports] s t ∧ OtherPorts x s t ∧ t.port x = { s.port x with frame := none } := by
  refine ⟨_, (exec_finishWrite whole s).trans (congrArg _ (finishFrame_ignored x whole s f frame ignored)), ?_,
    withPort_frame x _ s, fun y hy => State.withPort_port_ne _ _ hy, State.withPort_port_self _ _ _⟩
  rw [exec_finishRead, writing_ignored frame ignored, if_neg Bool.false_ne_true,
    finishFrame_ignored x true s f frame ignored]

theorem ignoresFrames (s : State) (x : Client) : IgnoresFrames s x := by
  refine ⟨fun free => ⟨fun low _ _ hc => ignoresWholeFrame free low hc, fun _ _ _ => ignoresBegin free⟩,
    fun f frame => ⟨fun c count hc => ?_, fun ignored =>
      ⟨ignoresByte frame ignored, ignoresEnd frame ignored⟩⟩⟩
  rw [exec_frame hc (portTakes_false_of_frame frame), if_pos (by rw [frame]; rfl)]

/-! ### The edges -/

theorem exec_clientReset_eq (x : Client) (full : Bool) (s : State) : exec (.clientReset x full) s =
    .next (if (s.port x).crstLow then s
      else if full && !s.resetLow then clientResetTransaction x (s.withPort x (Port.crstFall full))
      else s.withPort x (Port.crstFall full)) := rfl

/-- A fall of CRSTx that is no client reset moves the pin, if at all, and cuts the frame in progress. -/
theorem exec_crstFall {full : Bool} (up : (s.port x).crstLow = false) (no : (full && !s.resetLow) = false) :
    exec (.clientReset x full) s = .next (s.withPort x (Port.crstFall full)) := by
  rw [exec_clientReset_eq, up, if_neg Bool.false_ne_true, no, if_neg Bool.false_ne_true]

/-- A client reset by CRSTx makes the frame in progress one that the port ignores. -/
theorem clientReset_cutsFrame (high : s.resetLow = false) (up : (s.port x).crstLow = false) :
    ∃ t, exec (.clientReset x true) s = .next t ∧ (t.port x).miso = (s.port x).miso ∧
      (s.port x).frame.isSome = (t.port x).frame.isSome ∧
      ∀ f, (t.port x).frame = some f → f.ignored = true := by
  refine ⟨_, exec_clientReset high up, ?_⟩
  rw [clientReset_port, State.withPort_port_self]
  refine ⟨rfl, ?_, fun f hf => ?_⟩
  · unfold Port.clientReset Port.crstFall Port.cutFrame
    rw [Option.isSome_map, Option.isSome_map]
  · unfold Port.clientReset Port.crstFall Port.cutFrame at hf
    dsimp only at hf
    rw [Option.map_map] at hf
    obtain ⟨f', -, rfl⟩ := Option.map_eq_some_iff.1 hf
    rfl

theorem exec_deviceReset_eq (full : Bool) (s : State) : exec (.deviceReset full) s =
    .next (if s.resetLow then s else if full then deviceResetState s
      else { s with ports := .tabulate fun x => (s.port x).cutFrame }) := rfl

theorem exec_deviceResetRelease_eq (pads : BitVec 32) (s : State) : exec (.deviceResetRelease pads) s =
    .next (if s.resetLow then resetReleased pads s else s) := rfl

theorem withPorts_frame (ports : PerClient Port) (s : State) : SameExcept [.ports] s { s with ports } := by
  intro p hp
  cases p <;> first | rfl | exact ⟨rfl, rfl⟩ | exact absurd (by decide) hp

/-- A client that CRSTx holds takes no frame, asserts no interrupt and gets no event (R170). -/
theorem held_client (low : (s.port x).crstLow = true) :
    portTakes s x = false ∧ irqAsserted s x = false ∧ ∀ e, (append x e s).queues = s.queues := by
  refine ⟨portTakes_false_of_low (.inr low), ?_, fun e => ?_⟩
  · unfold irqAsserted
    rw [show (s.ports.get x).crstLow = true from low, Bool.not_true, Bool.and_false, Bool.false_and]
  · unfold append
    rw [if_pos low]

end Sys2Proof.Machine

namespace Sys2Proof.Proofs

open Sys2Proof.Machine

/-- Settles O58: the frames that a port ignores, then edge by edge. -/
theorem pinEdges : Obligations.PinEdges := by
  refine fun s x => ⟨ignoresFrames s x, clientReset_cutsFrame,
    ⟨_, rfl, withPort_frame x _ s, fun y hy => State.withPort_port_ne _ _ hy, State.withPort_port_self _ _ _⟩,
    fun up => ⟨_, exec_crstFall up rfl, withPort_frame x _ s, fun y hy => State.withPort_port_ne _ _ hy, ?_⟩,
    fun full low => by rw [exec_clientReset_eq, if_pos low],
    fun low up => ⟨_, exec_crstFall up (by rw [low]; rfl), withPort_frame x _ s,
      fun y hy => State.withPort_port_ne _ _ hy, State.withPort_port_self _ _ _⟩,
    fun pads low => ⟨_, exec_deviceResetRelease pads s low, resetReleased_frame pads s, rfl,
      fun held => held_client held⟩,
    fun high => ⟨_, by rw [exec_deviceReset_eq, high]; rfl, withPorts_frame _ s,
      fun y => PerClient.get_tabulate _ y⟩,
    fun full low => by rw [exec_deviceReset_eq, if_pos low],
    fun pads high => by rw [exec_deviceResetRelease_eq, high]; rfl⟩
  rw [State.withPort_port_self]
  unfold Port.crstFall Port.cutFrame
  rw [← up]

end Sys2Proof.Proofs
end

section
/-! PROOF. Every request row is the write frame of its kind and its parameters (R177, R178, R181). -/

set_option Elab.async false

namespace Sys2Proof.Machine

variable {s t : State} {x : Client} {body : State → Taken} {kind : Byte} {params : List Byte}

/-! ### A request is what its frame issues -/

/-- A request through a client page is the write frame from REQ_KIND on that issues it. -/
theorem clientFrame (x : Client) (kind : Byte) (params : List Byte) (s : State) (fits : params.length ≤ 16)
    (taken : ∀ u, takeRequest (.client x) kind (storeRequest (.client x) kind params u) =
      body (storeRequest (.client x) kind params u)) :
    Host.Outcome.next (requestFrame (.client x) kind params body s) =
      exec (.registerWrite x (.frame 0x04 (kind :: params))) s :=
  requestFrame_eq_frame _ x 0x04 kind params s rfl body (funext fun u => by
    rw [takeWrites_client x kind params fits, taken])

/-- A request through the supervisor page is the write frame from SREQ_KIND on that issues it. -/
theorem supervisorFrame (kind : Byte) (params : List Byte) (s : State) (fits : params.length ≤ 16)
    (taken : ∀ u, takeRequest .supervisor kind (storeRequest .supervisor kind params u) =
      body (storeRequest .supervisor kind params u)) :
    Host.Outcome.next (requestFrame .supervisor kind params body s) =
      exec (.registerWrite .a (.frame 0x81 (kind :: params))) s :=
  requestFrame_eq_frame _ .a 0x81 kind params s rfl body (funext fun u => by
    rw [takeWrites_supervisor kind params fits, taken])

/-! ### The rows (R181) -/

theorem word16_high_low (w : Word16) : word16 (highByte w) (lowByte w) = w := word16_split w

/-- A row of a client request: its kind is that of its code, and takes these parameters. -/
theorem clientRow {k : Kind} (hk : kind? kind = some k)
    (row : ∀ p : Nat → Byte, (∀ i (h : i < params.length), p i = params[i]) → ∀ u,
      takeClientKind k x p u = body u)
    (fits : params.length ≤ 16 := by exact Nat.le_of_ble_eq_true rfl) :
    Host.Outcome.next (requestFrame (.client x) kind params body s) =
      exec (.registerWrite x (.frame 0x04 (kind :: params))) s := by
  refine clientFrame x kind params s fits fun u => ?_
  unfold takeRequest
  rw [hk]
  exact row _ (fun i h => storeRequest_params_client x kind params u i h (by omega)) _

/-- A supervisor request through a client page is refused, whatever its parameters (R178). -/
theorem takeClientKind_supervisor {k : Kind} (supervisor : k.isSupervisor = true) (x : Client)
    (p : Nat → Byte) (u : State) : takeClientKind k x p u = refuse .notSupervisor u := by
  cases k with
  | claim | release | renew | withdraw | stage | stageCopy | commit | exchange | watch | unwatch | defer
  | cancelPending | detachSelf => cases supervisor
  | forceRelease | withhold | openGroup | setPriority | setPolicy | setSafe | setPair | clearPair | setAudit
  | detach => rfl

/-- A row of a supervisor request, on either page. -/
theorem supervisorRow {k : Kind} {page : Page} {start : Byte} (hk : kind? kind = some k)
    (supervisor : k.isSupervisor = true)
    (row : ∀ p : Nat → Byte, (∀ i (h : i < params.length), p i = params[i]) → ∀ u,
      takeSupervisorKind k p u = body u)
    (at' : page = .client x ∧ start = 0x04 ∨ page = .supervisor ∧ x = .a ∧ start = 0x81)
    (fits : params.length ≤ 16 := by exact Nat.le_of_ble_eq_true rfl) :
    Host.Outcome.next (requestFrame page kind params (supervised page body) s) =
      exec (.registerWrite x (.frame start (kind :: params))) s := by
  rcases at' with ⟨rfl, rfl⟩ | ⟨rfl, rfl, rfl⟩
  · exact clientRow hk (fun p _ u => takeClientKind_supervisor supervisor x p u) fits
  · refine supervisorFrame kind params s fits fun u => ?_
    unfold takeRequest
    rw [hk]
    exact row _ (fun i h => storeRequest_params_supervisor kind params u i h (by omega)) _

end Sys2Proof.Machine

namespace Sys2Proof.Proofs

open Sys2Proof.Machine

/-- Settles O12: row by row, the parameters at their places. -/
theorem requestsAreWriteFrames : Obligations.RequestsAreWriteFrames := by
  intro s
  refine ⟨fun x g f => clientRow (k := .claim) rfl ?_, fun x g => clientRow (k := .release) rfl ?_,
    fun x g => clientRow (k := .renew) rfl ?_, fun x g => clientRow (k := .withdraw) rfl ?_,
    fun x l r => clientRow (k := .stage) rfl ?_, fun x g => clientRow (k := .stageCopy) rfl ?_,
    fun x g => clientRow (k := .commit) rfl ?_, fun x g => clientRow (k := .exchange) rfl ?_,
    fun x g e => clientRow (k := .watch) rfl ?_, fun x g => clientRow (k := .unwatch) rfl ?_,
    fun x g k l v t d => clientRow (k := .defer) rfl ?_,
    fun x => clientRow (k := .cancelPending) rfl ?_, fun x => clientRow (k := .detachSelf) rfl ?_,
    fun x k => clientFrame x k [] s (by decide) fun _ => rfl,
    fun k => supervisorFrame k [] s (by decide) fun _ => rfl, fun page x start at' =>
    ⟨fun g => supervisorRow (k := .forceRelease) rfl rfl ?_ at',
      fun g => supervisorRow (k := .withhold) rfl rfl ?_ at',
      fun g => supervisorRow (k := .openGroup) rfl rfl ?_ at',
      fun g c p => supervisorRow (k := .setPriority) rfl rfl ?_ at',
      fun g f l d => supervisorRow (k := .setPolicy) rfl rfl ?_ at',
      fun l r => supervisorRow (k := .setSafe) rfl rfl ?_ at',
      fun i a b => supervisorRow (k := .setPair) rfl rfl ?_ at',
      fun i => supervisorRow (k := .clearPair) rfl rfl ?_ at',
      fun v => supervisorRow (k := .setAudit) rfl rfl ?_ at',
      fun c => supervisorRow (k := .detach) rfl rfl ?_ at'⟩⟩
  all_goals
    intro p h u
    simp [takeClientKind, takeSupervisorKind, h, recordList, word16_high_low]

end Sys2Proof.Proofs
end

section
/-! PROOF. A record and its seven bytes (R3, R72, R182). -/

set_option Elab.async false

namespace Sys2Proof.Machine

variable {l : Line} {b : RecordBytes} {r : Record}

/-! ### The seven bytes that spell a record -/

/-- The edges that bits 3 and 2 of byte 1 give. -/
def edgesOf (shape : Byte) : Edges :=
  match shape.getLsbD 3, shape.getLsbD 2 with
  | false, false => .none
  | false, true => .rising
  | true, false => .falling
  | true, true => .both

/-- The carried bits of byte 1: level, width, mirror. -/
def carriedBits (shape : Byte) : Bool × Bool × Bool := (shape.getLsbD 5, shape.getLsbD 6, shape.getLsbD 7)

/-- The function that a function byte, its carried bits and its carried parts spell (R182). -/
def SpellsFunction (l : Line) (b : RecordBytes) : LineFunction → Prop
  | .input => b.function = 0 ∧ carriedBits b.shape = (false, false, false)
  | .static a => b.function = 1 ∧ carriedBits b.shape = (true, false, false) ∧ b.shape.getLsbD 4 = a
  | .pulse w => b.function = 2 ∧ carriedBits b.shape = (false, true, false) ∧
      word16 b.widthHi b.widthLo = w ∧ w ≠ 0
  | .mirror src sense => b.function = 3 ∧ carriedBits b.shape = (false, false, true) ∧
      b.source.toNat = src.val ∧ src ≠ l ∧ (b.sense = 0 ∧ sense = .same ∨ b.sense = 1 ∧ sense = .opposite)

/-- The record that seven bytes spell (R182). -/
structure Spelled (l : Line) (b : RecordBytes) (r : Record) : Prop where
  filter : b.filter.toNat = r.filter.val
  polarity : r.polarity = if b.shape.getLsbD 0 then .inverted else .normal
  drive : r.drive = if b.shape.getLsbD 1 then .openDrain else .pushPull
  edges : r.edges = edgesOf b.shape
  function : SpellsFunction l b r.function

theorem inRange_eq_some {n : Nat} {v : Byte} {i : Fin n} : inRange n v = some i ↔ v.toNat = i.val := by
  refine ⟨fun h => ?_, inRange_some⟩
  unfold inRange at h
  split at h
  · cases h; rfl
  · cases h

theorem functionByte {v : Byte} {i : Fin 4} (h : inRange 4 v = some i) : v = BitVec.ofNat 8 i.val := by
  rw [inRange_eq_some] at h
  rw [← h, BitVec.ofNat_toNat, BitVec.setWidth_eq]

theorem senseOf_flag {v : Byte} {a : Bool} (h : flag? v = some a) :
    v = 0 ∧ (if a then Sense.opposite else .same) = .same ∨
      v = 1 ∧ (if a then Sense.opposite else .same) = .opposite := by
  unfold flag? at h
  split at h
  · next zero => cases h; exact .inl ⟨zero, rfl⟩
  · split at h
    · next one => cases h; exact .inr ⟨one, rfl⟩
    · cases h

theorem carriedBits_eq {shape : Byte} {level width mirror : Bool} (h5 : shape.getLsbD 5 = level)
    (h6 : shape.getLsbD 6 = width) (h7 : shape.getLsbD 7 = mirror) :
    carriedBits shape = (level, width, mirror) := by
  unfold carriedBits
  rw [h5, h6, h7]

theorem Spelled.of_record? (h : record? l b = some r) : Spelled l b r := by
  unfold record? at h
  dsimp only at h
  split at h
  · next f flt fn inRange =>
    cases h
    refine ⟨inRange_eq_some.1 inRange, rfl, rfl, rfl, ?_⟩
    split at fn
    · next function level width mirror =>
      cases fn
      exact ⟨functionByte function, carriedBits_eq level width mirror⟩
    · next function level width mirror =>
      cases fn
      exact ⟨functionByte function, carriedBits_eq level width mirror, rfl⟩
    · next function level width mirror =>
      split at fn
      · cases fn
      · next some' =>
        cases fn
        exact ⟨functionByte function, carriedBits_eq level width mirror, rfl, some'⟩
    · next function level width mirror =>
      split at fn
      · next src opp source sense =>
        split at fn
        · cases fn
        · next other =>
          cases fn
          exact ⟨functionByte function, carriedBits_eq level width mirror,
            inRange_eq_some.1 source, other, senseOf_flag sense⟩
      · cases fn
    · cases fn
  · cases h

theorem Spelled.record? (h : Spelled l b r) : record? l b = some r := by
  obtain ⟨f, polarity, drive, flt, edges⟩ := r
  obtain ⟨filter, polarity, drive, edges, function⟩ := h
  dsimp only at *
  subst polarity drive edges
  have filter := inRange_eq_some.2 filter
  cases f with
  | input =>
    obtain ⟨function, carried⟩ := function
    simp only [carriedBits, Prod.mk.injEq] at carried
    unfold Machine.record?
    rw [function, carried.1, carried.2.1, carried.2.2, filter]
    rfl
  | static a =>
    obtain ⟨function, carried, rfl⟩ := function
    simp only [carriedBits, Prod.mk.injEq] at carried
    unfold Machine.record?
    rw [function, carried.1, carried.2.1, carried.2.2, filter]
    rfl
  | pulse w =>
    obtain ⟨function, carried, rfl, some'⟩ := function
    simp only [carriedBits, Prod.mk.injEq] at carried
    unfold Machine.record?
    rw [function, carried.1, carried.2.1, carried.2.2, filter]
    rw [show inRange 4 2 = some 2 from rfl]
    dsimp only
    rw [if_neg some']
    rfl
  | mirror src sense =>
    obtain ⟨function, carried, source, other, sense⟩ := function
    simp only [carriedBits, Prod.mk.injEq] at carried
    unfold Machine.record?
    rw [function, carried.1, carried.2.1, carried.2.2, filter, line?_some source]
    rcases sense with ⟨zero, rfl⟩ | ⟨one, rfl⟩
    · rw [zero]
      rw [show inRange 4 3 = some 3 from rfl, show flag? 0 = some false from rfl]
      dsimp only
      rw [if_neg other]
      rfl
    · rw [one]
      rw [show inRange 4 3 = some 3 from rfl, show flag? 1 = some true from rfl]
      dsimp only
      rw [if_neg other]
      rfl

/-! ### The bytes written for a record -/

/-- The bits that a function puts in the shape byte. -/
def functionBits : LineFunction → Byte
  | .input => 0
  | .static a => bit a <<< 4 ||| 0x20
  | .pulse _ => 0x40
  | .mirror _ _ => 0x80

theorem shape_eq (r : Record) : r.bytes.shape =
    bit (r.polarity == .inverted) ||| bit (r.drive == .openDrain) <<< 1 ||| r.edges.code <<< 2 |||
      functionBits r.function := by
  unfold Record.bytes functionBits
  cases r.function with
  | input => exact BitVec.or_zero.symm
  | static a => exact BitVec.or_assoc _ _ _
  | pulse w => rfl
  | mirror src sense => rfl

/-- What a shape byte spells, by the bits that are put together in it. -/
theorem shape_bits (p d : Bool) (e : Edges) (f : LineFunction) :
    let shape := bit p ||| bit d <<< 1 ||| e.code <<< 2 ||| functionBits f
    shape.getLsbD 0 = p ∧ shape.getLsbD 1 = d ∧ edgesOf shape = e ∧
      shape.getLsbD 4 = (match f with
        | .static a => a
        | _ => false) ∧
      carriedBits shape = match f with
        | .input => (false, false, false)
        | .static _ => (true, false, false)
        | .pulse _ => (false, true, false)
        | .mirror _ _ => (false, false, true) := by
  cases f with
  | input => cases e <;> revert p d <;> decide
  | static a => cases e <;> revert p d a <;> decide
  | pulse w => cases e <;> dsimp only [functionBits] <;> revert p d <;> decide
  | mirror src sense => cases e <;> dsimp only [functionBits] <;> revert p d <;> decide

/-- The shape byte of a record, bit by bit. -/
theorem bytes_shape (r : Record) :
    r.bytes.shape.getLsbD 0 = (r.polarity == .inverted) ∧ r.bytes.shape.getLsbD 1 = (r.drive == .openDrain) ∧
      edgesOf r.bytes.shape = r.edges ∧
      r.bytes.shape.getLsbD 4 = (match r.function with
        | .static a => a
        | _ => false) ∧
      carriedBits r.bytes.shape = match r.function with
        | .input => (false, false, false)
        | .static _ => (true, false, false)
        | .pulse _ => (false, true, false)
        | .mirror _ _ => (false, false, true) := by
  rw [shape_eq]
  exact shape_bits _ _ _ _

theorem bytes_filter (r : Record) : r.bytes.filter = byteOf r.filter.val := by
  unfold Record.bytes
  cases r.function <;> rfl

theorem byteOf_toNat {n : Nat} (h : n < 256) : (byteOf n).toNat = n := by
  unfold byteOf
  rw [BitVec.toNat_ofNat, Nat.mod_eq_of_lt h]

/-- The bytes written for a well-formed record spell it. -/
theorem spelled_bytes (wf : r.wfFor l) : Spelled l r.bytes r := by
  obtain ⟨polarity, drive, edges, level, carried⟩ := bytes_shape r
  refine ⟨?_, ?_, ?_, edges.symm, ?_⟩
  · rw [bytes_filter, byteOf_toNat (by omega)]
  · rw [polarity]
    cases r.polarity <;> rfl
  · rw [drive]
    cases r.drive <;> rfl
  · obtain ⟨f, polarity, drive, flt, edges⟩ := r
    unfold Record.wfFor at wf
    cases f with
    | input => exact ⟨rfl, carried⟩
    | static a => exact ⟨rfl, carried, level⟩
    | pulse w => exact ⟨rfl, carried, word16_high_low w, wf⟩
    | mirror src sense =>
      refine ⟨rfl, carried, byteOf_toNat (by omega), wf, ?_⟩
      cases sense with
      | same => exact .inl ⟨rfl, rfl⟩
      | opposite => exact .inr ⟨rfl, rfl⟩

/-- What a record of the function does not carry is 0 in its bytes. -/
theorem bytes_absent (r : Record) :
    ((∀ a, r.function ≠ .static a) → r.bytes.shape.getLsbD 4 = false) ∧
    ((∀ w, r.function ≠ .pulse w) → r.bytes.widthHi = 0 ∧ r.bytes.widthLo = 0) ∧
    ((∀ src sense, r.function ≠ .mirror src sense) → r.bytes.source = 0 ∧ r.bytes.sense = 0) := by
  refine ⟨fun other => ?_, fun other => ?_, fun other => ?_⟩
  · obtain ⟨-, -, -, level, -⟩ := bytes_shape r
    rw [level]
    cases hf : r.function with
    | static a => exact absurd hf (other a)
    | input | pulse | mirror => rfl
  · unfold Record.bytes
    cases hf : r.function with
    | pulse w => exact absurd hf (other w)
    | input | static | mirror => exact ⟨rfl, rfl⟩
  · unfold Record.bytes
    cases hf : r.function with
    | mirror src sense => exact absurd hf (other src sense)
    | input | static | pulse => exact ⟨rfl, rfl⟩

/-! ### The bytes that are refused -/

theorem edgesOf_code (shape : Byte) : (edgesOf shape).code = (shape.extractLsb' 2 2).setWidth 8 := by
  revert shape
  decide +kernel

/-- The carried bits as the three uppermost of byte 1. -/
theorem carriedBits_extract (shape : Byte) :
    (carriedBits shape = (false, false, false) → shape.extractLsb' 5 3 = 0b000) ∧
    (carriedBits shape = (true, false, false) → shape.extractLsb' 5 3 = 0b001) ∧
    (carriedBits shape = (false, true, false) → shape.extractLsb' 5 3 = 0b010) ∧
    (carriedBits shape = (false, false, true) → shape.extractLsb' 5 3 = 0b100) := by
  revert shape
  decide +kernel

theorem word16_eq_zero {hi lo : Byte} : word16 hi lo = 0 ↔ hi = 0 ∧ lo = 0 := by
  refine ⟨fun h => ?_, ?_⟩
  · have high : highByte (word16 hi lo) = hi := BitVec.extractLsb'_append_eq_left
    have low : lowByte (word16 hi lo) = lo := BitVec.extractLsb'_append_eq_right
    rw [h] at high low
    exact ⟨high.symm, low.symm⟩
  · rintro ⟨rfl, rfl⟩
    rfl

/-- A function byte with the carried bits and the parts that it calls for (R182). -/
structure FunctionFits (l : Line) (b : RecordBytes) : Prop where
  small : b.function.toNat ≤ 3
  carried : carriedBits b.shape = (decide (b.function = 1), decide (b.function = 2), decide (b.function = 3))
  width : b.shape.getLsbD 6 = true → ¬ (b.widthHi = 0 ∧ b.widthLo = 0)
  source : b.shape.getLsbD 7 = true → b.source.toNat ≤ 31 ∧ b.source.toNat ≠ l.val
  sense : b.shape.getLsbD 7 = true → b.sense.toNat ≤ 1

theorem SpellsFunction.fits {f : LineFunction} (h : SpellsFunction l b f) : FunctionFits l b := by
  cases f with
  | input =>
    obtain ⟨function, carried⟩ := h
    have bits := carried
    simp only [carriedBits, Prod.mk.injEq] at bits
    refine ⟨by rw [function]; decide, by rw [carried, function]; rfl, fun w => ?_, fun m => ?_, fun m => ?_⟩
    · rw [bits.2.1] at w; cases w
    · rw [bits.2.2] at m; cases m
    · rw [bits.2.2] at m; cases m
  | static a =>
    obtain ⟨function, carried, -⟩ := h
    have bits := carried
    simp only [carriedBits, Prod.mk.injEq] at bits
    refine ⟨by rw [function]; decide, by rw [carried, function]; rfl, fun w => ?_, fun m => ?_, fun m => ?_⟩
    · rw [bits.2.1] at w; cases w
    · rw [bits.2.2] at m; cases m
    · rw [bits.2.2] at m; cases m
  | pulse w =>
    obtain ⟨function, carried, rfl, some'⟩ := h
    have bits := carried
    simp only [carriedBits, Prod.mk.injEq] at bits
    refine ⟨by rw [function]; decide, by rw [carried, function]; rfl, fun _ => mt word16_eq_zero.2 some',
      fun m => ?_, fun m => ?_⟩
    · rw [bits.2.2] at m; cases m
    · rw [bits.2.2] at m; cases m
  | mirror src sense =>
    obtain ⟨function, carried, source, other, sense⟩ := h
    have bits := carried
    simp only [carriedBits, Prod.mk.injEq] at bits
    refine ⟨by rw [function]; decide, by rw [carried, function]; rfl, fun w => ?_, fun _ => ⟨by omega, ?_⟩,
      fun _ => ?_⟩
    · rw [bits.2.1] at w; cases w
    · rw [source]
      exact fun same => other (Fin.ext same)
    · rcases sense with ⟨zero, -⟩ | ⟨one, -⟩
      · rw [zero]; decide
      · rw [one]; decide

theorem FunctionFits.spells (h : FunctionFits l b) : ∃ f, SpellsFunction l b f := by
  obtain ⟨small, carried, width, source, sense⟩ := h
  have four : b.function = 0 ∨ b.function = 1 ∨ b.function = 2 ∨ b.function = 3 := by bv_omega
  rcases four with function | function | function | function <;> rw [function] at carried
  · exact ⟨.input, function, carried⟩
  · exact ⟨.static _, function, carried, rfl⟩
  · have bits : carriedBits b.shape = (false, true, false) := carried
    simp only [carriedBits, Prod.mk.injEq] at bits
    exact ⟨.pulse _, function, carried, rfl, mt word16_eq_zero.1 (width bits.2.1)⟩
  · have bits : carriedBits b.shape = (false, false, true) := carried
    simp only [carriedBits, Prod.mk.injEq] at bits
    obtain ⟨range, other⟩ := source bits.2.2
    have two : b.sense = 0 ∨ b.sense = 1 := by have := sense bits.2.2; bv_omega
    refine ⟨.mirror ⟨b.source.toNat, by omega⟩ (if b.sense = 0 then .same else .opposite), function, carried, rfl,
      fun same => other (congrArg Fin.val same), ?_⟩
    rcases two with zero | one
    · exact .inl ⟨zero, if_pos zero⟩
    · exact .inr ⟨one, if_neg (by rw [one]; decide)⟩

theorem record?_eq_none : record? l b = none ↔ ¬ (b.filter.toNat ≤ 15 ∧ FunctionFits l b) := by
  rw [← not_iff_not, not_not, ← ne_eq, Option.ne_none_iff_exists']
  constructor
  · rintro ⟨r, h⟩
    have spelled := Spelled.of_record? h
    exact ⟨by have := spelled.filter; omega, spelled.function.fits⟩
  · rintro ⟨filter, fits⟩
    obtain ⟨f, function⟩ := fits.spells
    exact ⟨⟨f, _, _, ⟨b.filter.toNat, by omega⟩, _⟩, Spelled.record? ⟨rfl, rfl, rfl, rfl, function⟩⟩

end Sys2Proof.Machine

namespace Sys2Proof.Proofs

open Sys2Proof.Machine

/-- Settles O11: what seven bytes spell, what is written for a record, and what is refused. -/
theorem recordsReadBack : Obligations.RecordsReadBack := by
  refine ⟨fun l r wf => (spelled_bytes wf).record?, fun l b r h => ?_, bytes_absent, fun l b => ?_⟩
  · obtain ⟨filter, polarity, drive, edges, function⟩ := Spelled.of_record? h
    obtain ⟨none, level, width, mirror⟩ := carriedBits_extract b.shape
    refine ⟨record?_wfFor h, filter.symm, ?_, ?_, by rw [edges, edgesOf_code], ?_⟩
    · rw [polarity]
      cases b.shape.getLsbD 0 <;> simp
    · rw [drive]
      cases b.shape.getLsbD 1 <;> simp
    · cases hf : r.function with
      | input =>
        rw [hf] at function
        exact ⟨function.1, none function.2⟩
      | static a =>
        rw [hf] at function
        exact ⟨function.1, level function.2.1, function.2.2⟩
      | pulse w =>
        rw [hf] at function
        exact ⟨function.1, width function.2.1, function.2.2.1.symm⟩
      | mirror src sense =>
        rw [hf] at function
        obtain ⟨function, carried, source, -, sense⟩ := function
        exact ⟨function, mirror carried, source, sense⟩
  · show record? l b = none ↔ _ ∨ _ ∨ carriedBits b.shape ≠ _ ∨ _ ∨ _ ∨ _
    rw [record?_eq_none]
    constructor
    · intro no
      by_contra all
      push Not at all
      obtain ⟨small, filter, carried, width, source, sense⟩ := all
      exact no ⟨filter, small, carried, fun w zero => width w zero.1 zero.2, source, sense⟩
    · rintro cases' ⟨filter, small, carried, width, source, sense⟩
      rcases cases' with big | big | other | ⟨w, zero⟩ | ⟨m, src | src⟩ | ⟨m, big⟩
      · omega
      · omega
      · exact other carried
      · exact width w zero
      · have := (source m).1; omega
      · exact (source m).2 src
      · have := sense m; omega

end Sys2Proof.Proofs
end

section
/-! PROOF. Read frames: what they show, whole and in pieces, and when they pop the head of the queue (R154, R155,
R175, R176). -/

set_option Elab.async false

namespace Sys2Proof.Machine

variable {s t : State} {x : Client} {start a v : Byte} {f : Frame}

/-! ### The bytes latched as one value (R176) -/

/-- The latch groups are apart. -/
theorem latchGroup_eq_some {g : Nat × Nat} :
    latchGroup a = some g ↔ g ∈ latchGroups ∧ g.1 ≤ a.toNat ∧ a.toNat < g.1 + g.2 := by
  constructor
  · intro h
    exact ⟨List.mem_of_find?_eq_some h, by simpa using List.find?_some h⟩
  · rintro ⟨member, low, high⟩
    unfold latchGroups at member
    simp only [List.mem_cons, List.not_mem_nil, or_false] at member
    unfold latchGroup latchGroups
    rcases member with rfl | rfl | rfl | rfl | rfl | rfl | rfl <;> dsimp only at low high <;>
      (simp only [List.find?_cons, Nat.reduceAdd]
       grind)

/-- The addresses latched with one are those of its latch group. -/
theorem latchedWith_iff {b : Byte} : LatchedWith a b ↔
    ∃ g, latchGroup a = some g ∧ g.1 ≤ b.toNat ∧ b.toNat < g.1 + g.2 := by
  simp only [latchGroup_eq_some, latchGroups, LatchedWith, List.mem_cons, List.not_mem_nil, or_false]
  constructor
  · rintro ⟨g, member, ha, hb⟩
    refine ⟨(g.1, g.2 + 1 - g.1), ?_, by dsimp only; omega, by dsimp only; omega⟩
    rcases member with rfl | rfl | rfl | rfl | rfl | rfl | rfl <;> (dsimp only at *; simp; omega)
  · rintro ⟨g, ⟨member, ha⟩, hb⟩
    refine ⟨(g.1, g.1 + g.2 - 1), ?_, by dsimp only; omega, by dsimp only; omega⟩
    rcases member with rfl | rfl | rfl | rfl | rfl | rfl | rfl <;> simp

theorem latchedAt_append (l1 l2 : List (Byte × Byte)) (f f1 f2 : Frame) (h : f.latched = l1 ++ l2)
    (h1 : f1.latched = l1) (h2 : f2.latched = l2) (b : Byte) :
    latchedAt f b = (latchedAt f1 b).or (latchedAt f2 b) := by
  unfold latchedAt
  rw [h, h1, h2, List.find?_append]
  cases List.find? (fun w => w.1 == b) l1 <;> rfl

/-- The value that a latch of a group holds for an address of it, and that it holds none for another. -/
theorem latchNow_find (s : State) (x : Client) (g : Nat × Nat) (small : g.1 + g.2 ≤ 256) (b : Byte) :
    ((latchNow s x g).find? fun w => w.1 == b).map (·.2) =
      if g.1 ≤ b.toNat ∧ b.toNat < g.1 + g.2 then
        some ((windowByte s x b).resolve (s.draws + (b.toNat - g.1))) else none := by
  split
  · next inside =>
    have place : byteOf (g.1 + (b.toNat - g.1)) = b := by
      rw [Nat.add_sub_cancel' inside.1]
      exact (BitVec.ofNat_toNat 8 b).trans (BitVec.setWidth_eq b)
    have found : (latchNow s x g).find? (fun w => w.1 == b) =
        some (b, (windowByte s x b).resolve (s.draws + (b.toNat - g.1))) := by
      rw [List.find?_eq_some_iff_getElem]
      refine ⟨beq_self_eq_true b, b.toNat - g.1, by simp [latchNow]; omega, by simp [latchNow, place],
        fun j hj => ?_⟩
      simp only [latchNow, List.getElem_map, List.getElem_range, Bool.not_eq_true', beq_eq_false_iff_ne]
      intro same
      have := congrArg BitVec.toNat same
      rw [byteOf_toNat (by omega)] at this
      omega
    rw [found]
    rfl
  · next outside =>
    rw [Option.map_eq_none_iff, List.find?_eq_none]
    rintro w hw same
    obtain ⟨k, hk, rfl⟩ := List.mem_map.1 hw
    rw [List.mem_range] at hk
    rw [beq_iff_eq] at same
    have := congrArg BitVec.toNat same
    dsimp only at this
    rw [byteOf_toNat (by omega)] at this
    omega

theorem latchGroups_small {g : Nat × Nat} (h : g ∈ latchGroups) : g.1 + g.2 ≤ 256 := by
  revert g
  decide

/-! ### One byte served (R154, R176) -/

/-- The frame after a byte, with what it has latched. -/
def Frame.goOn (f : Frame) (latched : List (Byte × Byte)) (entry : Latch) : Frame :=
  { f with address := nextAddress f.address, latched, entry, evt5Read := f.evt5Read || f.address == 0x1E }

/-- The state after a byte of a read frame: the byte, the frame that goes on, the count of free values. -/
def byteServed (s : State) (x : Client) (f : Frame) (v : Byte) (draws : Nat) : State :=
  ({ s with draws } : State).withPort x fun p => { p with frame := some f, miso := p.miso ++ [v] }

theorem byteServed_frame (s : State) (x : Client) (f : Frame) (v : Byte) (draws : Nat) :
    SameExcept [.ports, .draws] s (byteServed s x f v draws) := by
  intro p hp
  cases p <;> first | rfl | exact ⟨rfl, rfl⟩ | exact absurd (by decide) hp

theorem byteServed_port (s : State) (x : Client) (f : Frame) (v : Byte) (draws : Nat) :
    (byteServed s x f v draws).port x = { s.port x with frame := some f, miso := (s.port x).miso ++ [v] } :=
  State.withPort_port_self _ x _

theorem byteServed_others (s : State) (x : Client) (f : Frame) (v : Byte) (draws : Nat) :
    OtherPorts x s (byteServed s x f v draws) := fun _ hy => State.withPort_port_ne _ _ hy

theorem shiftByte_serves (frame : (s.port x).frame = some f) (live : f.ignored = false)
    (read : f.isRead = true) (mosi : Byte) : shiftByte x s mosi = serveByte x f s := by
  unfold shiftByte
  rw [frame]
  dsimp only
  rw [if_neg (by rw [live]; decide), if_pos read]

/-- A latched value is shown as it was latched. -/
theorem serveByte_latched (s : State) (x : Client) (latched : latchedAt f f.address = some v) :
    serveByte x f s = byteServed s x (f.goOn f.latched f.entry) v s.draws := by
  obtain ⟨l, found, rfl⟩ := Option.map_eq_some_iff.1 latched
  unfold serveByte
  dsimp only
  rw [found]
  rfl

/-- Any other register is shown as it stands. -/
theorem serveByte_plain (s : State) (x : Client) (unlatched : latchedAt f f.address = none)
    (alone : latchGroup f.address = none) : serveByte x f s =
      byteServed s x (f.goOn f.latched f.entry) ((windowByte s x f.address).resolve s.draws) (s.draws + 1) := by
  have missing := Option.map_eq_none_iff.1 unlatched
  unfold serveByte
  dsimp only
  rw [missing, alone]
  rfl

/-- The first of bytes that are latched as one value latches them all. -/
theorem serveByte_latches (s : State) (x : Client) (unlatched : latchedAt f f.address = none) {g : Nat × Nat}
    (group : latchGroup f.address = some g) : serveByte x f s =
      byteServed s x (f.goOn (f.latched ++ latchNow s x g)
          (if g.1 = 0x19 then Latch.take (s.queues.get x) else f.entry))
        ((windowByte s x f.address).resolve (s.draws + (f.address.toNat - g.1))) (s.draws + g.2) := by
  have missing := Option.map_eq_none_iff.1 unlatched
  obtain ⟨member, inside⟩ := latchGroup_eq_some.1 group
  have value := latchNow_find s x g (latchGroups_small member) f.address
  rw [if_pos inside] at value
  obtain ⟨l, found, shown⟩ := Option.map_eq_some_iff.1 value
  unfold serveByte
  dsimp only
  rw [missing, group]
  dsimp only
  rw [found, ← shown]
  rfl

/-- A byte of a read frame, whatever it shows. -/
theorem serveByte_goes (s : State) (x : Client) (f : Frame) :
    ∃ latched entry v draws, serveByte x f s = byteServed s x (f.goOn latched entry) v draws := by
  cases latched : latchedAt f f.address with
  | some w => exact ⟨_, _, _, _, serveByte_latched s x latched⟩
  | none =>
    cases group : latchGroup f.address with
    | none => exact ⟨_, _, _, _, serveByte_plain s x latched group⟩
    | some g => exact ⟨_, _, _, _, serveByte_latches s x latched group⟩

/-! ### The end of a read frame (R155) -/

theorem midFrame_port (s : State) (x : Client) (f : Option Frame) (miso : List Byte) (draws : Nat) :
    (midFrame s x f miso draws).port x = { s.port x with frame := f, miso } :=
  State.withPort_port_self s x _

theorem midFrame_others (s : State) (x : Client) (f : Option Frame) (miso : List Byte) (draws : Nat) :
    OtherPorts x s (midFrame s x f miso draws) := fun _ hy => State.withPort_port_ne s _ hy

/-- The state after a read frame: the bytes that MISO has returned, the count of free values, and the head of the
queue popped or not. -/
def readDone (s : State) (x : Client) (miso : List Byte) (draws : Nat) (pop : Bool) : State :=
  { midFrame s x none miso draws with
    queues := if pop then s.queues.modify x List.tail else s.queues }

theorem readDone_frame (s : State) (x : Client) (miso : List Byte) (draws : Nat) (pop : Bool) :
    SameExcept [.ports, .queues, .draws] s (readDone s x miso draws pop) := by
  intro p hp
  cases p <;> first | rfl | exact ⟨rfl, rfl⟩ | exact absurd (by decide) hp

theorem modify_tail_empty (empty : s.queues.get x = []) : s.queues.modify x List.tail = s.queues :=
  PerClient.ext_get fun y => by
    rw [PerClient.get_modify]
    split
    · next here => rw [← here, empty]; rfl
    · rfl

/-- A pop where the latched entry is the head, or where there was none (R155). -/
theorem popEntry_take (h : t.queues = s.queues) :
    popEntry x (Latch.take (s.queues.get x)) t = { t with queues := s.queues.modify x List.tail } := by
  cases hq : s.queues.get x with
  | nil =>
    show t = _
    rw [modify_tail_empty hq, ← h]
  | cons e q =>
    show { t with queues := t.queues.modify x List.tail } = _
    rw [h]

theorem finishFrame_read {miso : List Byte} {draws : Nat} (live : f.ignored = false) (read : f.isRead = true)
    (entry : f.evt5Read = true → f.entry = Latch.take (s.queues.get x)) :
    finishFrame x true (midFrame s x (some f) miso draws) = readDone s x miso draws f.evt5Read := by
  have ended : (midFrame s x (some f) miso draws).withPort x (fun p => { p with frame := none }) =
      midFrame s x none miso draws := by cases x <;> rfl
  unfold finishFrame
  rw [show ((midFrame s x (some f) miso draws).port x).frame = some f by rw [midFrame_port]]
  dsimp only
  rw [if_neg (by rw [live]; decide), if_pos read, ended]
  cases evt5 : f.evt5Read with
  | false => rfl
  | true =>
    rw [if_pos rfl, entry evt5]
    exact popEntry_take (s := s) rfl

/-- A read frame that a port takes, whole. -/
theorem wholeFrame_read (takes : portTakes s x = true) (start : Byte) (count : Nat) :
    ∃ f bs draws, wholeFrame x 0x40 start (List.replicate count 0) s =
        readDone s x (0 :: 0 :: bs) draws f.evt5Read ∧ Reading s x start count f bs := by
  obtain ⟨f0, begun, reading⟩ := beginFrame_reading start takes
  obtain ⟨f, bs, draws, e, h⟩ := shiftByte_foldl_read count s.draws reading
  rw [Nat.zero_add] at h
  refine ⟨f, bs, draws, ?_, h⟩
  obtain ⟨-, -, free⟩ := (portTakes_iff s x).1 takes
  unfold wholeFrame
  rw [if_neg (by rw [free]; decide), begun, e, finishFrame_read (draws := draws) h.live h.read h.entry]

theorem exec_readFrame (x : Client) (start : Byte) (count : Nat) (s : State) :
    exec (.eventPop x (.frame start count)) s =
      .next (wholeFrame x 0x40 start (List.replicate count 0) s) := rfl

/-- A frame of any length, from any address. -/
theorem readsFrame (takes : portTakes s x = true) (start : Byte) (count : Nat) :
    ReadsFrame s x start count := by
  obtain ⟨f, bs, draws, e, h⟩ := wholeFrame_read takes start count
  obtain ⟨-, -, free⟩ := (portTakes_iff s x).1 takes
  refine ⟨_, bs, (exec_readFrame x start count s).trans (congrArg _ e), readDone_frame _ _ _ _ _,
    midFrame_others s x none (0 :: 0 :: bs) draws, fun y hy => ?_, ?_, h.length,
    h.shown, fun evt5 => ?_, fun none => ?_⟩
  · show (if f.evt5Read then s.queues.modify x List.tail else s.queues).get y = _
    split
    · exact PerClient.get_modify_ne _ _ hy
    · rfl
  · refine (midFrame_port s x none (0 :: 0 :: bs) draws).trans ?_
    rw [← free]
  · show (if f.evt5Read then s.queues.modify x List.tail else s.queues).get x = _
    rw [if_pos (h.evt5.2 evt5), PerClient.get_modify_self]
  · show (if f.evt5Read then s.queues.modify x List.tail else s.queues).get x = _
    rw [if_neg]
    rw [h.evt5]
    rintro ⟨i, hi, e⟩
    exact none i hi e

/-- A frame that reads no EVT5, or that finds the queue empty, leaves the queues. -/
theorem readsFrame_keeps (takes : portTakes s x = true) (start : Byte) (count : Nat)
    (keeps : (∀ i, i < count → frameAddress start i ≠ 0x1E) ∨ s.queues.get x = []) :
    ∃ t bs, exec (.eventPop x (.frame start count)) s = .next t ∧ SameExcept [.ports, .draws] s t ∧
      OtherPorts x s t ∧ t.port x = { s.port x with miso := 0 :: 0 :: bs } ∧ bs.length = count ∧
      ∀ i, i < count → Agrees s x (frameAddress start i) (bs.getD i 0) := by
  obtain ⟨t, bs, run, frame, others, queues, port, length, shown, pops, stays⟩ := readsFrame takes start count
  have same : t.queues = s.queues := PerClient.ext_get fun y => by
    by_cases here : y = x
    · subst here
      rcases keeps with none | empty
      · exact stays none
      · by_cases evt5 : ∃ i, i < count ∧ frameAddress start i = 0x1E
        · rw [pops evt5, empty]; rfl
        · push Not at evt5
          exact stays evt5
    · exact queues y here
  refine ⟨t, bs, run, fun p hp => ?_, others, port, length, shown⟩
  by_cases here : p = .queues
  · subst here; exact same
  · exact frame p (by simpa [here] using hp)

/-! ### One byte (R179, R180) -/

/-- A frame of one byte at an address other than that of EVT5. -/
theorem readsOne (takes : portTakes s x = true) (other : a ≠ 0x1E) :
    ∃ t b, exec (.eventPop x (.frame a 1)) s = .next t ∧ SameExcept [.ports, .draws] s t ∧
      OtherPorts x s t ∧ t.port x = { s.port x with miso := [0, 0, b] } ∧ Agrees s x a b := by
  obtain ⟨t, bs, run, frame, others, port, length, shown⟩ := readsFrame_keeps takes a 1 (.inl fun i hi => by
    obtain rfl : i = 0 := by omega
    rw [frameAddress_zero]; exact other)
  obtain ⟨b, rfl⟩ := List.length_eq_one_iff.1 length
  exact ⟨t, b, run, frame, others, port, by simpa [frameAddress_zero] using shown 0 (by decide)⟩

/-- Bits that a byte gives a value to are shown by a byte that agrees with it. -/
theorem and_of_agrees {v b hole mask : Byte} (agrees : b &&& ~~~hole = v &&& ~~~hole)
    (stated : hole &&& mask = 0) : b &&& mask = v &&& mask := by
  have inside : ~~~hole &&& mask = mask := by
    apply BitVec.eq_of_getLsbD_eq
    intro i hi
    have := congrArg (·.getLsbD i) stated
    simp only [BitVec.getLsbD_and] at this
    simp only [BitVec.getLsbD_and, BitVec.getLsbD_not, hi, decide_true, Bool.true_and]
    cases hm : mask.getLsbD i <;> simp_all
  calc b &&& mask = (b &&& ~~~hole) &&& mask := by rw [BitVec.and_assoc, inside]
    _ = (v &&& ~~~hole) &&& mask := by rw [agrees]
    _ = v &&& mask := by rw [BitVec.and_assoc, inside]

/-- A view: what its address shows, in the bits of a mask. -/
theorem readsAs {w : Shown} {mask value : Byte} (takes : portTakes s x = true) (other : a ≠ 0x1E)
    (window : windowByte s x a = w) (stated : w.hole &&& mask = 0) (shown : w.value &&& mask = value) :
    ReadsAs s x a mask value := by
  obtain ⟨t, b, run, frame, others, port, agrees⟩ := readsOne takes other
  unfold Agrees at agrees
  rw [window] at agrees
  exact ⟨t, b, run, frame, others, port, (and_of_agrees agrees stated).trans shown⟩

/-- A view of a byte that the manual gives whole. -/
theorem readsPlain {value : Byte} (takes : portTakes s x = true) (other : a ≠ 0x1E)
    (window : windowByte s x a = plain value) : ReadsAs s x a 0xFF value :=
  readsAs takes other window (BitVec.zero_and) (BitVec.and_allOnes (x := value))

theorem readsStated (takes : portTakes s x = true) (other : a ≠ 0x1E) :
    ReadsAs s x a (~~~(windowByte s x a).hole) ((windowByte s x a).value &&& ~~~(windowByte s x a).hole) :=
  readsAs takes other rfl (by rw [BitVec.and_not_self]) rfl

/-! ### Frames in pieces (R155, R175, R176) -/

theorem shiftByte_reads {frame : Frame} (h : (s.port x).frame = some frame) (read : frame.isRead = true)
    (mosi : Byte) : ∃ frame', ((shiftByte x s mosi).port x).frame = some frame' ∧ frame'.isRead = true := by
  cases live : frame.ignored with
  | true =>
    refine ⟨frame, ?_, read⟩
    unfold shiftByte
    rw [h]
    dsimp only
    rw [if_pos live, State.withPort_port_self]
    exact h
  | false =>
    obtain ⟨latched, entry, v, draws, e⟩ := serveByte_goes s x frame
    rw [shiftByte_serves h live read, e, byteServed_port]
    exact ⟨_, rfl, read⟩

theorem writing_read {frame : Frame} (h : (s.port x).frame = some frame) (read : frame.isRead = true) :
    writing s x = false := by
  unfold writing
  rw [h]
  dsimp only
  rw [read]
  rfl

/-- The data bytes of a read frame one by one, and its end. -/
theorem executes_reads (count : Nat) {frame : Frame} (h : (t.port x).frame = some frame)
    (read : frame.isRead = true) :
    ∃ u, Executes (List.replicate count (.eventPop x .next)) t u ∧
      u = (List.replicate count 0).foldl (shiftByte x) t ∧ writing u x = false := by
  induction count generalizing t frame with
  | zero => exact ⟨t, rfl, rfl, writing_read h read⟩
  | succ count ih =>
    obtain ⟨frame', h', read'⟩ := shiftByte_reads h read 0
    obtain ⟨u, runs, e, quiet⟩ := ih h' read'
    refine ⟨u, ⟨_, ?_, runs⟩, e, quiet⟩
    refine (exec_nextRead t).trans ?_
    rw [writing_read h read, if_neg Bool.false_ne_true]

theorem exec_beginRead (start : Byte) (s : State) :
    exec (.eventPop x (.begin true start)) s = .next (beginFrame x true 0x40 start s) := rfl

/-- CS falls on a port that takes frames. -/
theorem beginFrame_takes (takes : portTakes s x = true) (access : Byte) (start : Byte)
    (ha : access = 0x40 ∨ access = 0x80) :
    SameExcept [.ports] s (beginFrame x true access start s) ∧
      OtherPorts x s (beginFrame x true access start s) ∧
      (beginFrame x true access start s).port x = { s.port x with
        frame := some ⟨false, access == 0x40, start, [], [], .untaken, false⟩, miso := [0, 0] } := by
  obtain ⟨high, up, free⟩ := (portTakes_iff s x).1 takes
  have e : beginFrame x true access start s = s.withPort x fun p => { p with
      frame := some ⟨false, access == 0x40, start, [], [], .untaken, false⟩, miso := [0, 0] } := by
    unfold beginFrame
    rw [if_neg (by rw [free]; decide)]
    refine withPort_congr s x _ _ ?_
    rcases ha with rfl | rfl <;> simp [high, up]
  rw [e]
  exact ⟨withPort_frame x _ s, fun y hy => State.withPort_port_ne _ _ hy, State.withPort_port_self _ _ _⟩

theorem readPieces (takes : portTakes s x = true) (start : Byte) :
    ∃ t, exec (.eventPop x (.begin true start)) s = .next t ∧ SameExcept [.ports] s t ∧ OtherPorts x s t ∧
      t.port x = { s.port x with
        frame := some ⟨false, true, start, [], [], .untaken, false⟩, miso := [0, 0] } ∧
      ∀ count, ∃ u, Executes (List.replicate count (.eventPop x .next)) t u ∧
        exec (.eventPop x .finish) u = exec (.eventPop x (.frame start count)) s := by
  obtain ⟨frame, others, port⟩ := beginFrame_takes takes 0x40 start (.inl rfl)
  refine ⟨_, exec_beginRead start s, frame, others, port, fun count => ?_⟩
  obtain ⟨u, runs, e, quiet⟩ := executes_reads count (t := beginFrame x true 0x40 start s)
    (by rw [port]) rfl
  obtain ⟨-, -, free⟩ := (portTakes_iff s x).1 takes
  refine ⟨u, runs, ?_⟩
  rw [exec_finishRead, quiet, if_neg Bool.false_ne_true, e, exec_readFrame]
  unfold wholeFrame
  rw [if_neg (by rw [free]; decide)]

end Sys2Proof.Machine
end

section
/-! PROOF. What every address of the register window shows, view by view (R23, R49, R135, R169, R179, R180,
R182). -/

set_option Elab.async false

namespace Sys2Proof.Machine

variable {s : State} {x : Client}

/-! ### Bits and tables -/

theorem Table.at_val {n : Nat} {α : Type} (t : Table (n + 1) α) (i : Fin (n + 1)) : t.at i.val = t.get i :=
  dif_pos i.isLt

theorem oneBit_mod (n : Nat) (b : Bool) : oneBit (n % 8) b = oneBit n b := by
  unfold oneBit
  rw [Nat.mod_mod]

/-- A byte of eight bits, under the mask of one of them. -/
theorem bits8_and (f : Fin 8 → Bool) (j : Fin 8) : bits8 f &&& oneBit j.val true = oneBit j.val (f j) := by
  revert f j
  decide +kernel

theorem lineByte_and (f : Line → Bool) (l : Line) :
    lineByte f (Fin.ofNat 4 (l.val / 8)) &&& oneBit l.val true = oneBit l.val (f l) := by
  have group : l.val / 8 % 4 = l.val / 8 := Nat.mod_eq_of_lt (by omega)
  unfold lineByte
  rw [← oneBit_mod, ← oneBit_mod l.val (f l)]
  refine (bits8_and _ ⟨l.val % 8, by omega⟩).trans (congrArg _ (congrArg f (Fin.ext ?_)))
  show 8 * (l.val / 8 % 4) + l.val % 8 = l.val
  omega

theorem recordByte_eq (b : RecordBytes) (i : Fin 7) : recordByte b i.val =
    [b.function, b.shape, b.filter, b.widthHi, b.widthLo, b.source, b.sense].getD i.val 0 := by
  fin_cases i <;> rfl

/-! ### Addresses -/

theorem window_client {n : Nat} (h : n < 0x80) : windowByte s x (BitVec.ofNat 8 n) = clientByte s x n := by
  have value : (BitVec.ofNat 8 n).toNat = n := byteOf_toNat (by omega)
  unfold windowByte
  rw [value, if_pos h]

theorem window_supervisor {n : Nat} (h : 0x80 ≤ n) (h' : n < 0x100) :
    windowByte s .a (BitVec.ofNat 8 n) = supervisorByte s n := by
  have value : (BitVec.ofNat 8 n).toNat = n := byteOf_toNat h'
  unfold windowByte
  rw [value, if_neg (by omega), if_pos rfl]

theorem ofNat_ne_evt5 {n : Nat} (h : n < 0x100) (other : n ≠ 0x1E) : BitVec.ofNat 8 n ≠ (0x1E : Byte) :=
  fun same => other (by rw [← byteOf_toNat h]; exact congrArg BitVec.toNat same)

/-- A view of the client page. -/
theorem readsClient {n : Nat} {w : Shown} {mask value : Byte} (takes : portTakes s x = true)
    (window : clientByte s x n = w) (stated : w.hole &&& mask = 0) (shown : w.value &&& mask = value)
    (h : n < 0x80 := by omega) (other : n ≠ 0x1E := by omega) :
    ReadsAs s x (BitVec.ofNat 8 n) mask value :=
  readsAs takes (ofNat_ne_evt5 (by omega) other) ((window_client h).trans window) stated shown

/-- A view of the client page that the manual gives whole. -/
theorem readsClientPlain {n : Nat} {value : Byte} (takes : portTakes s x = true)
    (window : clientByte s x n = plain value) (h : n < 0x80 := by omega) (other : n ≠ 0x1E := by omega) :
    ReadsAs s x (BitVec.ofNat 8 n) 0xFF value :=
  readsPlain takes (ofNat_ne_evt5 (by omega) other) ((window_client h).trans window)

theorem readsSupervisor {n : Nat} {w : Shown} {mask value : Byte} (takes : portTakes s .a = true)
    (window : supervisorByte s n = w) (stated : w.hole &&& mask = 0) (shown : w.value &&& mask = value)
    (h : 0x80 ≤ n := by omega) (h' : n < 0x100 := by omega) : ReadsAs s .a (BitVec.ofNat 8 n) mask value :=
  readsAs takes (ofNat_ne_evt5 h' (by omega)) ((window_supervisor h h').trans window) stated shown

theorem readsSupervisorPlain {n : Nat} {value : Byte} (takes : portTakes s .a = true)
    (window : supervisorByte s n = plain value) (h : 0x80 ≤ n := by omega) (h' : n < 0x100 := by omega) :
    ReadsAs s .a (BitVec.ofNat 8 n) 0xFF value :=
  readsPlain takes (ofNat_ne_evt5 h' (by omega)) ((window_supervisor h h').trans window)

/-! ### The client page by addresses (R179) -/

theorem clientByte_param (s : State) (x : Client) (i : Fin 16) :
    clientByte s x (0x05 + i.val) = plain ((s.port x).reqParam.get i) := by
  unfold clientByte
  dsimp only
  repeat rw [if_neg (by omega)]
  rw [if_pos (by omega), Nat.add_sub_cancel_left, Table.at_val]

theorem clientByte_level (s : State) (x : Client) (k : Nat) (h : k < 4) : clientByte s x (0x21 + k) =
    plain (lineByte (fun l => s.level l == .high) (Fin.ofNat 4 k)) := by
  unfold clientByte
  dsimp only
  repeat rw [if_neg (by omega)]
  rw [if_pos (by omega), Nat.add_sub_cancel_left]

theorem clientByte_asserted (s : State) (x : Client) (k : Nat) (h : k < 4) : clientByte s x (0x25 + k) =
    plain (lineByte (asserted s) (Fin.ofNat 4 k)) := by
  unfold clientByte
  dsimp only
  repeat rw [if_neg (by omega)]
  rw [if_pos (by omega), Nat.add_sub_cancel_left]

theorem clientByte_pulse (s : State) (x : Client) (k : Nat) (h : k < 4) : clientByte s x (0x29 + k) =
    plain (lineByte (fun l => (s.driver l).pulse.isSome) (Fin.ofNat 4 k)) := by
  unfold clientByte
  dsimp only
  repeat rw [if_neg (by omega)]
  rw [if_pos (by omega), Nat.add_sub_cancel_left]

theorem clientByte_group (s : State) (x : Client) (g : Group) :
    clientByte s x (0x2D + g.val) = groupStateByte (s.entry g) := by
  unfold clientByte
  dsimp only
  repeat rw [if_neg (by omega)]
  rw [if_pos (by omega), Nat.add_sub_cancel_left, Table.at_val]
  rfl

theorem clientByte_wait (s : State) (x : Client) (g : Group) :
    clientByte s x (0x35 + g.val) = waitPosByte (s.entry g) x := by
  unfold clientByte
  dsimp only
  repeat rw [if_neg (by omega)]
  rw [if_pos (by omega), Nat.add_sub_cancel_left, Table.at_val]
  rfl

theorem clientByte_record (s : State) (x : Client) (i : Fin 7) : clientByte s x (0x44 + i.val) =
    plain (recordByte (s.record (s.port x).lineSel).bytes i.val) := by
  unfold clientByte
  dsimp only
  repeat rw [if_neg (by omega)]
  rw [if_pos (by omega), Nat.add_sub_cancel_left]

theorem clientByte_staged (s : State) (x : Client) (i : Fin 7) : clientByte s x (0x4C + i.val) =
    plain (recordByte ((s.staged.get x).get (s.port x).lineSel).bytes i.val) := by
  unfold clientByte
  dsimp only
  repeat rw [if_neg (by omega)]
  rw [if_pos (by omega), Nat.add_sub_cancel_left]

theorem clientByte_pending (s : State) (x : Client) (i : Nat) (h : i < 7) :
    clientByte s x (0x53 + i) = pendingByte (s.deferred.get x) i := by
  unfold clientByte
  dsimp only
  repeat rw [if_neg (by omega)]
  rw [if_pos (by omega), Nat.add_sub_cancel_left]

theorem clientByte_beyond (s : State) (x : Client) (n : Nat) (h : 0x5A ≤ n) : clientByte s x n = plain 0 := by
  unfold clientByte
  dsimp only
  repeat rw [if_neg (by omega)]

/-! ### The port's registers -/

theorem readsPortRegisters (takes : portTakes s x = true) : ReadsPortRegisters s x := by
  refine ⟨readsClientPlain (n := 0x00) takes rfl, readsClientPlain (n := 0x01) takes rfl,
    ⟨readsClientPlain (n := 0x02) takes rfl, readsClientPlain (n := 0x03) takes rfl⟩,
    readsClientPlain (n := 0x04) takes rfl, fun i => readsClientPlain takes (clientByte_param s x i),
    readsClientPlain (n := 0x15) takes rfl, readsClientPlain (n := 0x16) takes rfl,
    readsClientPlain (n := 0x17) takes rfl, readsClientPlain (n := 0x18) takes rfl,
    readsClientPlain (n := 0x1F) takes rfl, readsClientPlain (n := 0x20) takes rfl,
    readsClientPlain (n := 0x3D) takes rfl, readsClientPlain (n := 0x43) takes rfl, fun a low high => ?_,
    fun other a high => readsPlain takes (by rintro rfl; revert high; decide) ?_⟩
  · refine readsPlain takes (by rintro rfl; revert low; decide) ?_
    unfold windowByte
    rw [if_pos high, clientByte_beyond s x _ low]
  · unfold windowByte
    rw [if_neg (by omega), if_neg other]

/-! ### The lines -/

theorem readsRecord {n : Nat} {r : Record} (reads : ∀ i : Fin 7, ReadsAs s x (BitVec.ofNat 8 (n + i.val)) 0xFF
    (recordByte r.bytes i.val)) : ReadsRecord s x n r := by
  intro i
  rw [← recordByte_eq]
  exact reads i

/-- The driver state byte: pulse ACTIVE, mirror state, HELD, demand (R107, R179). -/
theorem driverByte_and (d : Driver) : (driverByte d).hole &&& 0x0F = 0 ∧ (driverByte d).value &&& 0x0F =
    (oneBit 0 d.pulse.isSome ||| match d.mirror with
      | none => 0
      | some mir => oneBit 1 true ||| oneBit 2 (mir.phase == .held) ||| oneBit 3 mir.demand) := by
  obtain ⟨pulse, mirror⟩ := d
  unfold driverByte
  cases mirror with
  | none =>
    dsimp only
    generalize pulse.isSome = flying
    revert flying
    decide
  | some m =>
    obtain ⟨phase, demand⟩ := m
    dsimp only
    generalize pulse.isSome = flying
    cases phase <;> revert flying demand <;> decide

theorem readsLines (takes : portTakes s x = true) : ReadsLines s x := by
  refine ⟨fun l => ⟨?_, ?_, ?_⟩, readsRecord fun i => readsClientPlain takes (clientByte_record s x i),
    readsRecord fun i => readsClientPlain takes (clientByte_staged s x i), ?_⟩
  · exact readsClient takes (clientByte_level s x _ (by omega)) BitVec.zero_and
      (lineByte_and (fun l => s.level l == .high) l)
  · exact readsClient takes (clientByte_asserted s x _ (by omega)) BitVec.zero_and (lineByte_and (asserted s) l)
  · exact readsClient takes (clientByte_pulse s x _ (by omega)) BitVec.zero_and
      (lineByte_and (fun l => (s.driver l).pulse.isSome) l)
  · obtain ⟨stated, shown⟩ := driverByte_and (s.driver (s.port x).lineSel)
    exact readsClient (n := 0x4B) takes rfl stated shown

/-! ### The groups (R20, R23, R49) -/

theorem groupStateByte_and (e : LeaseEntry) : (groupStateByte e).hole &&& 0x07 = 0 ∧
    (groupStateByte e).value &&& 0x07 = (stateCode e.state ||| oneBit 2 e.holder.isSome) := by
  obtain ⟨state, holder, priority, timer, grace, waiting⟩ := e
  unfold groupStateByte
  cases holder with
  | none =>
    dsimp only
    cases state <;> decide
  | some y =>
    dsimp only
    cases state <;> cases y <;> decide

theorem groupStateByte_holder (e : LeaseEntry) (y : Client) (holder : e.holder = some y) :
    (groupStateByte e).hole &&& 0x18 = 0 ∧
      (groupStateByte e).value &&& 0x18 = BitVec.ofNat 8 (8 * clientNumber y) := by
  obtain ⟨state, holder', priority, timer, grace, waiting⟩ := e
  obtain rfl : holder' = some y := holder
  unfold groupStateByte
  dsimp only
  cases state <;> cases y <;> decide

theorem waitPosition_le (x : Client) (w : List Claim) : waitPosition x w ≤ w.length := by
  induction w with
  | nil => exact Nat.le_refl _
  | cons c rest ih =>
    unfold waitPosition
    rw [List.length_cons]
    split
    · omega
    · split <;> omega

theorem waitPosition_none (w : List Claim) (none : w.any (fun c => c.client == x) = false) :
    waitPosition x w = 0 := by
  induction w with
  | nil => rfl
  | cons c rest ih =>
    rw [List.any_cons, Bool.or_eq_false_iff] at none
    unfold waitPosition
    rw [if_neg (by simpa using none.1), ih none.2]

/-- A client that is once in a list stands at its own place. -/
theorem waitPosition_get {w : List Claim} (once : (w.map (·.client)).Nodup) {i : Nat} {c : Claim}
    (here : w[i]? = some c) : waitPosition c.client w = i + 1 := by
  induction w generalizing i with
  | nil => cases here
  | cons d rest ih =>
    rw [List.map_cons, List.nodup_cons] at once
    unfold waitPosition
    cases i with
    | zero =>
      rw [List.getElem?_cons_zero, Option.some.injEq] at here
      rw [if_pos (by rw [here])]
    | succ i =>
      rw [List.getElem?_cons_succ] at here
      have later : d.client ≠ c.client := fun same =>
        once.1 (same ▸ List.mem_map.2 ⟨c, List.mem_of_getElem? here, rfl⟩)
      rw [if_neg later, ih once.2 here]

theorem waitPosByte_and (e : LeaseEntry) (x : Client) (short : e.waiting.length ≤ 3) :
    ((waitPosByte e x).hole &&& 0x30 = 0 ∧
      (waitPosByte e x).value &&& 0x30 = BitVec.ofNat 8 (16 * e.waiting.length)) ∧
    ((waitPosByte e x).hole &&& 0x03 = 0 ∧
      (waitPosByte e x).value &&& 0x03 = BitVec.ofNat 8 (waitPosition x e.waiting)) := by
  have place := waitPosition_le x e.waiting
  unfold waitPosByte
  dsimp only
  generalize waitPosition x e.waiting = p at place ⊢
  generalize e.waiting.length = n at place short ⊢
  have all : ∀ p n : Fin 4, (byteOf p.val ||| byteOf n.val <<< 4) &&& 0x30 = BitVec.ofNat 8 (16 * n.val) ∧
      (byteOf p.val ||| byteOf n.val <<< 4) &&& 0x03 = BitVec.ofNat 8 p.val := by decide
  obtain ⟨length, position⟩ := all ⟨p, by omega⟩ ⟨n, by omega⟩
  exact ⟨⟨rfl, length⟩, rfl, position⟩

theorem leaseFlagsByte_and (e : LeaseEntry) :
    ((leaseFlagsByte e).hole &&& 0x03 = 0 ∧ (leaseFlagsByte e).value &&& 0x03 = match e.timer with
      | .running _ => 1
      | .noExpiry => 2
      | .stopped => 0) ∧
    ((leaseFlagsByte e).hole &&& 0x04 = 0 ∧ (leaseFlagsByte e).value &&& 0x04 = oneBit 2 e.grace.isSome) := by
  unfold leaseFlagsByte
  dsimp only
  generalize e.grace.isSome = revoked
  cases e.timer with
  | running left =>
    rw [show (LeaseTimer.running left == .noExpiry) = false from beq_eq_false_iff_ne.2 nofun]
    dsimp only
    revert revoked
    decide
  | noExpiry | stopped => revert revoked; decide

theorem readsLeaseLeft (takes : portTakes s x = true) :
    ReadsWord s x 0x3F (leaseLeft (s.entry (s.port x).leaseSel)) :=
  ⟨readsClientPlain (n := 0x3F) takes rfl, readsClientPlain (n := 0x40) takes rfl⟩

theorem readsGraceLeft (takes : portTakes s x = true) :
    ReadsWord s x 0x41 (graceLeft (s.entry (s.port x).leaseSel)) :=
  ⟨readsClientPlain (n := 0x41) takes rfl, readsClientPlain (n := 0x42) takes rfl⟩

/-- At most the three clients that do not hold a group wait for it. -/
theorem LeaseLaw.waiting_short (law : LeaseLaw s) (g : Group) : (s.entry g).waiting.length ≤ 3 := by
  obtain ⟨⟨held, -, idle, -⟩, once, apart, -⟩ := law g
  cases waiting : (s.entry g).waiting with
  | nil => exact Nat.zero_le _
  | cons c rest =>
    rw [← waiting]
    have some' : (s.entry g).waiting ≠ [] := by rw [waiting]; exact List.cons_ne_nil _ _
    have state : (s.entry g).state = .held ∨ (s.entry g).state = .revoking := by
      cases hs : (s.entry g).state with
      | safe => exact absurd (idle (.inl hs)) some'
      | withheld => exact absurd (idle (.inr hs)) some'
      | held => exact .inl rfl
      | revoking => exact .inr rfl
    obtain ⟨y, holder⟩ := Option.isSome_iff_exists.1 (held.2 state)
    have all : (y :: (s.entry g).waiting.map (·.client)).Nodup := by
      rw [List.nodup_cons]
      refine ⟨fun member => ?_, once⟩
      obtain ⟨c, hc, rfl⟩ := List.mem_map.1 member
      exact (apart c hc).1 holder
    have := (all.subperm fun z _ => mem_clients z).length_le
    rw [List.length_cons, List.length_map, show clients.length = 4 from rfl] at this
    omega

theorem readsGroups (takes : portTakes s x = true) (law : LeaseLaw s) : ReadsGroups s x := by
  refine ⟨fun g => ?_, ?_, ?_⟩
  · have short := law.waiting_short g
    obtain ⟨stated, shown⟩ := groupStateByte_and (s.entry g)
    obtain ⟨⟨lengthStated, length⟩, placeStated, place⟩ := waitPosByte_and (s.entry g) x short
    refine ⟨readsClient takes (clientByte_group s x g) stated shown, fun y holder => ?_,
      readsClient takes (clientByte_wait s x g) lengthStated length, fun none => ?_, fun i c here own => ?_⟩
    · obtain ⟨holds, client⟩ := groupStateByte_holder (s.entry g) y holder
      exact readsClient takes (clientByte_group s x g) holds client
    · rw [waitPosition_none _ none] at place
      exact readsClient takes (clientByte_wait s x g) placeStated place
    · subst own
      obtain ⟨-, once, -⟩ := law g
      rw [waitPosition_get once here] at place
      exact readsClient takes (clientByte_wait s c.client g) placeStated place
  · have left := readsLeaseLeft takes
    obtain ⟨⟨stated, shown⟩, -⟩ := leaseFlagsByte_and (s.entry (s.port x).leaseSel)
    unfold leaseLeft at left
    cases timer : (s.entry (s.port x).leaseSel).timer <;> rw [timer] at left shown <;>
      exact ⟨readsClient (n := 0x3E) takes rfl stated shown, left⟩
  · have left := readsGraceLeft takes
    obtain ⟨-, stated, shown⟩ := leaseFlagsByte_and (s.entry (s.port x).leaseSel)
    unfold graceLeft at left
    cases grace : (s.entry (s.port x).leaseSel).grace <;> rw [grace] at left shown <;>
      exact ⟨readsClient (n := 0x3E) takes rfl stated shown, left⟩

/-! ### PENDING_STATE (R135) -/

theorem readsPending (takes : portTakes s x = true) : ReadsPending s x := by
  have byte := clientByte_pending s x
  unfold ReadsPending
  cases pending : s.deferred.get x with
  | none =>
    rw [pending] at byte
    exact fun i => readsClientPlain takes (byte i.val i.isLt)
  | some d =>
    rw [pending] at byte
    obtain ⟨parts, trigger⟩ := d
    refine ⟨fun g => readsClient (n := 0x54) takes (byte 1 (by decide)) BitVec.zero_and
      (bits8_and (fun g => parts.any fun p => p.1 == g) g), ?_⟩
    cases trigger with
    | line l target timeout left =>
      have first : pendingByte (some ⟨parts, .line l target timeout left⟩) 0 =
          ⟨1 ||| (1 <<< 1) ||| (bit (target == .high) <<< 3) ||| (bit left.isSome <<< 4), 0xE0⟩ := rfl
      refine ⟨readsClient (n := 0x53) takes ((byte 0 (by decide)).trans first)
          (by decide : (0xE0 : Byte) &&& 0x1F = 0) ?_,
        readsClientPlain (n := 0x55) takes (byte 2 (by decide)), fun w running => ?_⟩
      · generalize left.isSome = limited
        generalize (target == .high) = up
        revert limited up
        decide
      · subst running
        exact ⟨readsClientPlain (n := 0x58) takes (byte 5 (by decide)),
          readsClientPlain (n := 0x59) takes (byte 6 (by decide))⟩
    | time delay left =>
      have first : pendingByte (some ⟨parts, .time delay left⟩) 0 = ⟨1 ||| (2 <<< 1), 0xE0⟩ := rfl
      exact ⟨readsClient (n := 0x53) takes ((byte 0 (by decide)).trans first) (by decide) (by decide),
        readsClientPlain (n := 0x56) takes (byte 3 (by decide)),
        readsClientPlain (n := 0x57) takes (byte 4 (by decide))⟩

/-! ### The supervisor page by addresses (R169, R180) -/

theorem supervisorByte_param (s : State) (i : Fin 16) :
    supervisorByte s (0x82 + i.val) = plain (s.sreqParam.get i) := by
  unfold supervisorByte
  dsimp only
  repeat rw [if_neg (by omega)]
  rw [if_pos (by omega), Nat.add_sub_cancel_left, Table.at_val]

theorem clientAt_number (y : Client) : clientAt (clientNumber y) = y := by cases y <;> rfl

theorem clientNumber_lt (y : Client) : clientNumber y < 4 := by cases y <;> decide

theorem supervisorByte_park (s : State) (y : Client) : supervisorByte s (0x94 + clientNumber y) =
    plain (bits8 fun g => ((s.park.get y).get g).isSome) := by
  have := clientNumber_lt y
  unfold supervisorByte
  dsimp only
  repeat rw [if_neg (by omega)]
  rw [if_pos (by omega), Nat.add_sub_cancel_left, clientAt_number]

theorem supervisorByte_priority (s : State) (y : Client) : supervisorByte s (0xA8 + clientNumber y) =
    plain (byteOf ((s.policy.get s.groupSel).priority.get y).val) := by
  have := clientNumber_lt y
  unfold supervisorByte
  dsimp only
  repeat rw [if_neg (by omega)]
  rw [if_pos (by omega), Nat.add_sub_cancel_left, clientAt_number]

theorem supervisorByte_pair (s : State) (i : Fin 8) (k : Nat) (h : k < 2) :
    supervisorByte s (0x98 + k + 2 * i.val) = pairByte (s.pairs.get i) k := by
  unfold supervisorByte
  dsimp only
  repeat rw [if_neg (by omega)]
  rw [if_pos (by omega), show (0x98 + k + 2 * i.val - 0x98) / 2 = i.val by omega,
    show (0x98 + k + 2 * i.val - 0x98) % 2 = k by omega, Table.at_val]

theorem supervisorByte_safe (s : State) (p : Fin 4) (i : Fin 7) : supervisorByte s (0xB1 + 7 * p.val + i.val) =
    plain (recordByte ((s.policy.get s.groupSel).safe.get p).bytes i.val) := by
  unfold supervisorByte
  dsimp only
  repeat rw [if_neg (by omega)]
  rw [if_pos (by omega), show (0xB1 + 7 * p.val + i.val - 0xB1) / 7 = p.val by omega,
    show (0xB1 + 7 * p.val + i.val - 0xB1) % 7 = i.val by omega, Table.at_val]

theorem supervisorByte_claim (s : State) (i : Fin 3) :
    supervisorByte s (0xD1 + i.val) = claimByte (s.entry s.groupSel).waiting i.val := by
  unfold supervisorByte
  dsimp only
  repeat rw [if_neg (by omega)]
  rw [if_pos (by omega), Nat.add_sub_cancel_left]

theorem supervisorByte_beyond (s : State) (n : Nat) (h : 0xD4 ≤ n) : supervisorByte s n = plain 0 := by
  unfold supervisorByte
  dsimp only
  repeat rw [if_neg (by omega)]

theorem supervisorByte_holder {y : Client} (holder : (s.entry s.groupSel).holder = some y) :
    supervisorByte s 0xCE = ⟨4 ||| clientBits y, 0xF8⟩ := by
  unfold supervisorByte
  dsimp only
  repeat rw [if_neg (by omega)]
  rw [if_pos rfl, holder]

theorem supervisorByte_vacant (holder : (s.entry s.groupSel).holder = none) :
    supervisorByte s 0xCE = ⟨0, 0xFB⟩ := by
  unfold supervisorByte
  dsimp only
  repeat rw [if_neg (by omega)]
  rw [if_pos rfl, holder]

/-! ### The supervisor page -/

theorem resetsByte_and (s : State) (y : Client) : (supervisorByte s 0x93).hole &&& oneBit (clientNumber y) true = 0 ∧
    (supervisorByte s 0x93).value &&& oneBit (clientNumber y) true =
      oneBit (clientNumber y) (s.port y).crstLow := by
  show (0xF0 : Byte) &&& _ = 0 ∧ (bit (s.port .a).crstLow ||| (bit (s.port .b).crstLow <<< 1) |||
    (bit (s.port .c).crstLow <<< 2) ||| (bit (s.port .d).crstLow <<< 3)) &&& _ = _
  cases y <;> generalize (s.port .a).crstLow = a <;> generalize (s.port .b).crstLow = b <;>
    generalize (s.port .c).crstLow = c <;> generalize (s.port .d).crstLow = d <;> revert a b c d <;> decide

theorem auditByte_and (s : State) : (supervisorByte s 0x92).hole &&& 0x07 = 0 ∧
    (supervisorByte s 0x92).value &&& 0x07 =
      (oneBit 0 s.audit.losses ||| oneBit 1 s.audit.conflicts ||| oneBit 2 s.audit.detaches) := by
  show (0xF8 : Byte) &&& _ = 0 ∧ (bit s.audit.losses ||| (bit s.audit.conflicts <<< 1) |||
    (bit s.audit.detaches <<< 2)) &&& _ = _
  obtain ⟨losses, conflicts, detaches⟩ := s.audit
  revert losses conflicts detaches
  decide

theorem pairByte_lower (p : Pair) : (pairByte (some p) 0).hole &&& 0x9F = 0 ∧
    (pairByte (some p) 0).value &&& 0x9F = BitVec.ofNat 8 (0x80 + p.lower.val) := by
  have all : ∀ l : Line, (0x80 ||| byteOf l.val) &&& 0x9F = BitVec.ofNat 8 (0x80 + l.val) := by decide
  unfold pairByte
  dsimp only
  rw [if_pos rfl]
  exact ⟨(by decide : (0x60 : Byte) &&& 0x9F = 0), all p.lower⟩

theorem claimByte_and (c : Claim) (w : List Claim) (i : Nat) (here : w[i]? = some c) :
    (claimByte w i).hole &&& 0x7F = 0 ∧ (claimByte w i).value &&& 0x7F =
      (BitVec.ofNat 8 (clientNumber c.client + 4 * c.priority.val) ||| oneBit 5 c.preempt |||
        oneBit 6 c.restore) := by
  unfold claimByte
  rw [here]
  obtain ⟨client, priority, preempt, restore, arrival⟩ := c
  dsimp only
  refine ⟨by decide, ?_⟩
  clear here
  revert priority preempt restore
  cases client <;> decide

theorem readsSupervisorPage (takes : portTakes s .a = true) : ReadsSupervisorPage s := by
  unfold ReadsSupervisorPage
  intro q e
  refine ⟨readsSupervisorPlain (n := 0x80) takes rfl, readsSupervisorPlain (n := 0x81) takes rfl,
    fun i => readsSupervisorPlain takes (supervisorByte_param s i), ?_, fun y => ⟨?_, fun g => ?_, ?_⟩,
    fun i => ?_, ?_, ⟨readsSupervisorPlain (n := 0xAD) takes rfl, readsSupervisorPlain (n := 0xAE) takes rfl⟩,
    ⟨readsSupervisorPlain (n := 0xAF) takes rfl, readsSupervisorPlain (n := 0xB0) takes rfl⟩,
    fun p => readsRecord fun i => readsSupervisorPlain takes (supervisorByte_safe s p i),
    readsSupervisorPlain (n := 0xCD) takes ?_, ?_, ?_, readsSupervisorPlain (n := 0xD0) takes rfl,
    fun i => ?_, fun a high => ?_⟩
  · obtain ⟨stated, shown⟩ := auditByte_and s
    exact readsSupervisor (n := 0x92) takes rfl stated shown
  · obtain ⟨stated, shown⟩ := resetsByte_and s y
    exact readsSupervisor (n := 0x93) takes rfl stated shown
  · have := clientNumber_lt y
    exact readsSupervisor takes (supervisorByte_park s y) BitVec.zero_and
      (bits8_and (fun g => ((s.park.get y).get g).isSome) g)
  · have := clientNumber_lt y
    exact readsSupervisorPlain takes (supervisorByte_priority s y)
  · have low := supervisorByte_pair s i 0 (by decide)
    have high := supervisorByte_pair s i 1 (by decide)
    cases pair : s.pairs.get i with
    | none =>
      rw [pair] at low high
      exact ⟨readsSupervisorPlain takes low, readsSupervisorPlain takes high⟩
    | some p =>
      rw [pair] at low high
      obtain ⟨stated, shown⟩ := pairByte_lower p
      exact ⟨readsSupervisor takes low stated shown, readsSupervisorPlain takes high⟩
  · refine readsSupervisorPlain (n := 0xAC) takes (congrArg plain ?_)
    show bit q.preemptible = _
    cases q.preemptible <;> rfl
  · show plain e.state.code = _
    cases e.state <;> rfl
  · cases holder : e.holder with
    | some y =>
      exact readsSupervisor (n := 0xCE) takes (supervisorByte_holder holder)
        (by decide : (0xF8 : Byte) &&& 0x07 = 0) (by cases y <;> decide)
    | none => exact readsSupervisor (n := 0xCE) takes (supervisorByte_vacant holder) (by decide) (by decide)
  · exact readsSupervisorPlain (n := 0xCF) takes rfl
  · have window := supervisorByte_claim s i
    cases here : e.waiting[i.val]? with
    | none =>
      refine readsSupervisorPlain takes (window.trans ?_)
      unfold claimByte
      rw [here]
    | some c =>
      obtain ⟨stated, shown⟩ := claimByte_and c _ i.val here
      exact readsSupervisor takes window stated shown
  · refine readsPlain takes (by rintro rfl; revert high; decide) ?_
    unfold windowByte
    rw [if_neg (by omega), if_pos rfl, supervisorByte_beyond s _ high]

end Sys2Proof.Machine
end

section
/-! PROOF. Read frames in pieces: each byte, the end, and a DETACH in between (R154, R155, R171, R176). -/

set_option Elab.async false

namespace Sys2Proof.Machine

variable {s t : State} {x : Client} {f : Frame} {v : Byte}

/-! ### One byte (R154, R176) -/

theorem frameAddress_next (a : Byte) : frameAddress a 1 = nextAddress a := by
  rw [← frameAddress_succ, frameAddress_zero]

theorem latchedWith_events (a : Byte) : LatchedWith 0x19 a ↔ 0x19 ≤ a.toNat ∧ a.toNat ≤ 0x1E := by
  rw [latchedWith_iff]
  refine ⟨?_, fun inside => ⟨(0x19, 6), rfl, inside.1, by omega⟩⟩
  rintro ⟨g, group, inside⟩
  obtain rfl : (0x19, 6) = g := Option.some.inj group
  omega

/-- The group of the event bytes is the one that begins at EVT0. -/
theorem latchGroup_events {a : Byte} {g : Nat × Nat} (group : latchGroup a = some g) :
    LatchedWith 0x19 a ↔ g.1 = 0x19 := by
  obtain ⟨member, inside⟩ := latchGroup_eq_some.1 group
  rw [latchedWith_events]
  simp only [latchGroups, List.mem_cons, List.not_mem_nil, or_false] at member
  rcases member with rfl | rfl | rfl | rfl | rfl | rfl | rfl <;> (dsimp only at *; omega)

theorem latchedWith_self_of_events {a : Byte} (h : LatchedWith 0x19 a) : LatchedWith a a := by
  obtain ⟨g, member, -, inside⟩ := h
  exact ⟨g, member, inside, inside⟩

/-- What a frame has latched after its group has been latched too. -/
theorem latchedAt_goOn (s : State) (x : Client) (f : Frame) (g : Nat × Nat) (small : g.1 + g.2 ≤ 256)
    (entry : Latch) (b : Byte) : latchedAt (f.goOn (f.latched ++ latchNow s x g) entry) b =
      (latchedAt f b).or (if g.1 ≤ b.toNat ∧ b.toNat < g.1 + g.2 then
        some ((windowByte s x b).resolve (s.draws + (b.toNat - g.1))) else none) := by
  rw [← latchNow_find s x g small b]
  exact latchedAt_append f.latched (latchNow s x g) _ f (f.goOn (latchNow s x g) entry) rfl rfl rfl b

theorem readsNextByte (frame : (s.port x).frame = some f) (live : f.ignored = false) (read : f.isRead = true) :
    ReadsNextByte s x f := by
  have serves {f' : Frame} {v : Byte} {draws : Nat} (e : serveByte x f s = byteServed s x f' v draws) :
      exec (.eventPop x .next) s = .next (byteServed s x f' v draws) := by
    rw [exec_nextRead, writing_read frame read, if_neg Bool.false_ne_true, shiftByte_serves frame live read, e]
  have goesOn (latched : List (Byte × Byte)) (entry : Latch) : f.goOn latched entry = { f with
      address := frameAddress f.address 1, latched, entry, evt5Read := f.evt5Read || f.address == 0x1E } := by
    rw [frameAddress_next]
    rfl
  cases latched : latchedAt f f.address with
  | some w =>
    refine ⟨_, _, w, serves (serveByte_latched s x latched), byteServed_frame _ _ _ _ _,
      byteServed_others _ _ _ _ _, byteServed_port _ _ _ _ _, goesOn _ _, fun w' hw => ?_, fun none => ?_⟩
    · rw [latched] at hw
      exact ⟨Option.some.inj hw, rfl, rfl⟩
    · rw [latched] at none
      cases none
  | none =>
    cases group : latchGroup f.address with
    | none =>
      have alone (b : Byte) : ¬ LatchedWith f.address b := by
        rw [latchedWith_iff]
        rintro ⟨g, some', -⟩
        rw [group] at some'
        cases some'
      refine ⟨_, _, _, serves (serveByte_plain s x latched group), byteServed_frame _ _ _ _ _,
        byteServed_others _ _ _ _ _, byteServed_port _ _ _ _ _, goesOn _ _, fun w' hw => ?_, fun _ => ?_⟩
      · rw [latched] at hw
        cases hw
      · refine ⟨resolve_agrees s x _ _, fun own => absurd own (alone _), fun _ _ hw => hw,
          fun b with' => absurd with' (alone b), fun _ _ => rfl, ?_⟩
        rw [if_neg fun events => alone _ (latchedWith_self_of_events events)]
        rfl
    | some g =>
      obtain ⟨member, inside⟩ := latchGroup_eq_some.1 group
      have after := latchedAt_goOn s x f g (latchGroups_small member)
        (if g.1 = 0x19 then Latch.take (s.queues.get x) else f.entry)
      have with' (b : Byte) : LatchedWith f.address b ↔ g.1 ≤ b.toNat ∧ b.toNat < g.1 + g.2 := by
        rw [latchedWith_iff, group]
        exact ⟨fun ⟨_, same, h⟩ => Option.some.inj same ▸ h, fun h => ⟨g, rfl, h⟩⟩
      refine ⟨_, _, _, serves (serveByte_latches s x latched group), byteServed_frame _ _ _ _ _,
        byteServed_others _ _ _ _ _, byteServed_port _ _ _ _ _, goesOn _ _, fun w' hw => ?_, fun _ => ?_⟩
      · rw [latched] at hw
        cases hw
      · refine ⟨resolve_agrees s x _ _, fun _ => ?_, fun b w hw => ?_, fun b together unlatched => ?_,
          fun b apart => ?_, ?_⟩
        · rw [after, latched, if_pos inside]
          rfl
        · rw [after, hw]
          rfl
        · rw [after, unlatched, if_pos ((with' b).1 together)]
          exact ⟨_, rfl, resolve_agrees s x b _⟩
        · rw [after, if_neg (mt (with' b).2 apart), Option.or_none]
        · show (if g.1 = 0x19 then Latch.take (s.queues.get x) else f.entry) = _
          by_cases events : g.1 = 0x19
          · rw [if_pos events, if_pos ((latchGroup_events group).2 events)]
            cases s.queues.get x <;> rfl
          · rw [if_neg events, if_neg (mt (latchGroup_events group).1 events)]

/-! ### The end (R155) -/

theorem popEntry_frame (x : Client) (entry : Latch) (s : State) :
    SameExcept [.queues] s (popEntry x entry s) := by
  intro p hp
  cases entry <;> cases p <;> first | rfl | exact ⟨rfl, rfl⟩ | exact absurd (by decide) hp

theorem popEntry_others (x : Client) (entry : Latch) (s : State) : OtherQueues x s (popEntry x entry s) := by
  intro y hy
  cases entry with
  | head e => exact PerClient.get_modify_ne _ _ hy
  | untaken | none | gone => rfl

theorem popEntry_keeps {entry : Latch} (no : ∀ e, entry ≠ .head e) (x : Client) (s : State) :
    popEntry x entry s = s := by
  cases entry with
  | head e => exact absurd rfl (no e)
  | untaken | none | gone => rfl

theorem endsRead (frame : (s.port x).frame = some f) (live : f.ignored = false) (read : f.isRead = true) :
    EndsRead s x f := by
  have ended : exec (.eventPop x .finish) s = .next (if f.evt5Read then
      popEntry x f.entry (s.withPort x fun p => { p with frame := none })
      else s.withPort x fun p => { p with frame := none }) := by
    rw [exec_finishRead, writing_read frame read, if_neg Bool.false_ne_true]
    unfold finishFrame
    rw [frame]
    dsimp only
    rw [if_neg (by rw [live]; decide), if_pos read]
  have closed := withPort_frame x (fun p => { p with frame := none }) s
  have port : (s.withPort x fun p => { p with frame := none }).port x = { s.port x with frame := none } :=
    State.withPort_port_self _ _ _
  have others : OtherPorts x s (s.withPort x fun p => { p with frame := none }) :=
    fun y hy => State.withPort_port_ne _ _ hy
  cases evt5 : f.evt5Read with
  | false =>
    rw [evt5, if_neg Bool.false_ne_true] at ended
    refine ⟨_, ended, closed.mono, others, fun y _ => rfl, port, fun e read' => ?_, fun _ => rfl⟩
    rw [evt5] at read'
    cases read'
  | true =>
    rw [evt5, if_pos rfl] at ended
    have pops := popEntry_frame x f.entry (s.withPort x fun p => { p with frame := none })
    refine ⟨_, ended, closed.mono.trans pops.mono, fun y hy => ?_, popEntry_others _ _ _, ?_,
      fun e _ head => ?_, fun keeps => ?_⟩
    · exact (congrArg (PerClient.get · y) pops.ports).trans (others y hy)
    · exact (congrArg (PerClient.get · x) pops.ports).trans port
    · rw [head]
      exact PerClient.get_modify_self _ _ _
    · rw [evt5] at keeps
      rw [popEntry_keeps (keeps.resolve_left (by decide))]
      rfl

/-! ### A DETACH in between (R171, log 25) -/

/-- Port A takes a request while a frame of another client is in progress. -/
theorem framed_ne_a (takes : portTakes s .a = true) (frame : (s.port x).frame = some f) : x ≠ .a := by
  rintro rfl
  obtain ⟨-, -, free⟩ := (portTakes_iff s .a).1 takes
  rw [free] at frame
  cases frame

theorem prepared_supervisor_port (other : x ≠ .a) (kind : Byte) (params : List Byte) (s : State) :
    (prepared .supervisor kind params s).port x = s.port x := State.withPort_port_ne s _ other

/-- A DETACH of a client that has a frame in progress resets the port but for the frame. -/
theorem detach_port {b : Byte} (takes : portTakes s .a = true) (hb : b.toNat = clientNumber x)
    (up : (s.port x).crstLow = false) (other : x ≠ .a) :
    ∃ t, exec (.detach .supervisor b) s = .next t ∧ t.port x = (s.port x).clientReset := by
  refine ⟨_, exec_detach_resets takes hb up, ?_⟩
  rw [answeredDone_other _ _ _ x other, clientReset_port, prepared_supervisor_port other]

theorem afterEmptying_ne_head (entry : Latch) (e : Entry) : entry.afterEmptying ≠ .head e := by
  cases entry <;> exact nofun

theorem clientReset_frame {p : Port} (frame : p.frame = some f) :
    p.clientReset.frame = some { f with entry := f.entry.afterEmptying } := by
  unfold Port.clientReset
  rw [frame]
  rfl

theorem readsInPieces (s : State) (x : Client) : ReadsInPieces s x := by
  refine ⟨fun takes start => readPieces takes start, fun f frame live read =>
    ⟨readsNextByte frame live read, endsRead frame live read, fun b takes hb up => ?_⟩⟩
  obtain ⟨t, run, port⟩ := detach_port takes hb up (framed_ne_a takes frame)
  exact ⟨t, _, run, by rw [port, clientReset_frame frame], afterEmptying_ne_head f.entry⟩

end Sys2Proof.Machine

namespace Sys2Proof.Proofs

open Sys2Proof.Machine

/-- Settles O15: frames in pieces, frames whole, and the views of both pages. -/
theorem readFramesShowRegisters : Obligations.ReadFramesShowRegisters := by
  refine ⟨readsInPieces, fun s x takes => ⟨fun a => readsStated takes, readsFrame takes,
    readsPortRegisters takes, readsLines takes, readsPending takes, readsGroups takes, ?_⟩⟩
  rintro rfl
  exact readsSupervisorPage takes

end Sys2Proof.Proofs
end

section
/-! PROOF. The head of the queue as EVT0 to EVT5 show and pop it, and the codes of events (R150, R154, R155,
R183). -/

set_option Elab.async false

namespace Sys2Proof.Machine

variable {s t : State} {x : Client} {start a b : Byte} {f : Frame}

/-! ### Bytes served from a latch -/

theorem frameAddress_after (a : Byte) (i : Nat) : frameAddress (nextAddress a) i = frameAddress a (i + 1) := by
  induction i with
  | zero => rw [frameAddress_zero, frameAddress_next]
  | succ i ih => rw [← frameAddress_succ, ih, frameAddress_succ]

/-- Bytes that are all latched are shown as they were latched, and nothing is drawn. -/
theorem shiftByte_foldl_latched (count : Nat) {values : Nat → Byte} (frame : (s.port x).frame = some f)
    (live : f.ignored = false) (read : f.isRead = true)
    (latched : ∀ i, i < count → latchedAt f (frameAddress f.address i) = some (values i)) :
    (((List.replicate count 0).foldl (shiftByte x) s).port x).miso =
      (s.port x).miso ++ (List.range count).map values := by
  induction count generalizing s f values with
  | zero => exact (List.append_nil _).symm
  | succ count ih =>
    have first := latched 0 (Nat.succ_pos count)
    rw [frameAddress_zero] at first
    rw [List.replicate_succ, List.foldl_cons, shiftByte_serves frame live read, serveByte_latched s x first,
      ih (f := f.goOn f.latched f.entry) (values := fun i => values (i + 1))
        (congrArg Port.frame (byteServed_port s x _ _ _)) live read fun i hi => ?_,
      byteServed_port, List.range_succ_eq_map]
    · simp [Function.comp_def]
    · have next := latched (i + 1) (Nat.succ_lt_succ hi)
      rw [← frameAddress_after] at next
      exact next

/-- The record of MISO after a whole read frame is that of its bytes. -/
theorem readFrame_miso {count : Nat} (takes : portTakes s x = true)
    (run : exec (.eventPop x (.frame start count)) s = .next t) : (t.port x).miso =
      (((List.replicate count 0).foldl (shiftByte x) (beginFrame x true 0x40 start s)).port x).miso := by
  obtain ⟨f0, begun, reading⟩ := beginFrame_reading start takes
  obtain ⟨f, bs, draws, e, h⟩ := shiftByte_foldl_read count s.draws reading
  obtain ⟨-, -, free⟩ := (portTakes_iff s x).1 takes
  rw [exec_readFrame] at run
  cases run
  have whole : wholeFrame x 0x40 start (List.replicate count 0) s = readDone s x (0 :: 0 :: bs) draws f.evt5Read := by
    unfold wholeFrame
    rw [if_neg (by rw [free]; decide), begun, e, finishFrame_read (draws := draws) h.live h.read h.entry]
  rw [whole, begun, e, midFrame_port]
  show ((midFrame s x none (0 :: 0 :: bs) draws).port x).miso = _
  rw [midFrame_port]

/-! ### The six event bytes -/

theorem windowByte_event (s : State) (x : Client) {i : Nat} (hi : i < 6) :
    windowByte s x (frameAddress 0x19 i) = eventByte (s.queues.get x).head? i := by
  interval_cases i <;> rfl

/-- The values of the six event bytes, at their free values. -/
def eventBytes (s : State) (x : Client) : List Byte :=
  (List.range 6).map fun i => (eventByte (s.queues.get x).head? i).resolve (s.draws + i)

theorem eventFrame_miso (takes : portTakes s x = true)
    (run : exec (.eventPop x (.frame 0x19 6)) s = .next t) :
    (t.port x).miso = 0 :: 0 :: eventBytes s x := by
  obtain ⟨f0, begun, reading⟩ := beginFrame_reading 0x19 takes
  obtain ⟨frame, others, port⟩ := beginFrame_takes takes 0x40 0x19 (.inl rfl)
  have window (a : Byte) : windowByte (beginFrame x true 0x40 0x19 s) x a = windowByte s x a := by
    rw [begun]
    exact midFrame_window s x _ _ _ a
  generalize hu : beginFrame x true 0x40 0x19 s = u at frame port window
  have started : (u.port x).frame = some ⟨false, true, 0x19, [], [], .untaken, false⟩ := by rw [port]; rfl
  have served := serveByte_latches u x (f := ⟨false, true, 0x19, [], [], .untaken, false⟩) (g := (0x19, 6)) rfl rfl
  rw [readFrame_miso takes run, hu, List.replicate_succ, List.foldl_cons, shiftByte_serves started rfl rfl, served,
    shiftByte_foldl_latched 5 (values := fun i =>
      (eventByte (s.queues.get x).head? (i + 1)).resolve (s.draws + (i + 1))) (by rw [byteServed_port]) rfl rfl
      fun i hi => ?_, byteServed_port, port]
  · rw [window, frame.draws]
    rfl
  · have place : frameAddress (nextAddress 0x19) i = frameAddress 0x19 (i + 1) := frameAddress_after 0x19 i
    have number : (frameAddress 0x19 (i + 1)).toNat = 0x19 + (i + 1) := by interval_cases i <;> rfl
    have after := latchedAt_goOn u x ⟨false, true, 0x19, [], [], .untaken, false⟩ (0x19, 6) (by decide)
      (Latch.take (u.queues.get x)) (frameAddress 0x19 (i + 1))
    rw [number, if_pos (by dsimp only; omega), window, windowByte_event s x (by omega), Nat.add_sub_cancel_left,
      frame.draws] at after
    exact (congrArg _ place).trans after

/-! ### The codes (R150, R183) -/

theorem groupBits_shown (g : Group) (level : Bool) :
    (byteOf g.val ||| 8 ||| 0 ||| bit level <<< 7) &&& (groupBits g level).1 = (groupBits g level).2 := by
  revert g level
  decide

theorem clientGroup_shown (g : Group) (y : Client) :
    (byteOf g.val ||| 8 ||| (clientBits y <<< 4 ||| 0x40) ||| bit false <<< 7) &&& 0xFF =
      BitVec.ofNat 8 (0x48 + 16 * clientNumber y + g.val) := by
  cases y <;> revert g <;> decide

theorem clientAlone_shown (y : Client) : (0 ||| (clientBits y <<< 4 ||| 0x40) ||| bit false <<< 7) &&& 0xF8 =
    BitVec.ofNat 8 (0x40 + 16 * clientNumber y) := by
  cases y <;> decide

theorem classByte_shown (cls : FaultClass) : cls.byte &&& 0xFF = (match cls with
    | .ownership => 1
    | .sequence => 2
    | .range => 3
    | .conflict => 4
    | .authority => 5) := by
  cases cls <;> decide

/-- EVT1 has a value in the bits of the code's mask, and it is the code. -/
theorem eventByte1_codes (e : Event) : (eventByte1 e).hole &&& (entryCodes e).2.1.1 = 0 ∧
    (eventByte1 e).value &&& (entryCodes e).2.1.1 = (entryCodes e).2.1.2 := by
  cases e with
  | granted g | lost g _ | revokeNotice g _ | revokeCancelled g | claimRefused g _ | restoreRefused g _
  | pendingDropped g => exact ⟨(by decide : ((0 : Byte) ||| 0x30) &&& 0xCF = 0), groupBits_shown g false⟩
  | inputEdge l lv | watchEdge l lv =>
    exact ⟨(by decide : ((0 : Byte) ||| 0x30) &&& 0xCF = 0), groupBits_shown (groupOf l) (lv == .high)⟩
  | mirrorResumed l asserted =>
    exact ⟨(by decide : ((0 : Byte) ||| 0x30) &&& 0xCF = 0), groupBits_shown (groupOf l) asserted⟩
  | pulseDone l | pulseCut l _ | mirrorHeld l =>
    exact ⟨(by decide : ((0 : Byte) ||| 0x30) &&& 0xCF = 0), groupBits_shown (groupOf l) false⟩
  | groupState g st holder =>
    cases holder with
    | none => exact ⟨(by decide : ((0 : Byte) ||| 0x30) &&& 0xCF = 0), groupBits_shown g false⟩
    | some y => exact ⟨(by decide : ((0 : Byte) ||| 0) &&& 0xFF = 0), clientGroup_shown g y⟩
  | pendingDone _ | pendingFailed _ _ | pendingTimeout _ | overflow =>
    exact ⟨(by decide : ((0x07 : Byte) ||| 0x30) &&& 0xC8 = 0),
      (by decide : ((0 : Byte) ||| 0 ||| bit false <<< 7) &&& 0xC8 = 0)⟩
  | fault cls code kind => exact ⟨(by decide : (0 : Byte) &&& 0xFF = 0), classByte_shown cls⟩
  | audit y occurrence group =>
    cases group with
    | some g => exact ⟨(by decide : ((0 : Byte) ||| 0) &&& 0xFF = 0), clientGroup_shown g y⟩
    | none => exact ⟨(by decide : ((0x07 : Byte) ||| 0) &&& 0xF8 = 0), clientAlone_shown y⟩

theorem eventByte2_codes (e : Event) : eventByte2 e = plain (entryCodes e).2.2.1 := by
  cases e with
  | groupState g st holder => cases holder <;> rfl
  | pendingDone l | pendingFailed l _ => cases l <;> rfl
  | granted | lost | revokeNotice | revokeCancelled | claimRefused | restoreRefused | pendingDropped | inputEdge
  | watchEdge | mirrorResumed | pulseDone | pulseCut | mirrorHeld | pendingTimeout | overflow | fault | audit => rfl

theorem eventByte3_codes (e : Event) (reason : Byte) (h : (entryCodes e).2.2.2 = some reason) :
    eventByte3 e = plain reason := by
  cases e with
  | lost g r | claimRefused g r | restoreRefused g r | pulseCut l r | pendingFailed l r =>
    cases r <;> (cases h; rfl)
  | groupState g st holder => cases holder <;> cases st <;> (cases h; rfl)
  | audit y occurrence group => cases occurrence <;> (cases h; rfl)
  | revokeNotice | pendingDropped | fault => cases h; rfl
  | granted | revokeCancelled | inputEdge | watchEdge | mirrorResumed | pulseDone | mirrorHeld | pendingDone
  | pendingTimeout | overflow => cases h

theorem kindByte_codes (e : Event) : e.kindByte = (entryCodes e).1 := by
  cases e with
  | groupState g st holder => cases holder <;> rfl
  | granted | lost | revokeNotice | revokeCancelled | claimRefused | restoreRefused | pendingDropped | inputEdge
  | watchEdge | mirrorResumed | pulseDone | pulseCut | mirrorHeld | pendingTimeout | overflow | fault | audit
  | pendingDone | pendingFailed => rfl

theorem plain_resolve (v : Byte) (n : Nat) : (plain v).resolve n = v := if_pos rfl

/-- The six bytes of the head of the queue show it. -/
theorem eventBytes_show {e : Entry} {q : List Entry} (head : s.queues.get x = e :: q) :
    ShowsEntry e (eventBytes s x) := by
  obtain ⟨stated, shown⟩ := eventByte1_codes e.event
  have window : windowByte s x (frameAddress 0x19 1) = eventByte1 e.event := by
    rw [windowByte_event s x (by decide), head]
    rfl
  have agrees := resolve_agrees s x (frameAddress 0x19 1) (s.draws + 1)
  unfold Agrees at agrees
  rw [window] at agrees
  refine ⟨(eventByte1 e.event).resolve (s.draws + 1), (eventByte3 e.event).resolve (s.draws + 3), ?_,
    (and_of_agrees agrees stated).trans shown, fun reason h => by
      rw [eventByte3_codes e.event reason h, plain_resolve]⟩
  unfold eventBytes
  rw [head, ← kindByte_codes]
  show [(plain _).resolve _, _, (eventByte2 e.event).resolve _, _, (plain _).resolve _, (plain _).resolve _] = _
  rw [eventByte2_codes, plain_resolve, plain_resolve, plain_resolve, plain_resolve]
  rfl

/-! ### The frames -/

theorem agrees_plain {v : Byte} (agrees : Agrees s x a b) (window : windowByte s x a = plain v) : b = v := by
  have whole : ~~~(plain v).hole = BitVec.allOnes 8 := BitVec.not_zero
  unfold Agrees at agrees
  rwa [window, whole, BitVec.and_allOnes, BitVec.and_allOnes] at agrees

theorem evt5_reads : ∀ n, n < 6 → ∀ i, i < n → frameAddress 0x19 i ≠ (0x1E : Byte) := by
  intro n hn i hi
  have : i < 5 := by omega
  interval_cases i <;> decide

/-- A frame of EVT0 to EVT5 on a queue with an entry. -/
theorem popsHead {e : Entry} {q : List Entry} (takes : portTakes s x = true) (head : s.queues.get x = e :: q) :
    ∃ t bs, exec (.eventPop x (.frame 0x19 6)) s = .next t ∧
      SameExcept [.ports, .queues, .draws] s t ∧ t.queues.get x = q ∧ OtherQueues x s t ∧
      OtherPorts x s t ∧ t.port x = { s.port x with miso := 0 :: 0 :: bs } ∧ ShowsEntry e bs ∧
      bs = (List.range 6).map fun i => (eventByte (some e) i).resolve (s.draws + i) := by
  obtain ⟨t, bs, run, frame, others, queues, port, -, -, pops, -⟩ := readsFrame takes 0x19 6
  have miso := eventFrame_miso takes run
  rw [port] at miso
  obtain rfl : bs = eventBytes s x := by simpa using miso
  refine ⟨t, _, run, frame, ?_, queues, others, port, eventBytes_show head, ?_⟩
  · rw [pops ⟨5, by decide, by decide⟩, head]
    rfl
  · unfold eventBytes
    rw [head]
    rfl

/-- A frame of EVT5 alone on a queue with an entry. -/
theorem popsByEvt5 {e : Entry} {q : List Entry} (takes : portTakes s x = true) (head : s.queues.get x = e :: q) :
    ∃ t, exec (.eventPop x (.frame 0x1E 1)) s = .next t ∧
      SameExcept [.ports, .queues, .draws] s t ∧ t.queues.get x = q ∧ OtherQueues x s t ∧
      OtherPorts x s t ∧ t.port x = { s.port x with miso := [0, 0, e.stamp.extractLsb' 0 8] } := by
  obtain ⟨t, bs, run, frame, others, queues, port, length, shown, pops, -⟩ := readsFrame takes 0x1E 1
  obtain ⟨b, rfl⟩ := List.length_eq_one_iff.1 length
  have window : windowByte s x (frameAddress 0x1E 0) = plain (lowByte e.stamp) := by
    show eventByte (s.queues.get x).head? 5 = _
    rw [head]
    rfl
  obtain rfl : b = lowByte e.stamp := agrees_plain (shown 0 (by decide)) window
  refine ⟨t, run, frame, ?_, queues, others, port⟩
  rw [pops ⟨0, by decide, by decide⟩, head]
  rfl

/-- On an empty queue the event bytes read zero. -/
theorem readsNone {count : Nat} (takes : portTakes s x = true) (empty : s.queues.get x = [])
    (zeros : ∀ i, i < count → windowByte s x (frameAddress start i) = plain 0) :
    ∃ t, exec (.eventPop x (.frame start count)) s = .next t ∧ SameExcept [.ports, .draws] s t ∧
      OtherPorts x s t ∧ t.port x = { s.port x with miso := List.replicate (count + 2) 0 } := by
  obtain ⟨t, bs, run, frame, others, port, length, shown⟩ := readsFrame_keeps takes start count (.inr empty)
  obtain rfl : bs = List.replicate count 0 := List.eq_replicate_iff.2 ⟨length, fun b hb => by
    obtain ⟨i, hi, rfl⟩ := List.mem_iff_getElem.1 hb
    rw [length] at hi
    have := agrees_plain (shown i hi) (zeros i hi)
    rwa [List.getD_eq_getElem] at this⟩
  exact ⟨t, run, frame, others, port⟩

end Sys2Proof.Machine

namespace Sys2Proof.Proofs

open Sys2Proof.Machine

/-- Settles O13: the codes, then the frames that show the head, those on an empty queue, and the short ones. -/
theorem eventFramesPop : Obligations.EventFramesPop := by
  refine ⟨⟨rfl, rfl, rfl, rfl, rfl, rfl, rfl, rfl, rfl, rfl, rfl, rfl, rfl, rfl, rfl, rfl, rfl, rfl⟩,
    fun s x takes => ⟨fun e q head => ⟨popsHead takes head, popsByEvt5 takes head⟩, fun empty => ⟨?_, ?_⟩,
    fun n hn => ?_⟩⟩
  · refine readsNone takes empty fun i hi => ?_
    rw [windowByte_event s x hi, empty]
    rfl
  · refine readsNone takes empty fun i hi => ?_
    obtain rfl : i = 0 := by omega
    show eventByte (s.queues.get x).head? 5 = _
    rw [empty]
    rfl
  · obtain ⟨t, bs, run, frame, others, port, -⟩ := readsFrame_keeps takes 0x19 n (.inl (evt5_reads n hn))
    exact ⟨t, run, frame, others, by rw [port]⟩

end Sys2Proof.Proofs
end

section
/-! PROOF. No request makes a frame: a port whose CS is high stays so through every request (R175). -/

set_option Elab.async false

namespace Sys2Proof.Machine

variable {s t u : State} {x y : Client} {ps : List Part}

/-! ### Ports without a frame -/

/-- A port that has no frame in progress has none afterwards. -/
def StaysFree (x : Client) (s t : State) : Prop := (s.port x).frame = none → (t.port x).frame = none

theorem StaysFree.refl (s : State) : StaysFree x s s := id

theorem StaysFree.trans (h1 : StaysFree x s t) (h2 : StaysFree x t u) : StaysFree x s u := fun h => h2 (h1 h)

theorem StaysFree.of_frame (f : SameExcept ps s t) (ports : Part.ports ∉ ps := by decide) : StaysFree x s t :=
  fun free => (congrArg (fun ports => (PerClient.get ports x).frame) (f.ports ports)).trans free

theorem StaysFree.ite {c : Prop} [Decidable c] (h1 : StaysFree x s t) (h2 : StaysFree x s u) :
    StaysFree x s (if c then t else u) := by
  split
  · exact h1
  · exact h2

theorem StaysFree.withPort (f : Port → Port) (frame : ∀ p, (f p).frame = p.frame) (s : State) :
    StaysFree x s (s.withPort y f) := by
  intro free
  by_cases same : x = y
  · subst same
    rw [State.withPort_port_self, frame, free]
  · rw [State.withPort_port_ne s f same, free]

/-- A client reset leaves the ports of the others. -/
theorem clientReset_otherPorts (y : Client) (s : State) : OtherPorts y s (clientResetTransaction y s) := by
  have steps : SameExcept [.queues, .lease, .active, .drivers, .park, .deferred] s
      (groups.foldl (removeClaim y) (groups.foldl (releaseIfHeld y) (beginReset y s))) :=
    ((beginReset_spec y s).1.mono.trans
      (SameExcept.foldl (releaseIfHeld y) (fun t g => releaseIfHeld_frame y t g) groups _).mono).trans
      (SameExcept.foldl (removeClaim y) (fun t g => removeClaim_frame y t g) groups _).mono
  intro z hz
  rw [clientReset_begin]
  refine (PerClient.get_modify_ne _ _ hz).trans ?_
  rw [steps.ports]
  rfl

theorem StaysFree.clientReset (x y : Client) (s : State) : StaysFree x s (clientResetTransaction y s) := by
  intro free
  have quiet := clientReset_port y s
  by_cases same : x = y
  · subst same
    rw [quiet]
    unfold Port.clientReset
    rw [free]
    rfl
  · rw [clientReset_otherPorts y s x same, free]

/-! ### The requests through a client page -/

theorem withGroup_free {b : Byte} {body : Group → Taken} (h : ∀ g, StaysFree x s (body g).1) :
    StaysFree x s (withGroup b s body).1 := by
  unfold withGroup
  split
  · exact h _
  · exact .refl s

theorem takeClaim_free (g : Group) (y : Client) (prio : Priority) (wait preempt restore : Bool) (s : State) :
    StaysFree x s (takeClaim g y prio wait preempt restore s).1 := by
  have queued : StaysFree x s (queueClaim g y prio preempt restore s) := .of_frame (queueClaim_frame _ _ _ _ _ s)
  unfold takeClaim
  dsimp only
  split
  · exact .of_frame (grantFromSafe_frame _ _ _ _ s)
  · split
    · exact queued.trans (.of_frame (startRevocation_frame _ _))
    · split
      · exact queued
      · exact .refl s
  · split
    · exact queued
    · exact .refl s
  · exact .refl s

theorem claimRequest_free (y : Client) (b f : Byte) (s : State) : StaysFree x s (claimRequest y b f s).1 := by
  refine withGroup_free fun g => ?_
  dsimp only
  split
  · exact .refl s
  · split
    · exact .refl s
    · split
      · exact .refl s
      · split
        · exact .refl s
        · exact takeClaim_free _ _ _ _ _ _ s

theorem releaseRequest_free (y : Client) (b : Byte) (s : State) : StaysFree x s (releaseRequest y b s).1 := by
  refine withGroup_free fun g => ?_
  split
  · exact .of_frame (releaseGroup_frame g y false s)
  · exact .refl s

theorem renewRequest_free (y : Client) (b : Byte) (s : State) : StaysFree x s (renewRequest y b s).1 := by
  refine withGroup_free fun g => ?_
  split
  · exact .refl s
  · split
    · exact .refl s
    · exact .of_frame (withEntry_frame g _ s)

theorem withdrawRequest_free (y : Client) (b : Byte) (s : State) : StaysFree x s (withdrawRequest y b s).1 := by
  refine withGroup_free fun g => ?_
  split
  · exact (StaysFree.of_frame (dropClaim_frame g y s)).trans (.of_frame (reevaluate_frame g _))
  · exact .refl s

theorem stageRequest_free (y : Client) (b : Byte) (rb : RecordBytes) (s : State) :
    StaysFree x s (stageRequest y b rb s).1 := by
  unfold stageRequest
  split
  · exact .refl s
  · split
    · exact .refl s
    · exact .of_frame (withStaged_frame _ s)

theorem commitRequest_free (y : Client) (set : Byte) (s : State) : StaysFree x s (commitRequest y set s).1 := by
  unfold commitRequest
  dsimp only
  split
  · exact .refl s
  · split
    · exact .refl s
    · split
      · exact .refl s
      · exact .refl s
      · exact .of_frame (apply_frame _ _ s)

theorem exchangeRequest_free (y : Client) (b : Byte) (s : State) : StaysFree x s (exchangeRequest y b s).1 := by
  refine withGroup_free fun g => ?_
  split
  · exact .refl s
  · dsimp only
    split
    · exact .refl s
    · exact .refl s
    · exact (StaysFree.of_frame (apply_frame _ _ s)).trans (.of_frame (stageActive_frame y g s.active _))

theorem watchRequest_free (y : Client) (b e : Byte) (s : State) : StaysFree x s (watchRequest y b e s).1 := by
  refine withGroup_free fun g => ?_
  split
  · exact .refl s
  · exact .of_frame (withWatch_frame _ s)

theorem unwatchRequest_free (y : Client) (b : Byte) (s : State) : StaysFree x s (unwatchRequest y b s).1 := by
  refine withGroup_free fun g => ?_
  split
  · exact .of_frame (withWatch_frame _ s)
  · exact .refl s

theorem deferRequest_free (y : Client) (set kind line target : Byte) (timeout delay : Word16) (s : State) :
    StaysFree x s (deferRequest y set kind line target timeout delay s).1 := by
  unfold deferRequest
  dsimp only
  split
  · exact .refl s
  · split
    · exact .refl s
    · split
      · exact .refl s
      · split
        · exact .refl s
        · have made {d} : StaysFree x s { s with deferred := s.deferred.put y (some d) } :=
            .of_frame (withDeferred_frame _ s)
          exact .ite (made.trans (.of_frame (applyDeferred_frame y _))) made

theorem cancelRequest_free (y : Client) (s : State) : StaysFree x s (cancelRequest y s).1 := by
  unfold cancelRequest
  split
  · exact .of_frame (withDeferred_frame _ s)
  · exact .refl s

theorem takeClientKind_free (k : Kind) (y : Client) (p : Nat → Byte) (s : State) :
    StaysFree x s (takeClientKind k y p s).1 := by
  unfold takeClientKind
  dsimp only
  split
  · exact claimRequest_free y _ _ s
  · exact releaseRequest_free y _ s
  · exact renewRequest_free y _ s
  · exact withdrawRequest_free y _ s
  · exact stageRequest_free y _ _ s
  · exact withGroup_free fun g => .of_frame (stageActive_frame y g s.active s)
  · exact commitRequest_free y _ s
  · exact exchangeRequest_free y _ s
  · exact watchRequest_free y _ _ s
  · exact unwatchRequest_free y _ s
  · exact deferRequest_free y _ _ _ _ _ _ s
  · exact cancelRequest_free y s
  · exact .clientReset x y s
  · exact .refl s

/-! ### The requests through the supervisor page -/

theorem withholdRequest_free (b : Byte) (s : State) : StaysFree x s (withholdRequest b s).1 := by
  refine withGroup_free fun g => ?_
  change StaysFree x s (closeGroup g s)
  unfold closeGroup
  split
  · exact .refl s
  · exact .of_frame (fallToSafe_frame g _ _ s)
  · exact .of_frame (forcedLoss_frame g _ s)
  · exact .of_frame (forcedLoss_frame g _ s)

theorem openRequest_free (b : Byte) (s : State) : StaysFree x s (openRequest b s).1 := by
  refine withGroup_free fun g => ?_
  split
  · exact (StaysFree.of_frame (withEntry_frame g _ s)).trans (.of_frame (notifyWatchers_frame g _))
  · exact .refl s

theorem setPriorityRequest_free (a b c : Byte) (s : State) : StaysFree x s (setPriorityRequest a b c s).1 := by
  unfold setPriorityRequest
  split
  · next g y p _ _ _ =>
    have stored : StaysFree x s (s.withPolicy g fun q => { q with priority := q.priority.put y p }) :=
      .of_frame (withPolicy_frame g _ s)
    exact .ite (stored.trans (.of_frame (removeIneligible_frame g y _))) stored
  · exact .refl s

theorem setPolicyRequest_free (a b : Byte) (v w : Word16) (s : State) :
    StaysFree x s (setPolicyRequest a b v w s).1 := by
  unfold setPolicyRequest
  split
  · exact .of_frame (withPolicy_frame _ _ s)
  · exact .refl s

theorem safeUpdate_free (l : Line) (r : Record) (s : State) : StaysFree x s (safeUpdate l r s) :=
  fun free => StaysFree.of_frame (reportDeassertions_frame (asserted s) _) (by decide) free

theorem setSafeRequest_free (b : Byte) (rb : RecordBytes) (s : State) :
    StaysFree x s (setSafeRequest b rb s).1 := by
  unfold setSafeRequest
  split
  · exact .refl s
  · next l _ =>
    split
    · exact .refl s
    · next r _ =>
      split
      · exact .refl s
      · exact .refl s
      · split
        · exact .refl s
        · have stored : StaysFree x s (storeSafe l r s) := .of_frame (storeSafe_frame l r s)
          exact .ite (stored.trans (safeUpdate_free l r _)) stored

theorem setPairRequest_free (i a b : Byte) (s : State) : StaysFree x s (setPairRequest i a b s).1 := by
  unfold setPairRequest
  split
  · dsimp only
    split
    · exact .refl s
    · split
      · exact .refl s
      · split
        · exact .refl s
        · split
          · exact .refl s
          · exact .of_frame (writePair_frame _ _ s)
  · exact .refl s

theorem clearPairRequest_free (b : Byte) (s : State) : StaysFree x s (clearPairRequest b s).1 := by
  unfold clearPairRequest
  split
  · exact .refl s
  · split
    · exact .refl s
    · exact (StaysFree.of_frame (withPairs_frame _ s)).trans (.of_frame (reevaluatePair_frame _ _))

theorem setAuditRequest_free (b : Byte) (s : State) : StaysFree x s (setAuditRequest b s).1 := by
  unfold setAuditRequest
  split
  · exact .refl s
  · exact .of_frame (withAudit_frame _ s)

theorem detachRequest_free (b : Byte) (s : State) : StaysFree x s (detachRequest b s).1 := by
  unfold detachRequest
  split
  · exact .refl s
  · exact .ite (.refl s) (.clientReset x _ s)

theorem takeSupervisorKind_free (k : Kind) (p : Nat → Byte) (s : State) :
    StaysFree x s (takeSupervisorKind k p s).1 := by
  unfold takeSupervisorKind
  dsimp only
  split
  · exact withGroup_free fun g => .of_frame (forcedLoss_frame g .forced s)
  · exact withholdRequest_free _ s
  · exact openRequest_free _ s
  · exact setPriorityRequest_free _ _ _ s
  · exact setPolicyRequest_free _ _ _ _ s
  · exact setSafeRequest_free _ _ s
  · exact setPairRequest_free _ _ _ s
  · exact clearPairRequest_free _ s
  · exact setAuditRequest_free _ s
  · exact detachRequest_free _ s
  · exact .refl s

/-! ### The end of a frame -/

/-- The issue of a request, whatever comes of it. -/
theorem issue_free (page : Page) (s : State) : StaysFree x s (issue page s) := by
  have taken (kind : Byte) : StaysFree x s (takeRequest page kind s).1 := by
    unfold takeRequest
    split
    · exact .refl s
    · exact takeClientKind_free _ _ _ s
    · exact takeSupervisorKind_free _ _ s
  unfold issue answer writeResult
  dsimp only
  exact ((taken _).trans (.of_frame (reportRefusal_frame _ _ _ _))).trans (.withPort _ (by intro p; rfl) _)

theorem takeWrites_free (y : Client) (ws : List (Byte × Byte)) (s : State) :
    StaysFree x s (takeWrites y ws s) := by
  have stored : StaysFree x s (ws.foldl (writeRegister y) s) := by
    intro free
    obtain ⟨-, others, port, -⟩ := StoresBytes.writes s y ws
    by_cases same : x = y
    · subst same
      rw [port]
      exact free
    · rw [others x same]
      exact free
  unfold takeWrites
  dsimp only
  exact .ite (stored.trans (issue_free _ _)) (.ite (stored.trans (issue_free _ _)) stored)

/-- CS is high after its rise (R175). -/
theorem finishFrame_free (x : Client) (whole : Bool) (s : State) : ((finishFrame x whole s).port x).frame = none := by
  have closed : ((s.withPort x fun p => { p with frame := none }).port x).frame = none := by
    rw [State.withPort_port_self]
  unfold finishFrame
  split
  · next none => exact none
  · next f _ =>
    dsimp only
    split
    · exact closed
    · split
      · split
        · exact StaysFree.of_frame (popEntry_frame x f.entry _) (by decide) closed
        · exact closed
      · split
        · exact takeWrites_free x f.buffer _ closed
        · exact closed

end Sys2Proof.Machine
end

section
/-! PROOF. Write frames: what they store, whole and in pieces, and the request they then issue (R175, R177 to
R180). -/

set_option Elab.async false

namespace Sys2Proof.Machine

variable {s t u : State} {x : Client} {start a v kind : Byte} {data : List Byte} {f : Frame}
  {w : Byte → Option Byte}

/-! ### Whole frames -/

theorem exec_writeFrame (x : Client) (start : Byte) (data : List Byte) (s : State) :
    exec (.registerWrite x (.frame start data)) s = .next (wholeFrame x 0x80 start data s) := rfl

theorem exec_frame_takes (takes : portTakes s x = true) (start : Byte) (data : List Byte) :
    exec (.registerWrite x (.frame start data)) s =
      .next (takeWrites x (bufferOf start data) (misoZeros x (data.length + 2) s)) :=
  congrArg Host.Outcome.next (wholeFrame_write x start data s takes)

theorem misoZeros_misoZeros (x : Client) (m n : Nat) (s : State) :
    misoZeros x n (misoZeros x m s) = misoZeros x n s := setMiso_setMiso x _ _ s

/-- Two records of zeros: only their lengths differ. -/
theorem misoZeros_again (x : Client) (m n : Nat) (s : State) :
    SameButMiso (misoZeros x m s) (misoZeros x n s) x n := by
  rw [← misoZeros_misoZeros x m n s]
  exact misoZeros_same x n _

/-- A frame that writes no kind register stores its bytes, and that is all. -/
theorem exec_frame_plain (takes : portTakes s x = true)
    (plain : ∀ i, i < data.length → frameAddress start i ≠ 0x04 ∧ (x = .a → frameAddress start i ≠ 0x81)) :
    exec (.registerWrite x (.frame start data)) s =
      .next (misoZeros x (data.length + 2) ((bufferOf start data).foldl (writeRegister x) s)) := by
  have stored := takeWrites_plain start 0 data (misoZeros x (data.length + 2) s)
    (by simpa only [Nat.zero_add] using plain)
  rw [frameAddress_zero] at stored
  rw [exec_frame_takes takes, stored, misoZeros_eq, writeRegisters_setMiso]
  rfl

theorem exec_byte_plain (takes : portTakes s x = true) (client : a ≠ 0x04) (supervisor : x = .a → a ≠ 0x81) (v : Byte) :
    exec (.registerWrite x (.frame a [v])) s = .next (misoZeros x 3 (writeRegister x s (a, v))) := by
  refine exec_frame_plain takes fun i hi => ?_
  obtain rfl : i = 0 := by simpa using hi
  rw [frameAddress_zero]
  exact ⟨client, supervisor⟩

/-! ### One register (R179, R180) -/

/-- A byte that a register of the port's own half takes. -/
theorem storesOwn {g : Port → Port} (takes : portTakes s x = true) (client : a ≠ 0x04)
    (supervisor : x = .a → a ≠ 0x81) (stores : writeRegister x s (a, v) = s.withPort x g) :
    ∃ t, exec (.registerWrite x (.frame a [v])) s = .next t ∧ SameExcept [.ports] s t ∧ OtherPorts x s t ∧
      t.port x = { g (s.port x) with miso := [0, 0, 0] } := by
  refine ⟨_, exec_byte_plain takes client supervisor v, ?_, fun y hy => ?_, ?_⟩
  · rw [stores]
    exact (withPort_frame x g s).trans (misoZeros_frame x 3 _)
  · rw [stores]
    exact (State.withPort_port_ne _ _ hy).trans (State.withPort_port_ne _ _ hy)
  · rw [stores]
    rw [misoZeros_eq, setMiso_port, State.withPort_port_self]
    rfl

/-- An address that holds no writable register of the port discards its byte. -/
theorem writeRegister_discards (h : a.toNat < 0x04 ∨ 0x15 ≤ a.toNat ∧ a.toNat < 0x1F ∨
      0x21 ≤ a.toNat ∧ a.toNat < 0x3D ∨ 0x3E ≤ a.toNat ∧ a.toNat < 0x43 ∨ 0x44 ≤ a.toNat)
    (page : x = .a → a.toNat < 0x80 ∨ 0x92 ≤ a.toNat) (s : State) (v : Byte) :
    writeRegister x s (a, v) = s := by
  unfold writeRegister
  dsimp only
  rw [if_neg (by omega), dif_neg (by omega), if_neg (by omega), if_neg (by omega), if_neg (by omega),
    if_neg (by omega), if_neg fun c => ?_, if_neg fun c => ?_, dif_neg fun c => ?_]
  · have := page c.1; omega
  · have := page c.1; omega
  · have := page c.1; omega

theorem storesNone (takes : portTakes s x = true) (discards : writeRegister x s (a, v) = s) (client : a ≠ 0x04)
    (supervisor : x = .a → a ≠ 0x81) :
    ∃ t, exec (.registerWrite x (.frame a [v])) s = .next t ∧ SameExcept [.ports] s t ∧ OtherPorts x s t ∧
      t.port x = { s.port x with miso := [0, 0, 0] } :=
  storesOwn (g := id) takes client supervisor (discards.trans (withPort_id s x id rfl).symm)

theorem storesGroupSel (takes : portTakes s x = true) (v : Byte) :
    ∃ t, exec (.registerWrite x (.frame 0x80 [v])) s = .next t ∧ SameExcept [.ports, .groupSel] s t ∧
      OtherPorts x s t ∧ t.port x = { s.port x with miso := [0, 0, 0] } ∧
      t.groupSel = if x = .a then Fin.ofNat 8 v.toNat else s.groupSel := by
  by_cases isA : x = .a
  · subst isA
    refine ⟨_, exec_byte_plain takes (by decide) (fun _ => by decide) v, fun p hp => ?_,
      fun y hy => State.withPort_port_ne _ _ hy, State.withPort_port_self _ _ _, (if_pos rfl).symm⟩
    cases p <;> first | rfl | exact ⟨rfl, rfl⟩ | exact absurd (by decide) hp
  · obtain ⟨t, run, frame, others, port⟩ := storesNone (v := v) takes
      (writeRegister_discards (a := 0x80) (by decide) (fun here => absurd here isA) s v) (by decide)
      fun here => absurd here isA
    exact ⟨t, run, frame.mono, others, port, by rw [if_neg isA, frame.groupSel]⟩

theorem param_address : ∀ i : Fin 16, BitVec.ofNat 8 (0x05 + i.val) ≠ (0x04 : Byte) ∧
    BitVec.ofNat 8 (0x05 + i.val) ≠ (0x81 : Byte) ∧ BitVec.ofNat 8 (0x82 + i.val) ≠ (0x04 : Byte) ∧
    BitVec.ofNat 8 (0x82 + i.val) ≠ (0x81 : Byte) := by
  decide

theorem storesParam (takes : portTakes s x = true) (i : Fin 16) (v : Byte) :
    ∃ t, exec (.registerWrite x (.frame (BitVec.ofNat 8 (0x05 + i.val)) [v])) s = .next t ∧
      SameExcept [.ports] s t ∧ OtherPorts x s t ∧
      t.port x = { s.port x with reqParam := (t.port x).reqParam, miso := [0, 0, 0] } ∧
      ∀ j, (t.port x).reqParam.get j = if j = i then v else (s.port x).reqParam.get j := by
  obtain ⟨client, supervisor, -, -⟩ := param_address i
  obtain ⟨t, run, frame, others, port⟩ := storesOwn takes client (fun _ => supervisor) (writeRegister_param x s i.val i.isLt v)
  refine ⟨t, run, frame, others, by rw [port], fun j => ?_⟩
  rw [port]
  refine (Table.get_put _ i j v).trans ?_
  rw [if_congr eq_comm rfl rfl]

theorem storesSupervisorParam (takes : portTakes s .a = true) (i : Fin 16) (v : Byte) :
    ∃ t, exec (.registerWrite .a (.frame (BitVec.ofNat 8 (0x82 + i.val)) [v])) s = .next t ∧
      SameExcept [.ports, .sreq] s t ∧ OtherPorts .a s t ∧
      t.port .a = { s.port .a with miso := [0, 0, 0] } ∧ t.sreqKind = s.sreqKind ∧
      ∀ j, t.sreqParam.get j = if j = i then v else s.sreqParam.get j := by
  obtain ⟨-, -, client, supervisor⟩ := param_address i
  have run := exec_byte_plain takes client (fun _ => supervisor) v
  rw [writeRegister_sparam s i.val i.isLt v] at run
  refine ⟨_, run, fun p hp => ?_, fun y hy => State.withPort_port_ne _ _ hy, State.withPort_port_self _ _ _, rfl,
    fun j => ?_⟩
  · cases p <;> first | rfl | exact ⟨rfl, rfl⟩ | exact absurd (by decide) hp
  · refine (Table.get_put _ i j v).trans ?_
    rw [if_congr eq_comm rfl rfl]

/-! ### Several registers (R177) -/

/-- What is written leaves a port that takes frames one that does. -/
theorem StoresBytes.takes (h : StoresBytes s u x w) (takes : portTakes s x = true) : portTakes u x = true := by
  rw [portTakes_iff] at *
  obtain ⟨f, -, port, -⟩ := h
  rw [f.resetLow, port]
  exact takes

theorem portTakes_misoZeros (x : Client) (n : Nat) (s : State) (takes : portTakes s x = true) :
    portTakes (misoZeros x n s) x = true := by
  rw [portTakes_iff] at *
  rw [(misoZeros_frame x n s).resetLow, misoZeros_eq, setMiso_port]
  exact takes

/-- Byte after byte: the first, then the rest, each at its own address. -/
theorem storesInTurn {vs : List Byte} (takes : portTakes s x = true)
    (plain : ∀ i, i ≤ vs.length → frameAddress a i ≠ 0x04 ∧ (x = .a → frameAddress a i ≠ 0x81)) :
    ∃ first rest t, exec (.registerWrite x (.frame a [v])) s = .next first ∧
      exec (.registerWrite x (.frame (frameAddress a 1) vs)) first = .next rest ∧
      exec (.registerWrite x (.frame a (v :: vs))) s = .next t ∧ SameExcept [.ports] rest t ∧
      OtherPorts x rest t ∧ t.port x = { rest.port x with miso := List.replicate (vs.length + 3) 0 } := by
  obtain ⟨client, supervisor⟩ := plain 0 (Nat.zero_le _)
  rw [frameAddress_zero] at client supervisor
  have first := exec_byte_plain takes client supervisor v
  have stored : portTakes (misoZeros x 3 (writeRegister x s (a, v))) x = true :=
    portTakes_misoZeros x 3 _ ((StoresBytes.writes s x [(a, v)]).takes takes)
  have rest := exec_frame_plain (start := frameAddress a 1) (data := vs) stored fun i hi => by
    rw [frameAddress_next, frameAddress_after]
    exact plain (i + 1) hi
  have all := exec_frame_plain (start := a) (data := v :: vs) takes fun i hi =>
    plain i (Nat.le_of_lt_succ (by simpa using hi))
  refine ⟨_, _, _, first, rest, all, ?_⟩
  rw [misoZeros_eq x 3, writeRegisters_setMiso, ← misoZeros_eq x 3, misoZeros_misoZeros, frameAddress_next]
  exact misoZeros_again x _ _ _

/-! ### The request that a frame issues (R178) -/

/-- A frame of REQ_KIND alone, of the kind that the register holds. -/
theorem kindFrame_client (takes : portTakes u x = true) (stored : (u.port x).reqKind = kind) :
    exec (.registerWrite x (.frame 0x04 [kind])) u = .next (misoZeros x 3 (issue (.client x) u)) := by
  have same : u.withPort x (fun p => { p with reqKind := kind }) = u := withPort_id u x _ (by rw [← stored])
  have taken : takeWrites x [(0x04, kind)] u = issue (.client x) (u.withPort x fun p => { p with reqKind := kind }) :=
    rfl
  rw [exec_frame_takes takes, misoZeros_eq]
  refine congrArg Host.Outcome.next ((takeWrites_setMiso _ _ u x).trans ?_)
  show setMiso x _ (takeWrites x [(0x04, kind)] u) = _
  rw [taken, same]
  rfl

/-- A frame of SREQ_KIND alone, of the kind that the register holds. -/
theorem kindFrame_supervisor (takes : portTakes u .a = true) (stored : u.sreqKind = kind) :
    exec (.registerWrite .a (.frame 0x81 [kind])) u = .next (misoZeros .a 3 (issue .supervisor u)) := by
  have taken : takeWrites .a [(0x81, kind)] u = issue .supervisor { u with sreqKind := kind } := rfl
  rw [exec_frame_takes takes, misoZeros_eq]
  refine congrArg Host.Outcome.next ((takeWrites_setMiso _ _ u .a).trans ?_)
  show setMiso .a _ (takeWrites .a [(0x81, kind)] u) = _
  subst stored
  rw [taken]
  rfl

/-- A frame stays in its half of the window. -/
theorem frameAddress_half (a : Byte) (i : Nat) : frameAddress a i &&& 0x80 = a &&& 0x80 := by
  unfold frameAddress
  generalize a + BitVec.ofNat 8 i = c
  have half : a &&& 0x80 = 0 ∨ a &&& 0x80 = 0x80 := by revert a; decide +kernel
  rcases half with h | h <;>
  · rw [h]
    revert c
    decide +kernel

theorem lastWritten_address {b : Byte} (h : lastWritten start data a = some b) : ∃ i, frameAddress start i = a := by
  obtain ⟨i, found, -⟩ := Option.map_eq_some_iff.1 h
  exact ⟨i, by simpa using List.find?_some found⟩

/-- No frame writes the kind registers of both pages. -/
theorem lastWritten_onePage (h : lastWritten start data 0x81 = some kind) : lastWritten start data 0x04 = none := by
  obtain ⟨i, there⟩ := lastWritten_address h
  by_contra some'
  obtain ⟨b, here⟩ := Option.ne_none_iff_exists'.1 some'
  obtain ⟨j, here⟩ := lastWritten_address here
  have := (frameAddress_half start i).trans (frameAddress_half start j).symm
  rw [there, here] at this
  exact absurd this (by decide)

theorem StoresBytes.reqKind (h : StoresBytes s u x w) (written : w 0x04 = some kind) :
    (u.port x).reqKind = kind := by
  obtain ⟨-, -, port, -⟩ := h
  rw [port]
  show (w 0x04).getD _ = _
  rw [written]
  rfl

theorem StoresBytes.sreqKind (h : StoresBytes s u .a w) (written : w 0x81 = some kind) : u.sreqKind = kind := by
  obtain ⟨-, -, -, -, -, supervisor⟩ := h
  rw [(supervisor rfl).2.1, written]
  rfl

/-- A write frame of any layout. -/
theorem storesFrame (takes : portTakes s x = true) (start : Byte) (data : List Byte) :
    ∃ u t, StoresFrame s u x start data ∧
      exec (.registerWrite x (.frame start data)) s = .next t ∧
      (lastWritten start data 0x04 = none → (x = .a → lastWritten start data 0x81 = none) →
        SameButMiso u t x (data.length + 2)) ∧
      (∀ kind, lastWritten start data 0x04 = some kind →
        ∃ v, exec (.registerWrite x (.frame 0x04 [kind])) u = .next v ∧ SameButMiso v t x (data.length + 2)) ∧
      ∀ kind, x = .a → lastWritten start data 0x81 = some kind →
        ∃ v, exec (.registerWrite x (.frame 0x81 [kind])) u = .next v ∧
          SameButMiso v t x (data.length + 2) := by
  obtain ⟨u, stores, taken⟩ := takeWrites_spec start data (data.length + 2) s x
  refine ⟨u, _, stores, (exec_frame_takes takes start data).trans (congrArg _ taken), fun client supervisor => ?_,
    fun kind written => ?_, fun kind isA written => ?_⟩
  · rw [client, if_neg (by decide), if_neg]
    · exact misoZeros_same x _ u
    · rintro ⟨isA, some'⟩
      rw [supervisor isA] at some'
      cases some'
  · rw [written, if_pos (Option.isSome_some)]
    exact ⟨_, kindFrame_client (stores.takes takes) (stores.reqKind written), misoZeros_again x _ _ _⟩
  · subst isA
    rw [lastWritten_onePage written, if_neg (by decide), if_pos ⟨rfl, by rw [written]; rfl⟩]
    exact ⟨_, kindFrame_supervisor (stores.takes takes) (StoresBytes.sreqKind stores written),
      misoZeros_again .a _ _ _⟩

/-! ### Frames in pieces (R177) -/

theorem shiftByte_writes (frame : (s.port x).frame = some f) (live : f.ignored = false) (write : f.isRead = false)
    (v : Byte) : shiftByte x s v = s.withPort x fun p => { p with
      frame := some { f with address := nextAddress f.address, buffer := f.buffer ++ [(f.address, v)] }
      miso := p.miso ++ [0] } := by
  unfold shiftByte
  rw [frame]
  dsimp only
  rw [if_neg (by rw [live]; decide), if_neg (by rw [write]; decide)]

theorem buffersNextByte (frame : (s.port x).frame = some f) (live : f.ignored = false) (write : f.isRead = false) :
    BuffersNextByte s x f := by
  refine fun v => ⟨_, (exec_nextByte v s).trans (congrArg _ (shiftByte_writes frame live write v)),
    withPort_frame x _ s, fun y hy => State.withPort_port_ne _ _ hy, ?_⟩
  rw [State.withPort_port_self, frameAddress_next]

/-- The data bytes of a write frame one by one. -/
theorem executes_writes (x : Client) (data : List Byte) (t : State) :
    Executes (data.map fun v => .registerWrite x (.next v)) t (data.foldl (shiftByte x) t) := by
  induction data generalizing t with
  | nil => exact rfl
  | cons v vs ih => exact ⟨_, exec_nextByte v t, ih _⟩

theorem writePieces (takes : portTakes s x = true) (start : Byte) :
    ∃ t, exec (.registerWrite x (.begin true 0x80 start)) s = .next t ∧ SameExcept [.ports] s t ∧
      OtherPorts x s t ∧
      t.port x = { s.port x with
        frame := some ⟨false, false, start, [], [], .untaken, false⟩, miso := [0, 0] } ∧
      ∀ data : List Byte, ∃ u, Executes (data.map fun v => .registerWrite x (.next v)) t u ∧
        exec (.registerWrite x (.finish true)) u = exec (.registerWrite x (.frame start data)) s := by
  obtain ⟨frame, others, port⟩ := beginFrame_takes takes 0x80 start (.inr rfl)
  obtain ⟨-, -, free⟩ := (portTakes_iff s x).1 takes
  refine ⟨_, rfl, frame, others, port, fun data => ⟨_, executes_writes x data _, ?_⟩⟩
  rw [exec_finishWrite, exec_writeFrame]
  unfold wholeFrame
  rw [if_neg (by rw [free]; decide)]

/-! ### The rise of CS (R177, R178) -/

/-- The state with CS high at a port. -/
def closed (s : State) (x : Client) : State := s.withPort x fun p => { p with frame := none }

theorem closed_frame (s : State) (x : Client) : SameExcept [.ports] s (closed s x) := withPort_frame x _ s

theorem closed_others (s : State) (x : Client) : OtherPorts x s (closed s x) :=
  fun _ hy => State.withPort_port_ne _ _ hy

theorem closed_port (s : State) (x : Client) : (closed s x).port x = { s.port x with frame := none } :=
  State.withPort_port_self _ _ _

theorem cutsWrite (frame : (s.port x).frame = some f) (write : f.isRead = false) : CutsWrite s x := by
  refine ⟨closed s x, (exec_finishWrite false s).trans (congrArg _ ?_), closed_frame s x, closed_others s x,
    closed_port s x⟩
  unfold finishFrame
  rw [frame]
  dsimp only
  split
  · rfl
  · rw [if_neg (by rw [write]; decide), if_neg (by decide)]
    rfl

/-- The end of a write frame in progress: its buffer is stored in the state then standing, and the request of the
kind it wrote is issued. -/
theorem finishWrite (frame : (s.port x).frame = some f) (live : f.ignored = false) (write : f.isRead = false) :
    ∃ u t, StoresBytes (closed s x) u x (lastBuffered f.buffer) ∧
      exec (.registerWrite x (.finish true)) s = .next t ∧ (t.port x).miso = (s.port x).miso ∧
      t = if (lastBuffered f.buffer 0x04).isSome then issue (.client x) u
        else if x = .a ∧ (lastBuffered f.buffer 0x81).isSome then issue .supervisor u else u := by
  obtain ⟨u, stores, taken⟩ := takeWrites_buffer f.buffer (closed s x) x
  have run : exec (.registerWrite x (.finish true)) s = .next (takeWrites x f.buffer (closed s x)) :=
    (exec_finishWrite true s).trans (congrArg _ (finishFrame_write frame live write))
  exact ⟨u, _, stores, run, by rw [takeWrites_miso, closed_port], taken⟩

theorem portTakes_closed (high : s.resetLow = false) (up : (s.port x).crstLow = false) :
    portTakes (closed s x) x = true := by
  rw [portTakes_iff, (closed_frame s x).resetLow, closed_port]
  exact ⟨high, up, rfl⟩

theorem endsWrite (frame : (s.port x).frame = some f) (live : f.ignored = false) (write : f.isRead = false) :
    EndsWrite s x f := by
  obtain ⟨u, t, stores, run, miso, taken⟩ := finishWrite frame live write
  refine ⟨closed s x, u, t, closed_frame s x, closed_others s x, closed_port s x, stores, run, miso,
    fun client supervisor => ?_, fun high up => ?_⟩
  · rw [taken, client, if_neg (by decide), if_neg]
    rintro ⟨isA, some'⟩
    rw [supervisor isA] at some'
    cases some'
  · have takes := stores.takes (portTakes_closed high up)
    refine ⟨fun kind written => ?_, fun kind isA client written => ?_⟩
    · rw [written, if_pos (Option.isSome_some)] at taken
      exact ⟨_, kindFrame_client takes (stores.reqKind written), taken ▸ misoZeros_same x 3 _⟩
    · subst isA
      rw [client, if_neg (by decide), if_pos ⟨rfl, by rw [written]; rfl⟩] at taken
      exact ⟨_, kindFrame_supervisor takes (stores.sreqKind written), taken ▸ misoZeros_same .a 3 _⟩

/-! ### A DETACH in between (R171) -/

theorem StoresBytes.own (h : StoresBytes s u x w) (other : x ≠ .a) : SameExcept [.ports] s u := by
  obtain ⟨f, -, -, -, page, -⟩ := h
  obtain ⟨groupSel, kind, params⟩ := page other
  intro p hp
  cases p with
  | groupSel => exact groupSel
  | sreq => exact ⟨kind, params⟩
  | ports => exact absurd (by decide) hp
  | _ => exact f _ (by decide)

theorem StoresBytes.irqSel {sel : Byte} (h : StoresBytes s u x w) (written : w 0x1F = some sel) :
    (u.port x).irqSel = sel.setWidth 6 := by
  obtain ⟨-, -, port, -⟩ := h
  rw [port]
  show (w 0x1F).elim _ _ = _
  rw [written]
  rfl

/-- A COMMIT of groups that its client does not hold. -/
theorem issue_commit_notHolder (stored : (u.port x).reqKind = 0x07) (some' : (u.port x).reqParam.get 0 ≠ 0)
    (no : ∀ g, u.holder g ≠ some x) : Answers (issue (.client x) u) x .notHolder 0x07 0 ∧
      SameExcept [.ports, .queues] u (issue (.client x) u) ∧
      ((issue (.client x) u).port x).irqSel = (u.port x).irqSel := by
  have named : ∃ g : Group, ((u.port x).reqParam.get 0).getLsbD g.val = true := by
    by_contra none
    push Not at none
    refine some' ((groupsOf_nil _).1 (List.eq_nil_iff_forall_not_mem.2 fun g member => ?_))
    exact none g ((mem_groupsOf _ g).1 member)
  obtain ⟨g, hg⟩ := named
  have request : takeRequest (.client x) 0x07 u = refuse .notHolder u :=
    commitRequest_notHolder some' ⟨g, hg, no g⟩
  have issued : issue (.client x) u = answer x 0x07 (refuse .notHolder u) := by
    unfold issue
    dsimp only
    rw [stored, request]
    rfl
  rw [issued]
  have reports := reportRefusal_frame x 0x07 { code := .notHolder } u
  refine ⟨?_, (answer_frame x 0x07 (refuse .notHolder u)).mono, ?_⟩
  · unfold Answers answer writeResult
    rw [State.withPort_port_self]
    exact ⟨rfl, rfl, rfl⟩
  · unfold answer writeResult
    rw [State.withPort_port_self]
    exact congrArg (fun ports => (PerClient.get ports x).irqSel) reports.ports

/-- A DETACH of a client other than A leaves it no group. -/
theorem detach_noHolder {b : Byte} (law : LeaseLaw s) (takes : portTakes s .a = true) (hb : b.toNat = clientNumber x)
    (up : (s.port x).crstLow = false) :
    ∃ t, exec (.detach .supervisor b) s = .next t ∧ ∀ g, t.holder g ≠ some x := by
  refine ⟨_, exec_detach_resets takes hb up, fun g => ?_⟩
  have stored := prepared_stored .supervisor 0x29 [b] s
  obtain ⟨none, -⟩ := clientResetTransaction_spec x _ (law.stored stored.frame)
  rw [(answeredDone_frame _ _ _).holder]
  exact (none g).1

theorem detachSparesWrite (frame : (s.port x).frame = some f) (live : f.ignored = false) (write : f.isRead = false) :
    DetachSparesWrite s x f := by
  intro b takes hb up
  have other := framed_ne_a takes frame
  obtain ⟨t, run, port⟩ := detach_port takes hb up other
  have running : (t.port x).frame = some { f with entry := f.entry.afterEmptying } := by
    rw [port, clientReset_frame frame]
  obtain ⟨u, r, stores, ended, -, taken⟩ := finishWrite running live write
  dsimp only at stores taken
  have isReset : (t.port x).reqParam.get 0 = 0 := by rw [port]; rfl
  refine ⟨t, f.entry.afterEmptying, r, run, ?_, ended, fun client sel written => ?_, fun law commit groups => ?_⟩
  · rw [port]
    unfold Port.clientReset
    rw [frame, up]
    cases x <;> rfl
  · rw [taken, client, if_neg (by decide), if_neg fun c => other c.1]
    exact stores.irqSel written
  · rw [commit, if_pos (Option.isSome_some)] at taken
    obtain ⟨t', run', none⟩ := detach_noHolder law takes hb up
    obtain rfl : t = t' := by
      rw [run] at run'
      cases run'
      rfl
    have own : SameExcept [.ports] t u := (closed_frame t x).trans (stores.own other)
    have param : (u.port x).reqParam.get 0 = (lastBuffered f.buffer 0x05).getD 0 := by
      obtain ⟨-, -, -, params, -⟩ := stores
      rw [params 0, closed_port]
      show (lastBuffered f.buffer 0x05).getD ((t.port x).reqParam.get 0) = _
      rw [isReset]
    obtain ⟨answers, frame, irqSel⟩ := issue_commit_notHolder (stores.reqKind commit) (by rw [param]; exact groups)
      fun g => by rw [own.holder]; exact none g
    rw [taken]
    exact ⟨answers, own.mono.trans frame, fun sel written => irqSel.trans (stores.irqSel written)⟩

theorem writesInPieces (s : State) (x : Client) : WritesInPieces s x :=
  ⟨fun takes => writePieces takes, fun _ frame write => ⟨cutsWrite frame write, fun live =>
    ⟨buffersNextByte frame live write, endsWrite frame live write, detachSparesWrite frame live write⟩⟩⟩

/-! ### When MISO is driven (R175) -/

theorem misoCondition_free (free : (s.port x).frame = none) : misoCondition s x = .released := by
  unfold misoCondition
  rw [free]
  rfl

/-- CS falls on a port, whatever the frame is. -/
theorem begins_driven (free : (s.port x).frame = none) (spaced : Bool) (access start : Byte) :
    ∃ t, exec (.registerWrite x (.begin spaced access start)) s = .next t ∧ SameExcept [.ports] s t ∧
      OtherPorts x s t ∧ misoCondition t x = .driven [0, 0] := by
  have falls : ∃ g : Port → Port, beginFrame x spaced access start s = s.withPort x g ∧
      (g (s.port x)).frame.isSome = true ∧ (g (s.port x)).miso = [0, 0] := by
    unfold beginFrame
    rw [if_neg (by rw [free]; decide)]
    exact ⟨_, rfl, rfl, rfl⟩
  obtain ⟨g, e, some', miso⟩ := falls
  refine ⟨_, congrArg Host.Outcome.next e, withPort_frame x g s, fun y hy => State.withPort_port_ne _ _ hy, ?_⟩
  unfold misoCondition
  rw [State.withPort_port_self, if_pos some', miso]

theorem runts (free : (s.port x).frame = none) (n : Fin 2) :
    ∃ t, exec (.registerWrite x (.runt n)) s = .next t ∧ SameExcept [.ports] s t ∧ OtherPorts x s t ∧
      t.port x = { s.port x with miso := List.replicate n.val 0 } := by
  have run : exec (.registerWrite x (.runt n)) s =
      .next (if (s.port x).frame.isSome then s else misoZeros x n.val s) := rfl
  rw [if_neg (by rw [free]; decide)] at run
  exact ⟨_, run, misoZeros_same x n.val s⟩

end Sys2Proof.Machine

namespace Sys2Proof.Proofs

open Sys2Proof.Machine

/-- Settles O16: register by register, frames of several bytes, frames in pieces, and MISO. -/
theorem registerWrites : Obligations.RegisterWrites := by
  refine ⟨fun s x v takes => ⟨storesOwn (a := 0x20) takes (by decide) (fun _ => by decide) rfl,
      storesOwn (a := 0x3D) takes (by decide) (fun _ => by decide) rfl,
      storesOwn (a := 0x43) takes (by decide) (fun _ => by decide) rfl, storesGroupSel takes v, fun i => ⟨storesParam takes i v, ?_⟩⟩,
    fun s x a v takes h => ?_, fun s x a v vs takes => storesInTurn takes,
    fun s x start data takes => storesFrame takes start data, writesInPieces,
    fun s x => ⟨fun free => ⟨misoCondition_free free, runts free, begins_driven free⟩,
      fun whole => ⟨_, exec_finishWrite whole s, misoCondition_free (finishFrame_free x whole s)⟩⟩⟩
  · rintro rfl
    exact storesSupervisorParam takes i v
  · have page : x = .a → a.toNat < 0x80 ∨ 0x92 ≤ a.toNat := by
      rintro rfl
      simp only [ne_eq, not_true_eq_false, false_or] at h
      omega
    refine storesNone takes (writeRegister_discards (by omega) page s v) (by rintro rfl; revert h; simp) ?_
    rintro isA rfl
    exact absurd (page isA) (by decide)

end Sys2Proof.Proofs
end

section
/-! PROOF. The interrupt selection: its reset values, its writes, and that it decides no append (R158). -/

set_option Elab.async false

namespace Sys2Proof.Machine

variable {s t : State} {x y : Client} {b v : Byte}

theorem reset_irqSel (x : Client) : (State.reset.port x).irqSel = 0x3F := by cases x <;> rfl

/-- Every client reset leaves its client's selection all enabled. -/
theorem clientReset_irqSel (x : Client) (s : State) :
    ((clientResetTransaction x s).port x).irqSel = 0x3F := by
  rw [clientReset_port]
  rfl

/-- The result of a request is no part of the selection. -/
theorem answeredDone_irqSel (y : Client) (kind : Byte) (t : State) (x : Client) :
    ((answeredDone y kind t).port x).irqSel = (t.port x).irqSel := by
  by_cases same : x = y
  · subst same
    rw [answeredDone_port]
  · rw [answeredDone_other y kind t x same]

/-- A device reset and its release leave every selection all enabled. -/
theorem deviceReset_irqSel (pads : BitVec 32) (high : s.resetLow = false) :
    ∃ t u, exec (.deviceReset true) s = .next t ∧ exec (.deviceResetRelease pads) t = .next u ∧
      ∀ x, (t.port x).irqSel = 0x3F ∧ (u.port x).irqSel = 0x3F := by
  have selection (x : Client) : ((deviceResetState s).port x).irqSel = 0x3F := by
    rw [deviceResetState_port]
    exact reset_irqSel x
  exact ⟨_, _, exec_deviceReset s high, exec_deviceResetRelease pads _ rfl, fun x => ⟨selection x, selection x⟩⟩

theorem exec_irqSelWrite (x : Client) (v : Byte) (s : State) : exec (.irqSelWrite x v) s =
    .next (if (s.port x).frame.isSome then s
      else if portTakes s x then (misoZeros x 3 s).withPort x fun p => { p with irqSel := v.setWidth 6 }
      else misoZeros x 3 s) := rfl

theorem irqSelWrite_stores (takes : portTakes s x = true) (v : Byte) :
    ∃ t, exec (.irqSelWrite x v) s = .next t ∧ SameExcept [.ports] s t ∧ OtherPorts x s t ∧
      t.port x = { s.port x with irqSel := v.setWidth 6, miso := [0, 0, 0] } := by
  obtain ⟨-, -, free⟩ := (portTakes_iff s x).1 takes
  have run := exec_irqSelWrite x v s
  rw [if_neg (by rw [free]; decide), if_pos takes] at run
  obtain ⟨frame, others, port⟩ := misoZeros_same x 3 s
  refine ⟨_, run, frame.trans (withPort_frame x _ _),
    fun y hy => (State.withPort_port_ne _ _ hy).trans (others y hy), ?_⟩
  rw [State.withPort_port_self, port]
  rfl

/-- IRQ_SEL written in pieces: nothing is stored before the end of the frame. -/
theorem irqSelPieces (takes : portTakes s x = true) (v : Byte) :
    ∃ t u r, exec (.registerWrite x (.begin true 0x80 0x1F)) s = .next t ∧
      exec (.registerWrite x (.next v)) t = .next u ∧
      exec (.registerWrite x (.finish true)) u = .next r ∧
      (t.port x).irqSel = (s.port x).irqSel ∧ (u.port x).irqSel = (s.port x).irqSel ∧
      (r.port x).irqSel = v.setWidth 6 := by
  obtain ⟨t, begun, -, -, begins, -⟩ := writePieces takes 0x1F
  have started : (t.port x).frame = some ⟨false, false, 0x1F, [], [], .untaken, false⟩ := by rw [begins]
  obtain ⟨u, next, -, -, held⟩ := buffersNextByte started rfl rfl v
  have running : (u.port x).frame = some ⟨false, false, frameAddress 0x1F 1, [(0x1F, v)], [], .untaken, false⟩ := by
    rw [held]
    rfl
  obtain ⟨w, r, stores, ended, -, taken⟩ := finishWrite running rfl rfl
  refine ⟨t, u, r, begun, next, ended, by rw [begins], by rw [held, begins], ?_⟩
  have client : lastBuffered [((0x1F : Byte), v)] 0x04 = none := rfl
  have supervisor : lastBuffered [((0x1F : Byte), v)] 0x81 = none := rfl
  dsimp only at taken
  rw [client, supervisor, if_neg (by decide), if_neg fun c => absurd c.2 (by decide)] at taken
  rw [taken]
  exact stores.irqSel rfl

/-- What is appended, and to which queue, does not depend on the selections. -/
theorem append_irqSel (y : Client) (e : Event) (x : Client) (sel : BitVec 6) (s : State) :
    (append y e (s.withPort x fun p => { p with irqSel := sel })).queues = (append y e s).queues := by
  have pin : ((s.withPort x fun p => { p with irqSel := sel }).port y).crstLow = (s.port y).crstLow := by
    by_cases same : y = x
    · subst same
      rw [State.withPort_port_self]
    · rw [State.withPort_port_ne _ _ same]
  unfold append
  rw [pin]
  split
  · rfl
  · rfl

end Sys2Proof.Machine

namespace Sys2Proof.Proofs

open Sys2Proof.Machine

/-- Settles O14: the reset values, the writes, and the appends. -/
theorem interruptSelection : Obligations.InterruptSelection := by
  refine ⟨reset_irqSel, fun s pads high => deviceReset_irqSel pads high,
    fun s x high up => ⟨_, exec_clientReset high up, clientReset_irqSel x _⟩,
    fun s x takes => ⟨_, exec_detachSelf takes, ?_⟩,
    fun s x b takes hb up => ⟨_, exec_detach_resets takes hb up, ?_⟩,
    fun s x v takes => irqSelWrite_stores takes v, fun s x v takes => irqSelPieces takes v,
    fun s x y sel e => append_irqSel y e x sel s⟩
  · rw [answeredDone_irqSel, clientReset_irqSel]
  · rw [answeredDone_irqSel, clientReset_irqSel]

end Sys2Proof.Proofs
end

section
/-! PROOF. The interrupt output of a client that no reset holds: the entries that assert it, and a full queue
(R158 to R160). -/

set_option Elab.async false

namespace Sys2Proof.Machine

variable {s : State} {x : Client}

/-- Outside a reset the output is asserted exactly while an OVERFLOW entry, or an entry whose class is enabled, is
queued (R159). -/
theorem irqAsserted_iff (high : s.resetLow = false) (up : (s.port x).crstLow = false) :
    irqAsserted s x = true ↔
      ∃ e ∈ s.queues.get x, e.event = .overflow ∨ (s.port x).irqSel.getLsbD (irqBit e.event) = true := by
  unfold State.port at up ⊢
  unfold irqAsserted
  rw [high, up]
  simp [Event.counts_eq_bit]

/-- A full queue holds an OVERFLOW entry, its last (R160). -/
theorem QueueLaw.overflow_mem (law : QueueLaw s) (full : (s.queues.get x).length = 32) :
    ∃ e ∈ s.queues.get x, e.event = .overflow := by
  obtain ⟨e, last, overflow⟩ := Option.map_eq_some_iff.1 ((law x).2 full)
  exact ⟨e, List.mem_of_getLast? last, overflow⟩

/-- With every class disabled only an OVERFLOW entry asserts the output (R158, R159). -/
theorem irqAsserted_iff_overflow (high : s.resetLow = false) (up : (s.port x).crstLow = false)
    (off : (s.port x).irqSel = 0) :
    irqAsserted s x = true ↔ ∃ e ∈ s.queues.get x, e.event = .overflow := by
  rw [irqAsserted_iff high up, off]
  simp

end Sys2Proof.Machine

namespace Sys2Proof.Proofs

open Sys2Proof.Machine

/-- Settles O18: the queue law act by act, and the output read off the queue. -/
theorem overflowInterrupt : Obligations.OverflowInterrupt := by
  refine ⟨fun s t law run => step_keeps QueueLaw Act.queueLaw Beyonds.queueLaw run law,
    fun s x law high up => ⟨fun full => ?_, irqAsserted_iff high up, irqAsserted_iff_overflow high up⟩⟩
  obtain ⟨e, queued, overflow⟩ := law.overflow_mem full
  exact (irqAsserted_iff high up).2 ⟨e, queued, .inl overflow⟩

end Sys2Proof.Proofs
end
